-- ==== Sys2Proof/Word.lean ====
section
/-! DEFINITION. The word types of the FM-3 (02 R35): bytes, 16-, 32- and 64-bit values, and the mask of the 32 lanes of a group. -/
namespace Sys2Proof

abbrev Byte := BitVec 8
abbrev Half := BitVec 16
abbrev Word := BitVec 32
abbrev DWord := BitVec 64
/-- Bit l stands for lane l of a group (R9, R152). -/
abbrev Lanes := BitVec 32

end Sys2Proof
end

