-- ==== Sys2Proof/Syntax.lean ====
section
/-! DEFINITION. The abstract syntax of Damain 3.0: register names and modifiers (09), one structure for each operand layout
(R154, R155, R159), and Instr, whose constructors are the rows of spec/opcode_table.json. -/
namespace Sys2Proof

/-- Scopes, narrowest first (R6). -/
inductive Scope where
  | grp | core | quad | die | pkg | pod | sys
  deriving DecidableEq, Repr

/-- Access widths (R154, R198). -/
inductive Width where
  | w8 | w16 | w32 | w64 | w128
  deriving DecidableEq, Repr

/-- Coherence policies (R57). -/
inductive Policy where
  | own | wt | si | wi
  deriving DecidableEq, Repr

/-- Rounding selectors of MOD 2:0 (R132); dyn takes FPCTL.RM. -/
inductive RmSel where
  | dyn | rne | rz | ru | rd
  deriving DecidableEq, Repr

/-- The special register codes 228 to 241 (R152). -/
inductive Special where
  | zero | lane | grp | wgid | gridid | core | die | ngrp | wglast | level | ltmask | exec | clk | vfn
  deriving DecidableEq, Repr

/-- A register field (R151). -/
inductive Reg where
  | v (n : Fin 192)
  | s (n : Fin 32)
  | l (n : Fin 4)
  | sp (x : Special)
  deriving DecidableEq, Repr

/-- The common fields of the full and extended formats (R150): C, DIST, WAIT, SETF, PRED, PNEG, WBS. -/
structure Hdr where
  c : Bool
  dist : BitVec 4
  wait : BitVec 12
  setf : BitVec 4
  pred : BitVec 3
  pneg : Bool
  wbs : Bool
  deriving DecidableEq, Repr

/-- MOD of the integer class (R168): bit 0 .64, bit 1 .U (.S for BFX), bit 2 .SAT. -/
structure IntMod where
  w64 : Bool
  us : Bool
  sat : Bool
  deriving DecidableEq, Repr

/-- Conditions of ICMP (R171). -/
inductive ICond where
  | eq | ne | lt | le | gt | ge | ltu | leu | gtu | geu | eq64 | ne64 | lt64 | ge64 | ltu64 | geu64
  deriving DecidableEq, Repr

/-- Conditions of FCMP (R176). -/
inductive FCond where
  | eq | ne | lt | le | gt | ge | un | or
  deriving DecidableEq, Repr

/-- Conversions of FCVT (R182). -/
inductive FConv where
  | toF16 | toBf16 | toE4m3 | toE5m2 | ofF16 | ofBf16 | ofE4m3 | ofE5m2
  deriving DecidableEq, Repr

/-- Modes of SHFL (R186). -/
inductive ShflMode where
  | idx | up | dn | xor
  deriving DecidableEq, Repr

/-- Modes of VOTE (R187). -/
inductive VoteMode where
  | ballot | any | all | uni
  deriving DecidableEq, Repr

/-- Operations of REDG and SCANG (R188). -/
inductive RedOp where
  | addI32 | addF32 | addF32Rne | addI64 | minS32 | maxS32 | minU32 | maxU32 | minF32 | maxF32 | and | or | xor
  deriving DecidableEq, Repr

/-- System registers (R190). -/
inductive SysReg where
  | fpctl | fpstat | faircnt | tcause | taddr | tpc | tlanes | tparent | tsibs | trapbase | dutysel
  | retcnt (n : Fin 8) | d (n : Fin 8) | cways | pumpst | wptr (n : Fin 4)
  deriving DecidableEq, Repr

/-- Kinds of FENCE (R210). -/
inductive FenceKind where
  | rel | acq | ar
  deriving DecidableEq, Repr

/-- Atomic operations (R214). -/
inductive AtomOp where
  | add | fadd | bfadd | min | max | fmin | fmax | and | or | xor | xchg | hgath
  deriving DecidableEq, Repr

/-- Element types of a tile (R231). -/
inductive TileTy where
  | bf16 | fp16 | e4m3 | e5m2 | q4x | metaTy
  deriving DecidableEq, Repr

/-- Sparsity patterns of TMMS (R94, R239). -/
inductive Pat where
  | p24 | p14 | p28 | p48
  deriving DecidableEq, Repr

/-- A unit code of the tile file (R230). -/
inductive TUnit where
  | tile (n : Fin 8)
  | acc (n : Fin 4)
  deriving DecidableEq, Repr

/-- The 6-bit pair opcodes (R158). -/
inductive PairOp where
  | nop | iadd | isub | imul | imin | imax | and | or | xor | andn | shl | shr | sar
  | fadd | fsub | fmul | fmin | fmax | hadd2 | hmul2 | badd2 | bmul2 | mov | f2i | i2f
  deriving DecidableEq, Repr

/-- Scopes of the collectives (R269). -/
inductive CollScope where
  | die | pkg | pod
  deriving DecidableEq, Repr

/-- Collective operations (R269). -/
inductive CollOp where
  | allred | redsc | allga | alltoall
  deriving DecidableEq, Repr

/-- Collective data types (R270). -/
inductive CollTy where
  | i32 | i64 | f32 | bf16 | xsum | b8 | b16 | b32 | b64 | b128
  deriving DecidableEq, Repr

/-- Scopes of TLBINV and ICINV (R278). -/
inductive InvScope where
  | core | die | pkg
  deriving DecidableEq, Repr

/-- Matrix operations a CPYM can carry (R255). -/
inductive MatOp where
  | tmma | tmms | tmmq
  deriving DecidableEq, Repr

structure IntR where
  (h : Hdr) (m : IntMod) (d a b : Reg)
  deriving DecidableEq, Repr
structure IntX where
  (h : Hdr) (m : IntMod) (d a : Reg) (imm : Word)
  deriving DecidableEq, Repr
structure IntU where
  (h : Hdr) (m : IntMod) (d a : Reg)
  deriving DecidableEq, Repr
structure LeaF where
  (h : Hdr) (sx : Bool) (sh : BitVec 3) (d a b : Reg)
  deriving DecidableEq, Repr
structure IcmpF where
  (h : Hdr) (cond : ICond) (p : BitVec 3) (a b : Reg)
  deriving DecidableEq, Repr
structure IcmpX where
  (h : Hdr) (cond : ICond) (p : BitVec 3) (a : Reg) (imm : Word)
  deriving DecidableEq, Repr
structure SelF where
  (h : Hdr) (w64 : Bool) (p : BitVec 3) (d a b : Reg)
  deriving DecidableEq, Repr
structure MoviF where
  (h : Hdr) (w64 : Bool) (d : Reg) (imm : BitVec 16)
  deriving DecidableEq, Repr
structure MoviX where
  (h : Hdr) (w64 : Bool) (d : Reg) (imm : Word)
  deriving DecidableEq, Repr
structure FpR where
  (h : Hdr) (rm : RmSel) (d a b : Reg)
  deriving DecidableEq, Repr
structure FpX where
  (h : Hdr) (rm : RmSel) (d a : Reg) (imm : Word)
  deriving DecidableEq, Repr
structure FpM where
  (h : Hdr) (d a b : Reg)
  deriving DecidableEq, Repr
structure FpU where
  (h : Hdr) (rm : RmSel) (d a : Reg)
  deriving DecidableEq, Repr
structure FpV where
  (h : Hdr) (d a : Reg)
  deriving DecidableEq, Repr
structure FcmpF where
  (h : Hdr) (cond : FCond) (p : BitVec 3) (a b : Reg)
  deriving DecidableEq, Repr
structure MovF where
  (h : Hdr) (w64 : Bool) (d a : Reg)
  deriving DecidableEq, Repr
structure FcvtF where
  (h : Hdr) (rm : RmSel) (nsat : Bool) (conv : FConv) (d a : Reg)
  deriving DecidableEq, Repr
structure ShflF where
  (h : Hdr) (w64 : Bool) (mode : ShflMode) (d a b : Reg)
  deriving DecidableEq, Repr
structure VoteF where
  (h : Hdr) (mode : VoteMode) (d a : Reg)
  deriving DecidableEq, Repr
structure RedF where
  (h : Hdr) (op : RedOp) (d a b : Reg)
  deriving DecidableEq, Repr
structure RdsrF where
  (h : Hdr) (d : Reg) (sr : SysReg)
  deriving DecidableEq, Repr
structure WrsrF where
  (h : Hdr) (sr : SysReg) (a : Reg)
  deriving DecidableEq, Repr
structure MovtsF where
  (h : Hdr) (t : Fin 8) (a : Reg)
  deriving DecidableEq, Repr
/-- A word with no operand fields. -/
structure Plain where
  (h : Hdr)
  deriving DecidableEq, Repr
structure BraF where
  (h : Hdr) (off : BitVec 24)
  deriving DecidableEq, Repr
structure BraX where
  (h : Hdr) (off : Word)
  deriving DecidableEq, Repr
structure CallX where
  (h : Hdr) (d : Reg) (off : Word)
  deriving DecidableEq, Repr
/-- A word with one source register, in SA. -/
structure JumpF where
  (h : Hdr) (a : Reg)
  deriving DecidableEq, Repr
structure CallxF where
  (h : Hdr) (d a : Reg)
  deriving DecidableEq, Repr
/-- A word with one destination register. -/
structure DestF where
  (h : Hdr) (d : Reg)
  deriving DecidableEq, Repr
structure PolMem where
  (h : Hdr) (pol : Policy) (hint : BitVec 2) (data addr : Reg) (scope : Scope) (off : BitVec 5)
  deriving DecidableEq, Repr
structure PolMemX where
  (h : Hdr) (pol : Policy) (hint : BitVec 2) (data addr : Reg) (scope : Scope) (off : Word)
  deriving DecidableEq, Repr
structure CistMem where
  (h : Hdr) (w : Width) (data base : Reg) (off : BitVec 8)
  deriving DecidableEq, Repr
structure CistMemX where
  (h : Hdr) (w : Width) (data base : Reg) (off : Word)
  deriving DecidableEq, Repr
structure LexMem where
  (h : Hdr) (pol : Policy) (hint : BitVec 2) (w : Width) (scope : Scope) (level : BitVec 3) (data idx : Reg) (off : Word)
  deriving DecidableEq, Repr
structure LdpF where
  (h : Hdr) (pol : Policy) (hint : BitVec 2) (addr : Reg) (scope : Scope) (off : BitVec 5)
  deriving DecidableEq, Repr
structure LdpX where
  (h : Hdr) (pol : Policy) (hint : BitVec 2) (addr : Reg) (scope : Scope) (off : Word)
  deriving DecidableEq, Repr
structure GathF where
  (h : Hdr) (pol : Policy) (hint : BitVec 2) (w : Width) (data addr : Reg) (scope : Scope)
  deriving DecidableEq, Repr
structure GathX where
  (h : Hdr) (pol : Policy) (hint : BitVec 2) (w : Width) (data addr : Reg) (scope : Scope) (off : Word)
  deriving DecidableEq, Repr
/-- The operands of CINV and CFLUSH (R208): .ALL, or a base and a length. -/
inductive RangeSel where
  | all
  | range (a n : Reg)
  deriving DecidableEq, Repr
structure RangeF where
  (h : Hdr) (sel : RangeSel)
  deriving DecidableEq, Repr
structure FenceF where
  (h : Hdr) (kind : FenceKind) (scope : Scope)
  deriving DecidableEq, Repr
structure FesetF where
  (h : Hdr) (toFull : Bool) (a n : Reg)
  deriving DecidableEq, Repr
structure AtomX where
  (h : Hdr) (pol : Policy) (hint : BitVec 2) (op : AtomOp) (w : Width) (scope : Scope) (data addr b : Reg) (off : Word)
  deriving DecidableEq, Repr
structure AtcasX where
  (h : Hdr) (pol : Policy) (hint : BitVec 2) (w : Width) (scope : Scope) (data addr b c : Reg) (off : Word)
  deriving DecidableEq, Repr
structure RedX where
  (h : Hdr) (pol : Policy) (hint : BitVec 2) (op : AtomOp) (w : Width) (scope : Scope) (addr b : Reg) (off : Word)
  deriving DecidableEq, Repr
structure LrX where
  (h : Hdr) (pol : Policy) (hint : BitVec 2) (w : Width) (scope : Scope) (data addr : Reg) (off : Word)
  deriving DecidableEq, Repr
structure ScX where
  (h : Hdr) (pol : Policy) (hint : BitVec 2) (w : Width) (scope : Scope) (data addr b : Reg) (off : Word)
  deriving DecidableEq, Repr
structure BariF where
  (h : Hdr) (b : Fin 16) (a : Reg)
  deriving DecidableEq, Repr
structure BariX where
  (h : Hdr) (b : Fin 16) (count : BitVec 8)
  deriving DecidableEq, Repr
structure BarF where
  (h : Hdr) (b : Fin 16)
  deriving DecidableEq, Repr
structure BartF where
  (h : Hdr) (b : Fin 16) (p : BitVec 3)
  deriving DecidableEq, Repr
structure SyncF where
  (h : Hdr) (scope : Scope)
  deriving DecidableEq, Repr
structure TldX where
  (h : Hdr) (pol : Policy) (hint : BitVec 2) (t : Fin 8) (ty : TileTy) (addr : Reg) (scope : Scope) (stride : BitVec 16) (off : Word)
  deriving DecidableEq, Repr
/-- What TST stores (R235): a tile under a type, or an accumulator. -/
inductive TstSrc where
  | tile (t : Fin 8) (ty : TileTy)
  | acc (n : Fin 4)
  deriving DecidableEq, Repr
structure TstX where
  (h : Hdr) (pol : Policy) (hint : BitVec 2) (src : TstSrc) (addr : Reg) (scope : Scope) (stride : BitVec 16) (off : Word)
  deriving DecidableEq, Repr
structure TzeroF where
  (h : Hdr) (u : TUnit)
  deriving DecidableEq, Repr
structure TmmX where
  (h : Hdr) (ac : Fin 4) (ta tb : Fin 8) (ty : TileTy) (kb : BitVec 8)
  deriving DecidableEq, Repr
structure TmmsX where
  (h : Hdr) (ac : Fin 4) (ta tb tm : Fin 8) (ty : TileTy) (pat : Pat) (kb : BitVec 8)
  deriving DecidableEq, Repr
structure TwaitF where
  (h : Hdr) (ac : Fin 4)
  deriving DecidableEq, Repr
structure TaccF where
  (h : Hdr) (data : Reg) (ac : Fin 4) (idx : Reg)
  deriving DecidableEq, Repr
structure TaccScl where
  (h : Hdr) (d : Reg) (t : Fin 8) (j : BitVec 6)
  deriving DecidableEq, Repr
structure TgemmX where
  (h : Hdr) (ty : TileTy) (ac : Fin 4) (ab c : Reg) (mt nt : BitVec 12) (ks : BitVec 16)
  deriving DecidableEq, Repr
/-- The channel of a copy (R250): number, scope, publication-word register. -/
structure Chan where
  (ch : Fin 4) (scope : Scope) (pub : Reg)
  deriving DecidableEq, Repr
structure CpyX where
  (h : Hdr) (b : Fin 16) (pol : Policy) (hint : BitVec 2) (dst src len : Reg) (chan : Option Chan) (td : Bool)
  deriving DecidableEq, Repr
/-- The matrix command of a CPYM (R255). -/
structure MatCmd where
  (mop : MatOp) (ty : TileTy) (ac : Fin 4) (ta tb tm : Fin 8) (pat : Pat) (kb : BitVec 8)
  deriving DecidableEq, Repr
structure CpymX where
  (h : Hdr) (b : Fin 16) (pol : Policy) (hint : BitVec 2) (dst src len : Reg) (td : Bool) (cmd : MatCmd)
  deriving DecidableEq, Repr
structure CpycvX where
  (h : Hdr) (b : Fin 16) (pol : Policy) (hint : BitVec 2) (dst src len : Reg) (chan : Option Chan) (nsat : Bool) (form : Word)
  deriving DecidableEq, Repr
structure CpylbX where
  (h : Hdr) (b : Fin 16) (pol : Policy) (hint : BitVec 2) (dst src len : Reg) (chan : Chan) (fresh : Bool) (rowb sstr : BitVec 16)
  deriving DecidableEq, Repr
structure FbopenX where
  (h : Hdr) (pol : Policy) (hint : BitVec 2) (q : Fin 16) (a b : Reg) (scope : Scope) (lev : BitVec 2)
  deriving DecidableEq, Repr
structure FbnextF where
  (h : Hdr) (c p : Reg) (pm : BitVec 3) (q : Fin 16)
  deriving DecidableEq, Repr
structure FbpairF where
  (h : Hdr) (d a b : Fin 16)
  deriving DecidableEq, Repr
structure FbskipF where
  (h : Hdr) (q : Fin 16) (k : Reg)
  deriving DecidableEq, Repr
structure FbstF where
  (h : Hdr) (pol : Policy) (hint : BitVec 2) (q : Fin 16) (addr : Reg) (scope : Scope) (off : BitVec 5)
  deriving DecidableEq, Repr
structure FbstX where
  (h : Hdr) (pol : Policy) (hint : BitVec 2) (q : Fin 16) (addr : Reg) (scope : Scope) (off : Word)
  deriving DecidableEq, Repr
structure CollX where
  (h : Hdr) (a : Reg) (scope : CollScope) (op : CollOp) (ty : CollTy) (id : BitVec 8)
  deriving DecidableEq, Repr
structure LaunchF where
  (h : Hdr) (d : Reg) (recd : Fin 4) (arg : Reg)
  deriving DecidableEq, Repr
structure TrapF where
  (h : Hdr) (code : BitVec 16)
  deriving DecidableEq, Repr
structure TlbPageF where
  (h : Hdr) (scope : InvScope) (a : Reg)
  deriving DecidableEq, Repr
structure TlbRangeF where
  (h : Hdr) (scope : InvScope) (a n : Reg)
  deriving DecidableEq, Repr
structure TlbVfF where
  (h : Hdr) (scope : InvScope)
  deriving DecidableEq, Repr
structure ReclaimF where
  (h : Hdr) (data addr : Reg)
  deriving DecidableEq, Repr
structure PwrhintF where
  (h : Hdr) (level : BitVec 2)
  deriving DecidableEq, Repr
/-- A Damain 2 cell (R335): its operand fields are kept and not read; ext says the word has the extended format. -/
structure D2F where
  (h : Hdr) (ext : Bool) (dst sa sb : BitVec 8) (mod : BitVec 4)
  deriving DecidableEq, Repr

/-- One slot of a pair (R155): operation, destination and first source, second source. -/
structure PairSlot where
  (op : PairOp) (d s : Reg)
  deriving DecidableEq, Repr
/-- A pair word (R155): the operands of slot 0, whose operation names the constructor of Instr, and slot 1. -/
structure PairW where
  (c : Bool) (dist : BitVec 4) (wait : BitVec 12) (hint : Bool) (d s : Reg) (other : PairSlot)
  deriving DecidableEq, Repr

/-- What fails in HOLDER_FAIL (R74): the L1 of a core, the agent of a die, or the host when the CXL link is lost. The other errors of R365 are told
the same way: an uncorrectable one that a read from a store finds (its hop), one in a cistern, an announcement that is injected again, and a corrected
one (its hop). -/
inductive FailedHolder where
  | l1 (core : Nat)
  | dieAgent (die : Nat)
  | hostLink
  | store (hop : Nat)
  | cistern (core : Nat)
  | standpipe
  | corrected (hop : Nat)
  deriving DecidableEq, Repr

/-- The operands of a happening that is no instruction word; each event's meaning names the fields it takes. -/
structure Args where
  id : Nat := 0
  num : Nat := 0
  pick : Option Nat := none
  v : DWord := 0
  on : Bool := false
  list : List Nat := []
  bytes : List Byte := []
  who : FailedHolder := .hostLink
  deriving DecidableEq, Repr

/-- The steps of the FM-3: one constructor for each row of spec/opcode_table.json, the instruction forms first, then the
happenings of the machine and of its host, whose operands stand in the state (State.args). -/
inductive Instr where
  | iadd (x : IntR)
  | iaddX (x : IntX)
  | isub (x : IntR)
  | isubX (x : IntX)
  | imul (x : IntR)
  | imulX (x : IntX)
  | imulh (x : IntR)
  | imulhX (x : IntX)
  | imad (x : IntR)
  | imin (x : IntR)
  | iminX (x : IntX)
  | imax (x : IntR)
  | imaxX (x : IntX)
  | iabs (x : IntU)
  | and (x : IntR)
  | andX (x : IntX)
  | or (x : IntR)
  | orX (x : IntX)
  | xor (x : IntR)
  | xorX (x : IntX)
  | andn (x : IntR)
  | andnX (x : IntX)
  | shl (x : IntR)
  | shlX (x : IntX)
  | shr (x : IntR)
  | shrX (x : IntX)
  | sar (x : IntR)
  | sarX (x : IntX)
  | popc (x : IntU)
  | clz (x : IntU)
  | brev (x : IntU)
  | bfx (x : IntR)
  | bfxX (x : IntX)
  | bfi (x : IntR)
  | bfiX (x : IntX)
  | lea (x : LeaF)
  | icmp (x : IcmpF)
  | icmpX (x : IcmpX)
  | sel (x : SelF)
  | movi (x : MoviF)
  | moviX (x : MoviX)
  | fadd (x : FpR)
  | faddX (x : FpX)
  | fsub (x : FpR)
  | fsubX (x : FpX)
  | fmul (x : FpR)
  | fmulX (x : FpX)
  | ffma (x : FpR)
  | fmin (x : FpM)
  | fmax (x : FpM)
  | fcmp (x : FcmpF)
  | frcp (x : FpV)
  | frsq (x : FpV)
  | fsqrt (x : FpU)
  | fexp2 (x : FpV)
  | flog2 (x : FpV)
  | fsin (x : FpV)
  | fcos (x : FpV)
  | frnd (x : FpU)
  | fclass (x : FpV)
  | hadd2 (x : FpR)
  | hmul2 (x : FpR)
  | hfma2 (x : FpR)
  | badd2 (x : FpR)
  | bmul2 (x : FpR)
  | bfma2 (x : FpR)
  | mov (x : MovF)
  | movs (x : MovF)
  | f2i (x : FpU)
  | i2f (x : FpU)
  | fcvt (x : FcvtF)
  | qpack (x : FpR)
  | qunpk (x : FpR)
  | shfl (x : ShflF)
  | vote (x : VoteF)
  | redg (x : RedF)
  | scang (x : RedF)
  | rdsr (x : RdsrF)
  | wrsr (x : WrsrF)
  | movts (x : MovtsF)
  | nop (x : Plain)
  | bra (x : BraF)
  | braX (x : BraX)
  | brx (x : JumpF)
  | call (x : BraF)
  | callX (x : CallX)
  | callx (x : CallxF)
  | ret (x : JumpF)
  | land (x : Plain)
  | exit (x : Plain)
  | yield (x : Plain)
  | dqpush (x : JumpF)
  | dqpop (x : DestF)
  | tfence (x : Plain)
  | ld8 (x : PolMem)
  | ld8X (x : PolMemX)
  | ld16 (x : PolMem)
  | ld16X (x : PolMemX)
  | ld32 (x : PolMem)
  | ld32X (x : PolMemX)
  | ld64 (x : PolMem)
  | ld64X (x : PolMemX)
  | ld128 (x : PolMem)
  | ld128X (x : PolMemX)
  | st8 (x : PolMem)
  | st8X (x : PolMemX)
  | st16 (x : PolMem)
  | st16X (x : PolMemX)
  | st32 (x : PolMem)
  | st32X (x : PolMemX)
  | st64 (x : PolMem)
  | st64X (x : PolMemX)
  | st128 (x : PolMem)
  | st128X (x : PolMemX)
  | lds (x : CistMem)
  | ldsX (x : CistMemX)
  | sts (x : CistMem)
  | stsX (x : CistMemX)
  | ldlv (x : LexMem)
  | stlv (x : LexMem)
  | ldp (x : LdpF)
  | ldpX (x : LdpX)
  | gath (x : GathF)
  | gathX (x : GathX)
  | scat (x : GathF)
  | scatX (x : GathX)
  | cinv (x : RangeF)
  | cflush (x : RangeF)
  | fence (x : FenceF)
  | ldfe (x : PolMem)
  | ldfeX (x : PolMemX)
  | stef (x : PolMem)
  | stefX (x : PolMemX)
  | feset (x : FesetF)
  | atom (x : AtomX)
  | atcas (x : AtcasX)
  | red (x : RedX)
  | lr (x : PolMem)
  | lrX (x : LrX)
  | sc (x : ScX)
  | bari (x : BariF)
  | bariX (x : BariX)
  | bara (x : BarF)
  | barad (x : BarF)
  | barw (x : BarF)
  | bart (x : BartF)
  | sync (x : SyncF)
  | tld (x : TldX)
  | tst (x : TstX)
  | tzero (x : TzeroF)
  | tmma (x : TmmX)
  | tmms (x : TmmsX)
  | tmmq (x : TmmX)
  | trdy (x : Plain)
  | twait (x : TwaitF)
  | tacc (x : TaccF)
  | taccXp (x : TaccF)
  | taccScl (x : TaccScl)
  | taccWr (x : TaccF)
  | tgemm (x : TgemmX)
  | cpy (x : CpyX)
  | cpym (x : CpymX)
  | cpycv (x : CpycvX)
  | cpylb (x : CpylbX)
  | fbopen (x : FbopenX)
  | fbnext (x : FbnextF)
  | fbmeet (x : FbpairF)
  | fbjoin (x : FbpairF)
  | fbskip (x : FbskipF)
  | fbsave (x : FbstF)
  | fbsaveX (x : FbstX)
  | fbrest (x : FbstF)
  | fbrestX (x : FbstX)
  | coll (x : CollX)
  | collw (x : DestF)
  | launch (x : LaunchF)
  | join (x : JumpF)
  | trap (x : TrapF)
  | tret (x : Plain)
  | tretSkip (x : Plain)
  | tretTo (x : JumpF)
  | tkill (x : Plain)
  | tlbinvPage (x : TlbPageF)
  | tlbinvRange (x : TlbRangeF)
  | tlbinvVf (x : TlbVfF)
  | icinv (x : TlbRangeF)
  | icinvAll (x : TlbVfF)
  | reclaim (x : ReclaimF)
  | pwrhint (x : PwrhintF)
  | brstk (x : D2F)
  | rcvpt (x : D2F)
  | rcvj (x : D2F)
  | scbwait (x : D2F)
  | ldcoh (x : D2F)
  | stcoh (x : D2F)
  | mma8 (x : D2F)
  | bymix (x : D2F)
  | nopPair (x : PairW)
  | iaddPair (x : PairW)
  | isubPair (x : PairW)
  | imulPair (x : PairW)
  | iminPair (x : PairW)
  | imaxPair (x : PairW)
  | andPair (x : PairW)
  | orPair (x : PairW)
  | xorPair (x : PairW)
  | andnPair (x : PairW)
  | shlPair (x : PairW)
  | shrPair (x : PairW)
  | sarPair (x : PairW)
  | faddPair (x : PairW)
  | fsubPair (x : PairW)
  | fmulPair (x : PairW)
  | fminPair (x : PairW)
  | fmaxPair (x : PairW)
  | hadd2Pair (x : PairW)
  | hmul2Pair (x : PairW)
  | badd2Pair (x : PairW)
  | bmul2Pair (x : PairW)
  | movPair (x : PairW)
  | f2iPair (x : PairW)
  | i2fPair (x : PairW)
  | issueCycle
  | instructionFetchFill
  | fixedLatencyWriteback
  | flagCountDown
  | fairnessTurn
  | trapEntryDeferred
  | trapLevelTimeout
  | standpipeAnnounce
  | homeRdu
  | homeRdt
  | homeRdo
  | homeWrw
  | homeAth
  | homeWb
  | homeDrop
  | homeReclaim
  | holderRecall
  | recallRefusalExpiry
  | holderFail
  | reclassification
  | hostCxlMemRead
  | hostCxlMemWrite
  | sumpWindowClose
  | copyChannelStart
  | copyArrival
  | channelWptrUpdate
  | copyFault
  | matrixOpStart
  | matrixOpComplete
  | pumpStep
  | selfTest
  | tokenRefill
  | tokenGrant
  | powerMeasure
  | persistBoundaryInterval
  | workgroupPlace
  | coresidentPlace
  | priorityAging
  | coresidentWithhold
  | wayDrain
  | workgroupRetire
  | gridRetire
  | collectiveComplete
  | collectiveFault
  | streamElementFault
  | notPresentFault
  | walkMissRecord
  | quiesce
  | trapQueueLogCopy
  | framePoolRefill
  | workgroupEvict
  | groupEvict
  | contextRestore
  | rootlaunch
  | rootlaunchProcess
  | rootctlClearDrop
  | dutyselWrite
  | invctlPage
  | invctlRange
  | invctlVf
  | invctlComplete
  | fwctlWrite
  | formatWindowChangeDone
  | tqresp
  | fpgrow
  | pwrctlWrite
  | tokcapWrite
  | tokrateWrite
  | registerWrite
  | mailboxImage
  | mailboxQuote
  | mailboxKeyset
  | mailboxUnknownCommand
  | moduleReset
  | functionLevelReset
  | objectLoad
  | thermalThrottle
  | thermalShutdown
  | linkDown
  | registerParityError
  | hostCxlCacheSnoop
  | thermalThrottleEnd
  | powerFail
  | objectUnload
  deriving DecidableEq, Repr

end Sys2Proof
end

