-- ==== Sys2Proof/WellFormed.lean ====
section
/-! DEFINITION. Well-formed instructions: the field values that check 3 of R160 admits whatever the issuing context. Register
roles, which depend on the context (R153), are checked when the word issues. -/
namespace Sys2Proof

/-- What a form allows in SETF (R199, R229, R260): nothing but 0b1111, any flag or none, or a flag only. -/
inductive SetfRule where
  | forbidden | free | needed
  deriving DecidableEq, Repr

/-- What a form allows in the common fields of R150: the C bit, SETF, and WBS. -/
structure FieldRule where
  (c : Bool) (setf : SetfRule) (wbs : Bool)
  deriving DecidableEq, Repr

/-- The header of a full or extended form; pairs have fewer fields (R155), events have none. -/
def Instr.hdr : Instr → Option Hdr
  | .iadd x | .iaddX x | .isub x | .isubX x | .imul x | .imulX x | .imulh x | .imulhX x | .imad x | .imin x
  | .iminX x | .imax x | .imaxX x | .iabs x | .and x | .andX x | .or x | .orX x | .xor x | .xorX x | .andn x
  | .andnX x | .shl x | .shlX x | .shr x | .shrX x | .sar x | .sarX x | .popc x | .clz x | .brev x | .bfx x | .bfxX x
  | .bfi x | .bfiX x | .lea x | .icmp x | .icmpX x | .sel x | .movi x | .moviX x | .fadd x | .faddX x | .fsub x
  | .fsubX x | .fmul x | .fmulX x | .ffma x | .fmin x | .fmax x | .fcmp x | .frcp x | .frsq x | .fsqrt x | .fexp2 x
  | .flog2 x | .fsin x | .fcos x | .frnd x | .fclass x | .hadd2 x | .hmul2 x | .hfma2 x | .badd2 x | .bmul2 x
  | .bfma2 x | .mov x | .movs x | .f2i x | .i2f x | .fcvt x | .qpack x | .qunpk x | .shfl x | .vote x | .redg x
  | .scang x | .rdsr x | .wrsr x | .movts x | .nop x | .bra x | .braX x | .brx x | .call x | .callX x | .callx x
  | .ret x | .land x | .exit x | .yield x | .dqpush x | .dqpop x | .tfence x | .ld8 x | .ld8X x | .ld16 x | .ld16X x
  | .ld32 x | .ld32X x | .ld64 x | .ld64X x | .ld128 x | .ld128X x | .st8 x | .st8X x | .st16 x | .st16X x | .st32 x
  | .st32X x | .st64 x | .st64X x | .st128 x | .st128X x | .lds x | .ldsX x | .sts x | .stsX x | .ldlv x | .stlv x
  | .ldp x | .ldpX x | .gath x | .gathX x | .scat x | .scatX x | .cinv x | .cflush x | .fence x | .ldfe x | .ldfeX x
  | .stef x | .stefX x | .feset x | .atom x | .atcas x | .red x | .lr x | .lrX x | .sc x | .bari x | .bariX x
  | .bara x | .barad x | .barw x | .bart x | .sync x | .tld x | .tst x | .tzero x | .tmma x | .tmms x | .tmmq x
  | .trdy x | .twait x | .tacc x | .taccXp x | .taccScl x | .taccWr x | .tgemm x | .cpy x | .cpym x | .cpycv x
  | .cpylb x | .fbopen x | .fbnext x | .fbmeet x | .fbjoin x | .fbskip x | .fbsave x | .fbsaveX x | .fbrest x
  | .fbrestX x | .coll x | .collw x | .launch x | .join x | .trap x | .tret x | .tretSkip x | .tretTo x | .tkill x
  | .tlbinvPage x | .tlbinvRange x | .tlbinvVf x | .icinv x | .icinvAll x | .reclaim x | .pwrhint x | .brstk x
  | .rcvpt x | .rcvj x | .scbwait x | .ldcoh x | .stcoh x | .mma8 x | .bymix x => some x.h
  | .nopPair _ | .iaddPair _ | .isubPair _ | .imulPair _ | .iminPair _ | .imaxPair _ | .andPair _ | .orPair _
  | .xorPair _ | .andnPair _ | .shlPair _ | .shrPair _ | .sarPair _ | .faddPair _ | .fsubPair _ | .fmulPair _
  | .fminPair _ | .fmaxPair _ | .hadd2Pair _ | .hmul2Pair _ | .badd2Pair _ | .bmul2Pair _ | .movPair _ | .f2iPair _
  | .i2fPair _ => none
  | .issueCycle | .instructionFetchFill | .fixedLatencyWriteback | .flagCountDown | .fairnessTurn
  | .trapEntryDeferred | .trapLevelTimeout | .standpipeAnnounce | .homeRdu | .homeRdt | .homeRdo | .homeWrw
  | .homeAth | .homeWb | .homeDrop | .homeReclaim | .holderRecall | .recallRefusalExpiry | .holderFail
  | .reclassification | .hostCxlMemRead | .hostCxlMemWrite | .sumpWindowClose | .copyChannelStart | .copyArrival
  | .channelWptrUpdate | .copyFault | .matrixOpStart | .matrixOpComplete | .pumpStep | .selfTest | .tokenRefill
  | .tokenGrant | .powerMeasure | .persistBoundaryInterval | .workgroupPlace | .coresidentPlace | .priorityAging
  | .coresidentWithhold | .wayDrain | .workgroupRetire | .gridRetire | .collectiveComplete | .collectiveFault
  | .streamElementFault | .notPresentFault | .walkMissRecord | .quiesce | .trapQueueLogCopy | .framePoolRefill
  | .workgroupEvict | .groupEvict | .contextRestore | .rootlaunch | .rootlaunchProcess | .rootctlClearDrop
  | .dutyselWrite | .invctlPage | .invctlRange | .invctlVf | .invctlComplete | .fwctlWrite | .formatWindowChangeDone
  | .tqresp | .fpgrow | .pwrctlWrite | .tokcapWrite | .tokrateWrite | .registerWrite | .mailboxImage | .mailboxQuote
  | .mailboxKeyset | .mailboxUnknownCommand | .moduleReset | .functionLevelReset | .objectLoad | .thermalThrottle
  | .thermalShutdown | .linkDown | .registerParityError | .hostCxlCacheSnoop | .thermalThrottleEnd | .powerFail
  | .objectUnload => none

/-- The field rule of each form: the C bit by R150, R197, R228 and R259; SETF by R199, R229 and R260; WBS by R150. -/
def Instr.fieldRule : Instr → FieldRule
  | .iadd _ | .iaddX _ | .isub _ | .isubX _ | .imul _ | .imulX _ | .imulh _ | .imulhX _ | .imad _ | .imin _
  | .iminX _ | .imax _ | .imaxX _ | .iabs _ | .and _ | .andX _ | .or _ | .orX _ | .xor _ | .xorX _ | .andn _
  | .andnX _ | .shl _ | .shlX _ | .shr _ | .shrX _ | .sar _ | .sarX _ | .popc _ | .clz _ | .brev _ | .bfx _ | .bfxX _
  | .bfi _ | .bfiX _ | .lea _ | .sel _ | .movi _ | .moviX _ | .fadd _ | .faddX _ | .fsub _ | .fsubX _ | .fmul _
  | .fmulX _ | .ffma _ | .fmin _ | .fmax _ | .frcp _ | .frsq _ | .fsqrt _ | .fexp2 _ | .flog2 _ | .fsin _ | .fcos _
  | .frnd _ | .fclass _ | .hadd2 _ | .hmul2 _ | .hfma2 _ | .badd2 _ | .bmul2 _ | .bfma2 _ | .mov _ | .movs _ | .f2i _
  | .i2f _ | .fcvt _ | .qpack _ | .qunpk _ | .shfl _ | .vote _ | .redg _ | .scang _ | .rdsr _ | .call _ | .callX _
  | .callx _ | .lds _ | .ldsX _ => ⟨true, .free, true⟩
  | .icmp _ | .icmpX _ | .fcmp _ | .wrsr _ | .nop _ | .bra _ | .braX _ | .brx _ | .ret _ | .land _ | .exit _
  | .yield _ | .tfence _ | .ld8 _ | .ld8X _ | .ld16 _ | .ld16X _ | .ld32 _ | .ld32X _ | .ld64 _ | .ld64X _ | .ld128 _
  | .ld128X _ | .ldlv _ | .ldp _ | .ldpX _ | .gath _ | .gathX _ | .brstk _ | .rcvpt _ | .rcvj _ | .scbwait _
  | .ldcoh _ | .stcoh _ | .mma8 _ | .bymix _ => ⟨true, .free, false⟩
  | .movts _ | .fence _ => ⟨true, .forbidden, false⟩
  | .dqpush _ | .st8 _ | .st8X _ | .st16 _ | .st16X _ | .st32 _ | .st32X _ | .st64 _ | .st64X _ | .st128 _
  | .st128X _ | .sts _ | .stsX _ | .stlv _ | .scat _ | .scatX _ | .cinv _ | .cflush _ | .ldfe _ | .ldfeX _ | .stef _
  | .stefX _ | .feset _ | .atom _ | .atcas _ | .red _ | .lr _ | .lrX _ | .sc _ | .tld _ | .tst _ | .fbopen _
  | .fbnext _ | .fbskip _ | .fbsave _ | .fbsaveX _ | .fbrest _ | .fbrestX _ | .collw _ | .launch _ | .tlbinvPage _
  | .tlbinvRange _ | .tlbinvVf _ | .icinv _ | .icinvAll _ | .reclaim _ => ⟨false, .free, false⟩
  | .dqpop _ => ⟨false, .free, true⟩
  | .bari _ | .bariX _ | .bara _ | .barad _ | .barw _ | .bart _ | .sync _ | .tzero _ | .tmma _ | .tmms _ | .tmmq _
  | .taccWr _ | .tgemm _ | .cpy _ | .cpym _ | .cpycv _ | .cpylb _ | .fbmeet _ | .fbjoin _ | .coll _ | .join _
  | .trap _ | .tret _ | .tretSkip _ | .tretTo _ | .tkill _ | .pwrhint _ => ⟨false, .forbidden, false⟩
  | .trdy _ | .twait _ => ⟨false, .needed, false⟩
  | .tacc _ | .taccXp _ | .taccScl _ => ⟨true, .forbidden, true⟩
  | .nopPair _ | .iaddPair _ | .isubPair _ | .imulPair _ | .iminPair _ | .imaxPair _ | .andPair _ | .orPair _
  | .xorPair _ | .andnPair _ | .shlPair _ | .shrPair _ | .sarPair _ | .faddPair _ | .fsubPair _ | .fmulPair _
  | .fminPair _ | .fmaxPair _ | .hadd2Pair _ | .hmul2Pair _ | .badd2Pair _ | .bmul2Pair _ | .movPair _ | .f2iPair _
  | .i2fPair _ | .issueCycle | .instructionFetchFill | .fixedLatencyWriteback | .flagCountDown | .fairnessTurn
  | .trapEntryDeferred | .trapLevelTimeout | .standpipeAnnounce | .homeRdu | .homeRdt | .homeRdo | .homeWrw
  | .homeAth | .homeWb | .homeDrop | .homeReclaim | .holderRecall | .recallRefusalExpiry | .holderFail
  | .reclassification | .hostCxlMemRead | .hostCxlMemWrite | .sumpWindowClose | .copyChannelStart | .copyArrival
  | .channelWptrUpdate | .copyFault | .matrixOpStart | .matrixOpComplete | .pumpStep | .selfTest | .tokenRefill
  | .tokenGrant | .powerMeasure | .persistBoundaryInterval | .workgroupPlace | .coresidentPlace | .priorityAging
  | .coresidentWithhold | .wayDrain | .workgroupRetire | .gridRetire | .collectiveComplete | .collectiveFault
  | .streamElementFault | .notPresentFault | .walkMissRecord | .quiesce | .trapQueueLogCopy | .framePoolRefill
  | .workgroupEvict | .groupEvict | .contextRestore | .rootlaunch | .rootlaunchProcess | .rootctlClearDrop
  | .dutyselWrite | .invctlPage | .invctlRange | .invctlVf | .invctlComplete | .fwctlWrite | .formatWindowChangeDone
  | .tqresp | .fpgrow | .pwrctlWrite | .tokcapWrite | .tokrateWrite | .registerWrite | .mailboxImage | .mailboxQuote
  | .mailboxKeyset | .mailboxUnknownCommand | .moduleReset | .functionLevelReset | .objectLoad | .thermalThrottle
  | .thermalShutdown | .linkDown | .registerParityError | .hostCxlCacheSnoop | .thermalThrottleEnd | .powerFail
  | .objectUnload => ⟨true, .forbidden, false⟩

/-- The header's own fields (R150, R161): PNEG needs a predicate, SETF 12 to 14 name nothing, and the form's rule holds. -/
def Hdr.ok (h : Hdr) (r : FieldRule) : Bool :=
  !(h.pneg && h.pred == 7) && (r.c || !h.c) && (r.wbs || !h.wbs) &&
  match r.setf with
  | .forbidden => h.setf == 15
  | .free => h.setf.toNat < 12 || h.setf == 15
  | .needed => h.setf.toNat < 12

/-- A word whose guard must be always true (R277). -/
def Hdr.always (h : Hdr) : Bool := h.pred == 7 && !h.pneg

/-- MOD bits that an integer form allows (R167, R168). -/
def IntMod.only (m : IntMod) (w64 us sat : Bool) : Bool := (w64 || !m.w64) && (us || !m.us) && (sat || !m.sat)
/-- IADD and ISUB: .U needs .SAT (R168). -/
def IntMod.addOk (m : IntMod) : Bool := m.sat || !m.us

/-- Widths of an atomic operation (R214). -/
def AtomOp.widthOk (op : AtomOp) (w : Width) : Bool :=
  match op with
  | .add | .min | .max | .and | .or | .xor | .xchg => w == .w32 || w == .w64
  | .fadd | .fmin | .fmax | .hgath => w == .w32
  | .bfadd => w == .w16

/-- The policies and widths of LR and SC (R219, R221). -/
def lrOk (pol : Policy) (w : Width) : Bool := (pol == .own || pol == .wi) && (w == .w32 || w == .w64)

/-- Operand types of the matrix instructions (R240, R242): BF16 to E5M2 for TMMA and TMMS; E4M3, E5M2, Q4X for TMMQ. -/
def TileTy.dense (t : TileTy) : Bool := t == .bf16 || t == .fp16 || t == .e4m3 || t == .e5m2
def TileTy.quant (t : TileTy) : Bool := t == .e4m3 || t == .e5m2 || t == .q4x

/-- Data types that a collective operation takes (R270). -/
def CollOp.typeOk (op : CollOp) (t : CollTy) : Bool :=
  match op, t with
  | .allred, .i32 | .allred, .i64 | .allred, .f32 | .allred, .bf16 | .allred, .xsum => true
  | .redsc, .i32 | .redsc, .i64 | .redsc, .f32 | .redsc, .bf16 | .redsc, .xsum => true
  | .allga, .b8 | .allga, .b16 | .allga, .b32 | .allga, .b64 | .allga, .b128 => true
  | .alltoall, .b8 | .alltoall, .b16 | .alltoall, .b32 | .alltoall, .b64 | .alltoall, .b128 => true
  | _, _ => false

/-- A channel's scope runs from .core to .sys (R250). -/
def chanOk (c : Option Chan) : Bool :=
  match c with
  | some c => c.scope != .grp
  | none => true

/-- The matrix command of CPYM (R255): type allowed for the operation; TM and PAT only for TMMS; KB only a number. -/
def MatCmd.ok (m : MatCmd) : Bool :=
  match m.mop with
  | .tmma => m.ty.dense && m.tm == 0 && m.pat == .p24
  | .tmms => m.ty.dense
  | .tmmq => m.ty.quant && m.tm == 0 && m.pat == .p24

/-- A pair slot that performs NOP has zero register fields (R156). -/
def PairSlot.ok (p : PairSlot) : Bool := p.op != .nop || (p.d == .v 0 && p.s == .v 0)

/-- The operand fields of each form, as its entry limits them. -/
def Instr.operandsOk : Instr → Bool
  | .iadd x | .iaddX x | .isub x | .isubX x => x.m.addOk
  | .imul x | .imulX x | .imad x | .and x | .andX x | .or x | .orX x | .xor x | .xorX x | .andn x | .andnX x | .shl x
  | .shlX x | .shr x | .shrX x | .sar x | .sarX x | .popc x | .clz x | .brev x => x.m.only true false false
  | .imulh x | .imulhX x | .imin x | .iminX x | .imax x | .imaxX x => x.m.only true true false
  | .iabs x => x.m.only true false true
  | .bfx x | .bfxX x => x.m.only false true false
  | .bfi x | .bfiX x => x.m.only false false false
  | .fcvt x => !x.nsat || x.conv == .toE4m3
  | .gath x | .gathX x | .scat x | .scatX x => x.w != .w128
  | .atom x => x.op.widthOk x.w && (x.op != .hgath || x.b == .sp .zero)
  | .atcas x => x.w == .w32 || x.w == .w64
  | .red x => x.op.widthOk x.w && x.op != .hgath
  | .lr x => lrOk x.pol .w32
  | .lrX x | .sc x => lrOk x.pol x.w
  | .bariX x => x.count != 0
  | .sync x => x.scope != .pod && x.scope != .sys
  | .tmma x | .tmms x => x.ty.dense
  | .tmmq x => x.ty.quant
  | .tgemm x => x.ty.dense && x.ks != 0
  | .cpy x => chanOk x.chan
  | .cpym x => x.cmd.ok
  | .cpycv x => chanOk x.chan && x.form.extractLsb' 2 14 == 0
  | .cpylb x => x.chan.scope != .grp && x.rowb != 0 && x.rowb.toNat ≤ 16384
  | .coll x => x.op.typeOk x.ty
  | .tret x | .tretSkip x | .tretTo x | .tkill x => x.h.always
  | .nopPair x => x.d == .v 0 && x.s == .v 0 && x.other.ok
  | .iaddPair x | .isubPair x | .imulPair x | .iminPair x | .imaxPair x | .andPair x | .orPair x | .xorPair x
  | .andnPair x | .shlPair x | .shrPair x | .sarPair x | .faddPair x | .fsubPair x | .fmulPair x | .fminPair x
  | .fmaxPair x | .hadd2Pair x | .hmul2Pair x | .badd2Pair x | .bmul2Pair x | .movPair x | .f2iPair x | .i2fPair x => x.other.ok
  | .lea _ | .icmp _ | .icmpX _ | .sel _ | .movi _ | .moviX _ | .fadd _ | .faddX _ | .fsub _ | .fsubX _ | .fmul _
  | .fmulX _ | .ffma _ | .fmin _ | .fmax _ | .fcmp _ | .frcp _ | .frsq _ | .fsqrt _ | .fexp2 _ | .flog2 _ | .fsin _
  | .fcos _ | .frnd _ | .fclass _ | .hadd2 _ | .hmul2 _ | .hfma2 _ | .badd2 _ | .bmul2 _ | .bfma2 _ | .mov _
  | .movs _ | .f2i _ | .i2f _ | .qpack _ | .qunpk _ | .shfl _ | .vote _ | .redg _ | .scang _ | .rdsr _ | .wrsr _
  | .movts _ | .nop _ | .bra _ | .braX _ | .brx _ | .call _ | .callX _ | .callx _ | .ret _ | .land _ | .exit _
  | .yield _ | .dqpush _ | .dqpop _ | .tfence _ | .ld8 _ | .ld8X _ | .ld16 _ | .ld16X _ | .ld32 _ | .ld32X _
  | .ld64 _ | .ld64X _ | .ld128 _ | .ld128X _ | .st8 _ | .st8X _ | .st16 _ | .st16X _ | .st32 _ | .st32X _ | .st64 _
  | .st64X _ | .st128 _ | .st128X _ | .lds _ | .ldsX _ | .sts _ | .stsX _ | .ldlv _ | .stlv _ | .ldp _ | .ldpX _
  | .cinv _ | .cflush _ | .fence _ | .ldfe _ | .ldfeX _ | .stef _ | .stefX _ | .feset _ | .bari _ | .bara _
  | .barad _ | .barw _ | .bart _ | .tld _ | .tst _ | .tzero _ | .trdy _ | .twait _ | .tacc _ | .taccXp _ | .taccScl _
  | .taccWr _ | .fbopen _ | .fbnext _ | .fbmeet _ | .fbjoin _ | .fbskip _ | .fbsave _ | .fbsaveX _ | .fbrest _
  | .fbrestX _ | .collw _ | .launch _ | .join _ | .trap _ | .tlbinvPage _ | .tlbinvRange _ | .tlbinvVf _ | .icinv _
  | .icinvAll _ | .reclaim _ | .pwrhint _ | .brstk _ | .rcvpt _ | .rcvj _ | .scbwait _ | .ldcoh _ | .stcoh _
  | .mma8 _ | .bymix _ | .issueCycle | .instructionFetchFill | .fixedLatencyWriteback | .flagCountDown
  | .fairnessTurn | .trapEntryDeferred | .trapLevelTimeout | .standpipeAnnounce | .homeRdu | .homeRdt | .homeRdo
  | .homeWrw | .homeAth | .homeWb | .homeDrop | .homeReclaim | .holderRecall | .recallRefusalExpiry | .holderFail
  | .reclassification | .hostCxlMemRead | .hostCxlMemWrite | .sumpWindowClose | .copyChannelStart | .copyArrival
  | .channelWptrUpdate | .copyFault | .matrixOpStart | .matrixOpComplete | .pumpStep | .selfTest | .tokenRefill
  | .tokenGrant | .powerMeasure | .persistBoundaryInterval | .workgroupPlace | .coresidentPlace | .priorityAging
  | .coresidentWithhold | .wayDrain | .workgroupRetire | .gridRetire | .collectiveComplete | .collectiveFault
  | .streamElementFault | .notPresentFault | .walkMissRecord | .quiesce | .trapQueueLogCopy | .framePoolRefill
  | .workgroupEvict | .groupEvict | .contextRestore | .rootlaunch | .rootlaunchProcess | .rootctlClearDrop
  | .dutyselWrite | .invctlPage | .invctlRange | .invctlVf | .invctlComplete | .fwctlWrite | .formatWindowChangeDone
  | .tqresp | .fpgrow | .pwrctlWrite | .tokcapWrite | .tokrateWrite | .registerWrite | .mailboxImage | .mailboxQuote
  | .mailboxKeyset | .mailboxUnknownCommand | .moduleReset | .functionLevelReset | .objectLoad | .thermalThrottle
  | .thermalShutdown | .linkDown | .registerParityError | .hostCxlCacheSnoop | .thermalThrottleEnd | .powerFail
  | .objectUnload => true

/-- A well-formed instruction: what check 3 admits before the register roles. Events are always well formed. -/
def wellFormed (i : Instr) : Bool :=
  i.operandsOk && match i.hdr with
    | some h => h.ok i.fieldRule
    | none => true

end Sys2Proof
end

