-- ==== Sys2Proof/Decode.lean ====
section
/-! DEFINITION. Instruction words (09): the three formats, register codes, operand layouts and opcode map, as a decoder that is
total on any two words, and the encoder written from the same tables. -/
namespace Sys2Proof

/-! Codes of the fields (R151, R152, R154, and the entries named at each). -/

def bit (b : Bool) : BitVec 1 := BitVec.ofBool b
def isSet (v : BitVec 1) : Bool := v == 1
/-- A number below n, where the field holds one. -/
def finOf (n v : Nat) : Option (Fin n) := if h : v < n then some ⟨v, h⟩ else none

/-- R154. -/
def Scope.code : Scope → BitVec 3
  | .grp => 0 | .core => 1 | .quad => 2 | .die => 3 | .pkg => 4 | .pod => 5 | .sys => 6
def Scope.ofCode (c : BitVec 3) : Option Scope :=
  match c.toNat with
  | 0 => some .grp | 1 => some .core | 2 => some .quad | 3 => some .die | 4 => some .pkg | 5 => some .pod
  | 6 => some .sys | _ => none

/-- R154. -/
def Width.code : Width → BitVec 3
  | .w8 => 0 | .w16 => 1 | .w32 => 2 | .w64 => 3 | .w128 => 4
def Width.ofCode (c : BitVec 3) : Option Width :=
  match c.toNat with
  | 0 => some .w8 | 1 => some .w16 | 2 => some .w32 | 3 => some .w64 | 4 => some .w128 | _ => none

/-- R57. -/
def Policy.code : Policy → BitVec 2
  | .own => 0 | .wt => 1 | .si => 2 | .wi => 3
def Policy.ofCode (c : BitVec 2) : Option Policy :=
  match c.toNat with
  | 0 => some .own | 1 => some .wt | 2 => some .si | 3 => some .wi | _ => none

/-- R132. -/
def RmSel.code : RmSel → BitVec 3
  | .dyn => 0 | .rne => 1 | .rz => 2 | .ru => 3 | .rd => 4
def RmSel.ofCode (c : BitVec 3) : Option RmSel :=
  match c.toNat with
  | 0 => some .dyn | 1 => some .rne | 2 => some .rz | 3 => some .ru | 4 => some .rd | _ => none

/-- R152, less 228. -/
def Special.code : Special → BitVec 4
  | .zero => 0 | .lane => 1 | .grp => 2 | .wgid => 3 | .gridid => 4 | .core => 5 | .die => 6 | .ngrp => 7
  | .wglast => 8 | .level => 9 | .ltmask => 10 | .exec => 11 | .clk => 12 | .vfn => 13
def Special.ofCode (c : BitVec 4) : Option Special :=
  match c.toNat with
  | 0 => some .zero | 1 => some .lane | 2 => some .grp | 3 => some .wgid | 4 => some .gridid | 5 => some .core
  | 6 => some .die | 7 => some .ngrp | 8 => some .wglast | 9 => some .level | 10 => some .ltmask | 11 => some .exec
  | 12 => some .clk | 13 => some .vfn | _ => none

/-- R171. -/
def ICond.code : ICond → BitVec 4
  | .eq => 0 | .ne => 1 | .lt => 2 | .le => 3 | .gt => 4 | .ge => 5 | .ltu => 6 | .leu => 7 | .gtu => 8 | .geu => 9
  | .eq64 => 10 | .ne64 => 11 | .lt64 => 12 | .ge64 => 13 | .ltu64 => 14 | .geu64 => 15
def ICond.ofCode (c : BitVec 4) : Option ICond :=
  match c.toNat with
  | 0 => some .eq | 1 => some .ne | 2 => some .lt | 3 => some .le | 4 => some .gt | 5 => some .ge | 6 => some .ltu
  | 7 => some .leu | 8 => some .gtu | 9 => some .geu | 10 => some .eq64 | 11 => some .ne64 | 12 => some .lt64
  | 13 => some .ge64 | 14 => some .ltu64 | 15 => some .geu64 | _ => none

/-- R176. -/
def FCond.code : FCond → BitVec 3
  | .eq => 0 | .ne => 1 | .lt => 2 | .le => 3 | .gt => 4 | .ge => 5 | .un => 6 | .or => 7
def FCond.ofCode (c : BitVec 3) : Option FCond :=
  match c.toNat with
  | 0 => some .eq | 1 => some .ne | 2 => some .lt | 3 => some .le | 4 => some .gt | 5 => some .ge | 6 => some .un
  | 7 => some .or | _ => none

/-- R182. -/
def FConv.code : FConv → BitVec 8
  | .toF16 => 1 | .toBf16 => 2 | .toE4m3 => 3 | .toE5m2 => 4 | .ofF16 => 0x11 | .ofBf16 => 0x12 | .ofE4m3 => 0x13
  | .ofE5m2 => 0x14
def FConv.ofCode (c : BitVec 8) : Option FConv :=
  match c.toNat with
  | 1 => some .toF16 | 2 => some .toBf16 | 3 => some .toE4m3 | 4 => some .toE5m2 | 0x11 => some .ofF16
  | 0x12 => some .ofBf16 | 0x13 => some .ofE4m3 | 0x14 => some .ofE5m2 | _ => none

/-- R186. -/
def ShflMode.code : ShflMode → BitVec 2
  | .idx => 0 | .up => 1 | .dn => 2 | .xor => 3
def ShflMode.ofCode (c : BitVec 2) : Option ShflMode :=
  match c.toNat with
  | 0 => some .idx | 1 => some .up | 2 => some .dn | 3 => some .xor | _ => none

/-- R187. -/
def VoteMode.code : VoteMode → BitVec 2
  | .ballot => 0 | .any => 1 | .all => 2 | .uni => 3
def VoteMode.ofCode (c : BitVec 2) : Option VoteMode :=
  match c.toNat with
  | 0 => some .ballot | 1 => some .any | 2 => some .all | 3 => some .uni | _ => none

/-- R188. -/
def RedOp.code : RedOp → BitVec 4
  | .addI32 => 0 | .addF32 => 1 | .addF32Rne => 2 | .addI64 => 3 | .minS32 => 4 | .maxS32 => 5 | .minU32 => 6
  | .maxU32 => 7 | .minF32 => 8 | .maxF32 => 9 | .and => 10 | .or => 11 | .xor => 12
def RedOp.ofCode (c : BitVec 4) : Option RedOp :=
  match c.toNat with
  | 0 => some .addI32 | 1 => some .addF32 | 2 => some .addF32Rne | 3 => some .addI64 | 4 => some .minS32
  | 5 => some .maxS32 | 6 => some .minU32 | 7 => some .maxU32 | 8 => some .minF32 | 9 => some .maxF32
  | 10 => some .and | 11 => some .or | 12 => some .xor | _ => none

/-- R210. -/
def FenceKind.code : FenceKind → BitVec 2
  | .rel => 1 | .acq => 2 | .ar => 3
def FenceKind.ofCode (c : BitVec 2) : Option FenceKind :=
  match c.toNat with
  | 1 => some .rel | 2 => some .acq | 3 => some .ar | _ => none

/-- R214. -/
def AtomOp.code : AtomOp → BitVec 5
  | .add => 0 | .fadd => 1 | .bfadd => 2 | .min => 3 | .max => 4 | .fmin => 5 | .fmax => 6 | .and => 7 | .or => 8
  | .xor => 9 | .xchg => 10 | .hgath => 11
def AtomOp.ofCode (c : BitVec 5) : Option AtomOp :=
  match c.toNat with
  | 0 => some .add | 1 => some .fadd | 2 => some .bfadd | 3 => some .min | 4 => some .max | 5 => some .fmin
  | 6 => some .fmax | 7 => some .and | 8 => some .or | 9 => some .xor | 10 => some .xchg | 11 => some .hgath
  | _ => none

/-- R231. -/
def TileTy.code : TileTy → BitVec 4
  | .bf16 => 0 | .fp16 => 1 | .e4m3 => 2 | .e5m2 => 3 | .q4x => 4 | .metaTy => 5
def TileTy.ofCode (c : BitVec 4) : Option TileTy :=
  match c.toNat with
  | 0 => some .bf16 | 1 => some .fp16 | 2 => some .e4m3 | 3 => some .e5m2 | 4 => some .q4x | 5 => some .metaTy
  | _ => none

/-- R239. -/
def Pat.code : Pat → BitVec 2
  | .p24 => 0 | .p14 => 1 | .p28 => 2 | .p48 => 3
def Pat.ofCode (c : BitVec 2) : Option Pat :=
  match c.toNat with
  | 0 => some .p24 | 1 => some .p14 | 2 => some .p28 | 3 => some .p48 | _ => none

/-- R158. -/
def PairOp.code : PairOp → BitVec 6
  | .nop => 0 | .iadd => 1 | .isub => 2 | .imul => 3 | .imin => 4 | .imax => 5 | .and => 6 | .or => 7 | .xor => 8
  | .andn => 9 | .shl => 10 | .shr => 11 | .sar => 12 | .fadd => 0x10 | .fsub => 0x11 | .fmul => 0x12 | .fmin => 0x13
  | .fmax => 0x14 | .hadd2 => 0x15 | .hmul2 => 0x16 | .badd2 => 0x17 | .bmul2 => 0x18 | .mov => 0x20 | .f2i => 0x21
  | .i2f => 0x22
def PairOp.ofCode (c : BitVec 6) : Option PairOp :=
  match c.toNat with
  | 0 => some .nop | 1 => some .iadd | 2 => some .isub | 3 => some .imul | 4 => some .imin | 5 => some .imax
  | 6 => some .and | 7 => some .or | 8 => some .xor | 9 => some .andn | 10 => some .shl | 11 => some .shr
  | 12 => some .sar | 0x10 => some .fadd | 0x11 => some .fsub | 0x12 => some .fmul | 0x13 => some .fmin
  | 0x14 => some .fmax | 0x15 => some .hadd2 | 0x16 => some .hmul2 | 0x17 => some .badd2 | 0x18 => some .bmul2
  | 0x20 => some .mov | 0x21 => some .f2i | 0x22 => some .i2f | _ => none

/-- R269. -/
def CollScope.code : CollScope → BitVec 3
  | .die => 3 | .pkg => 4 | .pod => 5
def CollScope.ofCode (c : BitVec 3) : Option CollScope :=
  match c.toNat with
  | 3 => some .die | 4 => some .pkg | 5 => some .pod | _ => none

/-- R269. -/
def CollOp.code : CollOp → BitVec 4
  | .allred => 0 | .redsc => 1 | .allga => 2 | .alltoall => 3
def CollOp.ofCode (c : BitVec 4) : Option CollOp :=
  match c.toNat with
  | 0 => some .allred | 1 => some .redsc | 2 => some .allga | 3 => some .alltoall | _ => none

/-- R270. -/
def CollTy.code : CollTy → BitVec 4
  | .i32 => 0 | .i64 => 1 | .f32 => 2 | .bf16 => 3 | .xsum => 4 | .b8 => 8 | .b16 => 9 | .b32 => 10 | .b64 => 11
  | .b128 => 12
def CollTy.ofCode (c : BitVec 4) : Option CollTy :=
  match c.toNat with
  | 0 => some .i32 | 1 => some .i64 | 2 => some .f32 | 3 => some .bf16 | 4 => some .xsum | 8 => some .b8
  | 9 => some .b16 | 10 => some .b32 | 11 => some .b64 | 12 => some .b128 | _ => none

/-- R278. -/
def InvScope.code : InvScope → BitVec 2
  | .core => 0 | .die => 1 | .pkg => 2
def InvScope.ofCode (c : BitVec 2) : Option InvScope :=
  match c.toNat with
  | 0 => some .core | 1 => some .die | 2 => some .pkg | _ => none

/-- R255. -/
def MatOp.code : MatOp → BitVec 3
  | .tmma => 0 | .tmms => 1 | .tmmq => 2
def MatOp.ofCode (c : BitVec 3) : Option MatOp :=
  match c.toNat with
  | 0 => some .tmma | 1 => some .tmms | 2 => some .tmmq | _ => none


/-- R151. -/
def Reg.code : Reg → BitVec 8
  | .v n => BitVec.ofNat 8 n.val
  | .s n => BitVec.ofNat 8 (192 + n.val)
  | .l n => BitVec.ofNat 8 (224 + n.val)
  | .sp x => BitVec.ofNat 8 (228 + x.code.toNat)

def Reg.ofCode (c : BitVec 8) : Option Reg :=
  if h : c.toNat < 192 then some (.v ⟨c.toNat, h⟩)
  else if h : c.toNat - 192 < 32 then some (.s ⟨c.toNat - 192, h⟩)
  else if h : c.toNat - 224 < 4 then some (.l ⟨c.toNat - 224, h⟩)
  else (Special.ofCode (BitVec.ofNat 4 (c.toNat - 228))).bind fun x => if c.toNat < 242 then some (.sp x) else none

/-- R190. -/
def SysReg.code : SysReg → BitVec 8
  | .fpctl => 0x00 | .fpstat => 0x01 | .faircnt => 0x02 | .tcause => 0x08 | .taddr => 0x09 | .tpc => 0x0A | .tlanes => 0x0B
  | .tparent => 0x0C | .tsibs => 0x0D | .trapbase => 0x10 | .dutysel => 0x11 | .retcnt n => BitVec.ofNat 8 (0x18 + n.val)
  | .d n => BitVec.ofNat 8 (0x20 + n.val) | .cways => 0x28 | .pumpst => 0x29 | .wptr n => BitVec.ofNat 8 (0x2C + n.val)

def SysReg.ofCode (c : BitVec 8) : Option SysReg :=
  match c.toNat with
  | 0x00 => some .fpctl | 0x01 => some .fpstat | 0x02 => some .faircnt | 0x08 => some .tcause | 0x09 => some .taddr
  | 0x0A => some .tpc | 0x0B => some .tlanes | 0x0C => some .tparent | 0x0D => some .tsibs | 0x10 => some .trapbase
  | 0x11 => some .dutysel | 0x28 => some .cways | 0x29 => some .pumpst
  | n => if n < 0x18 then none
    else if n < 0x20 then (finOf 8 (n - 0x18)).map .retcnt
    else if n < 0x28 then (finOf 8 (n - 0x20)).map .d
    else if n < 0x2C then none
    else (finOf 4 (n - 0x2C)).map .wptr

/-- A unit code of the tile file (R230). -/
def TUnit.code : TUnit → BitVec 4
  | .tile n => BitVec.ofNat 4 n.val
  | .acc n => BitVec.ofNat 4 (8 + n.val)

def TUnit.ofCode (c : BitVec 4) : Option TUnit :=
  if h : c.toNat < 8 then some (.tile ⟨c.toNat, h⟩) else (finOf 4 (c.toNat - 8)).map .acc

def accCode (n : Fin 4) : BitVec 4 := BitVec.ofNat 4 (8 + n.val)
def accOf (c : BitVec 4) : Option (Fin 4) := if c.toNat < 8 then none else finOf 4 (c.toNat - 8)

/-! The raw fields of the full and extended formats (R150). -/

/-- The fields of R150, and the second word of the extended format (zero in the full format). -/
structure Raw where
  (ext : Bool) (opc : BitVec 8) (h : Hdr) (dst sa sb : BitVec 8) (mod : BitVec 4) (w2 : DWord)
  deriving DecidableEq, Repr

/-- The first word (R149, R150). -/
def Raw.word0 (r : Raw) : DWord :=
  (if r.ext then 2#2 else 0#2) ++ bit r.h.c ++ r.h.dist ++ r.h.wait ++ r.h.setf ++ r.opc ++ r.h.pred ++ bit r.h.pneg ++
    bit r.h.wbs ++ r.dst ++ r.sa ++ r.sb ++ r.mod

/-- The fields read from a word of the full or extended format and the word after it. -/
def Raw.ofWords (w0 w1 : DWord) : Raw :=
  let ext := isSet (w0.extractLsb' 63 1)
  { ext := ext, opc := w0.extractLsb' 33 8
    h := { c := isSet (w0.extractLsb' 61 1), dist := w0.extractLsb' 57 4, wait := w0.extractLsb' 45 12
           setf := w0.extractLsb' 41 4, pred := w0.extractLsb' 30 3, pneg := isSet (w0.extractLsb' 29 1)
           wbs := isSet (w0.extractLsb' 28 1) }
    dst := w0.extractLsb' 20 8, sa := w0.extractLsb' 12 8, sb := w0.extractLsb' 4 8, mod := w0.extractLsb' 0 4
    w2 := if ext then w1 else 0 }

/-- A full-format word. -/
def full (opc : BitVec 8) (h : Hdr) (dst sa sb : BitVec 8) (mod : BitVec 4) : Raw := ⟨false, opc, h, dst, sa, sb, mod, 0⟩
/-- An extended word with its second word. -/
def exte (opc : BitVec 8) (h : Hdr) (dst sa sb : BitVec 8) (mod : BitVec 4) (w2 : DWord) : Raw := ⟨true, opc, h, dst, sa, sb, mod, w2⟩

/-- Unit layout of a field (R154): 27:24 zero, 23:20 the number. -/
def unit4 (n : BitVec 4) : BitVec 8 := 0#4 ++ n
def lo4 (f : BitVec 8) : BitVec 4 := f.extractLsb' 0 4

/-- Second words (R159): immediate, and memory. -/
def immWord (imm : Word) : DWord := 3#2 ++ 0#30 ++ imm
def memWord (scope w level : BitVec 3) (off : Word) : DWord := 3#2 ++ 0#3 ++ scope ++ w ++ level ++ 0#18 ++ off
/-- The second word of an atomic (R213). -/
def atomWord (scope w : BitVec 3) (aop : BitVec 5) (sc3 : BitVec 8) (off : Word) : DWord :=
  3#2 ++ 0#3 ++ scope ++ w ++ aop ++ sc3 ++ 0#8 ++ off

def Raw.imm (r : Raw) : Word := r.w2.extractLsb' 0 32
def Raw.scopeX (r : Raw) : Option Scope := Scope.ofCode (r.w2.extractLsb' 56 3)
def Raw.widthX (r : Raw) : Option Width := Width.ofCode (r.w2.extractLsb' 53 3)
def Raw.scopeF (r : Raw) : Option Scope := Scope.ofCode (r.sb.extractLsb' 5 3)
def Raw.d (r : Raw) : Option Reg := Reg.ofCode r.dst
def Raw.a (r : Raw) : Option Reg := Reg.ofCode r.sa
def Raw.b (r : Raw) : Option Reg := Reg.ofCode r.sb
/-- MOD of a memory form: policy and hint (R154). -/
def polMod (p : Policy) (hint : BitVec 2) : BitVec 4 := p.code ++ hint
def Raw.hint (r : Raw) : BitVec 2 := r.mod.extractLsb' 0 2
def Raw.pol (r : Raw) : Option Policy := Policy.ofCode (r.mod.extractLsb' 2 2)
/-- MOD of a form that rounds (R132): bits 2:0. -/
def rmMod (rm : RmSel) : BitVec 4 := 0#1 ++ rm.code
def Raw.rm (r : Raw) : Option RmSel := RmSel.ofCode (r.mod.extractLsb' 0 3)
def w64Mod (b : Bool) : BitVec 4 := 0#3 ++ bit b
def Raw.m0 (r : Raw) : Bool := isSet (r.mod.extractLsb' 0 1)
/-- MOD of the integer class (R168). -/
def IntMod.bits (m : IntMod) : BitVec 4 := 0#1 ++ bit m.sat ++ bit m.us ++ bit m.w64
def Raw.intMod (r : Raw) : IntMod := ⟨isSet (r.mod.extractLsb' 0 1), isSet (r.mod.extractLsb' 1 1), isSet (r.mod.extractLsb' 2 1)⟩

/-! The operand layouts: for each, the fields it writes and the fields it reads. -/

def IntR.raw (opc : BitVec 8) (x : IntR) : Raw :=
  full opc x.h x.d.code x.a.code x.b.code x.m.bits
def IntR.parse (r : Raw) : Option IntR := do
  let d ← r.d
  let a ← r.a
  let b ← r.b
  some ⟨r.h, r.intMod, d, a, b⟩

def IntX.raw (opc : BitVec 8) (x : IntX) : Raw :=
  exte opc x.h x.d.code x.a.code 0 x.m.bits (immWord x.imm)
def IntX.parse (r : Raw) : Option IntX := do
  let d ← r.d
  let a ← r.a
  some ⟨r.h, r.intMod, d, a, r.imm⟩

def IntU.raw (opc : BitVec 8) (x : IntU) : Raw :=
  full opc x.h x.d.code x.a.code 0 x.m.bits
def IntU.parse (r : Raw) : Option IntU := do
  let d ← r.d
  let a ← r.a
  some ⟨r.h, r.intMod, d, a⟩

def LeaF.raw (opc : BitVec 8) (x : LeaF) : Raw :=
  full opc x.h x.d.code x.a.code x.b.code (bit x.sx ++ x.sh)
def LeaF.parse (r : Raw) : Option LeaF := do
  let d ← r.d
  let a ← r.a
  let b ← r.b
  some ⟨r.h, isSet (r.mod.extractLsb' 3 1), r.mod.extractLsb' 0 3, d, a, b⟩

def IcmpF.raw (opc : BitVec 8) (x : IcmpF) : Raw :=
  full opc x.h (0#5 ++ x.p) x.a.code x.b.code x.cond.code
def IcmpF.parse (r : Raw) : Option IcmpF := do
  let c ← ICond.ofCode r.mod
  let a ← r.a
  let b ← r.b
  some ⟨r.h, c, r.dst.extractLsb' 0 3, a, b⟩

def IcmpX.raw (opc : BitVec 8) (x : IcmpX) : Raw :=
  exte opc x.h (0#5 ++ x.p) x.a.code 0 x.cond.code (immWord x.imm)
def IcmpX.parse (r : Raw) : Option IcmpX := do
  let c ← ICond.ofCode r.mod
  let a ← r.a
  some ⟨r.h, c, r.dst.extractLsb' 0 3, a, r.imm⟩

def SelF.raw (opc : BitVec 8) (x : SelF) : Raw :=
  full opc x.h x.d.code x.a.code x.b.code (bit x.w64 ++ x.p)
def SelF.parse (r : Raw) : Option SelF := do
  let d ← r.d
  let a ← r.a
  let b ← r.b
  some ⟨r.h, isSet (r.mod.extractLsb' 3 1), r.mod.extractLsb' 0 3, d, a, b⟩

def MoviF.raw (opc : BitVec 8) (x : MoviF) : Raw :=
  full opc x.h x.d.code (x.imm.extractLsb' 8 8) (x.imm.extractLsb' 0 8) (w64Mod x.w64)
def MoviF.parse (r : Raw) : Option MoviF := do
  let d ← r.d
  some ⟨r.h, r.m0, d, r.sa ++ r.sb⟩

def MoviX.raw (opc : BitVec 8) (x : MoviX) : Raw :=
  exte opc x.h x.d.code 0 0 (w64Mod x.w64) (immWord x.imm)
def MoviX.parse (r : Raw) : Option MoviX := do
  let d ← r.d
  some ⟨r.h, r.m0, d, r.imm⟩

def FpR.raw (opc : BitVec 8) (x : FpR) : Raw :=
  full opc x.h x.d.code x.a.code x.b.code (rmMod x.rm)
def FpR.parse (r : Raw) : Option FpR := do
  let m ← r.rm
  let d ← r.d
  let a ← r.a
  let b ← r.b
  some ⟨r.h, m, d, a, b⟩

def FpX.raw (opc : BitVec 8) (x : FpX) : Raw :=
  exte opc x.h x.d.code x.a.code 0 (rmMod x.rm) (immWord x.imm)
def FpX.parse (r : Raw) : Option FpX := do
  let m ← r.rm
  let d ← r.d
  let a ← r.a
  some ⟨r.h, m, d, a, r.imm⟩

def FpM.raw (opc : BitVec 8) (x : FpM) : Raw :=
  full opc x.h x.d.code x.a.code x.b.code 0
def FpM.parse (r : Raw) : Option FpM := do
  let d ← r.d
  let a ← r.a
  let b ← r.b
  some ⟨r.h, d, a, b⟩

def FpU.raw (opc : BitVec 8) (x : FpU) : Raw :=
  full opc x.h x.d.code x.a.code 0 (rmMod x.rm)
def FpU.parse (r : Raw) : Option FpU := do
  let m ← r.rm
  let d ← r.d
  let a ← r.a
  some ⟨r.h, m, d, a⟩

def FpV.raw (opc : BitVec 8) (x : FpV) : Raw :=
  full opc x.h x.d.code x.a.code 0 0
def FpV.parse (r : Raw) : Option FpV := do
  let d ← r.d
  let a ← r.a
  some ⟨r.h, d, a⟩

def FcmpF.raw (opc : BitVec 8) (x : FcmpF) : Raw :=
  full opc x.h (0#5 ++ x.p) x.a.code x.b.code (0#1 ++ x.cond.code)
def FcmpF.parse (r : Raw) : Option FcmpF := do
  let c ← FCond.ofCode (r.mod.extractLsb' 0 3)
  let a ← r.a
  let b ← r.b
  some ⟨r.h, c, r.dst.extractLsb' 0 3, a, b⟩

def MovF.raw (opc : BitVec 8) (x : MovF) : Raw :=
  full opc x.h x.d.code x.a.code 0 (w64Mod x.w64)
def MovF.parse (r : Raw) : Option MovF := do
  let d ← r.d
  let a ← r.a
  some ⟨r.h, r.m0, d, a⟩

def FcvtF.raw (opc : BitVec 8) (x : FcvtF) : Raw :=
  full opc x.h x.d.code x.a.code x.conv.code (bit x.nsat ++ x.rm.code)
def FcvtF.parse (r : Raw) : Option FcvtF := do
  let m ← r.rm
  let c ← FConv.ofCode r.sb
  let d ← r.d
  let a ← r.a
  some ⟨r.h, m, isSet (r.mod.extractLsb' 3 1), c, d, a⟩

def ShflF.raw (opc : BitVec 8) (x : ShflF) : Raw :=
  full opc x.h x.d.code x.a.code x.b.code (0#1 ++ bit x.w64 ++ x.mode.code)
def ShflF.parse (r : Raw) : Option ShflF := do
  let m ← ShflMode.ofCode (r.mod.extractLsb' 0 2)
  let d ← r.d
  let a ← r.a
  let b ← r.b
  some ⟨r.h, isSet (r.mod.extractLsb' 2 1), m, d, a, b⟩

def VoteF.raw (opc : BitVec 8) (x : VoteF) : Raw :=
  full opc x.h x.d.code x.a.code 0 (0#2 ++ x.mode.code)
def VoteF.parse (r : Raw) : Option VoteF := do
  let m ← VoteMode.ofCode (r.mod.extractLsb' 0 2)
  let d ← r.d
  let a ← r.a
  some ⟨r.h, m, d, a⟩

def RedF.raw (opc : BitVec 8) (x : RedF) : Raw :=
  full opc x.h x.d.code x.a.code x.b.code x.op.code
def RedF.parse (r : Raw) : Option RedF := do
  let o ← RedOp.ofCode r.mod
  let d ← r.d
  let a ← r.a
  let b ← r.b
  some ⟨r.h, o, d, a, b⟩

def RdsrF.raw (opc : BitVec 8) (x : RdsrF) : Raw :=
  full opc x.h x.d.code 0 x.sr.code 0
def RdsrF.parse (r : Raw) : Option RdsrF := do
  let d ← r.d
  let s ← SysReg.ofCode r.sb
  some ⟨r.h, d, s⟩

def WrsrF.raw (opc : BitVec 8) (x : WrsrF) : Raw :=
  full opc x.h 0 x.a.code x.sr.code 0
def WrsrF.parse (r : Raw) : Option WrsrF := do
  let a ← r.a
  let s ← SysReg.ofCode r.sb
  some ⟨r.h, s, a⟩

def MovtsF.raw (opc : BitVec 8) (x : MovtsF) : Raw :=
  full opc x.h (BitVec.ofNat 8 x.t.val) x.a.code 0 0
def MovtsF.parse (r : Raw) : Option MovtsF := do
  let t ← finOf 8 r.dst.toNat
  let a ← r.a
  some ⟨r.h, t, a⟩

def Plain.raw (opc : BitVec 8) (mod : BitVec 4) (x : Plain) : Raw :=
  full opc x.h 0 0 0 mod
def Plain.parse (r : Raw) : Option Plain := do
  some ⟨r.h⟩

def BraF.raw (opc : BitVec 8) (x : BraF) : Raw :=
  full opc x.h (x.off.extractLsb' 16 8) (x.off.extractLsb' 8 8) (x.off.extractLsb' 0 8) 0
def BraF.parse (r : Raw) : Option BraF := do
  some ⟨r.h, r.dst ++ r.sa ++ r.sb⟩

def BraX.raw (opc : BitVec 8) (x : BraX) : Raw :=
  exte opc x.h 0 0 0 0 (immWord x.off)
def BraX.parse (r : Raw) : Option BraX := do
  some ⟨r.h, r.imm⟩

def CallX.raw (opc : BitVec 8) (x : CallX) : Raw :=
  exte opc x.h x.d.code 0 0 0 (immWord x.off)
def CallX.parse (r : Raw) : Option CallX := do
  let d ← r.d
  some ⟨r.h, d, r.imm⟩

def JumpF.raw (opc : BitVec 8) (mod : BitVec 4) (x : JumpF) : Raw :=
  full opc x.h 0 x.a.code 0 mod
def JumpF.parse (r : Raw) : Option JumpF := do
  let a ← r.a
  some ⟨r.h, a⟩

def CallxF.raw (opc : BitVec 8) (x : CallxF) : Raw :=
  full opc x.h x.d.code x.a.code 0 0
def CallxF.parse (r : Raw) : Option CallxF := do
  let d ← r.d
  let a ← r.a
  some ⟨r.h, d, a⟩

def DestF.raw (opc : BitVec 8) (x : DestF) : Raw :=
  full opc x.h x.d.code 0 0 0
def DestF.parse (r : Raw) : Option DestF := do
  let d ← r.d
  some ⟨r.h, d⟩

def PolMem.raw (opc : BitVec 8) (x : PolMem) : Raw :=
  full opc x.h x.data.code x.addr.code (x.scope.code ++ x.off) (polMod x.pol x.hint)
def PolMem.parse (r : Raw) : Option PolMem := do
  let p ← r.pol
  let d ← r.d
  let a ← r.a
  let s ← r.scopeF
  some ⟨r.h, p, r.hint, d, a, s, r.sb.extractLsb' 0 5⟩

def PolMemX.raw (opc : BitVec 8) (x : PolMemX) : Raw :=
  exte opc x.h x.data.code x.addr.code 0 (polMod x.pol x.hint) (memWord x.scope.code 0 0 x.off)
def PolMemX.parse (r : Raw) : Option PolMemX := do
  let p ← r.pol
  let d ← r.d
  let a ← r.a
  let s ← r.scopeX
  some ⟨r.h, p, r.hint, d, a, s, r.imm⟩

def CistMem.raw (opc : BitVec 8) (x : CistMem) : Raw :=
  full opc x.h x.data.code x.base.code x.off (0#1 ++ x.w.code)
def CistMem.parse (r : Raw) : Option CistMem := do
  let w ← Width.ofCode (r.mod.extractLsb' 0 3)
  let d ← r.d
  let a ← r.a
  some ⟨r.h, w, d, a, r.sb⟩

def CistMemX.raw (opc : BitVec 8) (x : CistMemX) : Raw :=
  exte opc x.h x.data.code x.base.code 0 (0#1 ++ x.w.code) (memWord 0 0 0 x.off)
def CistMemX.parse (r : Raw) : Option CistMemX := do
  let w ← Width.ofCode (r.mod.extractLsb' 0 3)
  let d ← r.d
  let a ← r.a
  some ⟨r.h, w, d, a, r.imm⟩

def LexMem.raw (opc : BitVec 8) (x : LexMem) : Raw :=
  exte opc x.h x.data.code x.idx.code 0 (polMod x.pol x.hint) (memWord x.scope.code x.w.code x.level x.off)
def LexMem.parse (r : Raw) : Option LexMem := do
  let p ← r.pol
  let w ← r.widthX
  let s ← r.scopeX
  let d ← r.d
  let a ← r.a
  some ⟨r.h, p, r.hint, w, s, r.w2.extractLsb' 50 3, d, a, r.imm⟩

def LdpF.raw (opc : BitVec 8) (x : LdpF) : Raw :=
  full opc x.h 0 x.addr.code (x.scope.code ++ x.off) (polMod x.pol x.hint)
def LdpF.parse (r : Raw) : Option LdpF := do
  let p ← r.pol
  let a ← r.a
  let s ← r.scopeF
  some ⟨r.h, p, r.hint, a, s, r.sb.extractLsb' 0 5⟩

def LdpX.raw (opc : BitVec 8) (x : LdpX) : Raw :=
  exte opc x.h 0 x.addr.code 0 (polMod x.pol x.hint) (memWord x.scope.code 0 0 x.off)
def LdpX.parse (r : Raw) : Option LdpX := do
  let p ← r.pol
  let a ← r.a
  let s ← r.scopeX
  some ⟨r.h, p, r.hint, a, s, r.imm⟩

def GathF.raw (opc : BitVec 8) (x : GathF) : Raw :=
  full opc x.h x.data.code x.addr.code (x.scope.code ++ x.w.code ++ 0#2) (polMod x.pol x.hint)
def GathF.parse (r : Raw) : Option GathF := do
  let p ← r.pol
  let w ← Width.ofCode (r.sb.extractLsb' 2 3)
  let d ← r.d
  let a ← r.a
  let s ← r.scopeF
  some ⟨r.h, p, r.hint, w, d, a, s⟩

def GathX.raw (opc : BitVec 8) (x : GathX) : Raw :=
  exte opc x.h x.data.code x.addr.code 0 (polMod x.pol x.hint) (memWord x.scope.code x.w.code 0 x.off)
def GathX.parse (r : Raw) : Option GathX := do
  let p ← r.pol
  let w ← r.widthX
  let d ← r.d
  let a ← r.a
  let s ← r.scopeX
  some ⟨r.h, p, r.hint, w, d, a, s, r.imm⟩

def RangeF.raw (opc : BitVec 8) (x : RangeF) : Raw :=
  match x.sel with
  | .all => full opc x.h 0 0 0 1
  | .range a n => full opc x.h 0 a.code n.code 0

def RangeF.parse (r : Raw) : Option RangeF :=
  if r.m0 then some ⟨r.h, .all⟩ else do
    let a ← r.a
    let n ← r.b
    some ⟨r.h, .range a n⟩

def FenceF.raw (opc : BitVec 8) (x : FenceF) : Raw :=
  full opc x.h 0 0 (x.scope.code ++ 0#5) (0#2 ++ x.kind.code)
def FenceF.parse (r : Raw) : Option FenceF := do
  let k ← FenceKind.ofCode (r.mod.extractLsb' 0 2)
  let s ← r.scopeF
  some ⟨r.h, k, s⟩

def FesetF.raw (opc : BitVec 8) (x : FesetF) : Raw :=
  full opc x.h 0 x.a.code x.n.code (w64Mod x.toFull)
def FesetF.parse (r : Raw) : Option FesetF := do
  let a ← r.a
  let n ← r.b
  some ⟨r.h, r.m0, a, n⟩

def AtomX.raw (opc : BitVec 8) (x : AtomX) : Raw :=
  exte opc x.h x.data.code x.addr.code x.b.code (polMod x.pol x.hint) (atomWord x.scope.code x.w.code x.op.code 0 x.off)
def AtomX.parse (r : Raw) : Option AtomX := do
  let p ← r.pol
  let o ← AtomOp.ofCode (r.w2.extractLsb' 48 5)
  let w ← r.widthX
  let s ← r.scopeX
  let d ← r.d
  let a ← r.a
  let b ← r.b
  some ⟨r.h, p, r.hint, o, w, s, d, a, b, r.imm⟩

def AtcasX.raw (opc : BitVec 8) (x : AtcasX) : Raw :=
  exte opc x.h x.data.code x.addr.code x.b.code (polMod x.pol x.hint) (atomWord x.scope.code x.w.code 0 x.c.code x.off)
def AtcasX.parse (r : Raw) : Option AtcasX := do
  let p ← r.pol
  let w ← r.widthX
  let s ← r.scopeX
  let d ← r.d
  let a ← r.a
  let b ← r.b
  let c ← Reg.ofCode (r.w2.extractLsb' 40 8)
  some ⟨r.h, p, r.hint, w, s, d, a, b, c, r.imm⟩

def RedX.raw (opc : BitVec 8) (x : RedX) : Raw :=
  exte opc x.h 0 x.addr.code x.b.code (polMod x.pol x.hint) (atomWord x.scope.code x.w.code x.op.code 0 x.off)
def RedX.parse (r : Raw) : Option RedX := do
  let p ← r.pol
  let o ← AtomOp.ofCode (r.w2.extractLsb' 48 5)
  let w ← r.widthX
  let s ← r.scopeX
  let a ← r.a
  let b ← r.b
  some ⟨r.h, p, r.hint, o, w, s, a, b, r.imm⟩

def LrX.raw (opc : BitVec 8) (x : LrX) : Raw :=
  exte opc x.h x.data.code x.addr.code 0 (polMod x.pol x.hint) (memWord x.scope.code x.w.code 0 x.off)
def LrX.parse (r : Raw) : Option LrX := do
  let p ← r.pol
  let w ← r.widthX
  let s ← r.scopeX
  let d ← r.d
  let a ← r.a
  some ⟨r.h, p, r.hint, w, s, d, a, r.imm⟩

def ScX.raw (opc : BitVec 8) (x : ScX) : Raw :=
  exte opc x.h x.data.code x.addr.code x.b.code (polMod x.pol x.hint) (atomWord x.scope.code x.w.code 0 0 x.off)
def ScX.parse (r : Raw) : Option ScX := do
  let p ← r.pol
  let w ← r.widthX
  let s ← r.scopeX
  let d ← r.d
  let a ← r.a
  let b ← r.b
  some ⟨r.h, p, r.hint, w, s, d, a, b, r.imm⟩

def BariF.raw (opc : BitVec 8) (x : BariF) : Raw :=
  full opc x.h (unit4 (BitVec.ofNat 4 x.b.val)) x.a.code 0 0
def BariF.parse (r : Raw) : Option BariF := do
  let b ← finOf 16 (lo4 r.dst).toNat
  let a ← r.a
  some ⟨r.h, b, a⟩

def BariX.raw (opc : BitVec 8) (x : BariX) : Raw :=
  exte opc x.h (unit4 (BitVec.ofNat 4 x.b.val)) 0 0 0 (immWord (0#24 ++ x.count))
def BariX.parse (r : Raw) : Option BariX := do
  let b ← finOf 16 (lo4 r.dst).toNat
  some ⟨r.h, b, r.imm.extractLsb' 0 8⟩

def BarF.raw (opc : BitVec 8) (x : BarF) : Raw :=
  full opc x.h (unit4 (BitVec.ofNat 4 x.b.val)) 0 0 0
def BarF.parse (r : Raw) : Option BarF := do
  let b ← finOf 16 (lo4 r.dst).toNat
  some ⟨r.h, b⟩

def BartF.raw (opc : BitVec 8) (x : BartF) : Raw :=
  full opc x.h (unit4 (BitVec.ofNat 4 x.b.val)) 0 0 (0#1 ++ x.p)
def BartF.parse (r : Raw) : Option BartF := do
  let b ← finOf 16 (lo4 r.dst).toNat
  some ⟨r.h, b, r.mod.extractLsb' 0 3⟩

def SyncF.raw (opc : BitVec 8) (x : SyncF) : Raw :=
  full opc x.h 0 0 0 (0#1 ++ x.scope.code)
def SyncF.parse (r : Raw) : Option SyncF := do
  let s ← Scope.ofCode (r.mod.extractLsb' 0 3)
  some ⟨r.h, s⟩

/-- The second word of TLD and TST (R235). -/
def tileWord (scope : BitVec 3) (stride : BitVec 16) (ty : BitVec 4) (off : Word) : DWord :=
  3#2 ++ 0#3 ++ scope ++ stride ++ ty ++ 0#4 ++ off

def TldX.raw (opc : BitVec 8) (x : TldX) : Raw :=
  exte opc x.h (unit4 (BitVec.ofNat 4 x.t.val)) x.addr.code 0 (polMod x.pol x.hint) (tileWord x.scope.code x.stride x.ty.code x.off)
def TldX.parse (r : Raw) : Option TldX := do
  let p ← r.pol
  let t ← finOf 8 (lo4 r.dst).toNat
  let y ← TileTy.ofCode (r.w2.extractLsb' 36 4)
  let a ← r.a
  let s ← r.scopeX
  some ⟨r.h, p, r.hint, t, y, a, s, r.w2.extractLsb' 40 16, r.imm⟩

def TstSrc.unit : TstSrc → TUnit
  | .tile t _ => .tile t
  | .acc n => .acc n
def TstSrc.type : TstSrc → BitVec 4
  | .tile _ ty => ty.code
  | .acc _ => 15
/-- TYPE 0xF goes with an accumulator, 0 to 5 with a tile (R235). -/
def TstSrc.of (u : TUnit) (ty : BitVec 4) : Option TstSrc :=
  match u with
  | .tile t => (TileTy.ofCode ty).map (.tile t)
  | .acc n => if ty == 15 then some (.acc n) else none

def TstX.raw (opc : BitVec 8) (x : TstX) : Raw :=
  exte opc x.h (unit4 x.src.unit.code) x.addr.code 0 (polMod x.pol x.hint) (tileWord x.scope.code x.stride x.src.type x.off)
def TstX.parse (r : Raw) : Option TstX := do
  let p ← r.pol
  let u ← TUnit.ofCode (lo4 r.dst)
  let y ← TstSrc.of u (r.w2.extractLsb' 36 4)
  let a ← r.a
  let s ← r.scopeX
  some ⟨r.h, p, r.hint, y, a, s, r.w2.extractLsb' 40 16, r.imm⟩

def TzeroF.raw (opc : BitVec 8) (x : TzeroF) : Raw :=
  full opc x.h (unit4 x.u.code) 0 0 0
def TzeroF.parse (r : Raw) : Option TzeroF := do
  let u ← TUnit.ofCode (lo4 r.dst)
  some ⟨r.h, u⟩

/-- The second word of the matrix instructions (R239). -/
def matWord (tm : BitVec 3) (pat : BitVec 2) (kb : BitVec 8) : DWord := 3#2 ++ 0#47 ++ tm ++ pat ++ 0#2 ++ kb

def TmmX.raw (opc : BitVec 8) (x : TmmX) : Raw :=
  exte opc x.h (unit4 (accCode x.ac)) (BitVec.ofNat 8 x.ta.val) (BitVec.ofNat 8 x.tb.val) x.ty.code (matWord 0 0 x.kb)
def TmmX.parse (r : Raw) : Option TmmX := do
  let n ← accOf (lo4 r.dst)
  let a ← finOf 8 r.sa.toNat
  let b ← finOf 8 r.sb.toNat
  let y ← TileTy.ofCode r.mod
  some ⟨r.h, n, a, b, y, r.w2.extractLsb' 0 8⟩

def TmmsX.raw (opc : BitVec 8) (x : TmmsX) : Raw :=
  exte opc x.h (unit4 (accCode x.ac)) (BitVec.ofNat 8 x.ta.val) (BitVec.ofNat 8 x.tb.val) x.ty.code (matWord (BitVec.ofNat 3 x.tm.val) x.pat.code x.kb)
def TmmsX.parse (r : Raw) : Option TmmsX := do
  let n ← accOf (lo4 r.dst)
  let a ← finOf 8 r.sa.toNat
  let b ← finOf 8 r.sb.toNat
  let m ← finOf 8 (r.w2.extractLsb' 12 3).toNat
  let y ← TileTy.ofCode r.mod
  let p ← Pat.ofCode (r.w2.extractLsb' 10 2)
  some ⟨r.h, n, a, b, m, y, p, r.w2.extractLsb' 0 8⟩

def TwaitF.raw (opc : BitVec 8) (x : TwaitF) : Raw :=
  full opc x.h (unit4 (accCode x.ac)) 0 0 0
def TwaitF.parse (r : Raw) : Option TwaitF := do
  let n ← accOf (lo4 r.dst)
  some ⟨r.h, n⟩

def TaccF.raw (opc : BitVec 8) (mod : BitVec 4) (x : TaccF) : Raw :=
  full opc x.h x.data.code (unit4 (accCode x.ac)) x.idx.code mod
def TaccF.parse (r : Raw) : Option TaccF := do
  let d ← r.d
  let n ← accOf (lo4 r.sa)
  let i ← r.b
  some ⟨r.h, d, n, i⟩

def TaccScl.raw (opc : BitVec 8) (x : TaccScl) : Raw :=
  full opc x.h x.d.code (BitVec.ofNat 8 x.t.val) (0#2 ++ x.j) 2
def TaccScl.parse (r : Raw) : Option TaccScl := do
  let d ← r.d
  let t ← finOf 8 r.sa.toNat
  some ⟨r.h, d, t, r.sb.extractLsb' 0 6⟩

def TgemmX.raw (opc : BitVec 8) (x : TgemmX) : Raw :=
  exte opc x.h (unit4 (accCode x.ac)) x.ab.code x.c.code x.ty.code (3#2 ++ 0#6 ++ x.mt ++ x.nt ++ x.ks ++ 0#16)
def TgemmX.parse (r : Raw) : Option TgemmX := do
  let y ← TileTy.ofCode r.mod
  let n ← accOf (lo4 r.dst)
  let a ← r.a
  let c ← r.b
  some ⟨r.h, y, n, a, c, r.w2.extractLsb' 44 12, r.w2.extractLsb' 32 12, r.w2.extractLsb' 16 16⟩

/-- The second word of CPY, CPYCV and CPYLB (R250). -/
def copyWord (len : Reg) (chan : Option Chan) (flag td : Bool) (form : Word) : DWord :=
  match chan with
  | some c => 3#2 ++ 0#3 ++ c.scope.code ++ len.code ++ 1#1 ++ BitVec.ofNat 2 c.ch.val ++ bit flag ++ bit td ++ 0#3 ++ c.pub.code ++ form
  | none => 3#2 ++ 0#3 ++ 0#3 ++ len.code ++ 0#1 ++ 0#2 ++ bit flag ++ bit td ++ 0#3 ++ (Reg.sp .zero).code ++ form
def Raw.lenX (r : Raw) : Option Reg := Reg.ofCode (r.w2.extractLsb' 48 8)
def Raw.chanX (r : Raw) : Option (Option Chan) :=
  if isSet (r.w2.extractLsb' 47 1) then do
    let n ← finOf 4 (r.w2.extractLsb' 45 2).toNat
    let s ← r.scopeX
    let p ← Reg.ofCode (r.w2.extractLsb' 32 8)
    some (some ⟨n, s, p⟩)
  else some none

def CpyX.raw (opc : BitVec 8) (x : CpyX) : Raw :=
  exte opc x.h (unit4 (BitVec.ofNat 4 x.b.val)) x.dst.code x.src.code (polMod x.pol x.hint) (copyWord x.len x.chan false x.td 0)
def CpyX.parse (r : Raw) : Option CpyX := do
  let b ← finOf 16 (lo4 r.dst).toNat
  let p ← r.pol
  let d ← r.a
  let s ← r.b
  let l ← r.lenX
  let c ← r.chanX
  some ⟨r.h, b, p, r.hint, d, s, l, c, isSet (r.w2.extractLsb' 43 1)⟩

/-- The second word of CPYM (R255). -/
def cpymWord (len : Reg) (td : Bool) (c : MatCmd) : DWord :=
  3#2 ++ 0#6 ++ len.code ++ 0#4 ++ bit td ++ c.mop.code ++ c.ty.code ++ 0#2 ++ BitVec.ofNat 2 c.ac.val ++ BitVec.ofNat 3 c.ta.val ++
    BitVec.ofNat 3 c.tb.val ++ BitVec.ofNat 3 c.tm.val ++ c.pat.code ++ 0#13 ++ c.kb
def Raw.matCmd (r : Raw) : Option MatCmd := do
  let op ← MatOp.ofCode (r.w2.extractLsb' 40 3)
  let ty ← TileTy.ofCode (r.w2.extractLsb' 36 4)
  let ac ← finOf 4 (r.w2.extractLsb' 32 2).toNat
  let ta ← finOf 8 (r.w2.extractLsb' 29 3).toNat
  let tb ← finOf 8 (r.w2.extractLsb' 26 3).toNat
  let tm ← finOf 8 (r.w2.extractLsb' 23 3).toNat
  let pat ← Pat.ofCode (r.w2.extractLsb' 21 2)
  some ⟨op, ty, ac, ta, tb, tm, pat, r.w2.extractLsb' 0 8⟩

def CpymX.raw (opc : BitVec 8) (x : CpymX) : Raw :=
  exte opc x.h (unit4 (BitVec.ofNat 4 x.b.val)) x.dst.code x.src.code (polMod x.pol x.hint) (cpymWord x.len x.td x.cmd)
def CpymX.parse (r : Raw) : Option CpymX := do
  let b ← finOf 16 (lo4 r.dst).toNat
  let p ← r.pol
  let d ← r.a
  let s ← r.b
  let l ← r.lenX
  let c ← r.matCmd
  some ⟨r.h, b, p, r.hint, d, s, l, isSet (r.w2.extractLsb' 43 1), c⟩

def CpycvX.raw (opc : BitVec 8) (x : CpycvX) : Raw :=
  exte opc x.h (unit4 (BitVec.ofNat 4 x.b.val)) x.dst.code x.src.code (polMod x.pol x.hint) (copyWord x.len x.chan x.nsat false x.form)
def CpycvX.parse (r : Raw) : Option CpycvX := do
  let b ← finOf 16 (lo4 r.dst).toNat
  let p ← r.pol
  let d ← r.a
  let s ← r.b
  let l ← r.lenX
  let c ← r.chanX
  some ⟨r.h, b, p, r.hint, d, s, l, c, isSet (r.w2.extractLsb' 44 1), r.imm⟩

def CpylbX.raw (opc : BitVec 8) (x : CpylbX) : Raw :=
  exte opc x.h (unit4 (BitVec.ofNat 4 x.b.val)) x.dst.code x.src.code (polMod x.pol x.hint) (copyWord x.len (some x.chan) x.fresh false (x.rowb ++ x.sstr))
def CpylbX.parse (r : Raw) : Option CpylbX := do
  let b ← finOf 16 (lo4 r.dst).toNat
  let p ← r.pol
  let d ← r.a
  let s ← r.b
  let l ← r.lenX
  let c ← r.chanX.join
  some ⟨r.h, b, p, r.hint, d, s, l, c, isSet (r.w2.extractLsb' 44 1), r.w2.extractLsb' 16 16, r.w2.extractLsb' 0 16⟩

def FbopenX.raw (opc : BitVec 8) (x : FbopenX) : Raw :=
  exte opc x.h (unit4 (BitVec.ofNat 4 x.q.val)) x.a.code x.b.code (polMod x.pol x.hint) (3#2 ++ 0#3 ++ x.scope.code ++ 0#22 ++ x.lev ++ 0#32)
def FbopenX.parse (r : Raw) : Option FbopenX := do
  let p ← r.pol
  let q ← finOf 16 (lo4 r.dst).toNat
  let a ← r.a
  let b ← r.b
  let s ← r.scopeX
  some ⟨r.h, p, r.hint, q, a, b, s, r.w2.extractLsb' 32 2⟩

def FbnextF.raw (opc : BitVec 8) (x : FbnextF) : Raw :=
  full opc x.h x.c.code x.p.code (BitVec.ofNat 4 x.q.val ++ 0#4) (0#1 ++ x.pm)
def FbnextF.parse (r : Raw) : Option FbnextF := do
  let c ← r.d
  let p ← r.a
  let q ← finOf 16 (r.sb.extractLsb' 4 4).toNat
  some ⟨r.h, c, p, r.mod.extractLsb' 0 3, q⟩

def FbpairF.raw (opc : BitVec 8) (x : FbpairF) : Raw :=
  full opc x.h (unit4 (BitVec.ofNat 4 x.d.val)) (BitVec.ofNat 8 x.a.val) (BitVec.ofNat 8 x.b.val) 0
def FbpairF.parse (r : Raw) : Option FbpairF := do
  let d ← finOf 16 (lo4 r.dst).toNat
  let a ← finOf 16 r.sa.toNat
  let b ← finOf 16 r.sb.toNat
  some ⟨r.h, d, a, b⟩

def FbskipF.raw (opc : BitVec 8) (x : FbskipF) : Raw :=
  full opc x.h (unit4 (BitVec.ofNat 4 x.q.val)) x.k.code 0 0
def FbskipF.parse (r : Raw) : Option FbskipF := do
  let q ← finOf 16 (lo4 r.dst).toNat
  let k ← r.a
  some ⟨r.h, q, k⟩

def FbstF.raw (opc : BitVec 8) (x : FbstF) : Raw :=
  full opc x.h (unit4 (BitVec.ofNat 4 x.q.val)) x.addr.code (x.scope.code ++ x.off) (polMod x.pol x.hint)
def FbstF.parse (r : Raw) : Option FbstF := do
  let p ← r.pol
  let q ← finOf 16 (lo4 r.dst).toNat
  let a ← r.a
  let s ← r.scopeF
  some ⟨r.h, p, r.hint, q, a, s, r.sb.extractLsb' 0 5⟩

def FbstX.raw (opc : BitVec 8) (x : FbstX) : Raw :=
  exte opc x.h (unit4 (BitVec.ofNat 4 x.q.val)) x.addr.code 0 (polMod x.pol x.hint) (memWord x.scope.code 0 0 x.off)
def FbstX.parse (r : Raw) : Option FbstX := do
  let p ← r.pol
  let q ← finOf 16 (lo4 r.dst).toNat
  let a ← r.a
  let s ← r.scopeX
  some ⟨r.h, p, r.hint, q, a, s, r.imm⟩

def CollX.raw (opc : BitVec 8) (x : CollX) : Raw :=
  exte opc x.h 0 x.a.code 0 0 (3#2 ++ 0#3 ++ x.scope.code ++ 0#4 ++ x.op.code ++ x.ty.code ++ 0#4 ++ x.id ++ 0#32)
def CollX.parse (r : Raw) : Option CollX := do
  let a ← r.a
  let s ← CollScope.ofCode (r.w2.extractLsb' 56 3)
  let o ← CollOp.ofCode (r.w2.extractLsb' 48 4)
  let t ← CollTy.ofCode (r.w2.extractLsb' 44 4)
  some ⟨r.h, a, s, o, t, r.w2.extractLsb' 32 8⟩

def LaunchF.raw (opc : BitVec 8) (x : LaunchF) : Raw :=
  full opc x.h x.d.code (BitVec.ofNat 8 (192 + 8 * x.recd.val)) x.arg.code 0
def LaunchF.parse (r : Raw) : Option LaunchF := do
  let d ← r.d
  let n ← finOf 4 ((r.sa.toNat - 192) / 8)
  let b ← r.b
  some ⟨r.h, d, n, b⟩

def TrapF.raw (opc : BitVec 8) (x : TrapF) : Raw :=
  full opc x.h 0 (x.code.extractLsb' 8 8) (x.code.extractLsb' 0 8) 0
def TrapF.parse (r : Raw) : Option TrapF := do
  some ⟨r.h, r.sa ++ r.sb⟩

def TlbPageF.raw (opc : BitVec 8) (x : TlbPageF) : Raw :=
  full opc x.h 0 x.a.code (Reg.sp .zero).code (x.scope.code ++ 0#2)
def TlbPageF.parse (r : Raw) : Option TlbPageF := do
  let s ← InvScope.ofCode (r.mod.extractLsb' 2 2)
  let a ← r.a
  some ⟨r.h, s, a⟩

def TlbRangeF.raw (opc : BitVec 8) (mode : BitVec 2) (x : TlbRangeF) : Raw :=
  full opc x.h 0 x.a.code x.n.code (x.scope.code ++ mode)
def TlbRangeF.parse (r : Raw) : Option TlbRangeF := do
  let s ← InvScope.ofCode (r.mod.extractLsb' 2 2)
  let a ← r.a
  let n ← r.b
  some ⟨r.h, s, a, n⟩

def TlbVfF.raw (opc : BitVec 8) (mode : BitVec 2) (x : TlbVfF) : Raw :=
  full opc x.h 0 (Reg.sp .zero).code (Reg.sp .zero).code (x.scope.code ++ mode)
def TlbVfF.parse (r : Raw) : Option TlbVfF := do
  let s ← InvScope.ofCode (r.mod.extractLsb' 2 2)
  some ⟨r.h, s⟩

def ReclaimF.raw (opc : BitVec 8) (x : ReclaimF) : Raw :=
  full opc x.h x.data.code x.addr.code 0 0
def ReclaimF.parse (r : Raw) : Option ReclaimF := do
  let d ← r.d
  let a ← r.a
  some ⟨r.h, d, a⟩

def PwrhintF.raw (opc : BitVec 8) (x : PwrhintF) : Raw :=
  full opc x.h 0 0 0 (0#2 ++ x.level)
def PwrhintF.parse (r : Raw) : Option PwrhintF := do
  some ⟨r.h, r.mod.extractLsb' 0 2⟩

def D2F.raw (opc : BitVec 8) (x : D2F) : Raw := ⟨x.ext, opc, x.h, x.dst, x.sa, x.sb, x.mod, if x.ext then immWord 0 else 0⟩

def D2F.parse (r : Raw) : Option D2F := some ⟨r.h, r.ext, r.dst, r.sa, r.sb, r.mod⟩


/-- The raw fields of a full or extended form, by the opcode map (R162). -/
def Instr.raw : Instr → Option Raw
  | .iadd x => some (x.raw 0x01)
  | .iaddX x => some (x.raw 0x01)
  | .isub x => some (x.raw 0x02)
  | .isubX x => some (x.raw 0x02)
  | .imul x => some (x.raw 0x03)
  | .imulX x => some (x.raw 0x03)
  | .imulh x => some (x.raw 0x04)
  | .imulhX x => some (x.raw 0x04)
  | .imad x => some (x.raw 0x05)
  | .imin x => some (x.raw 0x06)
  | .iminX x => some (x.raw 0x06)
  | .imax x => some (x.raw 0x07)
  | .imaxX x => some (x.raw 0x07)
  | .iabs x => some (x.raw 0x08)
  | .and x => some (x.raw 0x09)
  | .andX x => some (x.raw 0x09)
  | .or x => some (x.raw 0x0A)
  | .orX x => some (x.raw 0x0A)
  | .xor x => some (x.raw 0x0B)
  | .xorX x => some (x.raw 0x0B)
  | .andn x => some (x.raw 0x0C)
  | .andnX x => some (x.raw 0x0C)
  | .shl x => some (x.raw 0x0D)
  | .shlX x => some (x.raw 0x0D)
  | .shr x => some (x.raw 0x0E)
  | .shrX x => some (x.raw 0x0E)
  | .sar x => some (x.raw 0x0F)
  | .sarX x => some (x.raw 0x0F)
  | .popc x => some (x.raw 0x10)
  | .clz x => some (x.raw 0x11)
  | .brev x => some (x.raw 0x12)
  | .bfx x => some (x.raw 0x13)
  | .bfxX x => some (x.raw 0x13)
  | .bfi x => some (x.raw 0x14)
  | .bfiX x => some (x.raw 0x14)
  | .lea x => some (x.raw 0x15)
  | .icmp x => some (x.raw 0x16)
  | .icmpX x => some (x.raw 0x16)
  | .sel x => some (x.raw 0x17)
  | .movi x => some (x.raw 0x18)
  | .moviX x => some (x.raw 0x18)
  | .fadd x => some (x.raw 0x20)
  | .faddX x => some (x.raw 0x20)
  | .fsub x => some (x.raw 0x21)
  | .fsubX x => some (x.raw 0x21)
  | .fmul x => some (x.raw 0x22)
  | .fmulX x => some (x.raw 0x22)
  | .ffma x => some (x.raw 0x23)
  | .fmin x => some (x.raw 0x24)
  | .fmax x => some (x.raw 0x25)
  | .fcmp x => some (x.raw 0x26)
  | .frcp x => some (x.raw 0x27)
  | .frsq x => some (x.raw 0x28)
  | .fsqrt x => some (x.raw 0x29)
  | .fexp2 x => some (x.raw 0x2A)
  | .flog2 x => some (x.raw 0x2B)
  | .fsin x => some (x.raw 0x2C)
  | .fcos x => some (x.raw 0x2D)
  | .frnd x => some (x.raw 0x2E)
  | .fclass x => some (x.raw 0x2F)
  | .hadd2 x => some (x.raw 0x30)
  | .hmul2 x => some (x.raw 0x31)
  | .hfma2 x => some (x.raw 0x32)
  | .badd2 x => some (x.raw 0x33)
  | .bmul2 x => some (x.raw 0x34)
  | .bfma2 x => some (x.raw 0x35)
  | .mov x => some (x.raw 0x40)
  | .movs x => some (x.raw 0x41)
  | .f2i x => some (x.raw 0x42)
  | .i2f x => some (x.raw 0x43)
  | .fcvt x => some (x.raw 0x44)
  | .qpack x => some (x.raw 0x45)
  | .qunpk x => some (x.raw 0x46)
  | .shfl x => some (x.raw 0x47)
  | .vote x => some (x.raw 0x48)
  | .redg x => some (x.raw 0x49)
  | .scang x => some (x.raw 0x4A)
  | .rdsr x => some (x.raw 0x4B)
  | .wrsr x => some (x.raw 0x4C)
  | .movts x => some (x.raw 0x4D)
  | .nop x => some (x.raw 0x60 0)
  | .bra x => some (x.raw 0x61)
  | .braX x => some (x.raw 0x61)
  | .brx x => some (x.raw 0x62 0)
  | .call x => some (x.raw 0x63)
  | .callX x => some (x.raw 0x63)
  | .callx x => some (x.raw 0x64)
  | .ret x => some (x.raw 0x65 0)
  | .land x => some (x.raw 0x66 0)
  | .exit x => some (x.raw 0x67 0)
  | .yield x => some (x.raw 0x68 0)
  | .dqpush x => some (x.raw 0x69 0)
  | .dqpop x => some (x.raw 0x6A)
  | .tfence x => some (x.raw 0x6B 0)
  | .ld8 x => some (x.raw 0x80)
  | .ld8X x => some (x.raw 0x80)
  | .ld16 x => some (x.raw 0x81)
  | .ld16X x => some (x.raw 0x81)
  | .ld32 x => some (x.raw 0x82)
  | .ld32X x => some (x.raw 0x82)
  | .ld64 x => some (x.raw 0x83)
  | .ld64X x => some (x.raw 0x83)
  | .ld128 x => some (x.raw 0x84)
  | .ld128X x => some (x.raw 0x84)
  | .st8 x => some (x.raw 0x85)
  | .st8X x => some (x.raw 0x85)
  | .st16 x => some (x.raw 0x86)
  | .st16X x => some (x.raw 0x86)
  | .st32 x => some (x.raw 0x87)
  | .st32X x => some (x.raw 0x87)
  | .st64 x => some (x.raw 0x88)
  | .st64X x => some (x.raw 0x88)
  | .st128 x => some (x.raw 0x89)
  | .st128X x => some (x.raw 0x89)
  | .lds x => some (x.raw 0x8A)
  | .ldsX x => some (x.raw 0x8A)
  | .sts x => some (x.raw 0x8B)
  | .stsX x => some (x.raw 0x8B)
  | .ldlv x => some (x.raw 0x8C)
  | .stlv x => some (x.raw 0x8D)
  | .ldp x => some (x.raw 0x8E)
  | .ldpX x => some (x.raw 0x8E)
  | .gath x => some (x.raw 0x8F)
  | .gathX x => some (x.raw 0x8F)
  | .scat x => some (x.raw 0x90)
  | .scatX x => some (x.raw 0x90)
  | .cinv x => some (x.raw 0x91)
  | .cflush x => some (x.raw 0x92)
  | .fence x => some (x.raw 0x93)
  | .ldfe x => some (x.raw 0xA0)
  | .ldfeX x => some (x.raw 0xA0)
  | .stef x => some (x.raw 0xA1)
  | .stefX x => some (x.raw 0xA1)
  | .feset x => some (x.raw 0xA2)
  | .atom x => some (x.raw 0xA3)
  | .atcas x => some (x.raw 0xA4)
  | .red x => some (x.raw 0xA5)
  | .lr x => some (x.raw 0xA6)
  | .lrX x => some (x.raw 0xA6)
  | .sc x => some (x.raw 0xA7)
  | .bari x => some (x.raw 0xA8)
  | .bariX x => some (x.raw 0xA8)
  | .bara x => some (x.raw 0xA9)
  | .barad x => some (x.raw 0xAA)
  | .barw x => some (x.raw 0xAB)
  | .bart x => some (x.raw 0xAC)
  | .sync x => some (x.raw 0xAD)
  | .tld x => some (x.raw 0xC0)
  | .tst x => some (x.raw 0xC1)
  | .tzero x => some (x.raw 0xC2)
  | .tmma x => some (x.raw 0xC3)
  | .tmms x => some (x.raw 0xC4)
  | .tmmq x => some (x.raw 0xC5)
  | .trdy x => some (x.raw 0xC6 0)
  | .twait x => some (x.raw 0xC7)
  | .tacc x => some (x.raw 0xC8 0)
  | .taccXp x => some (x.raw 0xC8 1)
  | .taccScl x => some (x.raw 0xC8)
  | .taccWr x => some (x.raw 0xC8 3)
  | .tgemm x => some (x.raw 0xC9)
  | .cpy x => some (x.raw 0xCA)
  | .cpym x => some (x.raw 0xCB)
  | .cpycv x => some (x.raw 0xCC)
  | .cpylb x => some (x.raw 0xCD)
  | .fbopen x => some (x.raw 0xCE)
  | .fbnext x => some (x.raw 0xCF)
  | .fbmeet x => some (x.raw 0xD0)
  | .fbjoin x => some (x.raw 0xD1)
  | .fbskip x => some (x.raw 0xD2)
  | .fbsave x => some (x.raw 0xD3)
  | .fbsaveX x => some (x.raw 0xD3)
  | .fbrest x => some (x.raw 0xD4)
  | .fbrestX x => some (x.raw 0xD4)
  | .coll x => some (x.raw 0xD5)
  | .collw x => some (x.raw 0xD6)
  | .launch x => some (x.raw 0xD7)
  | .join x => some (x.raw 0xD8 0)
  | .trap x => some (x.raw 0xE0)
  | .tret x => some (x.raw 0xE1 0)
  | .tretSkip x => some (x.raw 0xE1 1)
  | .tretTo x => some (x.raw 0xE1 2)
  | .tkill x => some (x.raw 0xE2 0)
  | .tlbinvPage x => some (x.raw 0xE3)
  | .tlbinvRange x => some (x.raw 0xE3 1)
  | .tlbinvVf x => some (x.raw 0xE3 2)
  | .icinv x => some (x.raw 0xE4 0)
  | .icinvAll x => some (x.raw 0xE4 1)
  | .reclaim x => some (x.raw 0xE5)
  | .pwrhint x => some (x.raw 0xE6)
  | .brstk x => some (x.raw 0xF8)
  | .rcvpt x => some (x.raw 0xF9)
  | .rcvj x => some (x.raw 0xFA)
  | .scbwait x => some (x.raw 0xFB)
  | .ldcoh x => some (x.raw 0xFC)
  | .stcoh x => some (x.raw 0xFD)
  | .mma8 x => some (x.raw 0xFE)
  | .bymix x => some (x.raw 0xFF)
  | .nopPair _ | .iaddPair _ | .isubPair _ | .imulPair _ | .iminPair _ | .imaxPair _ | .andPair _ | .orPair _
  | .xorPair _ | .andnPair _ | .shlPair _ | .shrPair _ | .sarPair _ | .faddPair _ | .fsubPair _ | .fmulPair _
  | .fminPair _ | .fmaxPair _ | .hadd2Pair _ | .hmul2Pair _ | .badd2Pair _ | .bmul2Pair _ | .movPair _ | .f2iPair _
  | .i2fPair _ | .issueCycle | .instructionFetchFill | .fixedLatencyWriteback | .flagCountDown | .fairnessTurn
  | .trapEntryDeferred | .trapLevelTimeout | .standpipeAnnounce | .homeRdu | .homeRdt | .homeRdo | .homeWrw
  | .homeAth | .homeWb | .homeDrop | .homeReclaim | .holderRecall | .recallRefusalExpiry | .holderFail
  | .reclassification | .hostCxlMemRead | .hostCxlMemWrite | .sumpWindowClose | .copyChannelStart | .copyArrival
  | .channelWptrUpdate | .copyFault | .matrixOpStart | .matrixOpComplete | .pumpStep | .selfTest | .tokenRefill
  | .tokenGrant | .powerMeasure | .persistBoundaryInterval | .workgroupPlace | .coresidentPlace | .priorityAging
  | .coresidentWithhold | .wayDrain | .workgroupRetire | .gridRetire | .collectiveComplete | .collectiveFault
  | .streamElementFault | .notPresentFault | .walkMissRecord | .quiesce | .trapQueueLogCopy | .framePoolRefill
  | .workgroupEvict | .groupEvict | .contextRestore | .rootlaunch | .rootlaunchProcess | .rootctlClearDrop
  | .dutyselWrite | .invctlPage | .invctlRange | .invctlVf | .invctlComplete | .fwctlWrite | .formatWindowChangeDone
  | .tqresp | .fpgrow | .pwrctlWrite | .tokcapWrite | .tokrateWrite | .registerWrite | .mailboxImage | .mailboxQuote
  | .mailboxKeyset | .mailboxUnknownCommand | .moduleReset | .functionLevelReset | .objectLoad | .thermalThrottle
  | .thermalShutdown | .linkDown | .registerParityError | .hostCxlCacheSnoop | .thermalThrottleEnd | .powerFail
  | .objectUnload => none

/-- The operation of slot 0 and the fields of a pair (R155). -/
def Instr.pair : Instr → Option (PairOp × PairW)
  | .nopPair x => some (.nop, x)
  | .iaddPair x => some (.iadd, x)
  | .isubPair x => some (.isub, x)
  | .imulPair x => some (.imul, x)
  | .iminPair x => some (.imin, x)
  | .imaxPair x => some (.imax, x)
  | .andPair x => some (.and, x)
  | .orPair x => some (.or, x)
  | .xorPair x => some (.xor, x)
  | .andnPair x => some (.andn, x)
  | .shlPair x => some (.shl, x)
  | .shrPair x => some (.shr, x)
  | .sarPair x => some (.sar, x)
  | .faddPair x => some (.fadd, x)
  | .fsubPair x => some (.fsub, x)
  | .fmulPair x => some (.fmul, x)
  | .fminPair x => some (.fmin, x)
  | .fmaxPair x => some (.fmax, x)
  | .hadd2Pair x => some (.hadd2, x)
  | .hmul2Pair x => some (.hmul2, x)
  | .badd2Pair x => some (.badd2, x)
  | .bmul2Pair x => some (.bmul2, x)
  | .movPair x => some (.mov, x)
  | .f2iPair x => some (.f2i, x)
  | .i2fPair x => some (.i2f, x)
  | .iadd _ | .iaddX _ | .isub _ | .isubX _ | .imul _ | .imulX _ | .imulh _ | .imulhX _ | .imad _ | .imin _
  | .iminX _ | .imax _ | .imaxX _ | .iabs _ | .and _ | .andX _ | .or _ | .orX _ | .xor _ | .xorX _ | .andn _
  | .andnX _ | .shl _ | .shlX _ | .shr _ | .shrX _ | .sar _ | .sarX _ | .popc _ | .clz _ | .brev _ | .bfx _ | .bfxX _
  | .bfi _ | .bfiX _ | .lea _ | .icmp _ | .icmpX _ | .sel _ | .movi _ | .moviX _ | .fadd _ | .faddX _ | .fsub _
  | .fsubX _ | .fmul _ | .fmulX _ | .ffma _ | .fmin _ | .fmax _ | .fcmp _ | .frcp _ | .frsq _ | .fsqrt _ | .fexp2 _
  | .flog2 _ | .fsin _ | .fcos _ | .frnd _ | .fclass _ | .hadd2 _ | .hmul2 _ | .hfma2 _ | .badd2 _ | .bmul2 _
  | .bfma2 _ | .mov _ | .movs _ | .f2i _ | .i2f _ | .fcvt _ | .qpack _ | .qunpk _ | .shfl _ | .vote _ | .redg _
  | .scang _ | .rdsr _ | .wrsr _ | .movts _ | .nop _ | .bra _ | .braX _ | .brx _ | .call _ | .callX _ | .callx _
  | .ret _ | .land _ | .exit _ | .yield _ | .dqpush _ | .dqpop _ | .tfence _ | .ld8 _ | .ld8X _ | .ld16 _ | .ld16X _
  | .ld32 _ | .ld32X _ | .ld64 _ | .ld64X _ | .ld128 _ | .ld128X _ | .st8 _ | .st8X _ | .st16 _ | .st16X _ | .st32 _
  | .st32X _ | .st64 _ | .st64X _ | .st128 _ | .st128X _ | .lds _ | .ldsX _ | .sts _ | .stsX _ | .ldlv _ | .stlv _
  | .ldp _ | .ldpX _ | .gath _ | .gathX _ | .scat _ | .scatX _ | .cinv _ | .cflush _ | .fence _ | .ldfe _ | .ldfeX _
  | .stef _ | .stefX _ | .feset _ | .atom _ | .atcas _ | .red _ | .lr _ | .lrX _ | .sc _ | .bari _ | .bariX _
  | .bara _ | .barad _ | .barw _ | .bart _ | .sync _ | .tld _ | .tst _ | .tzero _ | .tmma _ | .tmms _ | .tmmq _
  | .trdy _ | .twait _ | .tacc _ | .taccXp _ | .taccScl _ | .taccWr _ | .tgemm _ | .cpy _ | .cpym _ | .cpycv _
  | .cpylb _ | .fbopen _ | .fbnext _ | .fbmeet _ | .fbjoin _ | .fbskip _ | .fbsave _ | .fbsaveX _ | .fbrest _
  | .fbrestX _ | .coll _ | .collw _ | .launch _ | .join _ | .trap _ | .tret _ | .tretSkip _ | .tretTo _ | .tkill _
  | .tlbinvPage _ | .tlbinvRange _ | .tlbinvVf _ | .icinv _ | .icinvAll _ | .reclaim _ | .pwrhint _ | .brstk _
  | .rcvpt _ | .rcvj _ | .scbwait _ | .ldcoh _ | .stcoh _ | .mma8 _ | .bymix _ | .issueCycle | .instructionFetchFill
  | .fixedLatencyWriteback | .flagCountDown | .fairnessTurn | .trapEntryDeferred | .trapLevelTimeout
  | .standpipeAnnounce | .homeRdu | .homeRdt | .homeRdo | .homeWrw | .homeAth | .homeWb | .homeDrop | .homeReclaim
  | .holderRecall | .recallRefusalExpiry | .holderFail | .reclassification | .hostCxlMemRead | .hostCxlMemWrite
  | .sumpWindowClose | .copyChannelStart | .copyArrival | .channelWptrUpdate | .copyFault | .matrixOpStart
  | .matrixOpComplete | .pumpStep | .selfTest | .tokenRefill | .tokenGrant | .powerMeasure | .persistBoundaryInterval
  | .workgroupPlace | .coresidentPlace | .priorityAging | .coresidentWithhold | .wayDrain | .workgroupRetire
  | .gridRetire | .collectiveComplete | .collectiveFault | .streamElementFault | .notPresentFault | .walkMissRecord
  | .quiesce | .trapQueueLogCopy | .framePoolRefill | .workgroupEvict | .groupEvict | .contextRestore | .rootlaunch
  | .rootlaunchProcess | .rootctlClearDrop | .dutyselWrite | .invctlPage | .invctlRange | .invctlVf | .invctlComplete
  | .fwctlWrite | .formatWindowChangeDone | .tqresp | .fpgrow | .pwrctlWrite | .tokcapWrite | .tokrateWrite
  | .registerWrite | .mailboxImage | .mailboxQuote | .mailboxKeyset | .mailboxUnknownCommand | .moduleReset
  | .functionLevelReset | .objectLoad | .thermalThrottle | .thermalShutdown | .linkDown | .registerParityError
  | .hostCxlCacheSnoop | .thermalThrottleEnd | .powerFail | .objectUnload => none

/-- The pair constructor of a slot 0 operation. -/
def PairOp.instr (op : PairOp) (x : PairW) : Instr :=
  match op with
  | .nop => .nopPair x
  | .iadd => .iaddPair x
  | .isub => .isubPair x
  | .imul => .imulPair x
  | .imin => .iminPair x
  | .imax => .imaxPair x
  | .and => .andPair x
  | .or => .orPair x
  | .xor => .xorPair x
  | .andn => .andnPair x
  | .shl => .shlPair x
  | .shr => .shrPair x
  | .sar => .sarPair x
  | .fadd => .faddPair x
  | .fsub => .fsubPair x
  | .fmul => .fmulPair x
  | .fmin => .fminPair x
  | .fmax => .fmaxPair x
  | .hadd2 => .hadd2Pair x
  | .hmul2 => .hmul2Pair x
  | .badd2 => .badd2Pair x
  | .bmul2 => .bmul2Pair x
  | .mov => .movPair x
  | .f2i => .f2iPair x
  | .i2f => .i2fPair x

/-- The word of a pair (R155). -/
def PairW.word (op : PairOp) (x : PairW) : DWord :=
  1#2 ++ bit x.c ++ x.dist ++ x.wait ++ bit x.hint ++ op.code ++ x.d.code ++ x.s.code ++ x.other.op.code ++ x.other.d.code ++ x.other.s.code

/-- The instruction words (R148, R149): one, or two for an extended form; none for an event. -/
def Instr.words (i : Instr) : List DWord :=
  match i.raw with
  | some r => if r.ext then [r.word0, r.w2] else [r.word0]
  | none =>
    match i.pair with
    | some (op, x) => [x.word op]
    | none => []

/-- The bytes of a word, least significant first (R5, R148). -/
def bytesLE (n : Nat) (v : Nat) : List Byte :=
  match n with
  | 0 => []
  | n + 1 => BitVec.ofNat 8 v :: bytesLE n (v / 256)
def ofBytesLE (l : List Byte) : Nat :=
  match l with
  | [] => 0
  | b :: t => b.toNat + 256 * ofBytesLE t

/-- The encoder: the bytes of a well-formed instruction, as they lie in memory. -/
def encode (i : Instr) : List Byte := i.words.flatMap fun w => bytesLE 8 w.toNat

/-- What a cell of the opcode map gives: unassigned in the word's format, a field value that the layout does not define, or an
instruction. -/
abbrev Cell := Option (Option Instr)

/-- A form assigned in the full format, in the extended format, or in both (R162). -/
def cellF (r : Raw) (f : Option Instr) : Cell := if r.ext then none else some f
def cellX (r : Raw) (x : Option Instr) : Cell := if r.ext then some x else none
def cellFX (r : Raw) (f x : Option Instr) : Cell := if r.ext then some x else some f

/-- Class 000 of the opcode map (R162), by bits 37:33. -/
def parseInteger (r : Raw) (code : Nat) : Cell :=
  match code with
  | 0x01 => cellFX r ((IntR.parse r).map Instr.iadd) ((IntX.parse r).map Instr.iaddX)
  | 0x02 => cellFX r ((IntR.parse r).map Instr.isub) ((IntX.parse r).map Instr.isubX)
  | 0x03 => cellFX r ((IntR.parse r).map Instr.imul) ((IntX.parse r).map Instr.imulX)
  | 0x04 => cellFX r ((IntR.parse r).map Instr.imulh) ((IntX.parse r).map Instr.imulhX)
  | 0x05 => cellF r ((IntR.parse r).map Instr.imad)
  | 0x06 => cellFX r ((IntR.parse r).map Instr.imin) ((IntX.parse r).map Instr.iminX)
  | 0x07 => cellFX r ((IntR.parse r).map Instr.imax) ((IntX.parse r).map Instr.imaxX)
  | 0x08 => cellF r ((IntU.parse r).map Instr.iabs)
  | 0x09 => cellFX r ((IntR.parse r).map Instr.and) ((IntX.parse r).map Instr.andX)
  | 0x0A => cellFX r ((IntR.parse r).map Instr.or) ((IntX.parse r).map Instr.orX)
  | 0x0B => cellFX r ((IntR.parse r).map Instr.xor) ((IntX.parse r).map Instr.xorX)
  | 0x0C => cellFX r ((IntR.parse r).map Instr.andn) ((IntX.parse r).map Instr.andnX)
  | 0x0D => cellFX r ((IntR.parse r).map Instr.shl) ((IntX.parse r).map Instr.shlX)
  | 0x0E => cellFX r ((IntR.parse r).map Instr.shr) ((IntX.parse r).map Instr.shrX)
  | 0x0F => cellFX r ((IntR.parse r).map Instr.sar) ((IntX.parse r).map Instr.sarX)
  | 0x10 => cellF r ((IntU.parse r).map Instr.popc)
  | 0x11 => cellF r ((IntU.parse r).map Instr.clz)
  | 0x12 => cellF r ((IntU.parse r).map Instr.brev)
  | 0x13 => cellFX r ((IntR.parse r).map Instr.bfx) ((IntX.parse r).map Instr.bfxX)
  | 0x14 => cellFX r ((IntR.parse r).map Instr.bfi) ((IntX.parse r).map Instr.bfiX)
  | 0x15 => cellF r ((LeaF.parse r).map Instr.lea)
  | 0x16 => cellFX r ((IcmpF.parse r).map Instr.icmp) ((IcmpX.parse r).map Instr.icmpX)
  | 0x17 => cellF r ((SelF.parse r).map Instr.sel)
  | 0x18 => cellFX r ((MoviF.parse r).map Instr.movi) ((MoviX.parse r).map Instr.moviX)
  | _ => none

/-- Class 001 of the opcode map (R162), by bits 37:33. -/
def parseFloating (r : Raw) (code : Nat) : Cell :=
  match code with
  | 0x00 => cellFX r ((FpR.parse r).map Instr.fadd) ((FpX.parse r).map Instr.faddX)
  | 0x01 => cellFX r ((FpR.parse r).map Instr.fsub) ((FpX.parse r).map Instr.fsubX)
  | 0x02 => cellFX r ((FpR.parse r).map Instr.fmul) ((FpX.parse r).map Instr.fmulX)
  | 0x03 => cellF r ((FpR.parse r).map Instr.ffma)
  | 0x04 => cellF r ((FpM.parse r).map Instr.fmin)
  | 0x05 => cellF r ((FpM.parse r).map Instr.fmax)
  | 0x06 => cellF r ((FcmpF.parse r).map Instr.fcmp)
  | 0x07 => cellF r ((FpV.parse r).map Instr.frcp)
  | 0x08 => cellF r ((FpV.parse r).map Instr.frsq)
  | 0x09 => cellF r ((FpU.parse r).map Instr.fsqrt)
  | 0x0A => cellF r ((FpV.parse r).map Instr.fexp2)
  | 0x0B => cellF r ((FpV.parse r).map Instr.flog2)
  | 0x0C => cellF r ((FpV.parse r).map Instr.fsin)
  | 0x0D => cellF r ((FpV.parse r).map Instr.fcos)
  | 0x0E => cellF r ((FpU.parse r).map Instr.frnd)
  | 0x0F => cellF r ((FpV.parse r).map Instr.fclass)
  | 0x10 => cellF r ((FpR.parse r).map Instr.hadd2)
  | 0x11 => cellF r ((FpR.parse r).map Instr.hmul2)
  | 0x12 => cellF r ((FpR.parse r).map Instr.hfma2)
  | 0x13 => cellF r ((FpR.parse r).map Instr.badd2)
  | 0x14 => cellF r ((FpR.parse r).map Instr.bmul2)
  | 0x15 => cellF r ((FpR.parse r).map Instr.bfma2)
  | _ => none

/-- Class 010 of the opcode map (R162), by bits 37:33. -/
def parseMove (r : Raw) (code : Nat) : Cell :=
  match code with
  | 0x00 => cellF r ((MovF.parse r).map Instr.mov)
  | 0x01 => cellF r ((MovF.parse r).map Instr.movs)
  | 0x02 => cellF r ((FpU.parse r).map Instr.f2i)
  | 0x03 => cellF r ((FpU.parse r).map Instr.i2f)
  | 0x04 => cellF r ((FcvtF.parse r).map Instr.fcvt)
  | 0x05 => cellF r ((FpR.parse r).map Instr.qpack)
  | 0x06 => cellF r ((FpR.parse r).map Instr.qunpk)
  | 0x07 => cellF r ((ShflF.parse r).map Instr.shfl)
  | 0x08 => cellF r ((VoteF.parse r).map Instr.vote)
  | 0x09 => cellF r ((RedF.parse r).map Instr.redg)
  | 0x0A => cellF r ((RedF.parse r).map Instr.scang)
  | 0x0B => cellF r ((RdsrF.parse r).map Instr.rdsr)
  | 0x0C => cellF r ((WrsrF.parse r).map Instr.wrsr)
  | 0x0D => cellF r ((MovtsF.parse r).map Instr.movts)
  | _ => none

/-- Class 011 of the opcode map (R162), by bits 37:33. -/
def parseControl (r : Raw) (code : Nat) : Cell :=
  match code with
  | 0x00 => cellF r ((Plain.parse r).map Instr.nop)
  | 0x01 => cellFX r ((BraF.parse r).map Instr.bra) ((BraX.parse r).map Instr.braX)
  | 0x02 => cellF r ((JumpF.parse r).map Instr.brx)
  | 0x03 => cellFX r ((BraF.parse r).map Instr.call) ((CallX.parse r).map Instr.callX)
  | 0x04 => cellF r ((CallxF.parse r).map Instr.callx)
  | 0x05 => cellF r ((JumpF.parse r).map Instr.ret)
  | 0x06 => cellF r ((Plain.parse r).map Instr.land)
  | 0x07 => cellF r ((Plain.parse r).map Instr.exit)
  | 0x08 => cellF r ((Plain.parse r).map Instr.yield)
  | 0x09 => cellF r ((JumpF.parse r).map Instr.dqpush)
  | 0x0A => cellF r ((DestF.parse r).map Instr.dqpop)
  | 0x0B => cellF r ((Plain.parse r).map Instr.tfence)
  | _ => none

/-- Class 100 of the opcode map (R162), by bits 37:33. -/
def parseMemory (r : Raw) (code : Nat) : Cell :=
  match code with
  | 0x00 => cellFX r ((PolMem.parse r).map Instr.ld8) ((PolMemX.parse r).map Instr.ld8X)
  | 0x01 => cellFX r ((PolMem.parse r).map Instr.ld16) ((PolMemX.parse r).map Instr.ld16X)
  | 0x02 => cellFX r ((PolMem.parse r).map Instr.ld32) ((PolMemX.parse r).map Instr.ld32X)
  | 0x03 => cellFX r ((PolMem.parse r).map Instr.ld64) ((PolMemX.parse r).map Instr.ld64X)
  | 0x04 => cellFX r ((PolMem.parse r).map Instr.ld128) ((PolMemX.parse r).map Instr.ld128X)
  | 0x05 => cellFX r ((PolMem.parse r).map Instr.st8) ((PolMemX.parse r).map Instr.st8X)
  | 0x06 => cellFX r ((PolMem.parse r).map Instr.st16) ((PolMemX.parse r).map Instr.st16X)
  | 0x07 => cellFX r ((PolMem.parse r).map Instr.st32) ((PolMemX.parse r).map Instr.st32X)
  | 0x08 => cellFX r ((PolMem.parse r).map Instr.st64) ((PolMemX.parse r).map Instr.st64X)
  | 0x09 => cellFX r ((PolMem.parse r).map Instr.st128) ((PolMemX.parse r).map Instr.st128X)
  | 0x0A => cellFX r ((CistMem.parse r).map Instr.lds) ((CistMemX.parse r).map Instr.ldsX)
  | 0x0B => cellFX r ((CistMem.parse r).map Instr.sts) ((CistMemX.parse r).map Instr.stsX)
  | 0x0C => cellX r ((LexMem.parse r).map Instr.ldlv)
  | 0x0D => cellX r ((LexMem.parse r).map Instr.stlv)
  | 0x0E => cellFX r ((LdpF.parse r).map Instr.ldp) ((LdpX.parse r).map Instr.ldpX)
  | 0x0F => cellFX r ((GathF.parse r).map Instr.gath) ((GathX.parse r).map Instr.gathX)
  | 0x10 => cellFX r ((GathF.parse r).map Instr.scat) ((GathX.parse r).map Instr.scatX)
  | 0x11 => cellF r ((RangeF.parse r).map Instr.cinv)
  | 0x12 => cellF r ((RangeF.parse r).map Instr.cflush)
  | 0x13 => cellF r ((FenceF.parse r).map Instr.fence)
  | _ => none

/-- Class 101 of the opcode map (R162), by bits 37:33. -/
def parseSync (r : Raw) (code : Nat) : Cell :=
  match code with
  | 0x00 => cellFX r ((PolMem.parse r).map Instr.ldfe) ((PolMemX.parse r).map Instr.ldfeX)
  | 0x01 => cellFX r ((PolMem.parse r).map Instr.stef) ((PolMemX.parse r).map Instr.stefX)
  | 0x02 => cellF r ((FesetF.parse r).map Instr.feset)
  | 0x03 => cellX r ((AtomX.parse r).map Instr.atom)
  | 0x04 => cellX r ((AtcasX.parse r).map Instr.atcas)
  | 0x05 => cellX r ((RedX.parse r).map Instr.red)
  | 0x06 => cellFX r ((PolMem.parse r).map Instr.lr) ((LrX.parse r).map Instr.lrX)
  | 0x07 => cellX r ((ScX.parse r).map Instr.sc)
  | 0x08 => cellFX r ((BariF.parse r).map Instr.bari) ((BariX.parse r).map Instr.bariX)
  | 0x09 => cellF r ((BarF.parse r).map Instr.bara)
  | 0x0A => cellF r ((BarF.parse r).map Instr.barad)
  | 0x0B => cellF r ((BarF.parse r).map Instr.barw)
  | 0x0C => cellF r ((BartF.parse r).map Instr.bart)
  | 0x0D => cellF r ((SyncF.parse r).map Instr.sync)
  | _ => none

/-- Class 110 of the opcode map (R162), by bits 37:33. -/
def parseEngine (r : Raw) (code : Nat) : Cell :=
  match code with
  | 0x00 => cellX r ((TldX.parse r).map Instr.tld)
  | 0x01 => cellX r ((TstX.parse r).map Instr.tst)
  | 0x02 => cellF r ((TzeroF.parse r).map Instr.tzero)
  | 0x03 => cellX r ((TmmX.parse r).map Instr.tmma)
  | 0x04 => cellX r ((TmmsX.parse r).map Instr.tmms)
  | 0x05 => cellX r ((TmmX.parse r).map Instr.tmmq)
  | 0x06 => cellF r ((Plain.parse r).map Instr.trdy)
  | 0x07 => cellF r ((TwaitF.parse r).map Instr.twait)
  | 0x08 => cellF r (match r.mod.toNat with | 0 => (TaccF.parse r).map Instr.tacc | 1 => (TaccF.parse r).map Instr.taccXp | 2 => (TaccScl.parse r).map Instr.taccScl | 3 => (TaccF.parse r).map Instr.taccWr | _ => none)
  | 0x09 => cellX r ((TgemmX.parse r).map Instr.tgemm)
  | 0x0A => cellX r ((CpyX.parse r).map Instr.cpy)
  | 0x0B => cellX r ((CpymX.parse r).map Instr.cpym)
  | 0x0C => cellX r ((CpycvX.parse r).map Instr.cpycv)
  | 0x0D => cellX r ((CpylbX.parse r).map Instr.cpylb)
  | 0x0E => cellX r ((FbopenX.parse r).map Instr.fbopen)
  | 0x0F => cellF r ((FbnextF.parse r).map Instr.fbnext)
  | 0x10 => cellF r ((FbpairF.parse r).map Instr.fbmeet)
  | 0x11 => cellF r ((FbpairF.parse r).map Instr.fbjoin)
  | 0x12 => cellF r ((FbskipF.parse r).map Instr.fbskip)
  | 0x13 => cellFX r ((FbstF.parse r).map Instr.fbsave) ((FbstX.parse r).map Instr.fbsaveX)
  | 0x14 => cellFX r ((FbstF.parse r).map Instr.fbrest) ((FbstX.parse r).map Instr.fbrestX)
  | 0x15 => cellX r ((CollX.parse r).map Instr.coll)
  | 0x16 => cellF r ((DestF.parse r).map Instr.collw)
  | 0x17 => cellF r ((LaunchF.parse r).map Instr.launch)
  | 0x18 => cellF r ((JumpF.parse r).map Instr.join)
  | _ => none

/-- Class 111 of the opcode map (R162), by bits 37:33. -/
def parseSystem (r : Raw) (code : Nat) : Cell :=
  match code with
  | 0x00 => cellF r ((TrapF.parse r).map Instr.trap)
  | 0x01 => cellF r (match r.mod.toNat with | 0 => (Plain.parse r).map Instr.tret | 1 => (Plain.parse r).map Instr.tretSkip | 2 => (JumpF.parse r).map Instr.tretTo | _ => none)
  | 0x02 => cellF r ((Plain.parse r).map Instr.tkill)
  | 0x03 => cellF r (match (r.mod.extractLsb' 0 2).toNat with | 0 => (TlbPageF.parse r).map Instr.tlbinvPage | 1 => (TlbRangeF.parse r).map Instr.tlbinvRange | 2 => (TlbVfF.parse r).map Instr.tlbinvVf | _ => none)
  | 0x04 => cellF r (match (r.mod.extractLsb' 0 2).toNat with | 0 => (TlbRangeF.parse r).map Instr.icinv | 1 => (TlbVfF.parse r).map Instr.icinvAll | _ => none)
  | 0x05 => cellF r ((ReclaimF.parse r).map Instr.reclaim)
  | 0x06 => cellF r ((PwrhintF.parse r).map Instr.pwrhint)
  | 0x18 => some ((D2F.parse r).map Instr.brstk)
  | 0x19 => some ((D2F.parse r).map Instr.rcvpt)
  | 0x1A => some ((D2F.parse r).map Instr.rcvj)
  | 0x1B => some ((D2F.parse r).map Instr.scbwait)
  | 0x1C => some ((D2F.parse r).map Instr.ldcoh)
  | 0x1D => some ((D2F.parse r).map Instr.stcoh)
  | 0x1E => some ((D2F.parse r).map Instr.mma8)
  | 0x1F => some ((D2F.parse r).map Instr.bymix)
  | _ => none

/-- The cell of an opcode: class in bits 40:38, code in bits 37:33 (R150). -/
def Raw.cell (r : Raw) : Cell :=
  let code := r.opc.toNat % 32
  match r.opc.toNat / 32 with
  | 0 => parseInteger r code
  | 1 => parseFloating r code
  | 2 => parseMove r code
  | 3 => parseControl r code
  | 4 => parseMemory r code
  | 5 => parseSync r code
  | 6 => parseEngine r code
  | _ => parseSystem r code

/-- What the decoder answers. -/
inductive Decoded where
  /-- An instruction. -/
  | ok (i : Instr)
  /-- FMT 0b11 (R149): check 1 fails. -/
  | notInstr
  /-- No cell of the opcode map, or none for the format (R162): check 2 fails. -/
  | unassigned
  /-- A field value that the layout does not define (R154, R159, R161): check 3 fails, once check 2 has passed for the opcode;
  a pair word gives opcode 0. -/
  | badField (opc : BitVec 8)
  deriving DecidableEq, Repr

/-- What decoding demands of an instruction read from words: its fields are well formed, and the words are its encoding, so no
field or part of a field that its layout leaves unused holds anything but zero (R154, R159). A Damain 2 cell that traps does so at
check 2, before any field is looked at (R163, R335). -/
def fieldsOk (i : Instr) (w0 w1 : DWord) : Bool :=
  match i with
  | .brstk _ | .ldcoh _ | .stcoh _ | .mma8 _ | .bymix _ => true
  | i => wellFormed i && (i.words == [w0] || i.words == [w0, w1])

/-- A pair word (R155, R158). -/
def decodePair (w0 : DWord) : Decoded :=
  match PairOp.ofCode (w0.extractLsb' 38 6), PairOp.ofCode (w0.extractLsb' 16 6) with
  | some op0, some op1 =>
    match Reg.ofCode (w0.extractLsb' 30 8), Reg.ofCode (w0.extractLsb' 22 8), Reg.ofCode (w0.extractLsb' 8 8),
      Reg.ofCode (w0.extractLsb' 0 8) with
    | some d0, some s0, some d1, some s1 =>
      let i := op0.instr { c := isSet (w0.extractLsb' 61 1), dist := w0.extractLsb' 57 4, wait := w0.extractLsb' 45 12,
                           hint := isSet (w0.extractLsb' 44 1), d := d0, s := s0, other := ⟨op1, d1, s1⟩ }
      if fieldsOk i w0 0 then .ok i else .badField 0
    | _, _, _, _ => .badField 0
  | _, _ => .unassigned

/-- The decoder, on an aligned word and the word after it (R149): total, and refusing by name. -/
def decode (w0 w1 : DWord) : Decoded :=
  match (w0.extractLsb' 62 2).toNat with
  | 3 => .notInstr
  | 1 => decodePair w0
  | _ =>
    let r := Raw.ofWords w0 w1
    match r.cell with
    | none => .unassigned
    | some none => .badField r.opc
    | some (some i) => if fieldsOk i w0 w1 then .ok i else .badField r.opc

/-- The decoder on bytes as memory holds them: nothing where there are too few. -/
def decodeBytes (l : List Byte) : Option Decoded :=
  let w0 := BitVec.ofNat 64 (ofBytesLE (l.take 8))
  if l.length < 8 then none
  else if w0.extractLsb' 62 2 == 2 && l.length < 16 then none
  else some (decode w0 (BitVec.ofNat 64 (ofBytesLE ((l.drop 8).take 8))))

/-- Bytes that the instruction at a word takes (R148). -/
def sizeOf (w0 : DWord) : Nat := if w0.extractLsb' 62 2 == 2 then 16 else 8

/-- The instruction that the decoder reads from nbits bits of a table word, the first word lowest. -/
def decodeTableWord (nbits w : Nat) : Option Instr :=
  match decodeBytes (bytesLE 16 (w % 2 ^ nbits)) with
  | some (.ok i) => some i
  | _ => none

end Sys2Proof
end

