-- ==== Sys2Proof/Config.lean ====
section
/-! DEFINITION. What one FM-3 fixes and the manual does not, and the free values: constants with no body, so that no proof
can rest on a value of theirs. Every one is named in the assumption log. -/
namespace Sys2Proof.Config

/-- The n-th free value: what stands wherever the manual calls a value unspecified or undefined and the machine goes on
(R88, R246, R238, R384). It is cut to the width it is used at. DESIGN CHOICE, log 3. -/
opaque freeValue : Nat → Nat

/-- The hash that gives a line its home slice, before reduction to 192 slices (R49: fixed, not published). DESIGN CHOICE, log 6. -/
opaque homeHash : Nat → Nat
/-- The set of its slice that holds a line, before reduction to 1,024 sets, and the set that each of the 64 sampled sets is (R49, R51: not
published). DESIGN CHOICE, log 6. -/
opaque setHash : Nat → Nat
opaque sampledSet : Nat → Nat

/-- SHA-384 of a byte string (R332, R367, R370): named by the manual, defined elsewhere. DESIGN CHOICE, log 12. -/
opaque sha384 : List Byte → BitVec 384

/-- RSA-3072 verification: modulus, digest, signature (R332, R367). DESIGN CHOICE, log 12. -/
opaque rsaVerifies : List Byte → BitVec 384 → List Byte → Bool

/-- SLH-DSA-SHA2-192s verification: public key, digest, signature (R332, R367). DESIGN CHOICE, log 12. -/
opaque slhVerifies : List Byte → BitVec 384 → List Byte → Bool

/-- The two public keys that the boot ROM holds (R368). DESIGN CHOICE, log 12. -/
opaque romRsaKey : List Byte
opaque romSlhKey : List Byte

/-- The bytes of the signatures that the module's identity keys make over a quote's digest (R370). DESIGN CHOICE, log 12. -/
opaque quoteRsa : BitVec 384 → Nat → Byte
opaque quoteSlh : BitVec 384 → Nat → Byte

/-- The fused minimum of the firmware's security version (R367). DESIGN CHOICE, log 12. -/
opaque fusedSvn : Nat

/-- Whether nimbt accepts a Nimbel image's version (R330), and the native words it makes of one image for a load base, where
it places them, how much room it reserves after them for later translations (R320), and where a function of the image is entered (R316). DESIGN CHOICE, log 14. -/
opaque nimbtAccepts : Nat → Nat → Bool
opaque nimbtCode : List Byte → DWord → List Byte
opaque nimbtBase : List Byte → DWord → DWord
opaque nimbtRoom : List Byte → DWord → Nat
opaque nimbtEntry : List Byte → DWord → Nat → DWord

/-- The tree in which an FP32 or BF16 collective adds its participants (R112: fixed by the topology and the count): which
two partial sums are added next, for a scope, the participants' cores in rank order, and a number of partial sums left. DESIGN CHOICE, log 15. -/
opaque collPick : Nat → List Nat → Nat → Nat × Nat

end Sys2Proof.Config
end

