-- ==== Sys2Proof/Machine/State.lean ====
section
/-! DEFINITION. The state of an FM-3 as plain data: everything that spec/ names, the happenings still to come, and the state right
after module reset. Sparse tables list only what differs from the value that an absent key reads as. -/
namespace Sys2Proof.Machine

/-- A sparse table: keys strictly rising. -/
abbrev Tab (α : Type) := List (Nat × α)

/-! ## Lanes, fragments and contexts -/

/-- What a lane blocked on a barrier waits for (R13): a barrier register, a SYNC, or a JOIN. -/
inductive BarWait where
  | bar (n : Fin 16)
  | sync (scope : Scope)
  | join (h : DWord)
  deriving DecidableEq, Repr

/-- Lane states (R13), and a lane that waits, not parked, for a page (R200: the address, the write and fetch bits, the chain offset of its
word) or for a reclassification (R73: the page, and the number of its arrival). A parked lane keeps the barrier wait that it was in, if its fault was reported after it had run on (R254, R383). -/
inductive LaneSt where
  | active
  | blockedFE (word : Nat)
  | blockedBar (w : BarWait)
  | parked (was : Option BarWait)
  | waitPage (va : DWord) (info off : Nat)
  | waitClass (va : DWord) (n : Nat)
  | exited
  deriving DecidableEq, Repr

/-- One lane's entry of PCV with its landing bit (R14, R193) and its state. -/
structure Lane where
  pc : DWord := 0
  landing : Bool := false
  st : LaneSt := .exited
  deriving DecidableEq, Repr

/-- A bypass latch (R35, R153): its result in each lane, bits 63:0 and, of a wider result (LDS.128, QUNPK), the bits above; whether the
result is 64 bits wide, the core time it is written at, and the number of the LDS that fills it then (0: its result is there). -/
structure Latch where
  vals : Tab DWord := []
  high : Tab (BitVec 192) := []
  wide : Bool := false
  due : Nat := 0
  src : Nat := 0
  deriving DecidableEq, Repr

/-- A chain (R307): its head, the words issued in it, the results that those shifted into the latches, whether it holds its slot (it is not
broken), and the lanes inside it. -/
structure Chain where
  head : DWord
  words : Nat
  shifts : Nat
  open' : Bool
  lanes : Lanes := 0
  deriving DecidableEq, Repr

/-- An issuing front: the group's own, or a handler's at trap level (R286): per-lane PCs, latches, completion flags, the chain,
the times that DIST and a fragment switch count from, and the cycle in which a slot last picked it (R33). -/
structure Front where
  lanes : List Lane := []
  latches : List Latch := []
  flags : List Nat := []
  chain : Option Chain := none
  lastIssue : Option Nat := none
  notBefore : Nat := 0
  pickedAt : Option Nat := none
  seen : Option (Lanes × Nat) := none
  deriving DecidableEq, Repr

/-- A value to write: a V register of a lane, an S register, or a predicate of a lane. -/
inductive Dest where
  | v (lane reg : Nat)
  | s (n : Nat)
  | p (n lane : Nat)
  deriving DecidableEq, Repr
structure Wr where
  (dest : Dest) (val : DWord)
  deriving DecidableEq, Repr

/-- What one lane of an access does. -/
inductive ElemOp where
  | load
  | store (v : DWord)
  | atomic (op : AtomOp) (b : DWord)
  | cas (exp new : DWord)
  | lr
  | sc (v : DWord)
  | pref
  deriving DecidableEq, Repr

/-- Where an access lands once its window is resolved (R38): a byte of a core's cistern, or a physical address with the class of
its page (0 shared, 1 read-only, 2 private) and the owning die. -/
inductive Place where
  | cist (core byte : Nat)
  | mem (pa : Nat) (cls own : Nat)
  deriving DecidableEq, Repr

/-- One lane's access of up to eight bytes (a .128 access is two of them): its address, place, width in bytes, destination register,
the request it waits for (0: none), and what has been read. -/
structure Elem where
  lane : Nat
  va : DWord
  place : Place
  n : Nat
  dst : Reg
  op : ElemOp
  req : Nat := 0
  done : Bool := false
  got : List Byte := []
  failed : Bool := false
  /-- Whether it waits in a window of the sump (R108). -/
  sump : Bool := false
  deriving DecidableEq, Repr

/-- A result on its way (R302, R304): due at a core time, or none for a producer of variable latency; what it will write; the
operand codes that are in flight until then, and in which lanes; the flag it counts down; and the LDS or STS accesses that it
performs when due (R204). -/
structure Pend where
  id : Nat
  due : Option Nat
  wr : List Wr
  codes : List (BitVec 8)
  lanes : Lanes
  flag : Option (Bool × Nat) := none
  elems : List Elem := []
  deriving DecidableEq, Repr

/-- How a trap may be left (R277): as R200 gives, or only by a plain TRET that returns to the PCs reached: a deferred 0x15 (R383),
a copy fault or a copy's late barrier fault (R254, R225), a collective fault (R275), an FBNEXT fault (R127). -/
inductive TrapKind where
  | precise
  | deferred
  | copy (id : Nat)
  | copyBar
  | coll (op : Nat)
  | fbnext (job : Nat)
  deriving DecidableEq, Repr

/-- The trap registers of a fragment (R284) before or while it is at trap level. -/
structure TrapRec where
  cause : Word
  addr : DWord
  pc : DWord
  lanes : Lanes
  kind : TrapKind
  deriving DecidableEq, Repr

/-- The fragment at trap level (R286 to R289): its registers, TSIBS, its handler's front, the cycle it entered at, the first number that an access of
its handler may have, whether it has lost its first place (R288), and whether a nested trap has stopped it for good (R289). -/
structure TrapCtx where
  regs : TrapRec
  sibs : Lanes
  front : Front
  entered : Nat
  since : Nat := 0
  demoted : Bool := false
  dead : Bool := false
  deriving DecidableEq, Repr

/-- A reservation (R219): the 128-byte line and the policy. -/
structure Resv where
  (line : Nat) (pol : Policy)
  deriving DecidableEq, Repr

/-- What a stream keeps of a fibre beside the 64-byte state: its level's SPEC word and CRD address, POS[p] of a bitmap level, and the
previous coordinate (R117, R118). -/
structure Fibre where
  spec : DWord := 0
  crd : DWord := 0
  base : Word := 0
  prev : Option Word := none
  deriving DecidableEq, Repr
/-- A stream register (R120, R124): the 64-byte state, and its fibres. -/
structure Stream where
  st : BitVec 512 := 0
  a : Fibre := {}
  b : Fibre := {}
  deriving DecidableEq, Repr

/-- An incomplete fence (R80): its executing lanes, kind, scope, and the number that divides the accesses before it from those after. -/
structure Fence where
  (lanes : Lanes) (kind : FenceKind) (scope : Scope) (id : Nat)
  seen : Option Nat := none
  deriving DecidableEq, Repr

/-- A group (number 0 to 15) or the head context (16) of a workgroup. -/
structure Ctx where
  wk : Nat := 0
  num : Nat := 0
  front : Front := {}
  trap : Option TrapCtx := none
  waiting : List TrapRec := []
  v : Tab Word := []
  p : List Lanes := []
  fpctl : Word := 0
  fpstat : Word := 0
  limit : Nat := 1024
  issued : Nat := 0
  mark : Option DWord := none
  turn : Option (DWord × Nat) := none
  /-- The lanes of the turn's fragment (R18). -/
  turnLanes : Lanes := 0
  lrWin : Option (DWord × Nat) := none
  deferred : Bool := false
  /-- A turn's end that an open LR window holds back (R20). -/
  endTurn : Bool := false
  resv : Tab Resv := []
  scFails : Tab (Nat × Nat) := []
  streams : List Stream := []
  outstanding : Nat := 0
  fences : List Fence := []
  syncs : List (Scope × Lanes) := []
  pends : List Pend := []
  ibuf : Tab DWord := []
  /-- Where the previous issue of the context, the handler's issues among them, leads (R34), and whether a fragment switch of the group (false) or of its
  handler (true) is under way. -/
  nextPcs : List DWord := []
  switching : Option Bool := none
  /-- When the last vector instruction is complete (R134). -/
  vecDone : Nat := 0
  seq : Tab Nat := []
  readySince : Option Nat := none
  copies : Nat := 0
  collsCovered : Nat := 0
  /-- For each accumulator, the last operation whose result the context may read (R88, R245); what its last release covers of that; and what it has
  read from writes of releasing contexts, which its next acquire makes known (R81). -/
  known : List Nat := []
  told : List Nat := []
  heard : List Nat := []
  evicted : Bool := false
  deriving DecidableEq, Repr

/-! ## Workgroups -/

/-- The operands of a TGEMM (R248). -/
structure Gemm where
  (ty : TileTy) (a b c : Word) (mt nt ks : Nat)
  deriving DecidableEq, Repr

/-- A matrix operation as queued (R96): its number, who receives its flags, its command with the shapes and the operand bytes read when
it issued (key: role × 4096 + tile byte; role 0 A, 1 B, 2 metadata), whether a copy still holds it back (R105), and whether its
accumulator, or an operand, was written while it was in flight (R246). -/
structure MatCmdQ where
  id : Nat
  ctx : Nat
  cmd : MatCmd
  shapes : List Word
  snap : Tab Byte := []
  armed : Bool
  tainted : Bool := false
  spoiled : Bool := false
  /-- When the token was granted that it spent (R92). -/
  granted : Nat := 0
  gemm : Option Gemm := none
  /-- The sums of a TGEMM's current tile, which a write of its accumulator meanwhile does not touch (R246). -/
  sums : List Word := []
  fl : BitVec 6 := 0
  deriving DecidableEq, Repr
/-- An operation that has completed: its accumulator and operand tiles, which stay in flight for a context until its TWAIT (R246), and the
flags that its issuer's first TWAIT delivers (R134). -/
structure MatDone where
  (id ctx ac : Nat) (tiles : List Nat) (fl : BitVec 6)
  deriving DecidableEq, Repr

/-- PUMPST (R98), and since when the next step has been ready. -/
structure Pump where
  act : Bool := false
  acn : Nat := 0
  mt : Nat := 0
  nt : Nat := 0
  kb : Nat := 0
  since : Nat := 0
  deriving DecidableEq, Repr

/-- One slice of a copy (R102): supplying context, level and lanes, address of the supplying word, operands, the publication word's address if one is named,
destination bytes written so far, and, of a layout conversion, whether that was all. -/
structure Slice where
  (ctx : Nat) (level : Bool) (lanes : Lanes) (pc : DWord) (dst src : DWord) (len : Nat) (pub : Option DWord) (progress : Nat) (ended : Bool)
  /-- The number of its supply, which tells whether a handler still runs that it was issued in (R383). -/
  birth : Nat := 0
  deriving DecidableEq, Repr

/-- The fields on which the slices of one copy agree (R251). -/
structure CopyForm where
  (opc : BitVec 8) (bar : Fin 16) (pol : Policy) (chan : Option (Fin 4 × Scope)) (flag td : Bool) (form : Word) (cmd : Option MatCmd)
  deriving DecidableEq, Repr

/-- A copy in flight (R251): its number among the workgroup's copies, or none for a head context's own copy; its slices in the order supplied;
whether every group has supplied, whether it moves bytes, whether a fault has stopped it; the stream bytes that WPTR counts already; and the TSCL bytes
(tile × 64 + block) that it has set (R253). -/
structure Copy where
  id : Nat
  wk : Nat
  number : Option Nat
  form : CopyForm
  slices : List Slice
  started : Bool := false
  begun : Bool := false
  stopped : Bool := false
  counted : Nat := 0
  qfmt : List Nat := []
  scaled : List Nat := []
  matId : Option Nat := none
  deriving DecidableEq, Repr

/-- A row in a channel's line buffer (R106): source address, row bytes, contents. -/
structure BufRow where
  (src : DWord) (rowb : Nat) (bytes : List Byte)
  deriving DecidableEq, Repr

/-- A workgroup (R10) with the registers held per workgroup (R35). -/
structure Wg where
  id : Nat := 0
  vfn : Nat := 0
  grid : Nat := 0
  wgid : Nat := 0
  core : Nat := 0
  slot : Nat := 0
  ngroups : Nat := 1
  regs : Nat := 8
  placed : Nat := 0
  s : Tab DWord := []
  trough : List DWord := []
  bars : List DWord := []
  d : List DWord := []
  cways : Byte := 0
  ch : List DWord := []
  wptr : List DWord := []
  pump : Pump := {}
  tiles : Tab Byte := []
  tshape : List Word := []
  tscl : Tab Byte := []
  acc : Tab Word := []
  xp : Tab DWord := []
  xpValid : List Bool := []
  mq : List MatCmdQ := []
  mdone : List MatDone := []
  /-- The writes of a tile byte (tile × 4096 + byte) that no TRDY of their writer covers yet, oldest first: the writer, the write's number, and the
  byte before (R244). -/
  told : Tab (List (Nat × Nat × Byte)) := []
  token : Bool := false
  tokenAsked : Bool := false
  tokenAt : Nat := 0
  buf : Tab (List BufRow) := []
  collq : List (Nat × Nat) := []
  trapbase : DWord := 0
  pwrhint : BitVec 2 := 0
  headExited : Bool := false
  /-- The group that was picked last of the workgroup (R33). -/
  rr : Nat := 15
  starting : Bool := false
  /-- Chosen for eviction: it waits for its copies and its pump (R114). -/
  leaving : Bool := false
  evicted : Bool := false
  stash : Tab Byte := []
  stashFe : Tab Bool := []
  deriving DecidableEq, Repr

/-! ## Cores -/

/-- The state of a cistern way (R40). -/
inductive WaySt where
  | lent
  | draining (wk : Nat)
  | reserved (wk : Nat)
  deriving DecidableEq, Repr

/-- States of an L1 word (R60). -/
inductive L1St where
  | i | us | uw | ro | s | o | m
  deriving DecidableEq, Repr
structure L1Word where
  st : L1St := .i
  data : Word := 0
  dirty : BitVec 4 := 0
  way : Nat := 0
  cls : Nat := 0
  /-- Which fill, or which store of the core since, gave an untracked copy its contents (R77). -/
  stamp : Nat := 0
  deriving DecidableEq, Repr

/-- A translation held in a TLB (R346, R347): virtual function, page, page size in bits, physical page, class, owner, attributes. -/
structure Tlb where
  (vfn : Nat) (va : Nat) (bits : Nat) (pa : Nat) (cls own : Nat) (w x bind pers : Bool)
  deriving DecidableEq, Repr

structure Core where
  ways : List WaySt := []
  time : Nat := 0
  /-- The stall cycles still to come, and those that this cycle's issues have added (R309). -/
  stall : Nat := 0
  late : Nat := 0
  /-- The windows of the sump, oldest first (R108): when each opened, and its lane accesses in the order of their arrival (access, place in it). -/
  sump : List (Nat × List (Nat × Nat)) := []
  copyq : List Nat := []
  /-- What holds the matrix array: workgroup, operation (0: the self-test), and the clock at its end (R92, R100). -/
  mat : Option (Nat × Nat × Nat) := none
  matOps : Nat := 0
  testDue : Bool := false
  /-- The sub-arrays that give wrong products, and those that are fenced (R100). -/
  faulty : List Nat := []
  fenced : List Nat := []
  tlb : List Tlb := []
  icache : Tab DWord := []
  /-- For each placement cycle, the workgroup that was picked last of those placed in it (R33). -/
  rr : Tab Nat := []
  slots : Nat := 0
  withheld : Bool := false
  /-- The lanes (context, lane) for whose failed SCs the core has refused a recall, until their next SC succeeds (R67). -/
  refused : List (Nat × Nat) := []
  deriving DecidableEq, Repr

/-- A slice of the last-level cache (R49, R51): the boundary p, the hits of the two halves of its sample, a count of its uses, and its lines by
set × 16 + way: line number, and the use at which it was last touched. -/
structure LlcSlice where
  p : Nat := 0
  up : Nat := 0
  down : Nat := 0
  uses : Nat := 0
  lines : Tab (Nat × Nat) := []
  deriving DecidableEq, Repr

/-! ## Memory requests -/

/-- Modes of a word in the home directory (R64): 12 stands for the host among the holders. -/
inductive DirMode where
  | n
  | t (s : List Nat)
  | x (o : Nat)
  | z
  deriving DecidableEq, Repr
structure DirWord where
  mode : DirMode := .n
  u : Bool := false
  busy : Option Nat := none
  deriving DecidableEq, Repr

/-- Kinds of request (R65). -/
inductive ReqKind where
  | rdU | rdT | rdO | wrW | atH | reclaim
  deriving DecidableEq, Repr

/-- An access that has issued and is not complete (R199): issuing context and level, its lanes and their accesses, its word, the head
of its chain and whether it is the chain's last word (R290), the number of issues each lane had made when it issued (R383), whether it writes registers, whether it
holds an outstanding-request entry (R109), and whether its flag has counted down already. -/
structure Acc where
  id : Nat
  ctx : Nat
  core : Nat
  level : Bool
  lanes : Lanes
  pc : DWord
  head : DWord
  off : Nat
  last : Bool := true
  pol : Policy
  scope : Scope
  elems : List Elem
  seqs : Tab Nat := []
  isLoad : Bool
  entry : Bool := false
  flagged : Bool := false
  deriving DecidableEq, Repr

/-- A request on its way (R59): its first access (the sump merges several into one), its policy, its line (the first of them for an HGATH, R218), its
words, the words that its die does not settle by itself (R62), the cycle it was injected in, whether its announcement has fallen in its turn, has been acted on, and
has left for home, its number among the arrivals there (R66), whether its page fills persisting ways (R51), whether the reservation of its SC stood when it reached home (R221), the holders that have answered, and for a reclaim the words' contents. -/
structure Req where
  id : Nat
  acc : Nat
  core : Nat
  kind : ReqKind
  pol : Policy := .own
  line : Nat
  words : List Nat
  need : List Nat
  cls : Nat := 0
  at' : Nat := 0
  fell : Bool := false
  arrived : Option Nat := none
  pers : Bool := false
  announced : Bool := false
  atHome : Bool := false
  resv : Option Bool := none
  asked : List Nat := []
  answered : List Nat := []
  data : Tab Word := []
  deriving DecidableEq, Repr

/-- What else a word leaves running before its flag counts down: a tile load, or a tile store with the bytes it read at issue and has still to write, row by row (R236, R237); a TRDY or TWAIT with
the tile writes or matrix operations it covers (R244, R245); a TLBINV, ICINV or prefetch with the accesses it waits for (R279, R280);
a CFLUSH or RECLAIM with its requests (R209, R281); a COLLW (R274); an FBNEXT with its fragment, its
destinations, and whether a fault has stopped it (R121, R127); another stream instruction that has done its work, or whose lanes wait for a page (R125). -/
inductive Job where
  | tld (t : Fin 8) (addr : DWord) (stride rows rb row : Nat) (spoiled : Bool) (pol : Policy)
  | tst (data : List Byte) (addr : DWord) (stride rows rb row : Nat) (pol : Policy)
  | trdy (waits : List Nat)
  | twait (ac : Nat) (waits : List Nat)
  | tlbinv (waits : List Nat)
  | icinv (scope : InvScope) (lo n : Nat) (all : Bool)
  | reqs (ids : List Nat)
  | collw (op rank : Nat) (sd : Reg)
  | stream (q : Nat) (frag : Lanes) (c p pm : Nat) (stopped : Bool)
  | streamOp (q : Nat)
  | streamWait (q : Nat)
  deriving DecidableEq, Repr
structure JobRec where
  (id ctx : Nat) (level : Bool) (lanes : Lanes) (pc head : DWord) (off : Nat) (seqs : Tab Nat) (job : Job)
  deriving DecidableEq, Repr

/-! ## Grids and dispatch -/

structure Grid where
  id : Nat := 0
  vfn : Nat := 0
  slot : Nat := 0
  gen : Nat := 0
  level : Nat := 0
  parent : Option Nat := none
  frame : DWord := 0
  size : Nat := 0
  entry : DWord := 0
  head : DWord := 0
  wgcnt : Nat := 1
  groups : Nat := 1
  regs : Nat := 8
  cist : Nat := 0
  prio : Nat := 0
  coresident : Bool := false
  ordered : Bool := false
  after : Option DWord := none
  display : List DWord := []
  placed : Nat := 0
  retired : Nat := 0
  children : Nat := 0
  dead : Bool := false
  done : DWord := 0
  pmin : Nat := 0
  pmax : Nat := 12
  since : Nat := 0
  withhold : Bool := false
  deriving DecidableEq, Repr

/-- Workgroups of a grid dealt to a die dispatcher (R28): the next WGID there (every twelfth), since when it waits, its priority now. -/
structure QEntry where
  (grid : Nat) (next : Nat) (prio : Nat) (since : Nat)
  deriving DecidableEq, Repr
structure Die where
  queue : List QEntry := []
  rr : Nat := 0
  agentDown : Bool := false
  tlb : List Tlb := []
  deriving DecidableEq, Repr

/-! ## Virtual and physical functions -/

/-- A kernel of a loaded object (R329): entry address, persisting bounds, scratchpad image. -/
structure Kernel where
  (entry : DWord) (pmin pmax : Nat) (spad : List Byte)
  deriving DecidableEq, Repr
/-- A loaded object (R333). -/
structure Object where
  (id : Nat) (base : DWord) (size : Nat) (kernels : List Kernel) (keys : List Nat) (code : List (Nat × Nat))
  deriving DecidableEq, Repr
/-- An entry of the key table (R371). -/
structure Key where
  (rsan : List Byte) (slhpk : List Byte)
  deriving DecidableEq, Repr

/-- A request record that is open or waits for an entry (R356): kind, the entry's reservation number once it has one, its address; for a
not-present request the log of the page's size; whether it has been answered; and the record. -/
structure Open where
  (kind : Nat) (index : Option Nat) (va : DWord) (info : Nat) (answered : Bool) (recd : BitVec 512)
  deriving DecidableEq, Repr

structure Vf where
  rootq : List DWord := []
  rootDrop : Bool := false
  rootstat : DWord := 0
  dutysel : Word := 0
  trapbase : DWord := 0
  ptbase : DWord := 0
  invaddr : DWord := 0
  invctl : DWord := 0
  /-- Of the invalidation under way: INVADDR as it was, the physical pages whose translations it removed, and what it waits for. -/
  invat : DWord := 0
  invpages : List (Nat × Nat) := []
  invwaits : List Nat := []
  tqbase : DWord := 0
  tqctl : DWord := 0
  tqlog : DWord := 0
  fpbase : DWord := 0
  fplimit : DWord := 0
  fpact : DWord := 0
  fplow : DWord := 0
  fpstep : DWord := 0
  frames : List (Nat × Nat) := []
  /-- The device's writes to frame headers and DONE addresses whose page is not present, oldest first (R48, R344). -/
  late : List (DWord × List Byte) := []
  zpbase : DWord := 0
  zpcnt : DWord := 0
  savebase : DWord := 0
  savesize : DWord := 0
  saved : List (Nat × Nat) := []
  quiescing : Bool := false
  quiesced : Bool := false
  latched : Bool := false
  fatalrec : BitVec 512 := 0
  retcnt : List DWord := []
  opens : List Open := []
  /-- The entries that were reserved in host-assisted TQD mode (R351), and how many entries were passed over uncopied. -/
  hostEntries : List Nat := []
  passed : Nat := 0
  gens : Tab Nat := []
  roots : List DWord := []
  lm : BitVec 384 := 0
  loads : DWord := 0
  keys : Tab Key := []
  objects : List Object := []
  busyPages : List Nat := []
  /-- When the reclassification of its busy page is to be over (R73). -/
  busyDue : Nat := 0
  deriving DecidableEq, Repr

structure FmtWin where
  data : DWord := 0
  size : DWord := 0
  scale : DWord := 0
  ctl : DWord := 0
  next : DWord := 0
  /-- Which change is in progress, for the lines that it leaves open (R350). -/
  change : Nat := 0
  deriving DecidableEq, Repr

structure Pf where
  fw : List FmtWin := []
  dutysel : Word := 0
  pwrctl : DWord := 0
  tokrate : DWord := 0
  tokcap : DWord := 0
  toklevel : DWord := 0
  tokgrant : DWord := 0
  /-- What is in force in this interval of PWRCTL.EN and TOKCAP: a write takes effect at the next one (R374). -/
  capped : Bool := false
  /-- Whether a write has set EN in hardware PWR mode since the interval began (R375). -/
  capStarts : Bool := false
  tokcapNow : DWord := 0
  intervals : Nat := 0
  fencecnt : DWord := 0
  fencelast : DWord := 0
  errcorr : List DWord := []
  errunc : List DWord := []
  lostline : DWord := 0
  islstat : List DWord := []
  throttled : List Bool := []
  mbaddr : DWord := 0
  mblen : DWord := 0
  mbstat : DWord := 0
  /-- The image that an IMAGE command in progress is to write (R369). -/
  mbimage : Option (List Byte) := none
  m0 : BitVec 384 := 0
  m1 : BitVec 384 := 0
  deriving DecidableEq, Repr

/-! ## Collectives -/

/-- A participant of a collective operation (R271): its context, rank, the areas of its descriptor and its send counts; whether a fault of
its areas stands reported, whether it was killed, and whether its COLLW has returned. -/
structure Part where
  (ctx : Nat) (rank : Nat) (src dst ovf stat : DWord) (ovflen : Nat) (counts : List Nat) (held killed collected : Bool)
  deriving DecidableEq, Repr
structure Coll where
  (id : Nat) (vfn : Nat) (inst : Nat) (cid : Nat) (scope : CollScope) (op : CollOp) (ty : CollTy) (count parts rcap : Nat)
  (members : List Part) (status : Option Nat)
  deriving DecidableEq, Repr

/-! ## The word being issued -/

/-- The issue under way (R14, R160): the context, whether at trap level, the address, the executing lanes, the word's size in bytes. -/
structure Issue where
  (ctx : Nat) (level : Bool) (pc : DWord) (exec : Lanes) (size : Nat)
  /-- The chain's head (R290), or the word itself; the words of the chain before it; whether lanes may run on past it. -/
  (head : DWord) (off : Nat) (last : Bool)
  deriving DecidableEq, Repr

/-- A happening on the agenda: what, with which operands, and the clock by which it happens, where the manual gives a figure or a bound (R385). -/
structure Happening where
  what : Instr
  args : Args := {}
  due : Option Nat := none
  deriving DecidableEq, Repr

structure State where
  clock : Nat
  powered : Bool
  running : Bool
  linkUp : Bool
  svn : Nat
  rev : Nat
  flash : List Byte
  cores : Tab Core
  dies : Tab Die
  wgs : Tab Wg
  ctxs : Tab Ctx
  grids : Tab Grid
  coresident : List Nat
  vfs : Tab Vf
  pf : Pf
  mem : List Host.Cell
  cist : Tab Byte
  fe : Tab Bool
  /-- What the last write of a word, or a barrier, carries of its writer's accumulators (R81, R88): the workgroup, and Ctx.told. -/
  views : Tab (Nat × List Nat)
  /-- The cistern words (core × 65,536 + word) that have an uncorrectable error (R365). -/
  cistBad : List Nat
  l1 : Tab L1Word
  dir : Tab DirWord
  llc : Tab LlcSlice
  reqs : Tab Req
  accs : Tab Acc
  jobs : Tab JobRec
  copies : Tab Copy
  colls : List Coll
  tokenq : List Nat
  agenda : List Happening
  picks : List Nat
  args : Args
  issue : Option Issue
  fresh : Nat
  ids : Nat
  answer : List Byte
  deriving DecidableEq, Repr

/-- Why the machine stops. -/
inductive Fault where
  /-- Raised by every step while the module stands in standby with nothing on its agenda: it was powered down at 110 °C (R376) or its
  power failed, and nothing but a module reset can happen. Safe: no instruction issues in that state. -/
  | standby
  deriving DecidableEq, Repr

/-- Why the model gives no meaning. -/
inductive Refusal where
  /-- An instruction whose arm of exec has no meaning yet. Safe: the model stops where the machine goes on. -/
  | notModelled (mnemonic : String)
  /-- exec of an instruction form where no context is issuing (State.issue is none, or names no context); step never asks for it.
  Safe: the manual gives an instruction no effect outside an issue (R14). -/
  | noIssuer
  deriving DecidableEq, Repr

/-- The registers of the physical function at module reset (R349, R369, R375). -/
def Pf.reset : Pf :=
  { fw := List.replicate 16 {}, tokcap := 0x20000, tokcapNow := 0x20000, errcorr := List.replicate 8 0, errunc := List.replicate 8 0
    islstat := List.replicate 32 0, throttled := List.replicate 32 false, mbstat := 0x10 }

/-- The machine right after module reset (R368): the flash holds no image, so the boot ROM waits with MBSTAT 0x10; no grid lives, no
copy of any word exists, and every memory byte reads as the unlisted byte. Registers with no reset value in the manual are zero (DESIGN CHOICE, log 2). -/
def State.reset : State where
  clock := 0
  powered := true
  running := false
  linkUp := true
  svn := 0
  rev := 0
  flash := []
  cores := []
  dies := []
  wgs := []
  ctxs := []
  grids := []
  coresident := []
  vfs := []
  pf := Pf.reset
  mem := []
  cist := []
  fe := []
  views := []
  cistBad := []
  l1 := []
  dir := []
  llc := []
  reqs := []
  accs := []
  jobs := []
  copies := []
  colls := []
  tokenq := []
  agenda := []
  picks := []
  args := {}
  issue := none
  fresh := 0
  ids := 1
  answer := []

end Sys2Proof.Machine
end

