-- ==== Sys2Proof/Machine/Tab.lean ====
section
/-! DEFINITION. The named operations over sparse tables, byte strings, lane masks and the byte memory of the package. -/
namespace Sys2Proof.Machine

/-! ## Sparse tables -/

/-- The value at a key; an absent key reads d. -/
def Tab.get {α : Type} (d : α) (m : Tab α) (k : Nat) : α :=
  match m with
  | [] => d
  | (a, x) :: t => if a = k then x else if k < a then d else Tab.get d t k

def Tab.find? {α : Type} (m : Tab α) (k : Nat) : Option α :=
  match m with
  | [] => none
  | (a, x) :: t => if a = k then some x else if k < a then none else Tab.find? t k

/-- Put a value at a key, in rising order. -/
def Tab.put {α : Type} (m : Tab α) (k : Nat) (v : α) : Tab α :=
  match m with
  | [] => [(k, v)]
  | (a, x) :: t => if a = k then (k, v) :: t else if k < a then (k, v) :: (a, x) :: t else (a, x) :: Tab.put t k v

def Tab.erase {α : Type} (m : Tab α) (k : Nat) : Tab α :=
  match m with
  | [] => []
  | (a, x) :: t => if a = k then t else if k < a then (a, x) :: t else (a, x) :: Tab.erase t k

/-- Write a value where absent keys read d: the value d leaves no entry, so that equal contents are equal tables. -/
def Tab.set {α : Type} [DecidableEq α] (d : α) (m : Tab α) (k : Nat) (v : α) : Tab α :=
  if v = d then Tab.erase m k else Tab.put m k v

/-- Keys strictly above lo, rising, and no entry equal to d. -/
def Tab.wfFrom {α : Type} [DecidableEq α] (d : α) (lo : Option Nat) (m : Tab α) : Bool :=
  match m with
  | [] => true
  | (a, x) :: t => (match lo with | some l => decide (l < a) | none => true) && !decide (x = d) && Tab.wfFrom d (some a) t

/-- The canonical form of a table whose absent keys read d. -/
def Tab.wf {α : Type} [DecidableEq α] (d : α) (m : Tab α) : Bool := Tab.wfFrom d none m

def Tab.keys {α : Type} (m : Tab α) : List Nat := m.map (·.1)
def Tab.vals {α : Type} (m : Tab α) : List α := m.map (·.2)
def Tab.update {α : Type} (d : α) (m : Tab α) (k : Nat) (f : α → α) : Tab α := Tab.put m k (f (Tab.get d m k))
/-- Change an entry that is there; an absent key stays absent. -/
def Tab.modify {α : Type} (m : Tab α) (k : Nat) (f : α → α) : Tab α :=
  match Tab.find? m k with
  | some x => Tab.put m k (f x)
  | none => m
def Tab.mapVals {α β : Type} (m : Tab α) (f : Nat → α → β) : Tab β := m.map fun (k, x) => (k, f k x)
def Tab.filter {α : Type} (m : Tab α) (f : Nat → α → Bool) : Tab α := List.filter (fun (k, x) => f k x) m

/-! ## Lists, bytes and lane masks -/

def nth {α : Type} (d : α) (l : List α) (n : Nat) : α := l.getD n d
def setNth {α : Type} (l : List α) (n : Nat) (v : α) : List α := l.set n v
def updNth {α : Type} (l : List α) (n : Nat) (f : α → α) : List α := l.modify n f

/-- The lanes of a mask, ascending. -/
def lanesOf (m : Lanes) : List Nat := (List.range 32).filter fun l => m.getLsbD l
def laneBit (l : Nat) : Lanes := 1#32 <<< l
def hasLane (m : Lanes) (l : Nat) : Bool := m.getLsbD l
def maskOf (ls : List Nat) : Lanes := ls.foldl (fun m l => m ||| laneBit l) 0
/-- Words start to start + len − 1 of a line. -/
def wordMask (start len : Nat) : BitVec 32 := maskOf ((List.range len).map (· + start))
def lowestLane (m : Lanes) : Nat := (lanesOf m).headD 0

def natOfBytes (l : List Byte) : Nat := ofBytesLE l
def wordOfBytes (l : List Byte) : Word := BitVec.ofNat 32 (ofBytesLE l)
def dwordOfBytes (l : List Byte) : DWord := BitVec.ofNat 64 (ofBytesLE l)
def iota (a n : Nat) : List Nat := (List.range n).map (· + a)
/-- A stable sort. -/
def insertBy {α : Type} (le : α → α → Bool) (x : α) : List α → List α
  | [] => [x]
  | y :: t => if le x y then x :: y :: t else y :: insertBy le x t
def sortBy {α : Type} (le : α → α → Bool) (l : List α) : List α := l.foldr (insertBy le) []
def roundUp (n k : Nat) : Nat := (n + k - 1) / k * k

/-! ## The memory of the package and of the host -/

/-- What a byte of memory that nothing has written reads as (DESIGN CHOICE, log 1). -/
def unlistedByte : Byte := 0

/-- Bytes of both tiers and of host memory, by physical address (R54, R341). -/
abbrev Memory := List Host.Cell
def Memory.read (m : Memory) (a : Nat) : Byte := Tab.get unlistedByte m a
def Memory.write (m : Memory) (a : Nat) (b : Byte) : Memory := Tab.set unlistedByte m a b
def Memory.wf (m : Memory) : Bool := Tab.wf unlistedByte m
def Memory.readN (m : Memory) (a n : Nat) : List Byte := (List.range n).map fun i => m.read (a + i)
def Memory.writeN (m : Memory) (a : Nat) (bs : List Byte) : Memory :=
  match bs with
  | [] => m
  | b :: t => (m.write a b).writeN (a + 1) t

/-- Write those bytes whose address is admitted. -/
def Memory.writeSome (m : Memory) (a : Nat) (bs : List Byte) (ok : Nat → Bool) : Memory :=
  match bs with
  | [] => m
  | b :: t => (if ok a then m.write a b else m).writeSome (a + 1) t ok

/-- Little-endian words of memory (R5). -/
def Memory.word (m : Memory) (a : Nat) : Word := wordOfBytes (m.readN a 4)
def Memory.dword (m : Memory) (a : Nat) : DWord := dwordOfBytes (m.readN a 8)
def Memory.setWord (m : Memory) (a : Nat) (w : Word) : Memory := m.writeN a (bytesLE 4 w.toNat)
def Memory.setDWord (m : Memory) (a : Nat) (w : DWord) : Memory := m.writeN a (bytesLE 8 w.toNat)

/-! ## Access by key to the parts of the state -/

def State.core (s : State) (k : Nat) : Core := Tab.get {} s.cores k
def State.setCore (s : State) (k : Nat) (c : Core) : State := { s with cores := Tab.put s.cores k c }
def State.updCore (s : State) (k : Nat) (f : Core → Core) : State := s.setCore k (f (s.core k))
def State.die (s : State) (k : Nat) : Die := Tab.get {} s.dies k
def State.updDie (s : State) (k : Nat) (f : Die → Die) : State := { s with dies := Tab.put s.dies k (f (s.die k)) }
def State.wg (s : State) (k : Nat) : Wg := Tab.get {} s.wgs k
def State.setWg (s : State) (k : Nat) (w : Wg) : State := { s with wgs := Tab.put s.wgs k w }
def State.updWg (s : State) (k : Nat) (f : Wg → Wg) : State := { s with wgs := Tab.modify s.wgs k f }
def State.ctx (s : State) (k : Nat) : Ctx := Tab.get {} s.ctxs k
def State.setCtx (s : State) (k : Nat) (c : Ctx) : State := { s with ctxs := Tab.put s.ctxs k c }
def State.updCtx (s : State) (k : Nat) (f : Ctx → Ctx) : State := { s with ctxs := Tab.modify s.ctxs k f }
def State.grid (s : State) (k : Nat) : Grid := Tab.get {} s.grids k
def State.updGrid (s : State) (k : Nat) (f : Grid → Grid) : State := { s with grids := Tab.modify s.grids k f }
def State.vf (s : State) (k : Nat) : Vf := Tab.get {} s.vfs k
def State.updVf (s : State) (k : Nat) (f : Vf → Vf) : State := { s with vfs := Tab.put s.vfs k (f (s.vf k)) }
def State.updPf (s : State) (f : Pf → Pf) : State := { s with pf := f s.pf }
def State.req (s : State) (k : Nat) : Option Req := Tab.find? s.reqs k
def State.acc (s : State) (k : Nat) : Option Acc := Tab.find? s.accs k
def State.updReq (s : State) (k : Nat) (f : Req → Req) : State := { s with reqs := Tab.modify s.reqs k f }
def State.updAcc (s : State) (k : Nat) (f : Acc → Acc) : State := { s with accs := Tab.modify s.accs k f }
def State.dirWord (s : State) (w : Nat) : DirWord := Tab.get {} s.dir w
def State.setDir (s : State) (w : Nat) (d : DirWord) : State := { s with dir := Tab.set {} s.dir w d }
/-- The L1 of a core holds a word under the key core × 2^46 + word number. -/
def l1Key (core word : Nat) : Nat := core * 2 ^ 46 + word
def State.l1w (s : State) (core word : Nat) : L1Word := Tab.get {} s.l1 (l1Key core word)
def State.setL1 (s : State) (core word : Nat) (x : L1Word) : State :=
  { s with l1 := if x.st = .i then Tab.erase s.l1 (l1Key core word) else Tab.put s.l1 (l1Key core word) x }

/-- A new number, used once. -/
def State.newId (s : State) : Nat × State := (s.ids, { s with ids := s.ids + 1 })
/-- A free value of w bits (DESIGN CHOICE, log 3). -/
def State.free (s : State) (w : Nat) : BitVec w × State := (BitVec.ofNat w (Config.freeValue s.fresh), { s with fresh := s.fresh + 1 })
/-- n free bytes. -/
def State.freeBytes (s : State) (n : Nat) : List Byte × State :=
  ((List.range n).map fun i => BitVec.ofNat 8 (Config.freeValue (s.fresh + i)), { s with fresh := s.fresh + n })
/-- Put a happening at the end of the agenda (DESIGN CHOICE, log 7). -/
def State.push (s : State) (i : Instr) (a : Args := {}) (due : Option Nat := none) : State := { s with agenda := s.agenda ++ [⟨i, a, due⟩] }
/-- Whether a happening stands on the agenda, whatever its bound. -/
def State.awaits (s : State) (i : Instr) (a : Args) : Bool := s.agenda.any fun h => h.what = i && h.args = a
def State.pushOnce (s : State) (i : Instr) (a : Args := {}) (due : Option Nat := none) : State := if s.awaits i a then s else s.push i a due

end Sys2Proof.Machine
end

