-- ==== Sys2Proof/Machine/Flags.lean ====
section
/-! DEFINITION. Number formats, rounding and status flags (07): exact values as sign, magnitude and power of two; one rounding into
any format; and the flags of FPSTAT (R131) that each result raises. -/
namespace Sys2Proof.Machine

/-- Flags in the places of FPSTAT bits 5:0 (R131). -/
abbrev Fl := BitVec 6
def fNone : Fl := 0
def fIV : Fl := 1
def fDZ : Fl := 2
def fOF : Fl := 4
def fUF : Fl := 8
def fIX : Fl := 16
def fQFMT : Fl := 32

/-- Rounding modes, FPCTL.RM codes 0 to 3 (R131). -/
inductive Rm where
  | rne | rz | ru | rd
  deriving DecidableEq, Repr
def Rm.ofCode (n : Nat) : Rm :=
  match n with
  | 0 => .rne
  | 1 => .rz
  | 2 => .ru
  | _ => .rd

/-- A floating-point format (R128): exponent bits, mantissa bits, and whether it is E4M3, which has no infinity. -/
structure Fmt where
  (eb mb : Nat) (e4m3 : Bool)
  deriving DecidableEq, Repr
def fp32 : Fmt := ⟨8, 23, false⟩
def fp16 : Fmt := ⟨5, 10, false⟩
def bf16 : Fmt := ⟨8, 7, false⟩
def e4m3 : Fmt := ⟨4, 3, true⟩
def e5m2 : Fmt := ⟨5, 2, false⟩
def Fmt.bits (f : Fmt) : Nat := 1 + f.eb + f.mb
def Fmt.bias (f : Fmt) : Nat := 2 ^ (f.eb - 1) - 1
/-- The exponent of the last place of a subnormal. -/
def Fmt.qmin (f : Fmt) : Int := 1 - (f.bias : Int) - f.mb
/-- The canonical NaN (R129). -/
def Fmt.nan (f : Fmt) : Nat := if f.e4m3 then 0x7F else (2 ^ f.eb - 1) * 2 ^ f.mb + 2 ^ (f.mb - 1)
def Fmt.inf (f : Fmt) : Nat := (2 ^ f.eb - 1) * 2 ^ f.mb
def Fmt.max (f : Fmt) : Nat := if f.e4m3 then 0x7E else f.inf - 1
def Fmt.sign (f : Fmt) : Nat := 2 ^ (f.eb + f.mb)

/-- An exact value: NaN (signalling or quiet), an infinity, or ± m × 2^e. -/
inductive FVal where
  | nan (signalling : Bool)
  | inf (neg : Bool)
  | fin (neg : Bool) (m : Nat) (e : Int)
  deriving DecidableEq, Repr

/-- The value of a bit pattern (R128). A NaN of FP16, BF16 and E5M2 signals, as one of FP32 does (R178), with its top mantissa bit clear, and the one NaN of
E4M3 is quiet (DEDUCED, log 124). -/
def Fmt.val (f : Fmt) (b : Nat) : FVal :=
  let neg := b / f.sign % 2 = 1
  let ex := b / 2 ^ f.mb % 2 ^ f.eb
  let ma := b % 2 ^ f.mb
  if f.e4m3 && b % f.sign == 0x7F then .nan false
  else if !f.e4m3 && ex == 2 ^ f.eb - 1 then
    if ma = 0 then .inf neg else .nan (ma < 2 ^ (f.mb - 1))
  else if ex = 0 then .fin neg ma f.qmin
  else .fin neg (2 ^ f.mb + ma) (f.qmin + ex - 1)

def FVal.isNan : FVal → Bool
  | .nan _ => true
  | _ => false
def FVal.isSNan : FVal → Bool
  | .nan s => s
  | _ => false
def FVal.isZero : FVal → Bool
  | .fin _ m _ => m == 0
  | _ => false
def FVal.neg : FVal → FVal
  | .nan s => .nan s
  | .inf n => .inf (!n)
  | .fin n m e => .fin (!n) m e
def FVal.sgn : FVal → Bool
  | .nan _ => false
  | .inf n => n
  | .fin n _ _ => n

/-- FTZ on a source (R132): a subnormal of the format reads as a zero of its sign. -/
def Fmt.src (f : Fmt) (ftz : Bool) (b : Nat) : FVal :=
  match f.val b with
  | .fin n m e => if ftz && m < 2 ^ f.mb && !f.e4m3 then .fin n 0 e else .fin n m e
  | v => v

/-- Whether to add one to the magnitude: the part cut off against half a unit (0 below, 1 at, 2 above), anything cut off at all. -/
def roundUpBit (rm : Rm) (neg odd : Bool) (half : Nat) (inexact : Bool) : Bool :=
  match rm with
  | .rne => half = 2 || (half = 1 && odd)
  | .rz => false
  | .ru => inexact && !neg
  | .rd => inexact && neg

/-- m × 2^e (and a little more when sticky) cut to a multiple of 2^q: the multiple, and whether it is inexact. -/
def roundTo (rm : Rm) (neg : Bool) (m : Nat) (e : Int) (sticky : Bool) (q : Int) : Nat × Bool :=
  if q ≤ e then
    let n := m * 2 ^ (e - q).toNat
    (n + (if roundUpBit rm neg (n % 2 = 1) 0 sticky then 1 else 0), sticky)
  else
    let sh := (q - e).toNat
    let n := m / 2 ^ sh
    let r := m % 2 ^ sh
    let h := 2 ^ (sh - 1)
    let half := if r < h then 0 else if r = h && !sticky then 1 else 2
    let ix := r ≠ 0 || sticky
    (n + (if roundUpBit rm neg (n % 2 = 1) half ix then 1 else 0), ix)

/-- One rounding of a non-zero magnitude into a format (R132, R133): the bits and the flags. nsat is .NSAT of a conversion to E4M3;
ftz flushes a subnormal result (R132). UF is set for a result that is tiny after rounding to the format's precision, and inexact. -/
def Fmt.round (f : Fmt) (rm : Rm) (ftz nsat : Bool) (neg : Bool) (m : Nat) (e : Int) (sticky : Bool) : Nat × Fl :=
  let s := if neg then f.sign else 0
  let top : Int := (m.log2 : Int) + e
  let q := Max.max (top - f.mb) f.qmin
  let (n, ix) := roundTo rm neg m e sticky q
  let b := (q - f.qmin).toNat * 2 ^ f.mb + n
  if f.e4m3 && b > 0x7E then ((if nsat then 0x7F else s + 0x7E), fOF ||| fIX)
  else if !f.e4m3 && b ≥ f.inf then
    let toInf := match rm with
      | .rne => true
      | .rz => false
      | .ru => !neg
      | .rd => neg
    (s + (if toInf then f.inf else f.max), fOF ||| fIX)
  else
    let (n', _) := roundTo rm neg m e sticky (top - f.mb)
    let tiny := decide (top < f.qmin + f.mb) && !(decide (top = f.qmin + f.mb - 1) && decide (n' = 2 ^ (f.mb + 1)))
    if ftz && !f.e4m3 && b < 2 ^ f.mb && b ≠ 0 then (s, fUF ||| fIX)
    else (s + b, (if ix then fIX else 0) ||| (if ix && tiny then fUF else 0))

/-- A value into a format, with the invalid and NaN rules of R129 and R133 for conversions. -/
def Fmt.pack (f : Fmt) (rm : Rm) (ftz nsat : Bool) (v : FVal) : Nat × Fl :=
  match v with
  | .nan s => (f.nan, if s then fIV else 0)
  | .inf n => if f.e4m3 then ((if nsat then 0x7F else (if n then f.sign else 0) + 0x7E), fOF)
    else ((if n then f.sign else 0) + f.inf, 0)
  | .fin n m e => if m = 0 then ((if n then f.sign else 0), 0) else f.round rm ftz nsat n m e false

/-- Sum of two finite values as one exact value; the sign of a zero sum by R175. -/
def addExact (rm : Rm) (n1 : Bool) (m1 : Nat) (e1 : Int) (n2 : Bool) (m2 : Nat) (e2 : Int) : FVal :=
  let e := min e1 e2
  let a : Int := (if n1 then -1 else 1) * (m1 * 2 ^ (e1 - e).toNat : Nat)
  let b : Int := (if n2 then -1 else 1) * (m2 * 2 ^ (e2 - e).toNat : Nat)
  let c := a + b
  if c = 0 then .fin (if n1 = n2 then n1 else rm = .rd) 0 0
  else .fin (c < 0) c.natAbs e

/-- a + b (R175): the exact value and the flags of an invalid case. -/
def FVal.add (rm : Rm) (a b : FVal) : FVal × Fl :=
  match a, b with
  | .nan s, .nan t => (.nan false, if s || t then fIV else 0)
  | .nan s, _ => (.nan false, if s then fIV else 0)
  | _, .nan t => (.nan false, if t then fIV else 0)
  | .inf m, .inf n => if m = n then (.inf m, 0) else (.nan false, fIV)
  | .inf m, _ => (.inf m, 0)
  | _, .inf n => (.inf n, 0)
  | .fin n1 m1 e1, .fin n2 m2 e2 => (addExact rm n1 m1 e1 n2 m2 e2, 0)

/-- a × b (R175). -/
def FVal.mul (a b : FVal) : FVal × Fl :=
  match a, b with
  | .nan s, .nan t => (.nan false, if s || t then fIV else 0)
  | .nan s, _ => (.nan false, if s then fIV else 0)
  | _, .nan t => (.nan false, if t then fIV else 0)
  | .inf m, .inf n => (.inf (m != n), 0)
  | .inf m, .fin n k _ => if k = 0 then (.nan false, fIV) else (.inf (m != n), 0)
  | .fin n k _, .inf m => if k = 0 then (.nan false, fIV) else (.inf (m != n), 0)
  | .fin n1 m1 e1, .fin n2 m2 e2 => (.fin (n1 != n2) (m1 * m2) (e1 + e2), 0)

/-- a × b + c with one rounding to come (R174, R175). -/
def FVal.fma (rm : Rm) (a b c : FVal) : FVal × Fl :=
  let (p, f1) := a.mul b
  let (r, f2) := p.add rm c
  (r, f1 ||| f2)

/-- Order of two values that are no NaN; −0.0 equals +0.0. -/
def FVal.cmp (a b : FVal) : Ordering :=
  match a, b with
  | .inf m, .inf n => if m = n then .eq else if m then .lt else .gt
  | .inf m, _ => if m then .lt else .gt
  | _, .inf n => if n then .gt else .lt
  | .fin n1 m1 e1, .fin n2 m2 e2 =>
    match addExact .rne n1 m1 e1 (!n2) m2 e2 with
    | .fin s m _ => if m = 0 then .eq else if s then .lt else .gt
    | _ => .eq
  | _, _ => .eq

/-- FMIN and FMAX of bit patterns (R175): the other operand for one NaN, −0.0 below +0.0, IV for a signalling NaN only. -/
def Fmt.minMax (f : Fmt) (isMax ftz : Bool) (a b : Nat) : Nat × Fl :=
  let x := f.src ftz a
  let y := f.src ftz b
  let fl := if x.isSNan || y.isSNan then fIV else 0
  let bits (v : FVal) (w : Nat) : Nat := if v.isZero then (if v.sgn then f.sign else 0) else w
  if x.isNan && y.isNan then (f.nan, fl)
  else if x.isNan then (bits y b, fl)
  else if y.isNan then (bits x a, fl)
  else
    let lower := match x.cmp y with
      | .lt => true
      | .gt => false
      | .eq => x.sgn && !y.sgn
    let same := decide (x.cmp y = .eq) && x.sgn == y.sgn
    if same then (bits x a, fl) else if lower != isMax then (bits x a, fl) else (bits y b, fl)

/-! ## Operations on bit patterns -/

/-- What a vector instruction's rounding and FPCTL.FTZ make of it (R132). -/
structure FpCtl where
  (rm : Rm) (ftz : Bool)
  deriving DecidableEq, Repr
/-- The engines round RNE and keep subnormals (R132). -/
def engineFp : FpCtl := ⟨.rne, false⟩

def Fmt.add (f : Fmt) (c : FpCtl) (a b : Nat) : Nat × Fl :=
  let (v, fl) := (f.src c.ftz a).add c.rm (f.src c.ftz b)
  let (r, fl2) := f.pack c.rm c.ftz false v
  (r, fl ||| fl2)
def Fmt.sub (f : Fmt) (c : FpCtl) (a b : Nat) : Nat × Fl :=
  let (v, fl) := (f.src c.ftz a).add c.rm (f.src c.ftz b).neg
  let (r, fl2) := f.pack c.rm c.ftz false v
  (r, fl ||| fl2)
def Fmt.mul (f : Fmt) (c : FpCtl) (a b : Nat) : Nat × Fl :=
  let (v, fl) := (f.src c.ftz a).mul (f.src c.ftz b)
  let (r, fl2) := f.pack c.rm c.ftz false v
  (r, fl ||| fl2)
def Fmt.fma (f : Fmt) (c : FpCtl) (a b d : Nat) : Nat × Fl :=
  let (v, fl) := (f.src c.ftz a).fma c.rm (f.src c.ftz b) (f.src c.ftz d)
  let (r, fl2) := f.pack c.rm c.ftz false v
  (r, fl ||| fl2)

/-- FCMP (R176): the predicate and IV. -/
def fcmp (cond : FCond) (ftz : Bool) (a b : Nat) : Bool × Fl :=
  let x := fp32.src ftz a
  let y := fp32.src ftz b
  let un := x.isNan || y.isNan
  let sn := if x.isSNan || y.isSNan then fIV else 0
  let qn := if un then fIV else 0
  let o := x.cmp y
  match cond with
  | .eq => (!un && o = .eq, sn)
  | .ne => (un || o ≠ .eq, sn)
  | .lt => (!un && o = .lt, qn)
  | .le => (!un && o ≠ .gt, qn)
  | .gt => (!un && o = .gt, qn)
  | .ge => (!un && o ≠ .lt, qn)
  | .un => (un, sn)
  | .or => (!un, sn)

/-- FCLASS (R178). -/
def fclass (a : Nat) : Nat :=
  match fp32.val a with
  | .nan s => if s then 2 ^ 8 else 2 ^ 9
  | .inf n => if n then 2 ^ 0 else 2 ^ 7
  | .fin n m _ =>
    if m = 0 then (if n then 2 ^ 3 else 2 ^ 4)
    else if m < 2 ^ 23 then (if n then 2 ^ 2 else 2 ^ 5)
    else (if n then 2 ^ 1 else 2 ^ 6)

/-- FRND (R178): an integral FP32 value, sign of a zero kept, no flag but IV. -/
def frnd (c : FpCtl) (a : Nat) : Nat × Fl :=
  match fp32.src c.ftz a with
  | .nan s => (fp32.nan, if s then fIV else 0)
  | .inf n => ((if n then fp32.sign else 0) + fp32.inf, 0)
  | .fin n m e =>
    if m = 0 then ((if n then fp32.sign else 0), 0)
    else
      let (k, _) := roundTo c.rm n m e false (Max.max e 0)
      let v : FVal := .fin n k (Max.max e 0)
      ((fp32.pack .rne false false v).1, 0)

/-- F2I (R181). -/
def f2i (c : FpCtl) (a : Nat) : Nat × Fl :=
  match fp32.src c.ftz a with
  | .nan _ => (0, fIV)
  | .inf n => (if n then 2 ^ 31 else 2 ^ 31 - 1, fIV)
  | .fin n m e =>
    let (k, ix) := roundTo c.rm n m e false 0
    if n then
      if k > 2 ^ 31 then (2 ^ 31, fIV) else ((2 ^ 32 - k) % 2 ^ 32, if ix then fIX else 0)
    else
      if k > 2 ^ 31 - 1 then (2 ^ 31 - 1, fIV) else (k, if ix then fIX else 0)

/-- I2F (R181). -/
def i2f (rm : Rm) (a : Nat) : Nat × Fl :=
  let neg := decide (a ≥ 2 ^ 31)
  let m := if neg then 2 ^ 32 - a else a
  if m = 0 then (0, 0) else fp32.round rm false false neg m 0 false

/-- FCVT (R182). Narrow sources are the low bits of a; FTZ acts on FP32, FP16 and BF16, never on E4M3 and E5M2. -/
def fcvt (conv : FConv) (c : FpCtl) (nsat : Bool) (a : Nat) : Nat × Fl :=
  match conv with
  | .toF16 => fp16.pack c.rm c.ftz false (fp32.src c.ftz a)
  | .toBf16 => bf16.pack c.rm c.ftz false (fp32.src c.ftz a)
  | .toE4m3 => e4m3.pack c.rm false nsat (fp32.src c.ftz a)
  | .toE5m2 => e5m2.pack c.rm false false (fp32.src c.ftz a)
  | .ofF16 => fp32.pack .rne c.ftz false (fp16.src c.ftz (a % 2 ^ 16))
  | .ofBf16 => fp32.pack .rne c.ftz false (bf16.src c.ftz (a % 2 ^ 16))
  | .ofE4m3 => fp32.pack .rne c.ftz false (e4m3.val (a % 2 ^ 8))
  | .ofE5m2 => fp32.pack .rne c.ftz false (e5m2.val (a % 2 ^ 8))

/-! ## Square root and the transcendental instructions (R177) -/

/-- Integer square root, bit by bit from a power of two. -/
def isqrtFrom (n : Nat) (bitPos acc : Nat) : Nat :=
  match bitPos with
  | 0 => acc
  | k + 1 =>
    let t := acc + 2 ^ k
    isqrtFrom n k (if t * t ≤ n then t else acc)
def isqrt (n : Nat) : Nat := isqrtFrom n (n.log2 / 2 + 1) 0

/-- Bits after the point in the fixed-point evaluations; far more than a rounding to FP32 can need (PRESUMED, log 11). -/
def fixBits : Nat := 384
def fixOne : Nat := 2 ^ fixBits

/-- Sum of a power series whose term k + 1 is term k times x, cut to fixed point, over d k. -/
def seriesUp (x : Nat) (d : Nat → Nat) (steps k : Nat) (term acc : Nat) : Nat :=
  match steps with
  | 0 => acc
  | n + 1 => seriesUp x d n (k + 1) (term * x / fixOne / d k) (acc + term)
/-- Σ term_k / (2k + 1) with term_{k+1} = term_k × z² (atanh), or with alternating signs (atan). -/
def seriesOdd (z2 : Nat) (alt : Bool) (steps k : Nat) (term : Nat) (acc : Int) : Int :=
  match steps with
  | 0 => acc
  | n + 1 => seriesOdd z2 alt n (k + 1) (term * z2 / fixOne) (acc + (if alt && k % 2 = 1 then -1 else 1) * ((term / (2 * k + 1) : Nat) : Int))
/-- ln((1 + z)/(1 − z)) for z in fixed point. -/
def ln1z (z : Nat) : Nat := 2 * (seriesOdd (z * z / fixOne) false 130 0 z 0).toNat
def ln2Fix : Nat := ln1z (fixOne / 3)
def atanFix (d : Nat) : Int := seriesOdd (fixOne / (d * d)) true 100 0 (fixOne / d) 0
/-- π by Machin's formula. -/
def piFix : Nat := (16 * atanFix 5 - 4 * atanFix 239).toNat
/-- e^x for x in fixed point, 0 ≤ x < 1. -/
def expFix (x : Nat) : Nat := seriesUp x (fun k => k + 1) 90 0 fixOne 0
/-- Σ (−1)^k x^(2k) / (…)!, from the two last factors of each factorial. -/
def seriesAlt (x2 : Nat) (d : Nat → Nat) (steps k : Nat) (term : Nat) (acc : Int) : Int :=
  match steps with
  | 0 => acc
  | n + 1 => seriesAlt x2 d n (k + 1) (term * x2 / fixOne / d k) (acc + (if k % 2 = 1 then -1 else 1) * (term : Int))
def sinFix (x : Nat) : Nat := (seriesAlt (x * x / fixOne) (fun k => (2 * k + 2) * (2 * k + 3)) 60 0 x 0).toNat
def cosFix (x : Nat) : Nat := (seriesAlt (x * x / fixOne) (fun k => (2 * k + 1) * (2 * k + 2)) 60 0 fixOne 0).toNat

def nanResult (s : Bool) : Nat × Fl := (fp32.nan, if s then fIV else 0)
def signed (n : Bool) (b : Nat) : Nat := (if n then fp32.sign else 0) + b

def frcp (ftz : Bool) (a : Nat) : Nat × Fl :=
  match fp32.src ftz a with
  | .nan s => nanResult s
  | .inf n => (signed n 0, 0)
  | .fin n m e =>
    if m = 0 then (signed n fp32.inf, fDZ)
    else
      let q := 2 ^ 64 / m
      fp32.round .rne ftz false n q (-e - 64) (2 ^ 64 % m ≠ 0)

def fsqrt (c : FpCtl) (a : Nat) : Nat × Fl :=
  match fp32.src c.ftz a with
  | .nan s => nanResult s
  | .inf n => if n then (fp32.nan, fIV) else (fp32.inf, 0)
  | .fin n m e =>
    if m = 0 then (signed n 0, 0)
    else if n then (fp32.nan, fIV)
    else
      let (m', e') := if e % 2 = 0 then (m, e) else (2 * m, e - 1)
      let t := m' * 2 ^ 80
      let r := isqrt t
      fp32.round c.rm c.ftz false false r (e' / 2 - 40) (r * r ≠ t)

def frsq (ftz : Bool) (a : Nat) : Nat × Fl :=
  match fp32.src ftz a with
  | .nan s => nanResult s
  | .inf n => if n then (fp32.nan, fIV) else (0, 0)
  | .fin n m e =>
    if m = 0 then (signed n fp32.inf, fDZ)
    else if n then (fp32.nan, fIV)
    else
      let (m', e') := if e % 2 = 0 then (m, e) else (2 * m, e - 1)
      let t := 2 ^ 160 / m'
      let r := isqrt t
      fp32.round .rne ftz false false r (-(e' / 2) - 80) (r * r * m' ≠ 2 ^ 160)

/-- The value as fixed-point integer part and fraction; the exponent of an FP32 fraction is at least −149. -/
def toFix (m : Nat) (e : Int) : Nat := if e ≥ 0 then m * 2 ^ e.toNat * fixOne else m * 2 ^ (fixBits - (-e).toNat)

def fexp2 (ftz : Bool) (a : Nat) : Nat × Fl :=
  match fp32.src ftz a with
  | .nan s => nanResult s
  | .inf n => if n then (0, 0) else (fp32.inf, 0)
  | .fin n m e =>
    if (m.log2 : Int) + e ≥ 9 then
      if n then fp32.round .rne ftz false false 1 (-400) true else (fp32.inf, fOF ||| fIX)
    else
      let x : Int := (if n then -1 else 1) * (toFix m e : Int)
      let k := x / fixOne
      let f := (x % fixOne).toNat
      if f = 0 then fp32.round .rne ftz false false 1 k false
      else fp32.round .rne ftz false false (expFix (f * ln2Fix / fixOne)) (k - fixBits) true

def flog2 (ftz : Bool) (a : Nat) : Nat × Fl :=
  match fp32.src ftz a with
  | .nan s => nanResult s
  | .inf n => if n then (fp32.nan, fIV) else (fp32.inf, 0)
  | .fin n m e =>
    if m = 0 then (signed true fp32.inf, fDZ)
    else if n then (fp32.nan, fIV)
    else
      let k : Int := (m.log2 : Int) + e
      let p := 2 ^ m.log2
      if m = p then
        if k = 0 then (0, 0) else fp32.round .rne ftz false (k < 0) k.natAbs 0 false
      else
        let z := (m - p) * fixOne / (m + p)
        let y : Int := k * fixOne + ((ln1z z * fixOne / ln2Fix : Nat) : Int)
        fp32.round .rne ftz false (y < 0) y.natAbs (-(fixBits : Int)) true

/-- sin(πr) or cos(πr) of a fraction 0 < r < 1/2 in fixed point. -/
def trigFix (isSin : Bool) (r : Nat) : Nat :=
  let x := r * piFix / fixOne
  if isSin then sinFix x else cosFix x

def fsin (ftz : Bool) (a : Nat) : Nat × Fl :=
  match fp32.src ftz a with
  | .nan s => nanResult s
  | .inf _ => (fp32.nan, fIV)
  | .fin n m e =>
    if m = 0 || e ≥ 0 then (signed n 0, 0)
    else
      let x := toFix m e % (2 * fixOne)
      let neg := n != decide (x ≥ fixOne)
      let r := x % fixOne
      let h := if r > fixOne / 2 then fixOne - r else r
      if r = 0 then (signed n 0, 0)
      else if h = fixOne / 2 then (signed neg 0x3F800000, 0)
      else fp32.round .rne ftz false neg (trigFix true h) (-(fixBits : Int)) true

def fcos (ftz : Bool) (a : Nat) : Nat × Fl :=
  match fp32.src ftz a with
  | .nan s => nanResult s
  | .inf _ => (fp32.nan, fIV)
  | .fin _ m e =>
    let x := if m = 0 then 0 else if e ≥ 1 then 0 else toFix m e % (2 * fixOne)
    let r := if x > fixOne then 2 * fixOne - x else x
    if r = 0 then (0x3F800000, 0)
    else if r = fixOne then (signed true 0x3F800000, 0)
    else if r = fixOne / 2 then (0, 0)
    else if r < fixOne / 2 then fp32.round .rne ftz false false (trigFix false r) (-(fixBits : Int)) true
    else fp32.round .rne ftz false true (trigFix false (fixOne - r)) (-(fixBits : Int)) true

/-! ## Packed halves (R179) -/

/-- Both halves of a register, each computed on its own; the flags ORed. -/
def halves (f : Nat → Nat → Nat → Nat × Fl) (a b d : Nat) : Nat × Fl :=
  let (l, f1) := f (a % 2 ^ 16) (b % 2 ^ 16) (d % 2 ^ 16)
  let (h, f2) := f (a / 2 ^ 16 % 2 ^ 16) (b / 2 ^ 16 % 2 ^ 16) (d / 2 ^ 16 % 2 ^ 16)
  (h * 2 ^ 16 + l, f1 ||| f2)

/-! ## Q4X (R130, R136) -/

/-- An E8M0 scale as an FP32 operand (R130). -/
def scaleBits (e : Nat) : Nat := if e = 0 then 0x00400000 else if e = 0xFF then 0x7FC00000 else e * 0x00800000

/-- The elements of a block from its 128 slots (R136), and whether a malformed marker was met. Each element is an exact value. -/
def q4xDecode (slot : Nat → Nat) (i : Nat) (skip : Nat) (fuel : Nat) : List FVal × Bool :=
  match fuel with
  | 0 => ([], false)
  | n + 1 =>
    let s := slot i
    if skip > 0 then
      let (r, q) := q4xDecode slot (i + 1) (skip - 1) n
      (.fin false 0 0 :: r, q)
    else if s ≠ 8 then
      let (r, q) := q4xDecode slot (i + 1) 0 n
      (.fin (s > 8) (if s > 8 then 16 - s else s) 0 :: r, q)
    else if i ≥ 126 then
      let (r, _) := q4xDecode slot (i + 1) 0 n
      (.fin false 0 0 :: r, true)
    else
      let (r, q) := q4xDecode slot (i + 1) 2 n
      (e4m3.val (slot (i + 2) * 16 + slot (i + 1)) :: r, q)
def q4xElems (slot : Nat → Nat) : List FVal × Bool := q4xDecode slot 0 0 128

/-- An element times the block scale 2^(e − 127). -/
def scaleBy (v : FVal) (e : Nat) : FVal :=
  match v with
  | .fin n m x => .fin n m (x + e - 127)
  | w => w

/-! ## Status and control registers (R131) -/

def fpctlRm (c : Word) : Rm := Rm.ofCode (c.extractLsb' 0 2).toNat
def fpctlFtz (c : Word) : Bool := c.getLsbD 2
def fpctlEn (c : Word) : Fl := c.extractLsb' 9 6
/-- WRSR of FPCTL: bits 31:15 and 8:3 must be zero. -/
def fpctlOk (c : Word) : Bool := c.extractLsb' 15 17 == 0 && c.extractLsb' 3 6 == 0
def fpstatOk (c : Word) : Bool := c.extractLsb' 6 26 == 0
/-- The rounding that MOD bits 2:0 choose (R132). -/
def fpSel (sel : RmSel) (c : Word) : FpCtl :=
  let rm := match sel with
    | .dyn => fpctlRm c
    | .rne => .rne
    | .rz => .rz
    | .ru => .ru
    | .rd => .rd
  ⟨rm, fpctlFtz c⟩

end Sys2Proof.Machine
end

