-- ==== Sys2Proof/Machine/Ops.lean ====
section
/-! DEFINITION. The named operations over contexts, windows, coherent memory, translation, trap queues and traps: what the meanings
are written with. Taking an exception is State.trap; the return from one is State.leaveTrap. -/
namespace Sys2Proof.Machine

/-! ## Contexts, lanes and fronts -/

def Ctx.key (c : Ctx) : Nat := c.wk * 32 + c.num
def Ctx.isHead (c : Ctx) : Bool := c.num == 16
def State.wgOf (s : State) (ck : Nat) : Wg := s.wg (ck / 32)
def State.coreOf (s : State) (ck : Nat) : Nat := (s.wgOf ck).core
def State.gridOf (s : State) (ck : Nat) : Grid := s.grid (s.wgOf ck).grid
def coreDie (core : Nat) : Nat := core / 256

def Front.lane (f : Front) (l : Nat) : Lane := nth {} f.lanes l
def Front.updLane (f : Front) (l : Nat) (g : Lane → Lane) : Front := { f with lanes := updNth f.lanes l g }
def Front.updLanes (f : Front) (m : Lanes) (g : Nat → Lane → Lane) : Front :=
  { f with lanes := f.lanes.mapIdx fun l x => if hasLane m l then g l x else x }
/-- The lanes in one state, and at one PC. -/
def Front.inState (f : Front) (p : LaneSt → Bool) : Lanes := maskOf ((List.range f.lanes.length).filter fun l => p (f.lane l).st)
def Front.eligible (f : Front) : Lanes := f.inState (· = .active)
def Front.live (f : Front) : Lanes := f.inState (· ≠ .exited)
def Front.at (f : Front) (pc : DWord) : Lanes := maskOf ((lanesOf f.eligible).filter fun l => (f.lane l).pc = pc)
/-- The distinct PCs of the eligible lanes, and the lowest of those that a test admits (R14, R18). -/
def lowestOf (l : List DWord) : Option DWord := l.foldl (fun m x => match m with | some y => if x.toNat < y.toNat then some x else m | none => some x) none
def Front.pcs (f : Front) : List DWord := ((lanesOf f.eligible).map fun l => (f.lane l).pc).eraseDups
def Front.lowest (f : Front) : Option DWord := lowestOf f.pcs

/-- A front with nothing issued: four empty latches, twelve zero flags (R286). -/
def Front.fresh (lanes : List Lane) : Front := { lanes := lanes, latches := List.replicate 4 {}, flags := List.replicate 12 0 }

def Ctx.frontAt (c : Ctx) (level : Bool) : Front :=
  if level then (match c.trap with | some t => t.front | none => {}) else c.front
def Ctx.updFront (c : Ctx) (level : Bool) (g : Front → Front) : Ctx :=
  if level then { c with trap := c.trap.map fun t => { t with front := g t.front } } else { c with front := g c.front }
def State.front (s : State) (ck : Nat) (level : Bool) : Front := (s.ctx ck).frontAt level
def State.updFront (s : State) (ck : Nat) (level : Bool) (g : Front → Front) : State := s.updCtx ck fun c => c.updFront level g

/-! ## Registers (R35) -/

def vKey (lane n : Nat) : Nat := lane * 256 + n
def Ctx.vreg (c : Ctx) (lane n : Nat) : Word := Tab.get 0 c.v (vKey lane n)
def Ctx.setV (c : Ctx) (lane n : Nat) (x : Word) : Ctx := { c with v := Tab.set 0 c.v (vKey lane n) x }
def Ctx.pred (c : Ctx) (n : Nat) : Lanes := if n = 7 then BitVec.allOnes 32 else nth 0 c.p n
def Ctx.setPred (c : Ctx) (n lane : Nat) (b : Bool) : Ctx :=
  if n = 7 then c else { c with p := updNth c.p n fun m => if b then m ||| laneBit lane else m &&& ~~~laneBit lane }
def Wg.sreg (w : Wg) (n : Nat) : DWord := Tab.get 0 w.s n
def Wg.setS (w : Wg) (n : Nat) (x : DWord) : Wg := { w with s := Tab.set 0 w.s n x }

/-- Write one value where a result goes. -/
def State.write1 (s : State) (ck : Nat) (w : Wr) : State :=
  match w.dest with
  | .v lane n => s.updCtx ck fun c => c.setV lane n (w.val.setWidth 32)
  | .s n => s.updWg (ck / 32) fun g => g.setS n w.val
  | .p n lane => s.updCtx ck fun c => c.setPred n lane (w.val ≠ 0)
def State.writeAll (s : State) (ck : Nat) (ws : List Wr) : State := ws.foldl (fun t w => t.write1 ck w) s

/-- Completion flags (R305) count up at issue, down at completion. -/
def State.flagDown (s : State) (ck : Nat) (flag : Option (Bool × Nat)) : State :=
  match flag with
  | some (level, n) => s.updFront ck level fun f => { f with flags := updNth f.flags n (· - 1) }
  | none => s

/-- FPSTAT takes in flags (R134). -/
def State.orFlags (s : State) (ck : Nat) (fl : Fl) : State := s.updCtx ck fun c => { c with fpstat := c.fpstat ||| fl.setWidth 32 }

/-! ## Windows (R38) -/

inductive Window where
  | global
  | own (o : Nat)
  | die (o : Nat)
  | frame (k o : Nat)
  | gap
  deriving DecidableEq, Repr

def windowOf (a : DWord) : Window :=
  let n := a.toNat
  if n < 0x200000000000000 then .global
  else if n ≥ 0xFF00000000000000 ∧ n ≤ 0xFF0000000003FFFF then .own (n - 0xFF00000000000000)
  else if n ≥ 0xFF10000000000000 ∧ n ≤ 0xFF10000003FFFFFF then .die (n - 0xFF10000000000000)
  else if n ≥ 0xFF20000000000000 ∧ n < 0xFF28000000000000 then
    let k := (n - 0xFF20000000000000) / 0x100000000000
    let o := (n - 0xFF20000000000000) % 0x100000000000
    if k < 8 ∧ o < 0x100000000 then .frame k o else .gap
  else .gap
/-- The window code that a report names. -/
def Window.code : Window → Nat
  | .global => 0
  | .own _ => 1
  | .die _ => 2
  | .frame k _ => 3 + k
  | .gap => 15
/-- Two addresses in one window. -/
def Window.same (a b : Window) : Bool := a.code == b.code && a != .gap

/-! ## The cistern (R40 to R43) -/

def cistKey (core byte : Nat) : Nat := core * 0x40000 + byte
def State.cistByte (s : State) (core byte : Nat) : Byte := Tab.get 0 s.cist (cistKey core byte)
def State.setCist (s : State) (core byte : Nat) (b : Byte) : State := { s with cist := Tab.set 0 s.cist (cistKey core byte) b }
/-- The full/empty bit of a scratchpad word: true is full. -/
def State.feBit (s : State) (core word : Nat) : Bool := Tab.get false s.fe (core * 0x10000 + word)
def State.setFe (s : State) (core word : Nat) (b : Bool) : State := { s with fe := Tab.set false s.fe (core * 0x10000 + word) b }
/-- The first byte, counted from the given one, of a cistern word with an uncorrectable error among n bytes (R365). -/
def State.cistLost (s : State) (core byte n : Nat) : Option Nat :=
  ((iota (byte / 4) ((byte % 4 + n + 3) / 4)).find? fun w => s.cistBad.contains (core * 0x10000 + w)).map fun w => 4 * w - byte
def Core.way (c : Core) (n : Nat) : WaySt := nth .lent c.ways n
/-- The set bits of CWAYS, from bit 0. -/
def waysOf (m : Byte) : List Nat := (List.range 8).filter fun i => m.getLsbD i
def Wg.reserved (w : Wg) : Nat := 0x8000 * (waysOf w.cways).length
/-- The physical byte of an own-cistern offset below the reserved bytes (R41). -/
def Wg.cistPhys (w : Wg) (o : Nat) : Nat := nth 0 (waysOf w.cways) (o / 0x8000) * 0x8000 + o % 0x8000

/-! ## Coherent memory, word by word (R57 to R75)

A word number is a physical address divided by four. -/

def l1Parts (k : Nat) : Nat × Nat := (k / 2 ^ 46, k % 2 ^ 46)
/-- The cores whose L1 holds a word, with their entries. -/
def State.l1Of (s : State) (w : Nat) : List (Nat × L1Word) :=
  (Tab.filter s.l1 fun k _ => k % 2 ^ 46 = w).map fun (k, x) => (k / 2 ^ 46, x)
def mergeWord (old new : Word) (mask : BitVec 4) : Word :=
  let m : Word := (if mask.getLsbD 0 then 0xFF else 0) ||| (if mask.getLsbD 1 then 0xFF00 else 0) ||| (if mask.getLsbD 2 then 0xFF0000 else 0) ||| (if mask.getLsbD 3 then 0xFF000000 else 0)
  (old &&& ~~~m) ||| (new &&& m)
/-- The bytes of a dirty word reach memory (WB of R65). -/
def State.writeBack (s : State) (w : Nat) (x : L1Word) : State :=
  { s with mem := Memory.setWord s.mem (4 * w) (mergeWord (Memory.word s.mem (4 * w)) x.data x.dirty) }
/-- Clear every reservation of a core's lanes on a line, by a recall or an invalidation (R67, R220). -/
def State.clearResv (s : State) (core line : Nat) (keep : Option (Nat × Nat) := none) : State :=
  { s with ctxs := Tab.mapVals s.ctxs fun k c =>
      if s.coreOf k = core then
        { c with resv := Tab.filter c.resv fun l r => r.line ≠ line || keep = some (k, l) }
      else c }
/-- A write, atomic or successful SC clears the reservations of every other lane on the line, on any core (R220). -/
def State.clearResvOthers (s : State) (line : Nat) (who : Option (Nat × Nat)) : State :=
  { s with ctxs := Tab.mapVals s.ctxs fun k c => { c with resv := Tab.filter c.resv fun l r => r.line ≠ line || who = some (k, l) } }

/-- Reservations of a die's lanes on a line (DEDUCED, log 66). -/
def State.clearResvDie (s : State) (die line : Nat) : State :=
  { s with ctxs := Tab.mapVals s.ctxs fun k c => if coreDie (s.coreOf k) = die then { c with resv := Tab.filter c.resv fun _ r => r.line ≠ line } else c }

/-- How a holder gives up a word: as an owner that keeps O, that keeps S, that is invalidated after write-back, or that is invalidated
without write-back (RECLAIM). -/
inductive GiveUp where
  | keepO | keepS | inval | drop
  deriving DecidableEq, Repr

/-- One L1's answer for one word (R62, R65). -/
def State.l1GiveUp (s : State) (core w : Nat) (x : L1Word) (how : GiveUp) : State :=
  let s1 := if x.st = .m && how ≠ .drop then s.writeBack w x else s
  match how with
  | .keepO => if x.st = .m || x.st = .o then (s1.setL1 core w { x with st := .o, dirty := 0 }).clearResv core (w / 32) else s1
  | .keepS => if x.st = .m || x.st = .o then (s1.setL1 core w { x with st := .s, dirty := 0 }).clearResv core (w / 32) else s1
  | .inval | .drop => (s1.setL1 core w {}).clearResv core (w / 32)

/-- A die agent's answer for one word: every L1 of the die that holds it tracked (S, O or M) gives it up, and every reservation there on its line is
cleared (R67). -/
def State.dieGiveUp (s : State) (die w : Nat) (how : GiveUp) : State :=
  (s.l1Of w).foldl (fun t (core, x) =>
    if coreDie core = die && (x.st = .s || x.st = .o || x.st = .m) then t.l1GiveUp core w x how else t) (s.clearResvDie die (w / 32))
/-- A holder of the directory: a die, or 12 for the host, whose copies are not state of the module. -/
def State.holderGiveUp (s : State) (h w : Nat) (how : GiveUp) : State := if h < 12 then s.dieGiveUp h w how else s

/-- The coherent value of a word, whoever holds it: an owner's copy, else memory; what a read that leaves no copy returns. -/
def State.peekWord (s : State) (w : Nat) : Word :=
  match (s.l1Of w).find? fun (_, x) => x.st = .m with
  | some (_, x) => mergeWord (Memory.word s.mem (4 * w)) x.data x.dirty
  | none => Memory.word s.mem (4 * w)
def State.peekByte (s : State) (a : Nat) : Byte := ((s.peekWord (a / 4)).extractLsb' (8 * (a % 4)) 8)
def State.peekN (s : State) (a n : Nat) : List Byte := (List.range n).map fun i => s.peekByte (a + i)
def State.peekDWord (s : State) (a : Nat) : DWord := dwordOfBytes (s.peekN a 8)

/-- The standpipe's and the home's part of a write by an agent that keeps no copy (R62, R65: WrW): every tracked copy and every Uw copy
of the writer's die is invalidated, owners write back first; the word leaves in N, or T of the writer where it was a sharer. -/
def State.homeInvalidate (s : State) (die w : Nat) : State :=
  let s1 := (s.l1Of w).foldl (fun t (core, x) =>
    if x.st = .s || x.st = .o || x.st = .m then t.l1GiveUp core w x .inval
    else if coreDie core = die && x.st = .uw then t.setL1 core w {} else t) s
  s1.setDir w { s1.dirWord w with mode := .n }
/-- Write bytes at home for an agent of a die; nothing is written into a word in Z (R74). -/
def State.homeWrite (s : State) (die a : Nat) (bs : List Byte) : State :=
  let ws := (iota (a / 4) ((a % 4 + bs.length + 3) / 4)).filter fun w => (s.dirWord w).mode ≠ .z
  let s1 := ws.foldl (fun t w => (t.homeInvalidate die w).clearResvOthers (w / 32) none) s
  { s1 with mem := Memory.writeSome s1.mem a bs fun b => (s.dirWord (b / 4)).mode ≠ .z }
/-- Read bytes at home, untracked (RdU of R65): owners write back and keep ownership; u is set. -/
def State.homeRead (s : State) (a n : Nat) : List Byte × State :=
  let ws := (iota (a / 4) ((a % 4 + n + 3) / 4))
  let s1 := ws.foldl (fun t w =>
    let t1 := (t.l1Of w).foldl (fun t (core, x) => if x.st = .m || x.st = .o then t.l1GiveUp core w x .keepO else t) t
    t1.setDir w { t1.dirWord w with u := true }) s
  (Memory.readN s1.mem a n, s1)
/-- Whether a word of a range is orphaned. -/
def State.anyZ (s : State) (a n : Nat) : Bool := (iota (a / 4) ((a % 4 + n + 3) / 4)).any fun w => (s.dirWord w).mode = .z
/-- Words enter Z (R74, R365): LOSTLINE counts their lines. -/
def State.orphan (s : State) (ws : List Nat) : State :=
  let ws := ws.filter fun w => (s.dirWord w).mode ≠ .z
  if ws.isEmpty then s else
  let s1 := ws.foldl (fun t w => t.setDir w { t.dirWord w with mode := .z }) s
  s1.updPf fun p => { p with lostline := p.lostline + BitVec.ofNat 64 ((ws.map (· / 32)).eraseDups.length) }

/-! ## Physical addresses and translation (R341, R346, R347) -/

inductive PRange where
  | tier | host | regs | none
  deriving DecidableEq, Repr
def physRange (p : Nat) : PRange :=
  if p ≤ 0x003FFFFFFFFF then .tier
  else if p ≥ 0x00F000000000 ∧ p ≤ 0x00F0FFFFFFFF then .regs
  else if p ≥ 0x010000000000 ∧ p ≤ 0x0CFFFFFFFFFF then .tier
  else if p ≥ 0x800000000000 ∧ p ≤ 0xFFFFFFFFFFFF then .host
  else .none

/-- What a walk finds: a translation, an entry with V = 0 (the physical address of a leaf entry, and its size, when it is a leaf), an entry that breaks
R347, or one with a word in Z (R74). -/
inductive Walk where
  | ok (t : Tlb)
  | absent (leaf : Option Nat) (bits : Nat)
  | bad
  | lost
  deriving DecidableEq, Repr

def levelShift (l : Nat) : Nat := match l with | 0 => 16 | 1 => 21 | 2 => 30 | 3 => 39 | _ => 48
def levelBits (l : Nat) : Nat := match l with | 0 => 5 | _ => 9
/-- A leaf entry and its attribute word, checked as R347 gives. -/
def leafOf (vfn va bits : Nat) (e at' : DWord) : Walk :=
  let own := (e.extractLsb' 4 4).toNat
  let cls := (e.extractLsb' 2 2).toNat
  let pa := (e.extractLsb' 16 32).toNat * 2 ^ 16
  if e.extractLsb' 48 16 ≠ 0 || (e.extractLsb' 8 8) ≠ 0 || pa % 2 ^ bits ≠ 0 || cls = 3 || (cls = 2 && own > 11) || at'.extractLsb' 5 59 ≠ 0 then .bad
  else .ok { vfn := vfn, va := va / 2 ^ bits * 2 ^ bits, bits := bits, pa := pa, cls := cls, own := own, w := at'.getLsbD 0
             x := at'.getLsbD 1, pers := at'.getLsbD 2, bind := at'.getLsbD 3 }
def State.walkFrom (s : State) (vfn va : Nat) (table : Nat) (level : Nat) : Walk :=
  let ix := va / 2 ^ levelShift level % 2 ^ levelBits level
  let e := s.peekDWord (table + 16 * ix)
  let leaf := e.getLsbD 1
  if s.anyZ (table + 16 * ix) (if leaf && e.getLsbD 0 then 16 else 8) then .lost
  else if !e.getLsbD 0 then
    if level ≤ 2 && (leaf || level = 0) then .absent (some (table + 16 * ix)) (levelShift level) else .absent none 16
  else if e.extractLsb' 48 16 ≠ 0 || e.extractLsb' 2 2 = 3 || (e.extractLsb' 2 2 = 2 && (e.extractLsb' 4 4).toNat > 11) then .bad
  else if leaf then
    if level ≥ 3 then .bad else leafOf vfn va (levelShift level) e (s.peekDWord (table + 16 * ix + 8))
  else
    match level with
    | 0 => .bad
    | l + 1 =>
      let next := (e.extractLsb' 8 40).toNat * 256
      if next % (if l = 0 then 512 else 8192) ≠ 0 then .bad else s.walkFrom vfn va next l
def State.walk (s : State) (vfn va : Nat) : Walk := s.walkFrom vfn va (s.vf vfn).ptbase.toNat 4
/-- The entries that a walk reads, with their bytes: a leaf with its attribute word. -/
def State.walkPath (s : State) (va table level : Nat) : List (Nat × Nat) :=
  let a := table + 16 * (va / 2 ^ levelShift level % 2 ^ levelBits level)
  let e := s.peekDWord a
  if !e.getLsbD 0 then [(a, 8)]
  else if e.getLsbD 1 then [(a, 16)]
  else match level with
    | 0 => [(a, 8)]
    | l + 1 => (a, 8) :: s.walkPath va ((e.extractLsb' 8 40).toNat * 256) l
/-- A walker reads the tables at the home slice, untracked (R346): owners write back and keep their words. -/
def State.walkReads (s : State) (vfn va : Nat) : State :=
  (s.walkPath va (s.vf vfn).ptbase.toNat 4).foldl (fun t (a, n) => (t.homeRead a n).2) s

def Tlb.covers (t : Tlb) (vfn va : Nat) : Bool := t.vfn = vfn && t.va ≤ va && va < t.va + 2 ^ t.bits
def Tlb.phys (t : Tlb) (va : Nat) : Nat := t.pa + (va - t.va)

/-- What a translation for an access answers. -/
inductive Xlat where
  | ok (t : Tlb)
  | absent
  | walkHost
  | bad
  | lost
  deriving DecidableEq, Repr
def State.tlbAt (s : State) (core vfn va : Nat) : Option Tlb := ((s.core core).tlb ++ (s.die (coreDie core)).tlb).find? (·.covers vfn va)
/-- Look up the core's TLB, the die's, then walk; in host-assisted WALK a die miss goes to the host (R351, R360). -/
def State.xlat (s : State) (core vfn va : Nat) : Xlat :=
  match s.tlbAt core vfn va with
  | some t => .ok t
  | none =>
    if (s.vf vfn).dutysel.getLsbD 0 then .walkHost
    else match s.walk vfn va with
      | .ok t => .ok t
      | .absent _ _ => .absent
      | .bad => .bad
      | .lost => .lost
/-- A translation that was used stays in the TLBs of its core and die (DESIGN CHOICE, log 6). -/
def State.fillTlb (s : State) (core : Nat) (t : Tlb) : State :=
  let add (l : List Tlb) : List Tlb := if l.contains t then l else l ++ [t]
  (s.updCore core fun c => { c with tlb := add c.tlb }).updDie (coreDie core) fun d => { d with tlb := add d.tlb }

/-- The translations that an access used stay in the TLBs of its core and die; a miss in both has read the tables (R346). -/
def State.touchTlb (s : State) (core vfn va : Nat) : State :=
  match s.xlat core vfn va with
  | .ok t => (if (s.tlbAt core vfn va).isSome then s else s.walkReads vfn va).fillTlb core t
  | _ => s

/-- Translate for a device agent that stands on no die and uses no die TLB, so that it reads the tables in either mode of DUTYSEL.WALK (DESIGN CHOICE, log 122): the
physical address of a byte, if the walk finds one. -/
def State.devPhys (s : State) (vfn : Nat) (va : DWord) : Option Nat :=
  match s.walk vfn va.toNat with
  | .ok t => if physRange (t.phys va.toNat) = .tier || physRange (t.phys va.toNat) = .host then some (t.phys va.toNat) else none
  | _ => none

/-- Whether the host reaches the module, and whether its virtual functions answer (R368, R376). -/
def State.reached (s : State) : Bool := s.powered && s.linkUp
def State.answers (s : State) : Bool := s.reached && s.running
/-- An uncorrectable event at hop h (R365, R377). -/
def State.countUnc (s : State) (h : Nat) : State := s.updPf fun p => { p with errunc := updNth p.errunc h (· + 1) }

/-! ## Trap queues (R353 to R358) -/

/-- The fields of a record in the layout of R354. -/
structure Rec where
  (kind cause vfn die core grp slot : Nat) (pc addr : DWord) (tlanes tcause : Word) (handle info : DWord)
  deriving DecidableEq, Repr
def Rec.words (r : Rec) : List DWord :=
  [BitVec.ofNat 64 (r.kind * 2 ^ 56 + r.cause % 256 * 2 ^ 48 + r.vfn * 2 ^ 39 + r.die * 2 ^ 35 + r.core * 2 ^ 27 + r.grp * 2 ^ 22 + r.slot * 2 ^ 20),
   r.pc, r.addr, r.tcause ++ r.tlanes, r.handle, r.info, 0, 0]
def Rec.bits (r : Rec) : BitVec 512 :=
  BitVec.ofNat 512 (ofBytesLE (r.words.flatMap fun w => bytesLE 8 w.toNat))

def Vf.tqEn (v : Vf) : Bool := v.tqctl.getLsbD 31
def Vf.tqN (v : Vf) : Nat := 2 ^ (v.tqctl.extractLsb' 0 5).toNat

/-- Device write of bytes at a virtual address, page by page; a byte that does not translate is not written. -/
def State.devWrite (s : State) (vfn : Nat) (va : DWord) (bs : List Byte) : State :=
  match bs with
  | [] => s
  | b :: t =>
    match s.devPhys vfn va with
    | some p => (s.homeWrite 0 p [b]).devWrite vfn (va + 1) t
    | none => s.devWrite vfn (va + 1) t
/-- A device write within one page: what it waits for, if it waits: a page that is not present (R48, R344), or one that must become shared first (R73); later
writes of the kind wait behind it (DEDUCED, log 118). A page with W = 0 takes no write. -/
def State.lateWait (s : State) (vfn : Nat) (va : DWord) : Option (Instr × DWord) :=
  match s.walk vfn va.toNat with
  | .absent _ _ => some (.notPresentFault, BitVec.ofNat 64 (va.toNat / 65536 * 65536))
  | .ok t => if t.w && (t.cls ≠ 0 || (s.vf vfn).busyPages.contains t.va) then some (.reclassification, BitVec.ofNat 64 t.va) else none
  | _ => none
def State.lateAsk (s : State) (vfn : Nat) (va : DWord) : State :=
  match s.lateWait vfn va with
  | some (w, a) => if w = .notPresentFault then s.pushOnce w { id := vfn, num := 1, v := a } else s.pushOnce w { id := vfn, v := a } (some s.clock)
  | none => s
def State.lateDo (s : State) (vfn : Nat) (va : DWord) (bs : List Byte) : State :=
  match s.walk vfn va.toNat with
  | .ok t => if t.w then s.devWrite vfn va bs else s
  | _ => s
def State.lateWrite (s : State) (vfn : Nat) (va : DWord) (bs : List Byte) : State :=
  if (s.vf vfn).late.isEmpty && (s.lateWait vfn va).isNone then s.lateDo vfn va bs
  else (s.updVf vfn fun v => { v with late := v.late ++ [(va, bs)] }).lateAsk vfn va
/-- The writes that waited are made, in their order, as far as their pages are there. -/
def State.lateRetry (s : State) (vfn : Nat) : State :=
  let l := (s.vf vfn).late
  let n := (l.takeWhile fun (va, _) => (s.lateWait vfn va).isNone).length
  let s := (l.take n).foldl (fun t (va, bs) => t.lateDo vfn va bs) (if n = 0 then s else s.updVf vfn fun v => { v with late := v.late.drop n })
  match l.drop n with
  | (va, _) :: _ => s.lateAsk vfn va
  | [] => s
def State.devRead (s : State) (vfn : Nat) (va : DWord) (n : Nat) : List Byte :=
  (List.range n).map fun i => match s.devPhys vfn (va + BitVec.ofNat 64 i) with
    | some p => s.peekByte p
    | none => 0
def State.devReadDWord (s : State) (vfn : Nat) (va : DWord) : DWord := dwordOfBytes (s.devRead vfn va 8)
def State.devWriteDWord (s : State) (vfn : Nat) (va v : DWord) : State := s.devWrite vfn va (bytesLE 8 v.toNat)

/-- Quiesce a virtual function (R357): nothing of it is placed or issues any more. -/
def State.quiesce (s : State) (vfn : Nat) : State := (s.updVf vfn fun v => { v with quiescing := true }).pushOnce .quiesce { id := vfn }

/-- Reserve an entry and write a record (R356): the entry's number, none where a request must wait, and whether it was refused because
the queue is disabled. -/
inductive Put where
  | at (n : Nat)
  | wait
  | off
  deriving DecidableEq, Repr
def State.putWords (s : State) (vfn : Nat) (ws : List DWord) (kept : Bool) : Put × State :=
  let v := s.vf vfn
  if !v.tqEn then (.off, s)
  else
    let wr := (s.devReadDWord vfn v.tqbase).toNat
    let rd := (s.devReadDWord vfn (v.tqbase + 8)).toNat
    if wr - rd < (if kept then v.tqN else v.tqN - 4) then
      let base := v.tqbase + 64 + BitVec.ofNat 64 (64 * (wr % v.tqN))
      let s1 := s.devWriteDWord vfn v.tqbase (BitVec.ofNat 64 (wr + 1))
      let s2 := s1.devWrite vfn (base + 8) ((ws.drop 1).flatMap fun w => bytesLE 8 w.toNat)
      let s3 := s2.devWriteDWord vfn base (ws.headD 0)
      (.at wr, if v.dutysel.getLsbD 5 then s3.updVf vfn fun v => { v with hostEntries := v.hostEntries ++ [wr] } else s3)
    else (.wait, s)
def State.putRecord (s : State) (vfn : Nat) (r : Rec) (kept : Bool) : Put × State := s.putWords vfn r.words kept
/-- A fatal record, or the latch (R356). -/
def State.fatal (s : State) (vfn : Nat) (r : Rec) : State :=
  match s.putRecord vfn r true with
  | (.at _, s1) => if (s1.vf vfn).dutysel.getLsbD 5 then s1 else s1.pushOnce .trapQueueLogCopy { id := vfn }
  | _ =>
    let v := s.vf vfn
    if v.latched then
      s.updVf vfn fun v => { v with fatalrec := v.fatalrec + (1#512 <<< 448) }
    else (s.updVf vfn fun v => { v with fatalrec := r.bits, latched := true }).quiesce vfn
/-- A request record of kind NP, WALK, POOL or ORPHAN: written, waiting for room, or answered unobtainable (R356). -/
def State.request (s : State) (vfn : Nat) (r : Rec) (va : DWord) (info : Nat) : Put × State :=
  match s.putRecord vfn r false with
  | (.at n, s1) =>
    let s2 := s1.updVf vfn fun v => { v with opens := v.opens ++ [{ kind := r.kind, index := some n, va := va, info := info, answered := false, recd := r.bits }] }
    (.at n, if (s2.vf vfn).dutysel.getLsbD 5 then s2 else s2.pushOnce .trapQueueLogCopy { id := vfn })
  | (.wait, s1) => (.wait, s1.updVf vfn fun v => { v with opens := v.opens ++ [{ kind := r.kind, index := none, va := va, info := info, answered := false, recd := r.bits }] })
  | (.off, s1) => (.off, s1)

/-- Where a context is, for a record (R354). -/
def State.recOf (s : State) (ck kind cause : Nat) (pc addr : DWord) (tlanes tcause : Word) : Rec :=
  let g := s.wgOf ck
  let gr := s.grid g.grid
  { kind := kind, cause := cause, vfn := g.vfn, die := g.core / 256, core := g.core % 256, grp := ck % 32, slot := g.slot, pc := pc, addr := addr
    tlanes := tlanes, tcause := tcause, info := 0
    handle := BitVec.ofNat 64 (gr.vfn * 2 ^ 54 + gr.gen * 2 ^ 32 + gr.slot) }

/-! ## Taking an exception, and returning from one (R283 to R291) -/

def causeWord (cause detail off : Nat) : Word := BitVec.ofNat 32 (detail * 1024 + off * 256 + cause)

/-- The turn and the LR window end with their fragment: one that has no eligible lane left at its PC has none (R18, R20). A turn ends too where other lanes
have become eligible at its PC and none stands below, so that it merges with them (R18). A turn's end that a window holds back takes effect when the window is
closed (DEDUCED, log 104). -/
def Ctx.trim (c : Ctx) : Ctx :=
  let c := match c.lrWin with | some (a, _) => if c.front.at a = 0 then { c with lrWin := none } else c | none => c
  let c := match c.turn with
    | some (a, _) =>
      if c.front.at a &&& c.turnLanes = 0 then { c with turn := none, endTurn := false }
      else if c.front.at a &&& ~~~c.turnLanes ≠ 0 && c.front.lowest = some a then { c with endTurn := true }
      else c
    | none => c
  if c.endTurn && c.lrWin.isNone then { c with turn := none, endTurn := false } else c

/-- The LR window closes when its fragment traps (R20). -/
def Ctx.closeLr (c : Ctx) (lanes : Lanes) : Ctx :=
  match c.lrWin with
  | some (a, _) => if c.front.at a &&& lanes ≠ 0 then { c with lrWin := none } else c
  | none => c

/-- When every fixed-latency result of a context's earlier issues has been written (R303). -/
def Ctx.drained (c : Ctx) : Nat := c.pends.foldl (fun m p => max m (p.due.getD 0)) 0

/-- Lanes with a trap that waits are parked, whatever an earlier trap of theirs did (R287). -/
def Front.repark (f : Front) (lanes : Lanes) : Front := f.updLanes lanes fun _ x =>
  match x.st with
  | .exited | .parked _ => x
  | .blockedBar w => { x with st := .parked (some w) }
  | _ => { x with st := .parked none }
/-- A trap of lanes inside a chain ends it: the other lanes inside, and lanes that a late trap stops there, go back to its head (R290, R307). -/
def Front.dropChain (f : Front) (lanes : Lanes) (late : Bool) : Front :=
  match f.chain with
  | some ch =>
    if ch.lanes &&& lanes = 0 then f
    else { f.updLanes (if ch.open' then ch.lanes else 0) fun l x => if x.st = .active || (late && hasLane lanes l) then { x with pc := ch.head } else x with chain := none }
  | none => f

/-- A fragment enters trap level (R286): a second set of per-lane PCs at TRAPBASE, latches and flags zero; TSIBS is taken now (R287). Its first word is
a fragment switch unless the context's previous issue leads to it (R34) (DEDUCED, log 42; DEDUCED, log 26). -/
def State.enterTrap (s : State) (ck : Nat) (r : TrapRec) : State :=
  let c := s.ctx ck
  let base := (s.wgOf ck).trapbase
  let ls := (List.range 32).map fun l => if hasLane r.lanes l then { pc := base, st := .active } else ({} : Lane)
  let sibs := if c.isHead then 0 else c.front.live &&& ~~~r.lanes
  let front : Front := { Front.fresh ls with notBefore := c.drained }
  s.setCtx ck { c with front := c.front.repark r.lanes, trap := some { regs := r, sibs := sibs, front := front, entered := s.clock, since := s.ids } }

/-- The trapping lanes are parked: at TPC when the trap is precise, else at the PCs they have reached, keeping a barrier wait. -/
def Front.park (f : Front) (r : TrapRec) : Front := f.updLanes r.lanes fun _ x =>
  if r.kind = .precise then { x with st := .parked none, pc := r.pc }
  else { x with st := .parked (match x.st with | .blockedBar w => some w | .parked w => w | _ => none) }

/-- A trap of a fragment (R284 to R290). At trap level it is a nested trap (R289): a fatal record, the handler parked for good. With a
TRAPBASE of 0 it is handled as a nested trap, its lanes staying parked. Else the lanes are parked at TPC and the fragment enters trap
level, at once or when the one that is there has left it (R287). The lanes' reservations are cleared (R20, R220). -/
def State.trap (s : State) (ck : Nat) (level : Bool) (r : TrapRec) : State :=
  let c := s.ctx ck
  let rec' := s.recOf ck 6 (r.cause.extractLsb' 0 8).toNat r.pc r.addr r.lanes r.cause
  if level then
    let s1 := s.updCtx ck fun c => { c with trap := c.trap.map fun t => { t with dead := true, front := t.front.updLanes r.lanes fun _ x => { x with st := .parked none } } }
    s1.fatal (s.wgOf ck).vfn rec'
  else
    let c1 := (({ c.closeLr r.lanes with front := (c.front.park r).dropChain r.lanes (r.kind ≠ .precise), resv := Tab.filter c.resv fun l _ => !hasLane r.lanes l } : Ctx)).trim
    let s1 := s.setCtx ck c1
    if (s.wgOf ck).trapbase = 0 then s1.fatal (s.wgOf ck).vfn rec'
    else if c.trap.isSome || !c.waiting.isEmpty then s1.setCtx ck { c1 with waiting := c1.waiting ++ [r] }
    else s1.enterTrap ck r

/-- Trap level ends (R277, R286): each lane of TLANES takes the state that f gives it, but stays parked where another trap of it waits, and a trapped
fragment that waits is to enter (R287). -/
def State.leaveTrap (s : State) (ck : Nat) (f : Nat → Lane → Lane) : State :=
  let c := s.ctx ck
  match c.trap with
  | none => s
  | some t =>
    let fr := { (c.front.updLanes t.regs.lanes f).repark (c.waiting.foldl (fun m r => m ||| r.lanes) 0) with
                lastIssue := none, notBefore := max c.front.notBefore c.drained }
    let ps := c.pends.map fun p => { p with flag := p.flag.filter fun (l, _) => !l }
    let s1 := s.setCtx ck ({ c with trap := none, front := fr, pends := ps } : Ctx).trim
    if c.waiting.isEmpty then s1 else s1.pushOnce .trapEntryDeferred { id := ck }

/-- The trap of the word being issued, at check 1 to 7 or at check 8 (R160, R290): TPC is the chain's head inside a chain (DEDUCED, log 67). -/
def State.trapAt (s : State) (i : Issue) (lanes : Lanes) (cause detail : Nat) (addr : DWord) (kind : TrapKind := .precise) : State :=
  s.trap i.ctx i.level { cause := causeWord cause detail i.off, addr := addr, pc := i.head, lanes := lanes, kind := kind }

/-! ## Waking lanes -/

/-- Every lane in a state that p admits, of every context and of every handler, becomes active. -/
def Lane.wake (p : LaneSt → Bool) (x : Lane) : Lane :=
  if p x.st then { x with st := .active }
  else match x.st with
    | .parked (some w) => if p (.blockedBar w) then { x with st := .parked none } else x
    | _ => x
def Front.wake (f : Front) (p : LaneSt → Bool) : Front := { f with lanes := f.lanes.map (Lane.wake p) }
def Ctx.wake (c : Ctx) (p : LaneSt → Bool) : Ctx :=
  ({ c with front := c.front.wake p, trap := c.trap.map fun t => { t with front := t.front.wake p } } : Ctx).trim
def State.wakeAll (s : State) (p : Nat → LaneSt → Bool) : State := { s with ctxs := Tab.mapVals s.ctxs fun k c => c.wake (p k) }
/-- A word as a workgroup's own window names it, whatever ways the workgroup holds: what a lane that named it so is blocked on (R25, R41). -/
def ownFeKey (wk word : Nat) : Nat := 2 ^ 44 + wk * 0x10000 + word
def Wg.ownWord (g : Wg) (word : Nat) : Nat := ((waysOf g.cways).findIdx? (· = word / 0x2000)).getD 0 * 0x2000 + word % 0x2000
/-- A scratchpad word changes state: its blocked lanes retry (R24). -/
def State.wakeWord (s : State) (core word : Nat) : State :=
  let keys := (core * 0x10000 + word) :: (match (s.core core).way (word / 0x2000) with | .reserved wk => [ownFeKey wk ((s.wg wk).ownWord word)] | _ => [])
  s.wakeAll fun _ st => match st with | .blockedFE k => keys.contains k | _ => false
/-- Any lane of a context in a state. -/
def Ctx.anyLane (c : Ctx) (p : LaneSt → Bool) : Bool :=
  c.front.lanes.any (fun x => p x.st) || (match c.trap with | some t => t.front.lanes.any (fun x => p x.st) | none => false)

/-- The discards of an acquire at a scope (R70), of the core's whole L1. -/
def scopeRank : Scope → Nat
  | .grp => 0
  | .core => 1
  | .quad => 2
  | .die => 3
  | .pkg => 4
  | .pod => 5
  | .sys => 6
def State.discard (s : State) (core : Nat) (us uw : Bool) : State :=
  { s with l1 := Tab.filter s.l1 fun k x => !(k / 2 ^ 46 = core && ((us && x.st = .us) || (uw && x.st = .uw))) }
def State.acquire (s : State) (core : Nat) (scope : Scope) : State := s.discard core (scopeRank scope ≥ 2) (scopeRank scope ≥ 4)

/-! ## Barrier registers (R223, R225) -/

structure Bar where
  (garr : BitVec 16) (harr : Bool) (phase drops expect arrived : Nat)
  deriving DecidableEq, Repr
def Bar.of (b : DWord) : Bar :=
  ⟨b.extractLsb' 48 16, b.getLsbD 47, (b.extractLsb' 32 8).toNat, (b.extractLsb' 24 8).toNat, (b.extractLsb' 8 8).toNat, (b.extractLsb' 0 8).toNat⟩
def Bar.bits (b : Bar) : DWord :=
  b.garr ++ BitVec.ofBool b.harr ++ 0#7 ++ BitVec.ofNat 8 b.phase ++ BitVec.ofNat 8 b.drops ++ 0#8 ++ BitVec.ofNat 8 b.expect ++ BitVec.ofNat 8 b.arrived
def Wg.bar (w : Wg) (n : Nat) : Bar := Bar.of (nth 0 w.bars n)
def Wg.setBar (w : Wg) (n : Nat) (b : Bar) : Wg := { w with bars := setNth w.bars n b.bits }
/-- Who arrives: a group, the head context, or a copy. -/
inductive Who where
  | group (g : Nat)
  | head
  | copy
  deriving DecidableEq, Repr
def whoOf (num : Nat) : Who := if num = 16 then .head else .group num
def Bar.hasArrived (b : Bar) : Who → Bool
  | .group g => b.garr.getLsbD g
  | .head => b.harr
  | .copy => false
/-- arrive(Bn, who, drop): none where it traps with 0x30; else the register, and whether the phase completes. -/
def Bar.arrive (b : Bar) (who : Who) (drop : Bool) : Option (Bar × Bool) :=
  if b.expect = 0 || b.hasArrived who then none
  else
    let b1 : Bar := { b with
      garr := match who with | .group g => b.garr ||| (1#16 <<< g) | _ => b.garr
      harr := b.harr || who = .head
      drops := (b.drops + (if drop then 1 else 0)) % 256
      arrived := (b.arrived + 1) % 256 }
    if b1.arrived = b1.expect then
      some ({ garr := 0, harr := false, phase := (b.phase + 1) % 256, drops := 0, expect := b1.expect - b1.drops, arrived := 0 }, true)
    else some (b1, false)
/-! ## What releases publish of accumulators (R88, R246) (DEDUCED, log 19) -/

def joinKnown (a b : List Nat) : List Nat := (List.range 4).map fun ac => max (nth 0 a ac) (nth 0 b ac)
/-- What a place carries of the accumulators of a workgroup. -/
def State.view (s : State) (wk key : Nat) : List Nat := match Tab.find? s.views key with | some (w, l) => if w = wk then l else [] | none => []
def State.setView (s : State) (wk key : Nat) (l : List Nat) : State :=
  { s with views := if l.all (· = 0) then Tab.erase s.views key else Tab.put s.views key (wk, l) }
/-- A release covers what its context knows: the context's later writes carry it. -/
def State.publish (s : State) (ck : Nat) : State := s.updCtx ck fun c => { c with told := c.known }
/-- An acquire makes known what the context has read from such writes. -/
def State.learn (s : State) (ck : Nat) : State := s.updCtx ck fun c => { c with known := joinKnown c.known c.heard }
def State.hear (s : State) (ck : Nat) (l : List Nat) : State := if l.all (· = 0) then s else s.updCtx ck fun c => { c with heard := joinKnown c.heard l }
/-- A release whose own write is an arrival at a barrier or an entry of the trough, and the acquire that takes it up. -/
def State.publishAt (s : State) (ck key : Nat) : State := (s.publish ck).setView (ck / 32) key (joinKnown (s.view (ck / 32) key) (s.ctx ck).known)
def State.learnAt (s : State) (key ck : Nat) : State := (s.hear ck (s.view (ck / 32) key)).learn ck
def barKey (wk n : Nat) : Nat := 2 ^ 60 + wk * 16 + n
def troughKey (wk : Nat) : Nat := 2 ^ 61 + wk
def syncKey (wk : Nat) (scope : Scope) : Nat := 2 ^ 62 + wk * 8 + scopeRank scope

def State.learnAll (s : State) (cks : List Nat) (key : Nat → Nat) : State := cks.foldl (fun t ck => t.learnAt (key ck) ck) s
/-- The contexts with a lane in a state that p admits, or parked in a wait that it admits. -/
def State.waiters (s : State) (p : Nat → LaneSt → Bool) : List Nat :=
  Tab.keys (Tab.filter s.ctxs fun k c => c.anyLane fun st => p k st || (match st with | .parked (some w) => p k (.blockedBar w) | _ => false))
/-- A completed phase wakes every lane of the workgroup blocked on the register, and each of them acquires. -/
def State.wakeBar (s : State) (wk n : Nat) : State :=
  let p (k : Nat) (st : LaneSt) : Bool := k / 32 = wk && (match st with | .blockedBar (.bar m) => m.val = n | _ => false)
  (s.learnAll (s.waiters p) fun _ => barKey wk n).wakeAll p

end Sys2Proof.Machine
end

