-- ==== Sys2Proof/Machine/Operands.lean ====
section
/-! DEFINITION. Operand forms and the issue of a word: reading sources (R151 to R153), the checks of R160 in their order, and what every
issue does to PCs, latches, chains, flags, schedule state and the fairness timer (R14, R18 to R20, R153, R302 to R310). -/
namespace Sys2Proof.Machine

abbrev Out := Host.Outcome State Fault Refusal

/-! ## Sources -/

/-- A special register (R152), in a lane of a group or in the head context. -/
def special (s : State) (i : Issue) (lane : Nat) (x : Special) : DWord :=
  let g := s.wgOf i.ctx
  let gr := s.grid g.grid
  let head := i.ctx % 32 = 16
  match x with
  | .zero => 0
  | .lane => if head then 0 else BitVec.ofNat 64 lane
  | .grp => BitVec.ofNat 64 (i.ctx % 32)
  | .wgid => BitVec.ofNat 64 g.wgid
  | .gridid => BitVec.ofNat 64 gr.slot
  | .core => BitVec.ofNat 64 (g.core % 256)
  | .die => BitVec.ofNat 64 (g.core / 256)
  | .ngrp => BitVec.ofNat 64 g.ngroups
  | .wglast => BitVec.ofNat 64 (gr.wgcnt - 1)
  | .level => BitVec.ofNat 64 gr.level
  | .ltmask => if head then 0 else BitVec.ofNat 64 (2 ^ lane - 1)
  | .exec => if head then 0 else i.exec.setWidth 64
  | .clk => BitVec.ofNat 64 s.clock
  | .vfn => BitVec.ofNat 64 g.vfn

/-- A source register, 64 bits wide; a 32-bit read takes the low half (R36, R153). -/
def readReg (s : State) (i : Issue) (lane : Nat) (wide : Bool) (r : Reg) : DWord :=
  let c := s.ctx i.ctx
  match r with
  | .v n => if wide then c.vreg lane (n.val + 1) ++ c.vreg lane n.val else (c.vreg lane n.val).setWidth 64
  | .s n => let x := (s.wgOf i.ctx).sreg n.val; if wide then x else (x.setWidth 32).setWidth 64
  | .l n => let x := Tab.get 0 (nth {} (c.frontAt i.level).latches n.val).vals lane; if wide then x else (x.setWidth 32).setWidth 64
  | .sp x => let y := special s i lane x; if wide then y else (y.setWidth 32).setWidth 64
def src32 (s : State) (i : Issue) (lane : Nat) (r : Reg) : Word := (readReg s i lane false r).setWidth 32
def src64 (s : State) (i : Issue) (lane : Nat) (r : Reg) : DWord := readReg s i lane true r
/-- The value of register r + k, for the wide data of R198. -/
def regPlus (r : Reg) (k : Nat) : Reg :=
  match r with
  | .v n => if h : n.val + k < 192 then .v ⟨n.val + k, h⟩ else r
  | r => r

/-- The guard of R150: true in a lane where the predicate, or its negation, is 1. -/
def guardMask (s : State) (i : Issue) (h : Hdr) : Lanes :=
  let p := (s.ctx i.ctx).pred h.pred.toNat
  i.exec &&& (if h.pneg then ~~~p else p)

/-- Where a result of 1, 2 or 4 registers goes (R153, R198): nothing for ZERO. -/
def destWr (head : Bool) (lane : Nat) (wide : Bool) (d : Reg) (v : DWord) : List Wr :=
  match d with
  | .v n => if wide then [⟨.v lane n.val, v⟩, ⟨.v lane (n.val + 1), v >>> 32⟩] else [⟨.v lane n.val, v⟩]
  | .s n => if head then [⟨.s n.val, if wide then v else (v.setWidth 32).setWidth 64⟩] else []
  | _ => []

/-! ## Checks 2 to 7 of R160 -/

inductive Issuer where
  | both | groups | heads
  deriving DecidableEq, Repr

/-- What a word reads and writes, in the order of R304: sources with the number of 32-bit registers each takes, predicates read besides
the guard, destinations, predicates written, and any further condition on its register codes. -/
structure Plan where
  srcs : List (Reg × Nat) := []
  psrc : List Nat := []
  dsts : List (Reg × Nat) := []
  pdst : List Nat := []
  ok : Bool := true
  /-- The operands of a pair, in the order D0, S0, D1, S1, in which check 6 names the first offender. -/
  order : List (Reg × Nat) := []
  /-- WBS: the destination is named and legal, but not written. -/
  wbs : Bool := false
  deriving DecidableEq, Repr

/-- The register that holds a base address or a scratchpad offset is no latch (R154, R197, R204). -/
def addrOk (r : Reg) : Bool := match r with | .l _ => false | _ => true
/-- Of a tile access, FBSAVE and FBREST it is a V pair, an S register or ZERO (R235, R261); of FBOPEN no ZERO either. -/
def baseOk (r : Reg) : Bool := match r with | .v _ | .s _ | .sp .zero => true | _ => false
def pairOk (r : Reg) : Bool := match r with | .v _ | .s _ => true | _ => false
/-- R36, R153, R198: legality of a source of n registers. -/
def srcOk (head : Bool) (regs n : Nat) (r : Reg) : Bool :=
  match r with
  | .v k => !head && k.val % n = 0 && k.val + n ≤ regs
  | _ => n ≤ 2
/-- ZERO is a destination of any width in a group, QUNPK's eight registers among them (DEDUCED, log 59). -/
def dstOk (head : Bool) (regs n : Nat) (r : Reg) : Bool :=
  match r with
  | .v k => !head && k.val % n = 0 && k.val + n ≤ regs
  | .s _ => head && n ≤ 2
  | .sp .zero => !(head && n > 2)
  | _ => false
def Plan.legal (p : Plan) (head : Bool) (regs : Nat) : Bool :=
  p.ok && p.srcs.all (fun (r, n) => srcOk head regs n r) && p.dsts.all (fun (r, n) => dstOk head regs n r)

/-- The results that the unbroken chain has put into the latches (R308). -/
def Front.held (f : Front) : Nat := match f.chain with | some c => if c.open' then c.shifts else 0 | none => 0
/-- Check 5: the first latch read that is not held. -/
def Plan.latchVoid (p : Plan) (f : Front) : Option Nat :=
  p.srcs.findSome? fun (r, _) => match r with | .l n => if n.val < f.held then none else some n.val | _ => none

def predCode (n : Nat) : BitVec 8 := BitVec.ofNat 8 (0xF8 + n)
/-- The codes of n registers from r (R304). -/
def codesOf (r : Reg) (n : Nat) : List (BitVec 8) :=
  match r with
  | .v k => (List.range n).map fun j => BitVec.ofNat 8 (k.val + j)
  | .s k => [BitVec.ofNat 8 (192 + k.val)]
  | _ => []
/-- DEDUCED, log 9. -/
def inFlight (s : State) (i : Issue) (code : BitVec 8) : Bool :=
  let t := (s.core (s.coreOf i.ctx)).time
  (s.ctx i.ctx).pends.any fun p => (match p.due with | some d => d > t | none => true) && p.codes.contains code && (p.lanes &&& i.exec) ≠ 0
def latchInFlight (s : State) (i : Issue) (n : Nat) : Bool :=
  (nth {} (s.front i.ctx i.level).latches n).due > (s.core (s.coreOf i.ctx)).time
/-- The code to report when a source or destination is in flight (check 6). A group's reads of S registers are never in flight. -/
def opndBusy (s : State) (i : Issue) (r : Reg) (n : Nat) : Option Nat :=
  match r with
  | .l k => if latchInFlight s i k.val then some (0xE0 + k.val) else none
  | .s _ => if i.ctx % 32 = 16 then ((codesOf r n).find? (inFlight s i)).map (·.toNat) else none
  | _ => ((codesOf r n).find? (inFlight s i)).map (·.toNat)
def predBusy (s : State) (i : Issue) (n : Nat) : Option Nat :=
  if n < 7 && inFlight s i (predCode n) then some (0xF8 + n) else none
def Plan.busy (p : Plan) (s : State) (i : Issue) (guard : Nat) : Option Nat :=
  ((predBusy s i guard).or ((p.order ++ p.srcs).findSome? fun (r, n) => opndBusy s i r n)).or
    (((p.psrc.findSome? (predBusy s i)).or (p.dsts.findSome? fun (r, n) => opndBusy s i r n)).or (p.pdst.findSome? (predBusy s i)))

/-- A trap of checks 2 to 7: cause and DETAIL. -/
abbrev Check := Option (Nat × Nat)
def issuerCheck (i : Issue) (who : Issuer) (opc : Nat) : Check :=
  match who with
  | .both => none
  | .groups => if i.ctx % 32 = 16 then some (1, opc) else none
  | .heads => if i.ctx % 32 = 16 then none else some (1, opc)
def overrun (s : State) (i : Issue) (h : Hdr) : Check :=
  if h.setf.toNat < 12 && nth 0 (s.front i.ctx i.level).flags h.setf.toNat ≥ 63 then some (6, h.setf.toNat * 8) else none

/-- A full or extended form's own part of the checks: who may issue it, its opcode, its registers, its queues (check 7). -/
structure Form where
  (h : Hdr) (opc : Nat) (who : Issuer) (plan : Plan) (queue : Check := none)
  deriving DecidableEq, Repr

/-- Checks 2 to 7, in the order of R160. -/
def Form.check (f : Form) (s : State) (i : Issue) : Check :=
  let head := i.ctx % 32 == 16
  (issuerCheck i f.who f.opc).or <|
  (if f.plan.legal head (s.wgOf i.ctx).regs then none else some (2, 0)).or <|
  ((f.plan.latchVoid (s.front i.ctx i.level)).map fun n => (7, n)).or <|
  ((f.plan.busy s i f.h.pred.toNat).map fun n => (5, n)).or <|
  (overrun s i f.h).or f.queue

/-! ## What an issue does -/

/-- Lanes that fault at check 8 (R200). -/
structure LFault where
  (lanes : Lanes) (cause detail : Nat) (addr : DWord)
  deriving DecidableEq, Repr

/-- The effect of a word: the state it leaves; next PCs other than the next word; lanes that fault, block (and whether the PC stays), or
exit; results into the latches; what it writes, after how many cycles; flags of FPSTAT; codes in flight for a variable latency with the
number of the access or job that ends it; whether it is variable; landing bits; and marks for the timer. -/
structure Eff where
  st : State
  next : Tab DWord := []
  fault : Option LFault := none
  block : Tab (LaneSt × Bool) := []
  exits : Lanes := 0
  latch : List Latch := []
  wr : List Wr := []
  elems : List Elem := []
  lat : Nat := 4
  fl : Fl := 0
  vary : Option Nat := none
  land : Option (Lanes × Bool) := none
  yields : Bool := false
  lr : Bool := false
  sc : Bool := false
  noShift : Bool := false
  stall : Nat := 0

/-- The distinct registers of each bank that a word reads (R310): the extra cycles, which stall the core (R309). -/
def bankStall (p : Plan) : Nat :=
  let vs := (p.srcs.flatMap fun (r, n) => match r with | .v k => iota k.val n | _ => []).eraseDups
  ((List.range 4).map fun b => (vs.filter fun v => v % 4 = b).length - 1).foldl (· + ·) 0

/-- One latch into L0 (R153). -/
def Front.shift (f : Front) (l : Latch) : Front := { f with latches := l :: f.latches.take 3 }

/-- A turn starts (R18). -/
def Ctx.startTurn (c : Ctx) : Ctx :=
  let pcs := c.front.pcs
  let above (d : DWord) := pcs.filter fun p => d.toNat < p.toNat
  let higher := match c.mark with | some m => above m | none => (match lowestOf pcs with | some l => above l | none => [])
  let higher := if higher.isEmpty then (match lowestOf pcs with | some l => above l | none => []) else higher
  match lowestOf higher with
  | some p => { c with mark := some p, turn := some (p, c.limit / 8), turnLanes := c.front.at p, endTurn := false }
  | none => c
/-- The turn after an issue of its fragment (R18): it follows the fragment to its PC, and ends after LIMIT/8 issues, where it meets the
lowest PC of the other eligible lanes, or with no eligible lane left. An open LR window holds the end back, and Ctx.trim applies it when the window
has closed (R20). Of a fragment that diverges the turn follows the part at the lowest PC (DEDUCED, log 104). Lanes that fault at this word (bad) leave it. -/
def Ctx.followTurn (c : Ctx) (exec bad : Lanes) (deferEnd : Bool) : Ctx :=
  match c.turn with
  | none => c
  | some (_, left) =>
    let elig := lanesOf (c.front.eligible &&& ~~~bad)
    match lowestOf ((elig.filter (hasLane exec)).map fun l => (c.front.lane l).pc) with
    | none => { c with turn := none, endTurn := false }
    | some p =>
      let others := (elig.filter fun l => !(hasLane exec l && (c.front.lane l).pc = p)).map fun l => (c.front.lane l).pc
      let ends : Bool := left ≤ 1 || lowestOf others = some p
      let mine := maskOf (elig.filter fun l => hasLane exec l && (c.front.lane l).pc = p)
      if ends && !deferEnd then { c with turn := none, endTurn := false }
      else { c with turn := some (p, left - 1), turnLanes := mine, endTurn := c.endTurn || ends }
/-- YIELD (R19): it ends the turn; with no turn it starts one, for which it stands in for an expiry of the same issue; with one distinct eligible
PC, counted where the lanes then stand, it does neither (DEDUCED, log 105). -/
def Ctx.yield (c : Ctx) : Ctx :=
  match c.turn with
  | some _ => { c with turn := none, endTurn := false }
  | none => if c.front.pcs.length ≤ 1 then c else { c.startTurn with issued := 0, deferred := false }
/-- The timer and the LR window after a counted issue of a group outside trap level (R18 to R20). ISSUED returns to 0 at LIMIT, even while an LR
window holds the expiry back. An LR inside an open window is one of its 16 issues, so that a window holds an expiry back by no more than R21 allows.
Of a window's fragment that diverges the part at the lowest PC keeps the issue address, and the window closes when that part blocks or exits (DEDUCED,
log 41; DEDUCED, log 21; DEDUCED, log 104). -/
def Ctx.account (c : Ctx) (exec : Lanes) (e : Eff) (act : Lanes) : Ctx :=
  let c := { c with issued := c.issued + 1 }
  let c := if c.issued ≥ c.limit then { c with issued := 0, deferred := true } else c
  let bad : Lanes := match e.fault with | some f => f.lanes | none => 0
  let mine := (lanesOf (exec &&& c.front.eligible &&& ~~~bad)).map fun l => (c.front.lane l).pc
  let faulted := e.fault.isSome
  let opens := e.lr && act ≠ 0 && !faulted && c.lrWin.isNone
  let c := match c.lrWin with
    | some (_, left) =>
      if e.sc || e.yields || faulted then { c with lrWin := none }
      else match lowestOf mine with
        | some p => { c with lrWin := if left ≤ 1 then none else some (p, left - 1) }
        | none => { c with lrWin := none }
    | none => c
  let c := if opens then { c with lrWin := (lowestOf mine).map fun p => (p, 16) } else c
  let c := if e.yields then c.yield else c.followTurn exec bad c.lrWin.isSome
  if faulted then c else c.trim

/-- A lane whose access waits has lost its latches, so it issues its chain again (R91, R307); its report names the word's place (DEDUCED, log 24). -/
def LaneSt.waits : LaneSt → Bool
  | .waitPage _ _ _ | .waitClass _ _ => true
  | _ => false
def LaneSt.inChain (st : LaneSt) (off : Nat) : LaneSt := match st with | .waitPage va info _ => .waitPage va info off | x => x

/-- A lane of the executing fragment after its word: at check 8 a faulting lane stays, and a word inside a chain sends the others back to
the chain's head (R290); a lane exits, blocks, or goes on to its next PC. -/
def Lane.afterIssue (x : Lane) (i : Issue) (e : Eff) (l : Nat) : Lane :=
  let bad : Lanes := match e.fault with | some f => f.lanes | none => 0
  let x : Lane := match e.land with | some (m, b) => if hasLane m l then { x with landing := b } else x | none => x
  let next := Tab.get (i.pc + BitVec.ofNat 64 i.size) e.next l
  if hasLane bad l then { x with pc := i.pc }
  else if hasLane e.exits l then { x with st := .exited }
  else match Tab.find? e.block l with
    | some (st, true) => { x with st := st.inChain i.off, pc := if st.waits then i.head else x.pc }
    | some (st, false) => { x with st := st, pc := next }
    | none => { x with pc := if bad ≠ 0 && !i.last then i.head else next }
/-- What a word shifts into the latches: its result or results, or, with none, zeros in every lane (R153). -/
def Eff.shifts (e : Eff) : List Latch := if e.noShift then [] else if e.latch.isEmpty then [{}] else e.latch
/-- The lanes of a word that go on: neither faulted, nor exited, nor left at it. -/
def Eff.goOn (e : Eff) (exec : Lanes) : Lanes :=
  exec &&& ~~~((match e.fault with | some f => f.lanes | none => 0) ||| e.exits ||| maskOf (Tab.keys (Tab.filter e.block fun _ w => w.2)))
/-- The issuing front after its word (R14, R34, R153, R302, R307) (DEDUCED, log 31). -/
def Front.afterIssue (f : Front) (i : Issue) (c : Bool) (e : Eff) (now : Nat) : Front :=
  let f := f.updLanes i.exec fun l x => x.afterIssue i e l
  let f := e.shifts.foldl Front.shift f
  let before : Lanes := if i.off = 0 then 0 else match f.chain with | some ch => ch.lanes &&& ~~~i.exec | none => 0
  let chain := if c && i.off + 1 < 4 && e.fault.isNone then
      some { head := i.head, words := i.off + 1, shifts := (if i.off = 0 then 0 else f.held) + e.shifts.length, open' := true, lanes := before ||| e.goOn i.exec : Chain }
    else none
  { f with chain := chain, lastIssue := some now }
/-- The destinations of a word in flight, in the lanes that perform it, and its completion flag: none where it leaves nothing on its way, so that
a flag it names counts up and down at once (R150, R302, R305). -/
def pendOf (i : Issue) (setf : Option Nat) (p : Plan) (act : Lanes) (e : Eff) (now id : Nat) : Option Pend :=
  let codes := (if p.wbs then [] else p.dsts.flatMap fun (r, n) => codesOf r n) ++ (p.pdst.filter (· < 7)).map predCode
  let flag := setf.map fun n => (i.level, n)
  let good := e.goOn act ||| (act &&& e.exits)
  match e.vary with
  | none =>
    if good = 0 || (e.wr.isEmpty && e.elems.isEmpty && flag.isNone) then none
    else some { id := id, due := some (now + e.lat), wr := e.wr, codes := codes, lanes := good, flag := flag, elems := e.elems }
  | some 0 => none
  | some k => some { id := k, due := none, wr := [], codes := codes, lanes := good, flag := flag }
/-- The issuing context with its front, its lanes' issue counts and FPSTAT as a word leaves them (DEDUCED, log 8). -/
def Ctx.issuedBy (x : Ctx) (i : Issue) (c : Bool) (e : Eff) (now : Nat) : Ctx :=
  let x := x.updFront i.level fun f => f.afterIssue i c e now
  { x with seq := (lanesOf i.exec).foldl (fun t l => Tab.put t l (Tab.get 0 t l + 1)) x.seq, readySince := none
           nextPcs := ((i.pc + BitVec.ofNat 64 i.size) :: e.next.map (·.2)).eraseDups, switching := none
           fpstat := x.fpstat ||| e.fl.setWidth 32 }
/-- A context with one more word in flight, and the flag that word names counted up. -/
def Ctx.withPend (x : Ctx) (pd : Option Pend) : Ctx :=
  match pd with
  | none => x
  | some q =>
    let x := match q.flag with | some (l, n) => x.updFront l fun f => { f with flags := updNth f.flags n (· + 1) } | none => x
    { x with pends := x.pends ++ [q] }
/-- A vector result of fixed latency stands from its cycle on, whatever its destination (R309). -/
def Ctx.noteVector (x : Ctx) (act : Lanes) (e : Eff) (now : Nat) : Ctx :=
  { x with vecDone := if e.vary.isNone && e.elems.isEmpty && !e.latch.isEmpty && act ≠ 0 then max x.vecDone (now + e.lat) else x.vecDone }
/-- The issuing context after its word: its front, its lanes' issue counts, FPSTAT, what is in flight, and, for a group outside trap level, the
fairness timer (R18 to R20). -/
def Ctx.afterIssue (x : Ctx) (i : Issue) (c : Bool) (act : Lanes) (e : Eff) (now : Nat) (pd : Option Pend) : Ctx :=
  let x := ((x.issuedBy i c e now).withPend pd).noteVector act e now
  if i.level || i.ctx % 32 = 16 then x else x.account i.exec e act
/-- The number a word in flight takes is used up. -/
def State.takeId (s : State) (b : Bool) : State := { s with ids := if b then s.ids + 1 else s.ids }
/-- A group whose mark wants a turn asks for it (R19). -/
def State.askTurn (s : State) (k : Nat) : State := if (s.ctx k).deferred then s.pushOnce .fairnessTurn { id := k } else s
/-- The state after a word that has passed checks 1 to 7, but for its fault (R14, R18, R153, R193, R302 to R310). -/
def State.afterWord (s : State) (i : Issue) (c : Bool) (setf : Option Nat) (p : Plan) (act : Lanes) (pair : Bool) (e : Eff) : State :=
  let now := (s.core (s.coreOf i.ctx)).time
  let pd := pendOf i setf p act e now s.ids
  let s := (s.takeId (e.vary.isNone && pd.isSome)).updCtx i.ctx fun x => x.afterIssue i c act e now pd
  let s := s.updCore (s.coreOf i.ctx) fun x => { x with slots := x.slots + 1, late := x.late + ((if pair then 0 else bankStall p) + e.stall) }
  { s.askTurn i.ctx with issue := none }
/-- What every issue does once checks 1 to 7 have passed: at check 8 its faulting lanes trap (R160, R290). -/
def finish (i : Issue) (c : Bool) (setf : Option Nat) (p : Plan) (act : Lanes) (pair : Bool) (e : Eff) : State :=
  let s := e.st.afterWord i c setf p act pair e
  match e.fault with
  | some f => s.trapAt i f.lanes f.cause f.detail f.addr
  | none => s

/-- A trap at checks 1 to 7 (R160): the whole executing fragment, nothing performed. -/
def rejectWord (s : State) (i : Issue) (cause detail : Nat) : State :=
  let s := s.updCore (s.coreOf i.ctx) fun x => { x with slots := x.slots + 1 }
  { s.trapAt i i.exec cause detail i.pc with issue := none }

/-- The issue under way, if its context exists (DESIGN CHOICE, log 88). -/
def State.issuing (s : State) : Option Issue :=
  match s.issue with
  | some i => if (Tab.find? s.ctxs i.ctx).isSome then some i else none
  | none => none

def hdrFlag (h : Hdr) : Option Nat := if h.setf.toNat < 12 then some h.setf.toNat else none

/-- Issue a full or extended form: its checks, then its effect on the acting lanes. -/
def issueForm (f : Form) (eff : Issue → Lanes → State → Eff) (s : State) : Out :=
  match s.issuing with
  | none => .refused .noIssuer
  | some i =>
    match f.check s i with
    | some (cause, detail) => .next (rejectWord s i cause detail)
    | none =>
      let act := guardMask s i f.h
      .next (finish i f.h.c (hdrFlag f.h) f.plan act false (eff i act s))

/-- A form whose checks read the state: its queues, or a register it takes from a system register's width. -/
def issueFormS (f : Issue → State → Form) (eff : Issue → Lanes → State → Eff) (s : State) : Out :=
  match s.issuing with
  | none => .refused .noIssuer
  | some i => issueForm (f i s) eff s

/-! ## Vector results -/

/-- A result in each acting lane, computed lane by lane from the state before the issue: written after lat cycles unless WBS, and put
into L0 (R153, R164). -/
def vecEff (i : Issue) (act : Lanes) (s : State) (h : Hdr) (d : Reg) (wide : Bool) (lat : Nat) (f : Nat → DWord × Fl) : Eff :=
  let rs := (lanesOf act).map fun l => (l, f l)
  let now := (s.core (s.coreOf i.ctx)).time
  { st := s
    latch := [{ vals := rs.map fun (l, v, _) => (l, if wide then v else (v.setWidth 32).setWidth 64), wide := wide, due := now + lat }]
    wr := if h.wbs then [] else rs.flatMap fun (l, v, _) => destWr (i.ctx % 32 == 16) l wide d v
    lat := lat
    fl := rs.foldl (fun m (_, _, fl) => m ||| fl) 0 }

/-- A predicate in each acting lane (R171, R176): L0 receives 1 or 0. -/
def predEff (i : Issue) (act : Lanes) (s : State) (p : Nat) (lat : Nat) (f : Nat → Bool × Fl) : Eff :=
  let rs := (lanesOf act).map fun l => (l, f l)
  let now := (s.core (s.coreOf i.ctx)).time
  { st := s
    latch := [{ vals := rs.map fun (l, b, _) => (l, if b then 1 else 0), wide := false, due := now + lat }]
    wr := rs.map fun (l, b, _) => ⟨.p p l, if b then 1 else 0⟩
    lat := lat
    fl := rs.foldl (fun m (_, _, fl) => m ||| fl) 0 }

end Sys2Proof.Machine
end

