-- ==== Sys2Proof/Machine/Mem.lean ====
section
/-! DEFINITION. Memory accesses from the checks of R39 to the completion of R199: where a lane's access lands, what it does to the
L1, the standpipe and the home directory (R57 to R75), in which order (R77), and when its flag counts down (R79). -/
namespace Sys2Proof.Machine

/-! ## Checks of one lane (R39, R41, R46, R347) -/

/-- What the checks of a lane's access find: its place; a fault with its DETAIL and TADDR; or a wait that is no fault (R73, R200, R360),
with the happening that ends it. -/
inductive Chk where
  | ok (p : Place)
  | fault (cause detail : Nat) (addr : DWord)
  | wait (st : LaneSt) (what : Instr) (args : Args)
  deriving DecidableEq, Repr

/-- What follows from an address's translation; a page that is not there lets the lane wait (R200, R347, R360), and a table word in Z is lost data (R74)
(DESIGN CHOICE, log 121). -/
def State.withXlat (s : State) (ck : Nat) (va bit : Nat) (f : Tlb → Chk) : Chk :=
  let g := s.wgOf ck
  let page : DWord := BitVec.ofNat 64 (va / 65536 * 65536)
  match s.xlat g.core g.vfn va with
  | .absent => .wait (.waitPage (BitVec.ofNat 64 va) bit 0) .notPresentFault { id := g.vfn, num := bit, v := page, list := [ck] }
  | .walkHost => .wait (.waitPage (BitVec.ofNat 64 va) bit 0) .walkMissRecord { id := g.vfn, num := bit, v := BitVec.ofNat 64 va, list := [ck] }
  | .bad => .fault 0x11 bit (BitVec.ofNat 64 va)
  | .lost => .fault 0x15 0 (BitVec.ofNat 64 va)
  | .ok t => f t
/-- Translation and protection of one byte range within a page (R39 step 5, R341, R347, R73). -/
def State.chkGlobal (s : State) (ck : Nat) (va : Nat) (write : Bool) : Chk :=
  let g := s.wgOf ck
  let bit := if write then 1 else 0
  s.withXlat ck va bit fun t =>
    let pr := physRange (t.phys va)
    if (pr ≠ .tier && pr ≠ .host) || (write && !t.w) then .fault 0x11 bit (BitVec.ofNat 64 va)
    else if (s.vf g.vfn).busyPages.contains t.va then .wait (.waitClass (BitVec.ofNat 64 t.va) s.ids) .reclassification { id := g.vfn, v := BitVec.ofNat 64 t.va }
    else if (t.cls = 1 && write) || (t.cls = 2 && t.own ≠ coreDie g.core) then
      .wait (.waitClass (BitVec.ofNat 64 t.va) s.ids) .reclassification { id := g.vfn, v := BitVec.ofNat 64 t.va }
    else .ok (.mem (t.phys va) t.cls t.own)

/-- The size field of the frame at an address (R45); where its header has no translation now, the size that its grid was given (DEDUCED, log 43). -/
def State.frameSize (s : State) (vfn : Nat) (frame : DWord) : Nat :=
  match s.devPhys vfn (frame + 0x24) with
  | some p => (wordOfBytes (s.peekN p 4)).toNat
  | none => match (Tab.vals s.grids).find? fun (g : Grid) => g.vfn = vfn && g.frame = frame with | some g => g.size | none => 0
/-- DEDUCED, log 95. -/
def frameAddr (k o : Nat) : DWord := BitVec.ofNat 64 (0xFF20000000000000 + k * 0x100000000000 + o % 0x100000000)

/-- A lexical address (R46): the global address of n bytes, or the fault. -/
def State.chkLex (s : State) (ck k off n : Nat) (write : Bool) : Nat ⊕ (Nat × Nat × DWord) :=
  let g := s.wgOf ck
  let d := nth 0 g.d k
  if k > (s.grid g.grid).level || d = 0 then .inr (0x31, k, frameAddr k off)
  else
    let size := s.frameSize g.vfn d
    if off + n > 64 + size then .inr (0x11, if write then 1 else 0, frameAddr k (max off (64 + size)))
    else if off < 64 && write then .inr (0x11, 1, frameAddr k off)
    else .inl ((d + BitVec.ofNat 64 off).toNat)

/-- A cistern place, unless one of its words has an uncorrectable error (R365, R285). -/
def State.chkCist (s : State) (va : DWord) (core byte n : Nat) : Chk :=
  match s.cistLost core byte n with
  | some o => .fault 0x15 0 (va + BitVec.ofNat 64 o)
  | none => .ok (.cist core byte)
/-- Steps 4 and 5 of R39 for n bytes in one window. -/
def State.chkWindow (s : State) (ck : Nat) (va : DWord) (n : Nat) (write : Bool) : Chk :=
  let g := s.wgOf ck
  let bit := if write then 1 else 0
  match windowOf va with
  | .gap => .fault 0x13 0 va
  | .global => s.chkGlobal ck va.toNat write
  | .own o =>
    if o + n > g.reserved then .fault 0x11 bit (va + BitVec.ofNat 64 (g.reserved - o)) else s.chkCist va g.core (g.cistPhys o) n
  | .die o =>
    let core := coreDie g.core * 256 + o / 0x40000
    match (s.core core).way (o / 0x8000 % 8) with
    | .reserved wk => if (s.wg wk).vfn = g.vfn then s.chkCist va core (o % 0x40000) n else .fault 0x11 bit va
    | _ => .fault 0x11 bit va
  | .frame k o =>
    match s.chkLex ck k o n write with
    | .inl a => s.chkGlobal ck a write
    | .inr (c, d, a) => .fault c d a

/-- Step 4 of R39 for all n bytes of an access, before step 5 of any part of it. -/
def State.chkReach (s : State) (ck : Nat) (va : DWord) (n : Nat) (write : Bool) : Option (Nat × Nat × DWord) :=
  match windowOf va with
  | .own o => let top := (s.wgOf ck).reserved; if o + n > top then some (0x11, if write then 1 else 0, va + BitVec.ofNat 64 (top - o)) else none
  | .die _ => (List.range ((n + 7) / 8)).findSome? fun k => match s.chkWindow ck (va + BitVec.ofNat 64 (8 * k)) (min n 8) write with
    | .fault 0x11 d a => some (0x11, d, a)
    | _ => none
  | .frame k o => match s.chkLex ck k o n write with | .inr f => some f | .inl _ => none
  | _ => none

/-- Steps 1 to 3 of R39. -/
def chkSpan (va : DWord) (n align : Nat) : Option (Nat × Nat × DWord) :=
  let w0 := windowOf va
  let w1 := windowOf (va + BitVec.ofNat 64 (n - 1))
  if w0 = .gap then some (0x13, 0, va)
  else if w0.code ≠ w1.code then some (0x12, w0.code + 16 * w1.code, va)
  else if va.toNat % align ≠ 0 then some (0x14, 0, va)
  else none

/-- The checks of R39 for an access of up to eight bytes. -/
def State.chkAccess (s : State) (ck : Nat) (va : DWord) (n align : Nat) (write : Bool) : Chk :=
  match chkSpan va n align with
  | some (c, d, a) => .fault c d a
  | none => s.chkWindow ck va n write

/-! ## Ranges of bytes -/

/-- A piece of a range that lies in one page or one way: its offset in the range, its address, length and checks. -/
structure Piece where
  (off : Nat) (va : DWord) (n : Nat) (chk : Chk)
  deriving DecidableEq, Repr
/-- Cut n bytes from a at every multiple of a step: offsets and lengths. -/
def cuts (a n step : Nat) : List (Nat × Nat) :=
  (List.range ((a % step + n + step - 1) / step)).map fun j =>
    let lo := max a (a / step * step + j * step)
    let hi := min (a + n) (a / step * step + (j + 1) * step)
    (lo - a, hi - lo)
/-- The pieces of n bytes from va, each with steps 4 and 5 of R39; a range that leaves its window is one piece that faults (steps 1, 2) (DEDUCED, log 64). -/
def State.pieces (s : State) (ck : Nat) (va : DWord) (n : Nat) (write : Bool) : List Piece :=
  if n = 0 then []
  else match chkSpan va n 1 with
    | some (c, d, a) => [⟨0, va, n, .fault c d a⟩]
    | none =>
      let at' (o : Nat) : DWord := va + BitVec.ofNat 64 o
      match windowOf va with
      | .global => (cuts va.toNat n 65536).map fun (o, m) => ⟨o, at' o, m, s.chkGlobal ck (va.toNat + o) write⟩
      | .frame k o => match s.chkLex ck k o n write with
        | .inr (c, d, a) => [⟨0, va, n, .fault c d a⟩]
        | .inl g => (cuts g n 65536).map fun (o, m) => ⟨o, at' o, m, s.chkGlobal ck (g + o) write⟩
      | _ => match s.chkWindow ck va n write with
        | .fault c d a => [⟨0, va, n, .fault c d a⟩]
        | _ => (cuts va.toNat n 0x8000).map fun (o, m) => ⟨o, at' o, m, s.chkWindow ck (at' o) m write⟩
def Chk.isOk : Chk → Bool
  | .ok _ => true
  | _ => false
/-- The first piece that does not pass. -/
def badPiece (ps : List Piece) : Option Piece := ps.find? fun p => !p.chk.isOk

/-! ## One lane's part of an access -/

/-- Bytes and alignment of a width (R198). -/
def widthBytes : Width → Nat
  | .w8 => 1
  | .w16 => 2
  | .w32 => 4
  | .w64 => 8
  | .w128 => 16
/-- The 32-bit registers of a width's data. -/
def widthRegs (w : Width) : Nat := match w with | .w64 => 2 | .w128 => 4 | _ => 1

/-- The 32-bit words that an element touches: of memory by word number, of cisterns above them. -/
def Elem.units (e : Elem) : List Nat :=
  match e.op, e.place with
  | .pref, _ => []
  | .sc _, .mem pa _ _ => iota (pa / 128 * 32) 32
  | _, .mem pa _ _ => iota (pa / 4) ((pa % 4 + e.n + 3) / 4)
  | _, .cist c b => iota (2 ^ 50 + c * 0x10000 + b / 4) ((b % 4 + e.n + 3) / 4)
def Elem.touches (e : Elem) (us : List Nat) : Bool := e.units.any fun u => us.contains u
/-- The memory words of an element. -/
def Elem.memWords (e : Elem) : List Nat :=
  match e.op, e.place with
  | .pref, .mem pa _ _ => iota (pa / 128 * 32) 32
  | _, .mem pa _ _ => iota (pa / 4) ((pa % 4 + e.n + 3) / 4)
  | _, .cist _ _ => []
/-- What the sump counts and merges by (R108, R293): the 128-byte line, or, above the lines, the 128-byte block of a scratchpad way. -/
def Elem.block (e : Elem) : Nat := match e.place with | .mem pa _ _ => pa / 128 | .cist c b => 2 ^ 50 + c * 0x800 + b / 128
def Elem.pa (e : Elem) : Nat := match e.place with | .mem pa _ _ => pa | .cist _ b => b
/-- The class that governs an access; host memory is governed by the host's own home, whatever class its page names (R71). -/
def Elem.cls (e : Elem) : Nat := match e.place with | .mem pa c _ => if physRange pa = .host then 0 else c | .cist _ _ => 0
def Elem.isStore (e : Elem) : Bool := match e.op with | .store _ => true | _ => false
def Elem.isAtomic (e : Elem) : Bool := match e.op with | .atomic _ _ | .cas _ _ | .sc _ => true | _ => false
def Elem.isSc (e : Elem) : Bool := match e.op with | .sc _ => true | _ => false
/-- A store or an atomic, which clears reservations whatever it writes (R220); a gather writes nothing. -/
def Elem.clears (e : Elem) : Bool := match e.op with | .store _ | .cas _ _ => true | .atomic op _ => op ≠ .hgath | _ => false

/-- The new value of an atomic (R50, R214), on n bytes. -/
def atomApply (op : AtomOp) (n x b : Nat) : Nat :=
  let m := 2 ^ (8 * n)
  let less (p q : Nat) : Bool := (p + m / 2) % m < (q + m / 2) % m
  match op with
  | .add => (x + b) % m
  | .fadd => (fp32.add engineFp x b).1
  | .bfadd => (bf16.add engineFp x b).1
  | .min => if less b x then b else x
  | .max => if less x b then b else x
  | .fmin => (fp32.minMax false false x b).1
  | .fmax => (fp32.minMax true false x b).1
  | .and => x &&& b
  | .or => x ||| b
  | .xor => x ^^^ b
  | .xchg => b
  | .hgath => x

/-- What an element takes from the old bytes, and what it writes (R203, R214, R217). -/
def Elem.apply (e : Elem) (old : List Byte) : List Byte × Option (List Byte) :=
  match e.op with
  | .load | .lr => (old, none)
  | .store v => ([], some (bytesLE e.n v.toNat))
  | .atomic .hgath _ => (old, none)
  | .atomic op b => (old, some (bytesLE e.n (atomApply op e.n (ofBytesLE old) (b.toNat % 2 ^ (8 * e.n)))))
  | .cas exp new => (old, if ofBytesLE old = exp.toNat % 2 ^ (8 * e.n) then some (bytesLE e.n new.toNat) else none)
  | .sc v => ([0, 0, 0, 0], some (bytesLE e.n v.toNat))
  | .pref => ([], none)

/-- A byte as the issuing core sees it: its own copy, else memory. -/
def State.coreByte (s : State) (core a : Nat) : Byte :=
  let x := s.l1w core (a / 4)
  if x.st = .i then Memory.read s.mem a else x.data.extractLsb' (8 * (a % 4)) 8
def setByte (w : Word) (i : Nat) (b : Byte) : Word := (w &&& ~~~((0xFF : Word) <<< (8 * i))) ||| ((b.setWidth 32) <<< (8 * i))
/-- Write bytes into the core's owned copies; a word that no way could hold is written in memory (R44). -/
def State.l1Store (s : State) (core a : Nat) (bs : List Byte) : State :=
  match bs with
  | [] => s
  | b :: t =>
    let x := s.l1w core (a / 4)
    let s1 := if x.st = .o || x.st = .m then
        s.setL1 core (a / 4) { x with st := .m, data := setByte x.data (a % 4) b, dirty := x.dirty ||| (1#4 <<< (a % 4)) }
      else { s with mem := Memory.write s.mem a b }
    s1.l1Store core (a + 1) t
/-- The issuing core's copies of written words that are not owned are updated (R57, R61). -/
def State.l1UpdateAs (s : State) (stamp core a : Nat) (bs : List Byte) : State :=
  match bs with
  | [] => s
  | b :: t =>
    let x := s.l1w core (a / 4)
    let s1 := if x.st = .us || x.st = .uw || x.st = .s then s.setL1 core (a / 4) { x with data := setByte x.data (a % 4) b, stamp := stamp } else s
    s1.l1UpdateAs stamp core (a + 1) t
def State.l1Update (s : State) (core a : Nat) (bs : List Byte) : State := s.newId.2.l1UpdateAs s.ids core a bs
/-- Bytes of a store in words that the core owns are written in its copies, never anywhere else (R61). -/
def State.storeOwned (s : State) (core a : Nat) (bs : List Byte) : State :=
  (bs.mapIdx fun i b => (a + i, b)).foldl (fun t (p, b) => let x := (t.l1w core (p / 4)).st; if x = .o || x = .m then t.l1Store core p [b] else t) s
def State.updMem (s : State) (f : List Host.Cell → List Host.Cell) : State := { s with mem := f s.mem }
def State.cistBytes (s : State) (core b n : Nat) : List Byte := (List.range n).map fun i => s.cistByte core (b + i)
def State.setCistBytes (s : State) (core b : Nat) (bs : List Byte) : State :=
  match bs with
  | [] => s
  | x :: t => (s.setCist core b x).setCistBytes core (b + 1) t

/-- Whether the reservation that an SC needs stands (R221). -/
def Ctx.reserved (c : Ctx) (lane line : Nat) (pol : Policy) : Bool := Tab.find? c.resv lane = some ⟨line, pol⟩
/-- An SC's outcome is counted (R67): a success clears the lane's count of failures, and lets the core refuse again, if it had refused for this lane. -/
def State.scCount (s : State) (ck lane line : Nat) (ok : Bool) : State :=
  let s1 := s.updCtx ck fun c => { c with
    resv := Tab.erase c.resv lane
    scFails := if ok then Tab.erase c.scFails lane else
      Tab.put c.scFails lane (match Tab.find? c.scFails lane with | some (l, n) => if l = line then (line, n + 1) else (line, 1) | none => (line, 1)) }
  if ok then s1.updCore (s1.coreOf ck) fun k => { k with refused := k.refused.filter (· ≠ (ck, lane)) } else s1

/-- The core discards its untracked copies of words (R216). -/
def State.dropUntracked (s : State) (core : Nat) (ws : List Nat) : State :=
  ws.foldl (fun t w => let x := t.l1w core w; if x.st = .us || x.st = .uw then t.setL1 core w {} else t) s
/-- An element is performed: at home in memory (a write in the words ws of its request, and in the core's copies of words that it owns), or in the core's
copies, or in a scratchpad way. A store updates the issuing core's other copies (R57), an atomic at home leaves it none (R216). Any store, atomic or
successful SC clears the reservations of other lanes (R220). An SC succeeds as its reservation stood at its ordering point, and at home needs its die among
the sharers of every word (R221). Host memory is served in the same way, for the host's own home (DESIGN CHOICE, log 27). -/
def State.performHere (s : State) (a : Acc) (e : Elem) (home : Bool) (ws : List Nat := []) (resv : Option Bool := none) : State × Elem :=
  match e.place with
  | .cist c b =>
    let (got, new) := e.apply (s.cistBytes c b e.n)
    ((match new with | some bs => s.setCistBytes c b bs | none => s), { e with done := true, req := 0, got := got })
  | .mem pa _ _ =>
    let line := pa / 128
    let clear (s : State) : State := s.clearResvOthers line (some (a.ctx, e.lane))
    let write (s : State) (bs : List Byte) : State :=
      if home then
        let s1 := (s.storeOwned a.core pa bs).updMem fun m => Memory.writeSome m pa bs fun b => ws.contains (b / 4)
        if e.isAtomic && !e.isSc then s1.dropUntracked a.core e.memWords else s1.l1Update a.core pa bs
      else s.l1Store a.core pa bs
    let old := if home then Memory.readN s.mem pa e.n else (List.range e.n).map fun i => s.coreByte a.core (pa + i)
    match e.op with
    | .sc v =>
      let shared := e.memWords.all fun w => match (s.dirWord w).mode with | .t l => l.contains (coreDie a.core) | _ => false
      let ok := resv.getD ((s.ctx a.ctx).reserved e.lane line a.pol) && (!home || shared)
      let s1 := if ok then clear (write s (bytesLE e.n v.toNat)) else s
      (s1.scCount a.ctx e.lane line ok, { e with done := true, req := 0, got := bytesLE 4 (if ok then 0 else 1) })
    | .lr =>
      (s.updCtx a.ctx fun c => { c with resv := Tab.put c.resv e.lane ⟨line, a.pol⟩ }, { e with done := true, req := 0, got := old })
    | _ =>
      let (got, new) := e.apply old
      let s1 := match new with | some bs => write s bs | none => s
      ((if e.clears then clear s1 else s1), { e with done := true, req := 0, got := got })
/-- What a performed read takes up, and a performed write leaves, of accumulators (R81): an atomic passes on what it finds. -/
def State.carry (s : State) (ck : Nat) (e : Elem) : State :=
  let wk := ck / 32
  let reads := !e.isStore && (match e.op with | .pref => false | _ => true)
  let writes := e.isStore || (e.isAtomic && !(e.isSc && e.got.any (· ≠ 0)))
  let s := if reads then e.units.foldl (fun t w => t.hear ck (s.view wk w)) s else s
  let told := (s.ctx ck).told
  if writes then e.units.foldl (fun t w => t.setView wk w (if e.isStore then told else joinKnown (t.view wk w) told)) s else s
def State.perform (s : State) (a : Acc) (e : Elem) (home : Bool) (ws : List Nat := []) (resv : Option Bool := none) : State × Elem :=
  let (t, e1) := s.performHere a e home ws resv
  (t.carry a.ctx e1, e1)

/-! ## Order (R77, R84) and performance (R69) -/

/-- An element of a store that has left through the write path counts as performed for its own core (R69); on a private page every policy acts as .own (R72). -/
def Elem.atCore (e : Elem) (pol : Policy) : Bool := e.done || (e.isStore && e.req ≠ 0 && (pol = .wt || pol = .si) && e.cls ≠ 2)
/-- Whether an access is performed at a scope (R69). -/
def Acc.performedAt (a : Acc) (scope : Scope) : Bool := a.elems.all fun e => e.done || (scopeRank scope ≤ 1 && e.atCore a.pol)

/-- The address ranges that a tile load or store has still to access. -/
def Job.spans : Job → List (Nat × Nat)
  | .tld _ addr stride rows rb row _ _ | .tst _ addr stride rows rb row _ => (List.range (rows - row)).map fun k => (addr.toNat + (row + k) * stride, rb)
  | _ => []
def overlaps (l : List (Nat × Nat)) (a n : Nat) : Bool := l.any fun (b, m) => b < a + n && a < b + m
/-- Where a byte stands, whatever window names it: its physical address, or, above those, its byte of a cistern. -/
def Place.cell : Place → Nat
  | .mem pa _ _ => pa
  | .cist c b => 2 ^ 52 + c * 0x40000 + b
/-- The cells of a range of a context's addresses, as far as it translates. -/
def State.cells (s : State) (ck : Nat) (a n : Nat) : List (Nat × Nat) :=
  (s.pieces ck (BitVec.ofNat 64 a) n false).filterMap fun p => match p.chk with | .ok x => some (x.cell, p.n) | _ => none
/-- Whether a tile load or store has still to access a byte of an element, by whatever window either names it (R77, R228). -/
def State.spansMeet (s : State) (ck : Nat) (j : Job) (e : Elem) : Bool :=
  overlaps j.spans e.va.toNat e.n || overlaps (j.spans.flatMap fun (a, n) => s.cells ck a n) e.place.cell e.n
/-- A store of the core that is on its way to home through the write path, and touches one of these words: it counts as performed for the core (R69), so
nothing of the core reads or writes past it (R77, R78). -/
def Elem.inPath (e : Elem) (us : List Nat) : Bool := !e.done && e.req ≠ 0 && (e.isStore || e.isAtomic) && e.touches us
def State.pathBusy (s : State) (core : Nat) (us : List Nat) : Bool := s.accs.any fun (_, b) => b.core = core && b.elems.any (·.inPath us)
/-- An incomplete fence of its lane, older than the access, holds an access in the pipeline (R80). -/
def State.fenceHeld (s : State) (a : Acc) (e : Elem) : Bool :=
  (s.ctx a.ctx).fences.any fun f => f.id < a.id && hasLane f.lanes e.lane && (f.kind ≠ .rel || e.isStore || e.isAtomic)
/-- Whether another access must come first: one behind a fence, an older one of the same lane to a common word, an older atomic, a tile load or store of the lane,
or a store of the same core, older or not, that is on its way to home: for the core it counts as performed, so that nothing of the core reads past it (R69, R77, R78,
R80 to R82, R228) (DEDUCED, log 44). -/
def State.held (s : State) (a : Acc) (e : Elem) : Bool :=
  let us := e.units
  s.fenceHeld a e ||
  (s.accs.any fun (k, b) => k ≠ a.id && b.core = a.core && b.elems.any fun x =>
    !x.done && ((k < a.id && ((b.ctx = a.ctx && x.lane = e.lane) || x.isAtomic)) || (x.req ≠ 0 && x.isStore)) && x.touches us) ||
  (s.jobs.any fun (k, j) => k < a.id && j.ctx = a.ctx && hasLane j.lanes e.lane && s.spansMeet a.ctx j.job e) ||
  ((s.ctx a.ctx).pends.any fun p => p.id < a.id && p.elems.any fun x => !x.done && x.lane = e.lane && x.touches us)

/-! ## Requests -/

def Req.die (r : Req) : Nat := coreDie r.core
/-- A .si or .wt read is never announced (R62), nor a read of host memory under these policies, which makes the request of a .wi read (R71). -/
def Req.quiet (r : Req) : Bool := r.kind = .rdU || (r.kind = .rdT && (r.pol = .si || r.pol = .wt))
def hostLine (line : Nat) : Bool := physRange (line * 128) = .host

/-- A translation that the core or its die holds has the persisting attribute and covers a line (R51): every access has just used its page's. -/
def State.persLine (s : State) (core pa : Nat) : Bool :=
  ((s.core core).tlb ++ (s.die (coreDie core)).tlb).any fun t => t.pers && t.pa ≤ pa && pa < t.pa + 2 ^ t.bits
/-- Which request an element's miss makes (R57, R62, R65, R71, R72, R216). -/
def Elem.kind (e : Elem) (pol : Policy) (scope : Scope) : ReqKind :=
  let host := physRange e.pa = .host
  let read : ReqKind := match pol with | .own => .rdO | .wi => .rdT | _ => if host then .rdT else .rdU
  -- Elem.cls of host memory is 0
  if e.cls = 1 then .rdU
  else if e.cls = 2 then .rdO
  else match e.op with
    | .load | .lr | .pref => read
    | .store _ | .sc _ => if pol = .own then .rdO else .wrW
    | .atomic .hgath _ => .atH
    | .atomic _ _ | .cas _ _ => if host || (pol = .own && scopeRank scope ≤ 1) then .rdO else .atH

/-- Block bytes of a format window's format (R55), and whether a physical address lies in a line of the scale region of an enabled window, which no cache
holds: every access goes to its memory controller (R56). -/
def FmtWin.fmtOf (c : DWord) : Nat := (c.extractLsb' 1 2).toNat
def blockBytes (fmt : Nat) : Nat := if fmt = 0 then 64 else 128
def FmtWin.scaleLine (w : FmtWin) (ctl : DWord) (line : Nat) : Bool :=
  ctl.getLsbD 0 && w.scale.toNat / 128 ≤ line && 128 * line < w.scale.toNat + (w.size.toNat + blockBytes (FmtWin.fmtOf ctl) - 1) / blockBytes (FmtWin.fmtOf ctl)
def State.inScale (s : State) (pa : Nat) : Bool := s.pf.fw.any fun w => w.scaleLine w.ctl (pa / 128)
/-- The request of an element, by its policy, or, in a scale region, one that leaves no copy. -/
def State.kindOf (s : State) (pol : Policy) (scope : Scope) (e : Elem) : ReqKind :=
  if s.inScale e.pa then (match e.op with | .load | .lr | .pref => .rdU | .store _ | .sc _ => .wrW | .atomic _ _ | .cas _ _ => .atH)
  else e.kind pol scope
/-- Untracked copies of an aligned 64-bit access serve it only if one fill, or one store since, gave them all: it is single-copy atomic (R77). -/
def State.whole (s : State) (core : Nat) (e : Elem) : Bool :=
  let xs := e.memWords.map (s.l1w core)
  e.n ≠ 8 || (match e.op with | .pref => true | _ => false) || (xs.all fun x => x.st ≠ .us && x.st ≠ .uw) || xs.all fun x => x.stamp = (xs.headD {}).stamp
/-- Whether the core's copies serve an element (R61) (DEDUCED, log 10). -/
def State.hits (s : State) (core : Nat) (e : Elem) (k : ReqKind) : Bool :=
  !s.inScale e.pa &&
  let sts := e.memWords.map fun w => (s.l1w core w).st
  let owned := sts.all fun x => x = .o || x = .m
  match k with
  | .rdU => sts.all (· ≠ .i) && s.whole core e
  | .rdT => sts.all fun x => x = .ro || x = .s || x = .o || x = .m
  | .rdO => owned
  | .wrW => owned
  | .atH | .reclaim => false

/-- The happening that serves a request at home. -/
def ReqKind.home : ReqKind → Instr
  | .rdU => .homeRdu
  | .rdT => .homeRdt
  | .rdO => .homeRdo
  | .wrW => .homeWrw
  | .atH => .homeAth
  | .reclaim => .homeReclaim

/-- The cycle in which a core can inject its next announcement: one in each cycle (R62). -/
def State.nextInject (s : State) (core : Nat) : Nat :=
  (Tab.vals s.reqs).foldl (fun m (r : Req) => if r.core = core && !r.quiet then max m (r.at' + 1) else m) s.clock
/-- Inject a request (R59, R62): .si and .wt reads, and reads of read-only pages, go to home unannounced; the others are announced after the cycle they were
injected in, within 20 cycles (State.timeCores). A
write changes no copy yet: the core's later accesses to its words wait for it (R77). An atomic at home discards the core's untracked copies and returns
its owned ones (R216). -/
def State.inject (s : State) (a : Acc) (kind : ReqKind) (line : Nat) (ws : List Nat) (cls : Nat) : Nat × State :=
  let (id, s) := s.newId
  let at' := s.nextInject a.core
  let pers := s.persLine a.core (line * 128)
  let r : Req := { id := id, acc := a.id, core := a.core, kind := kind, pol := a.pol, line := line, words := ws, need := ws, cls := cls, at' := at', pers := pers }
  let r := { r with atHome := r.quiet }
  let s := { s with reqs := Tab.put s.reqs id r }
  let s := if kind = .atH then
      ws.foldl (fun t w =>
        let x := t.l1w a.core w
        if x.st = .o || x.st = .m then
          let t1 := t.l1GiveUp a.core w x .inval
          t1.setDir w { t1.dirWord w with mode := .n }
        else t) (s.dropUntracked a.core ws)
    else s
  (id, if r.quiet then s.push kind.home { id := id } else s)

/-- Maximal runs of rising word numbers. -/
def runs (ws : List Nat) : List (List Nat) :=
  ws.foldr (fun w acc => match acc with | (x :: r) :: t => if x = w + 1 then (w :: x :: r) :: t else [w] :: acc | _ => [w] :: acc) []
def sortedWords (ws : List Nat) : List Nat := sortBy (fun (a b : Nat) => decide (a ≤ b)) ws.eraseDups

/-- From the lowest to the highest of some words. -/
def cover (ws : List Nat) : List Nat :=
  match (sortedWords ws).head?, (sortedWords ws).getLast? with | some lo, some hi => iota lo (hi + 1 - lo) | _, _ => []
/-- The word sets of the requests that the missing elements of one line form: a load's request spans every word that its lanes name in the line (R59, R201). -/
def State.spans (s : State) (a : Acc) (kind : ReqKind) (line : Nat) (es : List Elem) : List (List Nat) :=
  let ws := sortedWords (es.flatMap (·.memWords))
  match es with
  | [] => []
  | e :: _ =>
    match e.op with
    | .load | .lr | .pref => [cover ((a.elems.flatMap (·.memWords)).filter (· / 32 = line))]
    | .store _ => runs (if kind = .wrW then ws.filter fun w => let x := (s.l1w a.core w).st; x ≠ .o && x ≠ .m else ws)
    | .sc _ => [e.memWords]
    | .atomic .hgath _ => [ws]
    | .atomic _ _ | .cas _ _ => (es.map (·.memWords)).eraseDups

/-- A store of 16 bytes is written in the core's copies only when they hold the lane's other part too, so that a lane that meets a word in Z writes nothing (R383). -/
def State.matesHit (s : State) (a : Acc) (e : Elem) : Bool :=
  !e.isStore || a.elems.all fun x => x.lane ≠ e.lane || x.done || (match x.place with | .cist _ _ => true | .mem _ _ _ => s.hits a.core x (s.kindOf a.pol a.scope x) && !s.held a x)
/-- One pass over the elements of an access: those that can be performed are; the rest wait, or miss (true). -/
def State.pass (s : State) (a : Acc) (wait : List Nat) (es : List Elem) : State × List (Elem × Bool) :=
  match es with
  | [] => (s, [])
  | e :: t =>
    let keep (miss : Bool) : State × List (Elem × Bool) :=
      let (s1, r) := s.pass a (e.units ++ wait) t
      (s1, (e, miss) :: r)
    if e.done || e.sump then
      let (s1, r) := s.pass a wait t
      (s1, (e, false) :: r)
    else if e.req ≠ 0 || s.held a e then keep false
    else if e.touches wait then keep (match e.op with | .sc _ => false | _ => true)
    else
      let kind := s.kindOf a.pol a.scope e
      let now := match e.place with | .cist _ _ => true | .mem _ _ _ => s.hits a.core e kind && s.matesHit a e
      let lost := match e.op with | .sc _ => !(s.ctx a.ctx).reserved e.lane (e.pa / 128) a.pol | _ => false
      if now || lost then
        let (s1, e1) := s.perform a e false
        let (s2, r) := s1.pass a wait t
        (s2, (e1, false) :: r)
      else keep true

/-- Send the requests of one line, when no element of the line still waits for an older access; an HGATH sends one for all its lines
(R218). -/
def State.sendLine (s : State) (a : Acc) (line : Nat) (es : List (Elem × Bool)) : State × List (Elem × Bool) :=
  let gather := a.elems.any fun e => match e.op with | .atomic .hgath _ => true | _ => false
  let mine (e : Elem) : Bool := (gather || e.pa / 128 = line) && !e.done && !e.sump && e.req = 0 && (match e.place with | .mem _ _ _ => true | _ => false)
  if es.any fun (e, miss) => mine e && !miss && (match e.op with | .sc _ => false | _ => true) then (s, es)
  else
    let miss := (es.filter fun (e, m) => m && mine e).map (·.1)
    match miss with
    | [] => (s, es)
    | e0 :: _ =>
      let kind := s.kindOf a.pol a.scope e0
      (s.spans a kind line miss).foldl (fun (s, es) span =>
        let names (e : Elem) : Bool := e.memWords.any fun w => span.contains w
        let part := miss.filter fun e => names e || (e.isStore && miss.any fun x => x.lane = e.lane && names x)
        let part := match e0.op with | .sc _ => part.take 1 | _ => part
        let (id, s) := s.inject a kind line span e0.cls
        (s, es.map fun (e, m) => if part.contains e && e.req = 0 && !e.done then ({ e with req := id }, false) else (e, m))) (s, es)

/-- The access's pipeline step: perform what can be performed, request what misses. -/
def State.advance (s : State) (id : Nat) : State :=
  match s.acc id with
  | none => s
  | some a =>
    let (s, es) := s.pass a [] a.elems
    let lines := ((es.filter (·.2)).map fun (e, _) => e.pa / 128).eraseDups
    let (s, es) := lines.foldl (fun (s, es) line => s.sendLine a line es) (s, es)
    s.updAcc id fun a => { a with elems := es.map (·.1) }

/-- The accesses of a core that wait for an older one are tried again. -/
def State.kick (s : State) (core : Nat) : State :=
  s.accs.foldl (fun t (k, a) => if a.core = core && a.elems.any (fun e => !e.done && !e.sump && e.req = 0) then t.pushOnce .flagCountDown { id := k } else t) s

/-! ## Completion (R79, R199, R305) -/

/-- The result of an in-flight producer of variable latency is written, and its flag counts down. -/
def State.endPend (s : State) (ck id : Nat) (ws : List Wr) : State :=
  match (s.ctx ck).pends.find? fun p => p.id = id with
  | none => s
  | some p =>
    let s1 := s.writeAll ck ws
    (s1.updCtx ck fun c => { c with pends := c.pends.filter fun q => q.id ≠ id }).flagDown ck p.flag

/-- What an element writes into registers (R198): zero-extended below 64 bits. -/
def Elem.wrs (e : Elem) (head : Bool) : List Wr :=
  if e.failed || e.got.isEmpty then [] else destWr head e.lane (e.got.length = 8) e.dst (dwordOfBytes e.got)

/-- The flag of an access counts down when the access is complete at its scope, and the access ends when every part is performed. -/
def State.complete (s : State) (id : Nat) : State :=
  match s.acc id with
  | none => s
  | some a =>
    let all := a.elems.all (·.done)
    let head := a.ctx % 32 == 16
    let s := if !a.flagged && (if a.isLoad then all else a.performedAt a.scope) then
        let s1 := s.endPend a.ctx id (if a.isLoad then a.elems.flatMap fun e => e.wrs head else [])
        let s1 := if a.entry then s1.updCtx a.ctx fun c => { c with outstanding := c.outstanding - 1 } else s1
        s1.updAcc id fun a => { a with flagged := true }
      else s
    if all then ({ s with accs := Tab.erase s.accs id }).kick a.core else s

/-! ## Data lost (R66, R383) -/

def State.zMask (s : State) (line : Nat) : BitVec 32 := maskOf ((List.range 32).filter fun i => (s.dirWord (line * 32 + i)).mode = .z)
/-- TADDR and DETAIL of 0x15 for an element (R285) (DEDUCED, log 94). -/
def Elem.meetsZ (s : State) (e : Elem) : Bool := e.memWords.any fun w => (s.dirWord w).mode = .z
def State.zReport (s : State) (e : Elem) (deferred : Bool) : DWord × Nat :=
  let z := e.memWords.find? fun w => (s.dirWord w).mode = .z
  let addr := match z with | some w => e.va + BitVec.ofNat 64 (4 * w - e.pa) | none => e.va
  let m := s.zMask (e.pa / 128)
  let pos := (match z with | some w => w | none => e.pa / 4) % 32
  let (here, other) := if pos < 16 then (m.extractLsb' 0 16, m.extractLsb' 16 16) else (m.extractLsb' 16 16, m.extractLsb' 0 16)
  (addr, here.toNat + (if other ≠ 0 then 65536 else 0) + (if deferred then 131072 else 0))

/-- The trap level that an access, a job or a slice of this number belongs to now: a handler that has ended leaves its late faults to the group (R383). -/
def State.levelOf (s : State) (ck : Nat) (level : Bool) (id : Nat) : Bool := level && (match (s.ctx ck).trap with | some t => decide (t.since ≤ id) | none => false)
/-- Lanes of an access fault with 0x15: precisely where they have issued nothing since, else deferred (R383). The report names the lowest lane, and of its
parts the first that holds a word in Z (R285). -/
def State.zTrap (s : State) (a : Acc) (lanes : Lanes) (deferred : Bool) : State :=
  let mine := a.elems.filter fun e => hasLane lanes e.lane && e.lane = lowestLane lanes
  match (mine.find? (·.meetsZ s)).or (a.elems.find? fun e => hasLane lanes e.lane) with
  | none => s
  | some e =>
    let (addr, detail) := s.zReport e deferred
    let level := s.levelOf a.ctx a.level a.id
    let s1 := if !deferred && !a.last then
        -- the other lanes of a word that is not its chain's last, and still stand after it, return to the chain's head (R290)
        s.updFront a.ctx level fun f => f.updLanes (a.lanes &&& ~~~lanes) fun l x =>
          if Tab.get 0 (s.ctx a.ctx).seq l = Tab.get 0 a.seqs l then { x with pc := a.head } else x
      else s
    s1.trap a.ctx level { cause := causeWord 0x15 detail (if deferred then 0 else a.off), addr := addr, pc := if deferred then a.pc else a.head
                          lanes := lanes, kind := if deferred then .deferred else .precise }

/-- The accesses that a request carries parts of: the sump merges several into one. -/
def State.carried (s : State) (r : Req) : List Acc := (Tab.vals s.accs).filter fun (a : Acc) => a.elems.any fun e => e.req = r.id && !e.done
/-- A request finds a word in Z: it performs nothing, and each lane whose access it carries faults; a prefetch is dropped (R66, R206) (DEDUCED, log 93). -/
def State.zFaultAcc (s : State) (r : Req) (k : Nat) : State :=
  match s.acc k with
  | none => s
  | some a =>
    let hit := a.elems.filter fun e => e.req = r.id && !e.done
    let dropped := hit.all fun e => match e.op with | .pref => true | _ => false
    let lanes := maskOf (hit.map (·.lane))
    let s := s.updAcc a.id fun a => { a with elems := a.elems.map fun e => if hasLane lanes e.lane then { e with done := true, failed := true, req := 0 } else e }
    let s := if dropped then s else
      let fr := s.front a.ctx (s.levelOf a.ctx a.level a.id)
      let live := maskOf ((lanesOf lanes).filter fun l => (fr.lane l).st ≠ .exited)
      let still := maskOf ((lanesOf live).filter fun l => Tab.get 0 (s.ctx a.ctx).seq l = Tab.get 0 a.seqs l && (fr.lane l).st = .active)
      (s.zTrap a still false).zTrap a (live &&& ~~~still) true
    (s.pushOnce .flagCountDown { id := a.id }).kick a.core
def State.zFault (s : State) (r : Req) : State :=
  (s.carried r).foldl (fun t a => t.zFaultAcc r a.id) { s with reqs := Tab.erase s.reqs r.id }

/-! ## Granting a request -/

/-- The lowest lent way, which takes fills (R44). -/
def State.fillWay (s : State) (core : Nat) : Option Nat := (List.range 8).find? fun w => (s.core core).way w = .lent
/-- A word fills the L1: an owned copy stays, a shared one is not made weaker; without a lent way, and from a scale region (R56), nothing is filled
(DESIGN CHOICE, log 30). -/
def State.install (s : State) (core w : Nat) (st : L1St) (cls : Nat) (stamp : Nat := 0) : State :=
  let x := s.l1w core w
  match s.fillWay core with
  | none => s
  | some way =>
    if x.st = .o || x.st = .m || s.inScale (4 * w) then s
    else
      let st := if x.st = .s && (st = .us || st = .uw) then .s else st
      s.setL1 core w { st := st, data := Memory.word s.mem (4 * w), dirty := 0, way := way, cls := cls, stamp := stamp }

/-- Requests and announcements that waited for these words are tried again (R63, R66). -/
def State.wakeReqs (s : State) (line : Nat) : State :=
  s.reqs.foldl (fun t (k, r) =>
    if !r.words.any (fun w => w / 32 = line) then t
    else if r.atHome then t.pushOnce r.kind.home { id := k }
    else if !r.announced && r.at' < t.clock then t.pushOnce .standpipeAnnounce { id := k } (some (r.at' + 20))
    else t) s

/-- The elements that a request carries of one access and that a test admits are performed, in their order. -/
def State.performReq (s : State) (r : Req) (home : Bool) (p : State → Elem → Bool) (k : Nat) : State :=
  match s.acc k with
  | none => s
  | some a =>
    let (s1, es) := a.elems.foldl (fun (acc : State × List Elem) (e : Elem) =>
      let (t, out) := acc
      if e.req = r.id && !e.done && p t e then
        let (t1, e1) := t.perform a e home r.need r.resv
        (t1, out ++ [e1])
      else (t, out ++ [e])) (s, ([] : List Elem))
    ((s1.updAcc a.id fun a => { a with elems := es }).pushOnce .flagCountDown { id := a.id }).kick a.core
/-- Whether a core without a lent way is served a word of a .wi read by another L1 of its die, whose clean copy memory agrees with (R44, R62). -/
def State.besideServes (s : State) (r : Req) (w : Nat) : Bool :=
  r.kind = .rdT && (s.fillWay r.core).isNone && (s.l1Of w).any fun (core, x) => coreDie core = r.die && (x.st = .s || x.st = .o)
/-- Whether a request, served for the words it needed of home, covers an element: every other word of the element, which the die or the core had itself
when the request left, is still held as the element needs it (R59, R61, R63). -/
def State.covers (s : State) (r : Req) (e : Elem) : Bool :=
  r.cls ≠ 0 || e.memWords.all fun w => r.need.contains w ||
    (let x := (s.l1w r.core w).st; x = .o || x = .m || (r.kind = .rdT && x = .s)) || s.besideServes r w
/-- The access's elements that a request carries are performed, and the request ends; an element that has lost a word meanwhile asks again. -/
def State.finishReq (s : State) (r : Req) (home : Bool) : State :=
  let s := (r.words).foldl (fun t w => let d := t.dirWord w; if d.busy = some r.id then t.setDir w { d with busy := none } else t) s
  let s := { s with reqs := Tab.erase s.reqs r.id }
  let s := (s.carried r).foldl (fun t a =>
    let t := t.performReq r home (fun u e => u.covers r e) a.id
    t.updAcc a.id fun a => { a with elems := a.elems.map fun e => if e.req = r.id then { e with req := 0 } else e }) s
  ((r.words.map (· / 32)).eraseDups).foldl (fun t line => t.wakeReqs line) (s.kick r.core)

/-- After a grant of ownership that no way could hold, the words are back in N (R44). -/
def State.unheld (s : State) (r : Req) : State :=
  if r.cls ≠ 0 then s
  else r.need.foldl (fun t w => let x := (t.l1w r.core w).st; if x = .o || x = .m then t else t.setDir w { t.dirWord w with mode := .n }) s

/-- The words that home gave, and every word of a private page, fill the L1. -/
def State.fill (s : State) (r : Req) : State :=
  let st : L1St := if r.cls = 1 then .ro else match r.kind with
    | .rdO => .o
    | .rdT => .s
    | _ => if r.pol = .si then .us else .uw
  (if r.cls = 2 then r.words else r.need).foldl (fun t w => t.install r.core w st r.cls r.id) s
/-- The grant of a read or of ownership: the L1 is filled, and the lanes' accesses are performed. -/
def State.grant (s : State) (r : Req) : State :=
  let s := (s.fill r).finishReq r false
  if r.kind = .rdO then s.unheld r else s

/-! ## The standpipe (R62, R63) -/

/-- A copy in another L1 of the die answers an announcement (the table of R62); an owner hands its word over. -/
def State.snoop (s : State) (r : Req) (w core : Nat) (x : L1Word) : State :=
  match r.kind with
  | .rdO =>
    if x.st = .o || x.st = .m then
      let s1 := (s.setL1 core w {}).clearResv core r.line
      match s1.fillWay r.core with
      | some way => s1.setL1 r.core w { x with way := way }
      | none =>
        let s2 := if x.st = .m then s1.writeBack w x else s1
        s2.setDir w { s2.dirWord w with mode := .n }
    else if x.st = .s || x.st = .uw then (s.setL1 core w {}).clearResv core r.line
    else s
  | .rdT =>
    if x.st = .o || x.st = .m then
      let s1 := s.l1GiveUp core w x .keepS
      s1.setDir w { s1.dirWord w with mode := .t [r.die] }
    else s
  | .wrW | .atH =>
    if x.st = .o || x.st = .m then
      let s1 := s.l1GiveUp core w x .inval
      s1.setDir w { s1.dirWord w with mode := .n }
    else if x.st = .s || x.st = .uw then (s.setL1 core w {}).clearResv core r.line
    else s
  | _ => s

/-- The announcement reaches every other L1 of the die. -/
def State.snoopAll (s : State) (r : Req) : State :=
  r.words.foldl (fun t w => (t.l1Of w).foldl (fun u (core, x) => if core ≠ r.core && coreDie core = r.die then u.snoop r w core x else u) t) s
/-- The words whose permission the die lacks, after the announcement, and must have from home (R62, R72). -/
def State.needOf (s : State) (r : Req) : List Nat :=
  match r.kind with
  | .rdO => r.words.filter fun w => (s.l1w r.core w).st ≠ .o && (s.l1w r.core w).st ≠ .m && (r.cls ≠ 2 || (s.dirWord w).mode = .z)
  | .rdT => r.words.filter fun w => !((s.l1Of w).any fun (core, x) => coreDie core = r.die && (x.st = .s || x.st = .o || x.st = .m))
  | _ => r.words
/-- The words that a sharer or owner in the die supplied to a .wi read become S in the requester. -/
def State.shareIn (s : State) (r : Req) (need : List Nat) : State :=
  if r.kind = .rdT then (r.words.filter fun w => !need.contains w).foldl (fun t w => t.install r.core w .s r.cls) s else s
/-- The announcement's effect. What the die settles is performed at once, so that the holder has performed the access before it answers a later request
(R63) (DEDUCED, log 92); what the die cannot settle goes to home. -/
def State.announce (s : State) (r : Req) : State :=
  let s := s.snoopAll r
  let need := s.needOf r
  let s := s.shareIn r need
  if need.isEmpty then s.grant { r with announced := true, need := [] }
  else
    let s := s.updReq r.id fun q => { q with announced := true, atHome := true, need := need }
    let lost := need.any fun w => (s.dirWord w).mode = .z
    let s := if (r.kind = .rdO || r.kind = .rdT) && !lost then
        (s.carried r).foldl (fun (t : State) a => t.performReq r false (fun u e => (e.memWords.all fun w => !need.contains w) && (u.hits r.core e r.kind || e.memWords.all (u.besideServes r))) a.id) s
      else s
    s.push r.kind.home { id := r.id }

/-! ## The home (R64 to R68) -/

/-- The holders that must answer before a word can be served, and how (R65). An unannounced read can find its own die as the owner, where the rule says
that o ≠ h in mode X: the home then recalls that die as it does another (DESIGN CHOICE, log 120). -/
def recallsOf (kind : ReqKind) (h : Nat) (d : DirWord) : List Nat :=
  match d.mode with
  | .n | .z => []
  | .t l => match kind with
    | .rdU | .rdT => []
    | .rdO | .wrW => l.filter (· ≠ h)
    | .atH | .reclaim => l
  | .x o => [o]
def ReqKind.giveUp : ReqKind → GiveUp
  | .rdU => .keepO
  | .rdT => .keepS
  | .reclaim => .drop
  | _ => .inval

/-- The directory after a request is served (R65). -/
def dirAfter (kind : ReqKind) (h : Nat) (d : DirWord) : DirWord :=
  match kind with
  | .rdU => { d with u := true }
  | .rdT => { d with mode := match d.mode with | .t l => .t (if l.contains h then l else l ++ [h]) | .x o => .t (if o = h then [h] else [o, h]) | _ => .t [h] }
  | .rdO => { d with mode := .x h }
  | .wrW => { d with mode := match d.mode with | .t l => if l.contains h then .t [h] else .n | _ => .n }
  | .atH => { d with mode := .n }
  | .reclaim => { d with mode := .n, u := false }

/-- Evict a line from the last-level cache (R68): its words come to N and its entry is dropped; a line with a word in Z stays, and one
with a busy word is not chosen (DESIGN CHOICE, log 101). -/
def State.llcEvict (s : State) (line : Nat) : State :=
  let ws := iota (line * 32) 32
  if ws.any fun w => (s.dirWord w).mode = .z || (s.dirWord w).busy.isSome then s
  else ws.foldl (fun t w =>
    let t1 := match (t.dirWord w).mode with
      | .t l => l.foldl (fun (u : State) h => u.holderGiveUp h w .inval) t
      | .x o => t.holderGiveUp o w .inval
      | _ => t
    t1.setDir w {}) s

/-! ### The last-level cache (R49 to R53) -/

/-- The grids resident in the package, and the effective bounds (R52). -/
def State.resident (s : State) : List Grid := (Tab.vals s.grids).filter fun g => g.placed > 0 && !g.dead
def State.persistMin (s : State) : Nat := min 12 (s.resident.foldl (fun m g => max m g.pmin) 0)
def State.persistMax (s : State) : Nat := max s.persistMin (min 12 (s.resident.foldl (fun m g => min m g.pmax) 12))
def homeSlice (line : Nat) : Nat := Config.homeHash line % 192
def homeSet (line : Nat) : Nat := Config.setHash line % 1024
/-- The 64 sampled sets of a slice, all different (R51): each the first that is free from the set that the part fixes for it. -/
def sampledSets : List Nat := (List.range 64).foldl (fun l j =>
  l ++ (((List.range 1024).map fun d => (Config.sampledSet j + d) % 1024).find? fun x => !l.contains x).toList) []
/-- Whether a set is one of the sampled ones: true in the half that tries p + 1 (R51). -/
def sampleHalf (set : Nat) : Option Bool := ((List.range 64).find? fun j => nth 1024 sampledSets j = set).map (· < 32)
/-- A line that may not leave: a word in Z, or a busy word. -/
def State.llcPinned (s : State) (line : Nat) : Bool := (iota (line * 32) 32).any fun w => (s.dirWord w).mode = .z || (s.dirWord w).busy.isSome
/-- Home uses a line: a hit is counted in a sampled set, a miss fills the least recently used way of the line's side, whose line is evicted (R51, R68). A
line with no way to go into is served from memory; scale regions (R56) and host memory are not cached (DESIGN CHOICE, log 101). -/
def State.llcUse (s : State) (line : Nat) (pers : Bool) : State :=
  if hostLine line || s.inScale (line * 128) then s
  else
    let k := homeSlice line
    let x := Tab.get {} s.llc k
    let set := homeSet line
    let half := sampleHalf set
    let p := match half with
      | some true => if x.p < s.persistMax then x.p + 1 else x.p
      | some false => if x.p > s.persistMin then x.p - 1 else x.p
      | none => x.p
    let way (w : Nat) : Option (Nat × Nat) := Tab.find? x.lines (set * 16 + w)
    let x' := { x with uses := x.uses + 1 }
    match (List.range 16).find? fun w => (way w).map (·.1) = some line with
    | some w =>
      { s with llc := Tab.put s.llc k { x' with
          up := x.up + (if half = some true then 1 else 0), down := x.down + (if half = some false then 1 else 0)
          lines := Tab.put x.lines (set * 16 + w) (line, x.uses) } }
    | none =>
      let side := if pers then List.range p else iota p (16 - p)
      let age (w : Nat) : Nat := match way w with | some (_, u) => u + 1 | none => 0
      let open' := side.filter fun w => match way w with | some (l, _) => !s.llcPinned l | none => true
      let pick := open'.find? fun w => open'.all fun v => age w ≤ age v
      let out := Tab.filter x.lines fun j _ => (pick.map fun w => set * 16 + w) = some j
      let s := out.foldl (fun t (_, (l, _)) => t.llcEvict l) s
      { s with llc := Tab.put s.llc k { x' with lines := match pick with | some w => Tab.put x.lines (set * 16 + w) (line, x.uses) | none => x.lines } }
/-- Lines leave the last-level cache, written back; one that may not leave stays (R68, R350). -/
def State.llcDrop (s : State) (p : Nat → Bool) : State :=
  let gone (l : Nat) : Bool := p l && !s.llcPinned l
  let s' := ((Tab.vals s.llc).flatMap fun (x : LlcSlice) => (Tab.vals x.lines).map (·.1)).foldl (fun (t : State) l => if gone l then t.llcEvict l else t) s
  { s' with llc := Tab.mapVals s'.llc fun _ (x : LlcSlice) => { x with lines := Tab.filter x.lines fun _ (l, _) => !gone l } }
def State.llcUseWords (s : State) (core : Nat) (ws : List Nat) (pers : Bool := false) : State :=
  ((ws.map (· / 32)).eraseDups).foldl (fun t l => t.llcUse l (pers || t.persLine core (l * 128))) s

/-- A request at home: an SC's reservation is tested at its arrival (R221); it faults on Z, waits behind busy words, asks the holders, or is served (R65,
R66). -/
def State.scArrives (s : State) (r : Req) : Req :=
  if r.resv.isSome then r
  else match (s.acc r.acc).bind fun a => (a.elems.find? fun e => e.req = r.id && e.isSc).map fun e => (s.ctx a.ctx).reserved e.lane r.line a.pol with
    | some b => { r with resv := some b }
    | none => r
/-- Whether a request, or a host access, that came to home before shares a word with these: the home takes them in arrival order (R66). -/
def State.behind (s : State) (n : Option Nat) (ws : List Nat) : Bool :=
  let first (m : Nat) : Bool := match n with | some k => decide (m < k) | none => true
  ((Tab.vals s.reqs).any fun (q : Req) => (match q.arrived with | some m => first m | none => false) && q.need.any fun w => ws.contains w) ||
  s.agenda.any fun h => (h.what = .hostCxlMemRead || h.what = .hostCxlMemWrite || h.what = .tqresp) && h.args.num ≠ 0 && first h.args.num &&
    h.args.list.any fun w => ws.contains w
/-- Whether a host access that is being served must wait at home for its words, and its wait: it keeps the number of its arrival (R66). -/
def State.hostHeld (s : State) (ws : List Nat) : Bool :=
  s.behind (if s.args.num = 0 then none else some s.args.num) ws || ws.any fun w => (s.dirWord w).busy.isSome
def State.hostAgain (s : State) (what : Instr) (ws : List Nat) : State :=
  s.newId.2.push what { s.args with num := if s.args.num = 0 then s.ids else s.args.num, list := ws }
def State.homeServe (s : State) (id : Nat) (served : State → Req → State) : State :=
  match s.req id with
  | none => s
  | some r =>
    let r := s.scArrives r
    let r := if r.arrived.isSome then r else { r with arrived := some s.ids }
    let s := s.newId.2.updReq id fun _ => r
    let ws := r.need
    if r.kind ≠ .reclaim && ws.any (fun w => (s.dirWord w).mode = .z) then
      let s := r.words.foldl (fun t w => let d := t.dirWord w; if d.busy = some r.id then t.setDir w { d with busy := none } else t) s
      ((r.words.map (· / 32)).eraseDups).foldl (fun t line => t.wakeReqs line) (s.zFault r)
    else if s.behind r.arrived ws || ws.any fun w => match (s.dirWord w).busy with | some k => k ≠ id | none => false then s
    else
      let hs := if r.cls ≠ 0 then [] else (ws.flatMap fun w => recallsOf r.kind r.die (s.dirWord w)).eraseDups
      let open' := hs.filter fun h => !r.answered.contains h
      if open'.isEmpty then served (s.llcUseWords r.core ws r.pers) r
      else
        let s := ws.foldl (fun t w => t.setDir w { t.dirWord w with busy := some id }) s
        let fresh := open'.filter fun h => !r.asked.contains h
        let s := s.updReq id fun q => { q with asked := q.asked ++ fresh }
        fresh.foldl (fun t h => t.pushOnce .holderRecall { id := id, num := h }) s
def State.afterServe (s : State) (r : Req) : State :=
  if r.cls ≠ 0 then s else r.need.foldl (fun t w => t.setDir w { dirAfter r.kind r.die (t.dirWord w) with busy := none }) s

/-! ## Accesses of a core's engines, each in one instant (R57, R78, R86) -/

/-- An engine's access waits while a store of the core to its words is in the write path, a word is busy at home, or an announced request of the die comes
first (R63, R66, R77) (DESIGN CHOICE, log 28). -/
def State.engineWaits (s : State) (core : Nat) (kind : ReqKind) (ws : List Nat) : Bool :=
  s.pathBusy core ws || s.behind none ws || (ws.any fun w => (s.dirWord w).busy.isSome) ||
  (kind ≠ .rdU && (Tab.vals s.reqs).any fun (q : Req) => !q.quiet && q.die = coreDie core && q.words.any fun w => ws.contains w)
/-- What a request needs of home comes at once. -/
def State.homeNow (s : State) (r : Req) : State :=
  let s := s.llcUseWords r.core r.need
  let s := if r.cls ≠ 0 then s else
    r.need.foldl (fun t w => (recallsOf r.kind r.die (t.dirWord w)).foldl (fun (u : State) h => u.holderGiveUp h w r.kind.giveUp) t) s
  s.afterServe r
/-- The words of an engine's request, with the copies that it leaves. -/
def State.obtain (s : State) (r : Req) : State :=
  let (id, s) := s.newId
  let r := { r with id := id }
  let s := if r.kind = .rdU then s else s.snoopAll r
  let r := { r with need := s.needOf r }
  let s := (s.shareIn r r.need).homeNow r
  match r.kind with
  | .rdU | .rdT => s.fill r
  | .rdO => (s.fill r).unheld r
  | _ => s
def engElem (p : Place) (n : Nat) (op : ElemOp) : Elem := { lane := 0, va := 0, place := p, n := n, dst := .sp .zero, op := op }
def engReq (core : Nat) (kind : ReqKind) (pol : Policy) (p : Place) (ws : List Nat) : Req :=
  { id := 0, acc := 0, core := core, kind := kind, pol := pol, line := (engElem p 1 .load).pa / 128, words := ws, need := ws, cls := (engElem p 1 .load).cls }
/-- An engine of a core reads bytes, as a load of a policy; none where it waits. -/
def State.coreRead (s : State) (core : Nat) (pol : Policy) (p : Place) (n : Nat) : Option (List Byte × State) :=
  match p with
  | .cist c b => some (s.cistBytes c b n, s)
  | .mem pa _ _ =>
    let e := engElem p n .load
    let kind := s.kindOf pol .pkg e
    let bytes (t : State) : List Byte := (List.range n).map fun i => t.coreByte core (pa + i)
    if s.engineWaits core kind e.memWords then none
    else if s.hits core e kind then some (bytes s, s)
    else let t := s.obtain (engReq core kind pol p e.memWords); some (bytes t, t)
/-- An engine of a core writes bytes, as a store of a policy that is performed at every scope at once; none where it waits. -/
def State.coreWrite (s : State) (core : Nat) (pol : Policy) (p : Place) (bs : List Byte) : Option State :=
  match p with
  | .cist c b => some (s.setCistBytes c b bs)
  | .mem pa _ _ =>
    let e := engElem p bs.length (.store 0)
    let kind := s.kindOf pol .pkg e
    let clear (t : State) : State := ((e.memWords.map (· / 32)).eraseDups).foldl (fun (u : State) line => u.clearResvOthers line none) t
    if s.engineWaits core kind e.memWords then none
    else if s.hits core e kind then some (clear (s.l1Store core pa bs))
    else
      let away (w : Nat) : Bool := let x := (s.l1w core w).st; kind = .rdO || (x ≠ .o && x ≠ .m)
      let ws := e.memWords.filter away
      let t := s.obtain (engReq core kind pol p ws)
      some (clear (if kind = .rdO then t.l1Store core pa bs
        else ((t.storeOwned core pa bs).updMem fun m => Memory.writeSome m pa bs fun b => ws.contains (b / 4)).l1Update core pa bs))

/-- The distinct lines and scratchpad blocks of lane accesses in the sump (R108, R293). -/
def State.sumpElem (s : State) (x : Nat × Nat) : Option (Acc × Elem) := (s.acc x.1).bind fun a => (a.elems[x.2]?).map fun e => (a, e)
def State.sumpBlocks (s : State) (l : List (Nat × Nat)) : List Nat := (l.filterMap fun x => (s.sumpElem x).map fun (_, e) => e.block).eraseDups

/-! ## Starting an access -/

/-- What the issuing lanes' checks give: the elements of the good lanes, the lanes that fault, the lanes that wait, and the happenings
that end the waits. -/
structure Lookup where
  elems : List Elem := []
  fault : Option LFault := none
  wait : Tab (LaneSt × Bool) := []
  evs : List Happening := []
  deriving DecidableEq, Repr

def Lookup.addFault (k : Lookup) (lane cause detail : Nat) (addr : DWord) : Lookup :=
  { k with fault := match k.fault with
      | some f => some { f with lanes := f.lanes ||| laneBit lane }
      | none => some ⟨laneBit lane, cause, detail, addr⟩ }
def Lookup.addWait (k : Lookup) (lane : Nat) (st : LaneSt) (what : Instr) (args : Args) : Lookup :=
  let h : Happening := { what := what, args := args }
  { k with wait := Tab.put k.wait lane (st, true), evs := if k.evs.contains h then k.evs else k.evs ++ [h] }
/-- Take in one lane's checks: every part must pass. -/
def Lookup.add (k : Lookup) (lane : Nat) (cs : List (Chk × Elem)) : Lookup :=
  match cs.find? fun (c, _) => match c with | .ok _ => false | _ => true with
  | some (.fault c d a, _) => k.addFault lane c d a
  | some (.wait st w a, _) => k.addWait lane st w a
  | _ => { k with elems := k.elems ++ cs.filterMap fun (c, e) => match c with | .ok p => some { e with place := p } | _ => none }

/-- The translation that an access used, by the global window or a frame window. -/
def State.touchVa (s : State) (ck : Nat) (va : DWord) : State :=
  match windowOf va with
  | .global => s.touchTlb (s.coreOf ck) (s.wgOf ck).vfn va.toNat
  | .frame k o => match s.chkLex ck k o 1 false with | .inl g => s.touchTlb (s.coreOf ck) (s.wgOf ck).vfn g | .inr _ => s
  | _ => s

/-- An access enters the pipeline: from now on it happens by itself. -/
def State.startAccess (s : State) (i : Issue) (pol : Policy) (scope : Scope) (isLoad sump : Bool) (es : List Elem) : Nat × State :=
  let (id, s) := s.newId
  let core := s.coreOf i.ctx
  let lanes := maskOf (es.map (·.lane))
  let seqs := (lanesOf lanes).map fun l => (l, Tab.get 0 (s.ctx i.ctx).seq l + 1)
  let a : Acc := { id := id, ctx := i.ctx, core := core, level := i.level, lanes := lanes, pc := i.pc, head := i.head, off := i.off, last := i.last, pol := pol
                   scope := scope, elems := es.map fun e => { e with sump := sump }, seqs := seqs, isLoad := isLoad, entry := sump }
  let s := { s with accs := Tab.put s.accs id a }
  let s := es.foldl (fun t e => t.touchVa i.ctx e.va) s
  if sump then (id, s.updCtx i.ctx fun c => { c with outstanding := c.outstanding + 1 })
  else (id, s.push .flagCountDown { id := id })

/-- Lanes that wait have arrived in an order of their own (R73). -/
def State.arrived (s : State) (some' : Bool) : State := if some' then s.newId.2 else s
/-- The effect of an access after its checks (R200): good lanes perform, faulted lanes trap, the others wait; with no good lane the flag
counts down at once. -/
def accessEff (i : Issue) (s : State) (pol : Policy) (scope : Scope) (isLoad sump : Bool) (k : Lookup) : Eff :=
  let s := k.evs.foldl (fun t h => t.pushOnce h.what h.args (if h.what = .reclassification then some s.clock else none)) (s.arrived !k.wait.isEmpty)
  if k.elems.isEmpty then { st := s, fault := k.fault, block := k.wait, vary := some 0 }
  else
    let (id, s) := s.startAccess i pol scope isLoad sump k.elems
    { st := s, fault := k.fault, block := k.wait, vary := some id }

end Sys2Proof.Machine
end

