-- ==== Sys2Proof/Machine/Engine.lean ====
section
/-! DEFINITION. What the engines share: ranges of bytes and their checks, coherent reads and writes of an engine, format-window scales
(R55), the tile file and its accumulators under R88 and R246, and the row-by-row work of TLD and TST (R236 to R238). -/
namespace Sys2Proof.Machine

/-! ## Ranges of bytes -/

def Piece.place (p : Piece) : Place := match p.chk with | .ok x => x | _ => .mem 0 0 0
/-- The first word in Z of a piece, or else of the lines that it touches (R383), as an address. -/
def State.lineZ (s : State) (p : Piece) : Option (DWord × Nat) :=
  match p.chk with
  | .ok (.mem pa _ _) =>
    let mine := iota (pa / 4) ((pa % 4 + p.n + 3) / 4)
    ((mine ++ iota (pa / 128 * 32) (32 * ((pa % 128 + p.n + 127) / 128))).find? fun w => (s.dirWord w).mode = .z).map fun w =>
      (p.va - BitVec.ofNat 64 pa + BitVec.ofNat 64 (4 * w), w)
  | _ => none
/-- The first orphaned word of a piece, as an address (R66). -/
def State.pieceZ (s : State) (p : Piece) : Option (DWord × Nat) :=
  match p.chk with
  | .ok (.mem pa _ _) => ((iota (pa / 4) ((pa % 4 + p.n + 3) / 4)).find? fun w => (s.dirWord w).mode = .z).map fun w => (p.va + BitVec.ofNat 64 (4 * w - pa), w)
  | _ => none

/-! ## Coherent accesses of an engine -/

/-- Instruction words are read untracked at home; a word in an owned copy, of a private page too, is written back first (R148). -/
def State.fetchRead (s : State) (core pa cls n : Nat) : List Byte × State :=
  let s := s.llcUse (pa / 128) (s.persLine core pa)
  if cls = 0 then s.homeRead pa n
  else
    let s := (iota (pa / 4) ((pa % 4 + n + 3) / 4)).foldl (fun t w =>
      (t.l1Of w).foldl (fun (u : State) (k, x) => if x.st = .m then u.l1GiveUp k w x .keepO else u) t) s
    (Memory.readN s.mem pa n, s)
/-- The pieces of a range are read as loads of a policy, written as stores of one; none where one of them waits. -/
def State.readPieces (s : State) (core : Nat) (pol : Policy) : List Piece → Option (List Byte × State)
  | [] => some ([], s)
  | p :: t => match s.coreRead core pol p.place p.n with
    | none => none
    | some (bs, u) => (u.readPieces core pol t).map fun (l, v) => (bs ++ l, v)
def State.writePieces (s : State) (core : Nat) (pol : Policy) (bs : List Byte) : List Piece → Option State
  | [] => some s
  | p :: t => match s.coreWrite core pol p.place ((bs.drop p.off).take p.n) with
    | none => none
    | some u => u.writePieces core pol bs t

/-! ## Scales (R55, R350) -/

/-- The scale of the block that holds a byte of physical memory, as the windows stand under the control words given. -/
def State.scaleUnder (s : State) (ctl : FmtWin → DWord) (pa : Nat) : Byte :=
  match s.pf.fw.find? fun w => (ctl w).getLsbD 0 && w.data.toNat ≤ pa && pa < w.data.toNat + w.size.toNat with
  | some w => s.peekByte (w.scale.toNat + (pa - w.data.toNat) / blockBytes (FmtWin.fmtOf (ctl w)))
  | none => 0x7F
/-- While a window's change is in progress, each of its lines carries the old or the new scales: a free value for each line and change (DEDUCED, log 102). -/
def State.scaleAt (s : State) (p : Place) (o : Nat) : Byte :=
  match p with
  | .cist _ _ => 0x7F
  | .mem pa _ _ =>
    let old := s.scaleUnder (·.ctl) (pa + o)
    let new := s.scaleUnder (fun w => if w.ctl.getLsbD 31 then w.next else w.ctl) (pa + o)
    let change := ((s.pf.fw.find? fun w => w.ctl.getLsbD 31).map (·.change)).getD 0
    if Config.freeValue (2 ^ 64 * (change + 1) + (pa + o) / 128) % 2 = 0 then old else new

/-! ## The tile file (R88, R228, R246) -/

def tileKey (t j : Nat) : Nat := t * 4096 + j
def accKey (ac j : Nat) : Nat := ac * 1024 + j
def sclKey (t j : Nat) : Nat := t * 64 + j
def Wg.tile (g : Wg) (t j : Nat) : Byte := Tab.get 0 g.tiles (tileKey t j)
def Wg.scl (g : Wg) (t j : Nat) : Byte := Tab.get 0x7F g.tscl (sclKey t j)
def Wg.accAt (g : Wg) (ac j : Nat) : Word := Tab.get 0 g.acc (accKey ac j)
def Wg.setAcc (g : Wg) (ac j : Nat) (v : Word) : Wg := { g with acc := Tab.set 0 g.acc (accKey ac j) v }
def Wg.setScl (g : Wg) (t j : Nat) (b : Byte) : Wg := { g with tscl := Tab.set 0x7F g.tscl (sclKey t j) b }

/-- An accumulator's elements are unspecified: free values. -/
def State.spoilAcc (s : State) (wk ac : Nat) : State :=
  (List.range 1024).foldl (fun t j => let (v, t1) := t.free 32; t1.updWg wk fun g => g.setAcc ac j v) s
def State.spoilTile (s : State) (wk t : Nat) : State :=
  let (bs, s) := s.freeBytes 4096
  s.updWg wk fun g => { g with tiles := (bs.mapIdx fun j b => (j, b)).foldl (fun m (j, b) => Tab.set 0 m (tileKey t j) b) g.tiles }
def State.spoilScl (s : State) (wk t : Nat) : State :=
  let (bs, s) := s.freeBytes 64
  s.updWg wk fun g => (bs.mapIdx fun j b => (j, b)).foldl (fun g (j, b) => g.setScl t j b) g

/-- The accumulator and operand tiles of a queued operation. -/
def MatCmdQ.ac (q : MatCmdQ) : Nat := q.cmd.ac.val
def MatCmdQ.operands (q : MatCmdQ) : List Nat :=
  match q.gemm with
  | some _ => []
  | none => [q.cmd.ta.val, q.cmd.tb.val] ++ (if q.cmd.mop = .tmms then [q.cmd.tm.val] else [])
/-- Whether an operation on an accumulator is in flight for a context; a CPYM's command is not before it issues (R246, R255). -/
def State.accBusy (s : State) (ck ac : Nat) : Bool :=
  let g := s.wgOf ck
  let known := nth 0 (s.ctx ck).known ac
  g.mq.any (fun q => q.armed && q.ac = ac) || g.mdone.any fun d => d.ac = ac && d.id > known
/-- Whether a tile is an operand of an operation in flight for a context. -/
def State.tileBusy (s : State) (ck t : Nat) : Bool :=
  let g := s.wgOf ck
  g.mq.any (fun q => q.armed && q.operands.contains t) || g.mdone.any fun d => d.tiles.contains t && d.id > nth 0 (s.ctx ck).known d.ac
/-- A context writes an accumulator: the queued operations on it give an unspecified result, and so do the ones that have completed in flight. -/
def State.taintAcc (s : State) (ck ac : Nat) : State :=
  let wk := ck / 32
  let late := (s.wgOf ck).mdone.any fun d => d.ac = ac && d.id > nth 0 (s.ctx ck).known ac
  let s := s.updWg wk fun g => { g with mq := g.mq.map fun q => if q.armed && q.ac = ac then { q with tainted := true } else q }
  if late then s.spoilAcc wk ac else s
/-- A context, or a copy that supplies for it, writes a tile that is an operand in flight: the tile and the accumulators are unspecified. -/
def State.taintTile (s : State) (ck t : Nat) : State :=
  if !s.tileBusy ck t then s
  else
    let wk := ck / 32
    let late := ((s.wgOf ck).mdone.filter fun d => d.tiles.contains t && d.id > nth 0 (s.ctx ck).known d.ac).map (·.ac)
    let s := s.updWg wk fun g => { g with mq := g.mq.map fun q => if q.armed && q.operands.contains t then { q with spoiled := true } else q }
    (late.eraseDups.foldl (fun u ac => u.spoilAcc wk ac) s).spoilTile wk t
/-- Bytes of a tile are written; until a TRDY of the writer covers them, or the copy arrives, an operation reads the old or the new byte. -/
def State.writeTile (s : State) (wk t off : Nat) (bs : List Byte) (who id : Nat) : State :=
  s.updWg wk fun g => (bs.mapIdx fun j b => (off + j, b)).foldl (fun g (j, b) =>
    let k := tileKey t j
    { g with tiles := Tab.set 0 g.tiles k b
             told := Tab.put g.told k (Tab.get [] g.told k ++ [(who, id, Tab.get 0 g.tiles k)]) }) g
/-- What is left of a byte's uncovered writes, once those of a writer before a number are visible: the later ones. -/
def toldAfter (who id : Nat) : List (Nat × Nat × Byte) → List (Nat × Nat × Byte)
  | [] => []
  | x :: t => let t' := toldAfter who id t; if t'.length < t.length || (x.1 = who && x.2.1 < id) then t' else x :: t
/-- The writes of a writer before a number are visible to the matrix engine. -/
def Wg.settleTiles (g : Wg) (who id : Nat) : Wg :=
  { g with told := Tab.filter (Tab.mapVals g.told fun _ l => toldAfter who id l) fun _ l => !l.isEmpty }
/-- The bytes of an operand tile as an operation reads them when it issues. -/
def State.snapTile (s : State) (wk role t : Nat) (snap : Tab Byte) : Tab Byte × State :=
  let g := s.wg wk
  let own := Tab.filter g.tiles fun k _ => k / 4096 = t
  let snap := own.foldl (fun m (k, b) => Tab.set 0 m (tileKey role (k % 4096)) b) snap
  (Tab.filter g.told fun k _ => k / 4096 = t).foldl (fun (m, u) (k, l) =>
    let (b, u1) := State.free u 16
    ((match l[b.toNat % (l.length + 1)]? with | some (_, _, old) => Tab.set 0 m (tileKey role (k % 4096)) old | none => m), u1)) (snap, s)

/-! ## Jobs -/

def State.job (s : State) (id : Nat) : Option JobRec := Tab.find? s.jobs id
def State.updJob (s : State) (id : Nat) (f : JobRec → JobRec) : State := { s with jobs := Tab.modify s.jobs id f }
/-- A word leaves a job running; its number is the word's variable-latency producer. -/
def State.startJob (s : State) (i : Issue) (act : Lanes) (job : Job) : Nat × State :=
  let (id, s) := s.newId
  let seqs := (lanesOf act).map fun l => (l, Tab.get 0 (s.ctx i.ctx).seq l + 1)
  let j : JobRec := { id := id, ctx := i.ctx, level := i.level, lanes := act, pc := i.pc, head := i.head, off := i.off, seqs := seqs, job := job }
  (id, ({ s with jobs := Tab.put s.jobs id j } : State).push .flagCountDown { id := id })
/-- A job ends: its results are written and its flag counts down. -/
def State.endJob (s : State) (id : Nat) (ws : List Wr := []) : State :=
  match s.job id with
  | none => s
  | some j =>
    let s := { s with jobs := Tab.erase s.jobs id }
    (s.endPend j.ctx id ws).kick (s.coreOf j.ctx)
/-- A job's fault (R238, R383): precise for the lanes that still stand at the word, deferred for those that have run on, which DETAIL bit 17 of 0x15
says (R285); exited lanes have no part in it. -/
def State.jobTrap (s : State) (j : JobRec) (cause detail : Nat) (addr : DWord) : State :=
  let level := s.levelOf j.ctx j.level j.id
  let fr := s.front j.ctx level
  let live := maskOf ((lanesOf j.lanes).filter fun l => (fr.lane l).st ≠ .exited)
  let still := maskOf ((lanesOf live).filter fun l => Tab.get 0 (s.ctx j.ctx).seq l = Tab.get 0 j.seqs l && (fr.lane l).st = .active)
  let fire (s : State) (lanes : Lanes) (deferred : Bool) : State :=
    if lanes = 0 then s
    else s.trap j.ctx level { cause := causeWord cause (detail + (if deferred && cause = 0x15 then 131072 else 0)) (if deferred then 0 else j.off), addr := addr
                              pc := if deferred then j.pc else j.head, lanes := lanes, kind := if deferred then .deferred else .precise }
  fire (fire s still false) (live &&& ~~~still) true
/-- DETAIL of 0x15 for a word (R285). -/
def State.zDetail (s : State) (w : Nat) : Nat :=
  let m := s.zMask (w / 32)
  let (here, other) := if w % 32 < 16 then (m.extractLsb' 0 16, m.extractLsb' 16 16) else (m.extractLsb' 16 16, m.extractLsb' 0 16)
  here.toNat + (if other ≠ 0 then 65536 else 0)
/-- Whether an older access of the job's lanes, in flight, touches a range that the job is about to access, by whatever window either names it (R77, R228). -/
def State.jobHeld (s : State) (j : JobRec) (va n : Nat) : Bool :=
  let mine := s.cells j.ctx va n
  let meets (e : Elem) : Bool := overlaps mine e.place.cell e.n
  (s.accs.any fun (k, a) => k < j.id && a.ctx = j.ctx && (a.lanes &&& j.lanes) ≠ 0 && a.elems.any fun e => !e.done && hasLane j.lanes e.lane && meets e) ||
  (s.jobs.any fun (k, b) => k < j.id && b.ctx = j.ctx && (b.lanes &&& j.lanes) ≠ 0 && (overlaps b.job.spans va n ||
    (b.job.spans.flatMap fun (a, m) => s.cells b.ctx a m).any fun (a, m) => overlaps mine a m)) ||
  ((s.ctx j.ctx).pends.any fun p => p.id < j.id && p.elems.any fun e => hasLane j.lanes e.lane && meets e)
/-- An incomplete fence of its lanes, older than the job, holds a job's accesses (R80). -/
def State.jobFenced (s : State) (j : JobRec) (store : Bool) : Bool :=
  (s.ctx j.ctx).fences.any fun f => f.id < j.id && (f.lanes &&& j.lanes) ≠ 0 && (f.kind ≠ .rel || store)
/-- What stops a row: an older access, a wait for a page (with the happening that ends it), or a fault. A wait ends only when the page comes (DEDUCED, log 54). -/
inductive RowStop where
  | go
  | later
  | wait (st : LaneSt) (what : Instr) (args : Args)
  | fault (cause detail : Nat) (addr : DWord)
  deriving DecidableEq, Repr
def State.stopOf (s : State) (ps : List Piece) (lines : Bool := false) : RowStop :=
  match badPiece ps with
  | some p => match p.chk with
    | .fault c d a => .fault c d a
    | .wait st w x => .wait st w x
    | .ok _ => .go
  | none => match ps.findSome? (if lines then s.lineZ else s.pieceZ) with
    | some (a, w) => .fault 0x15 (s.zDetail w) a
    | none => .go
def State.rowStop (s : State) (j : JobRec) (store : Bool) (va : DWord) (n : Nat) (ps : List Piece) : RowStop :=
  if s.jobHeld j va.toNat n || s.jobFenced j store then .later else s.stopOf ps true

/-- An engine at work: it stops at a fault or a wait, and then nothing of that piece of work has happened. -/
abbrev EngM := StateT State (Except RowStop)
def engStop {α : Type} (r : RowStop) : EngM α := fun _ => .error r
/-- Read bytes at a context's addresses, and write them, as loads and stores of a policy. -/
def engGet (ck : Nat) (pol : Policy) (va : DWord) (n : Nat) : EngM (List Byte) := fun s =>
  let ps := s.pieces ck va n false
  match s.stopOf ps with
  | .go => let s := ps.foldl (fun t p => t.touchVa ck p.va) s; match s.readPieces (s.coreOf ck) pol ps with
    | some r => .ok r
    | none => .error .later
  | r => .error r
def engPut (ck : Nat) (pol : Policy) (va : DWord) (bs : List Byte) : EngM Unit := fun s =>
  let ps := s.pieces ck va bs.length true
  match s.stopOf ps with
  | .go => let s := ps.foldl (fun t p => t.touchVa ck p.va) s; match s.writePieces (s.coreOf ck) pol bs ps with
    | some t => .ok ((), t)
    | none => .error .later
  | r => .error r
/-- One row of a TLD, loads of its policy: its tile bytes and the scales of the tile blocks that begin in it. -/
def State.tldRow (s : State) (j : JobRec) (t : Fin 8) (addr : DWord) (stride rows rb row : Nat) (spoiled : Bool) (pol : Policy) : State :=
  let wk := j.ctx / 32
  let src := addr + BitVec.ofNat 64 (row * stride)
  let ps := s.pieces j.ctx src rb false
  match s.rowStop j false src rb ps with
  | .later => s
  | .wait _ w x => s.pushOnce w x
  | .fault c d a => (((s.spoilTile wk t.val).spoilScl wk t.val).jobTrap j c d a).endJob j.id
  | .go => match (ps.foldl (fun t p => t.touchVa j.ctx p.va) s).readPieces (s.coreOf j.ctx) pol ps with
   | none => s
   | some (bs, s) =>
    let spoiled := spoiled || s.tileBusy j.ctx t.val
    let s := s.taintTile j.ctx t.val
    let s := s.writeTile wk t.val (row * rb) bs j.ctx j.id
    let blocks := (List.range 64).filter fun b => row * rb ≤ 64 * b && 64 * b < (row + 1) * rb
    let s := blocks.foldl (fun u b =>
      let o := 64 * b - row * rb
      match ps.find? fun p => p.off ≤ o && o < p.off + p.n with
      | some p => let x := State.scaleAt u p.place (o - p.off); u.updWg wk fun g => g.setScl t.val b x
      | none => u) s
    if row + 1 < rows then (s.updJob j.id fun j => { j with job := .tld t addr stride rows rb (row + 1) spoiled pol }).push .flagCountDown { id := j.id }
    else (if spoiled then s.spoilTile wk t.val else s).endJob j.id
/-- The bytes that a TST stores, read at issue: unspecified while an operation on the tile or accumulator is in flight for the context (R237, R246) (DEDUCED, log 29). -/
def State.tstBytes (s : State) (ck : Nat) (src : TstSrc) (n : Nat) : List Byte × State :=
  let g := s.wgOf ck
  match src with
  | .tile t _ =>
    let loading := s.jobs.any fun (_, j) => j.ctx / 32 = ck / 32 && (match j.job with | .tld u _ _ _ _ _ _ _ => u = t | _ => false)
    if loading || s.tileBusy ck t.val then s.freeBytes n else ((List.range n).map fun k => g.tile t.val k, s)
  | .acc ac => if s.accBusy ck ac.val then s.freeBytes n else ((List.range (n / 4)).flatMap fun k => bytesLE 4 (g.accAt ac.val k).toNat, s)
def State.tstRow (s : State) (j : JobRec) (data : List Byte) (addr : DWord) (stride rows rb row : Nat) (pol : Policy) : State :=
  let dst := addr + BitVec.ofNat 64 (row * stride)
  let ps := s.pieces j.ctx dst rb true
  match s.rowStop j true dst rb ps with
  | .later => s
  | .wait _ w x => s.pushOnce w x
  | .fault c d a => (s.jobTrap j c d a).endJob j.id
  | .go => match (ps.foldl (fun t p => t.touchVa j.ctx p.va) s).writePieces (s.coreOf j.ctx) pol (data.take rb) ps with
   | none => s
   | some s =>
    if row + 1 < rows then (s.updJob j.id fun j => { j with job := .tst (data.drop rb) addr stride rows rb (row + 1) pol }).push .flagCountDown { id := j.id }
    else s.endJob j.id
/-- Rows of a tile job, one after another, until it ends or must wait. -/
def State.runTile (s : State) (id fuel : Nat) : State :=
  match fuel with
  | 0 => s
  | n + 1 =>
    match s.job id with
    | some j =>
      let t := match j.job with
        | .tld t addr stride rows rb row sp pol => s.tldRow j t addr stride rows rb row sp pol
        | .tst src addr stride rows rb row pol => s.tstRow j src addr stride rows rb row pol
        | _ => s
      if (t.job id).map (·.job) = some j.job then t else t.runTile id n
    | none => s
/-- TWAIT returns (R245): the context may read the results, and takes their flags into its FPSTAT. -/
def State.twaitDone (s : State) (j : JobRec) (ac : Nat) (waits : List Nat) : State :=
  let top := waits.foldl max 0
  let mine := (s.wgOf j.ctx).mdone.filter fun d => d.ac = ac && d.ctx = j.ctx && waits.contains d.id
  let s := s.orFlags j.ctx (mine.foldl (fun m d => m ||| d.fl) 0)
  let s := s.updCtx j.ctx fun c => { c with known := (List.range 4).map fun k => if k = ac then max (nth 0 c.known k) top else nth 0 c.known k }
  let keep (d : MatDone) : Bool := d.fl ≠ 0 || (Tab.keys s.ctxs).any fun k => k / 32 = j.ctx / 32 && nth 0 (s.ctx k).known d.ac < d.id
  let taken (d : MatDone) : MatDone := if d.ctx = j.ctx && waits.contains d.id then { d with fl := 0 } else d
  s.updWg (j.ctx / 32) fun g => { g with mdone := (g.mdone.map taken).filter keep }

end Sys2Proof.Machine
end

