-- ==== Sys2Proof/Machine/Reads.lean ====
section
/-! DEFINITION. What some words read as they issue: stream registers with their descriptors, fibres and elements (R115 to R127), and the descriptors of
collectives (R270, R271). -/
namespace Sys2Proof.Machine

/-! ## The 64-byte state (R124) -/

def stGet (st : BitVec 512) (lo w : Nat) : Nat := (st.extractLsb' lo w).toNat
def stPut (lo w v : Nat) (st : BitVec 512) : BitVec 512 :=
  (st &&& ~~~(BitVec.ofNat 512 (2 ^ w - 1) <<< lo)) ||| (BitVec.ofNat 512 (v % 2 ^ w) <<< lo)
def Stream.kind (x : Stream) : Nat := stGet x.st 509 3
def Stream.exh (x : Stream) : Bool := x.st.getLsbD 508
def Stream.dmask (x : Stream) : Lanes := x.st.extractLsb' 416 32
def Stream.pair (x : Stream) : Bool := x.kind = 2 || x.kind = 3
def Stream.set (lo w v : Nat) (x : Stream) : Stream := { x with st := stPut lo w v x.st }
/-- The fields of fibre A and of fibre B. -/
structure FibreAt where
  (lev cnt par fin' cur desc : Nat)
def atA : FibreAt := ⟨505, 352, 288, 160, 128, 0⟩
def atB : FibreAt := ⟨503, 384, 320, 224, 192, 64⟩
def fibreAt (b : Bool) : FibreAt := if b then atB else atA
def Stream.fibre (x : Stream) (b : Bool) : Fibre := if b then x.b else x.a
def Stream.setFibre (x : Stream) (b : Bool) (f : Fibre) : Stream := if b then { x with b := f } else { x with a := f }
def Stream.get32 (x : Stream) (lo : Nat) : Nat := stGet x.st lo 32
def Stream.lev (x : Stream) (b : Bool) : Nat := stGet x.st (fibreAt b).lev 2
def Stream.desc (x : Stream) (b : Bool) : DWord := x.st.extractLsb' (fibreAt b).desc 64
def State.stream (s : State) (ck q : Nat) : Stream := nth {} (s.ctx ck).streams q
def State.setStream (s : State) (ck q : Nat) (x : Stream) : State := s.updCtx ck fun c => { c with streams := setNth c.streams q x }

/-! ## Descriptors (R115, R116) -/

/-- A 128-byte tensor descriptor and its address. -/
structure Desc where
  (va : DWord) (bytes : List Byte)
def Desc.dword (d : Desc) (o : Nat) : DWord := dwordOfBytes ((d.bytes.drop o).take 8)
def Desc.pos (d : Desc) (l : Nat) : DWord := d.dword (0x18 + 24 * l)
def Desc.crd (d : Desc) (l : Nat) : DWord := d.dword (0x20 + 24 * l)

inductive LevelKind where
  | dense | compressed | bitmap | singleton
  deriving DecidableEq, Repr
def Fibre.kind (f : Fibre) : LevelKind := match (f.spec.extractLsb' 34 2).toNat with | 0 => .dense | 1 => .compressed | 2 => .bitmap | _ => .singleton
def Fibre.u (f : Fibre) : Bool := f.spec.getLsbD 33
def Fibre.o (f : Fibre) : Bool := f.spec.getLsbD 32
def Fibre.size (f : Fibre) : Nat := (f.spec.extractLsb' 0 32).toNat
def specOk (w : DWord) : Bool :=
  let k := (w.extractLsb' 34 2).toNat
  w.extractLsb' 36 28 = 0 && w.extractLsb' 0 32 ≠ 0 && (k = 1 || k = 3 || (w.getLsbD 33 && w.getLsbD 32))
def Desc.spec (d : Desc) (l : Nat) : DWord := d.dword (0x10 + 24 * l)
def Desc.rank (d : Desc) : Nat := ((d.dword 0).extractLsb' 0 3).toNat
def Desc.ok (d : Desc) : Bool :=
  let w := d.dword 0
  (d.bytes.drop 0x70).all (· = 0) && w.extractLsb' 8 56 = 0 && (w.extractLsb' 4 4).toNat ≤ 6 && !w.getLsbD 3 && 1 ≤ d.rank && d.rank ≤ 4 &&
  (List.range d.rank).all fun l => specOk (d.spec l)
def specAddr (desc : DWord) (lev : Nat) : DWord := desc + BitVec.ofNat 64 (0x10 + 24 * lev)

/-- The policy of a stream's reads (R126). -/
def Stream.pol (x : Stream) : Policy := match stGet x.st 501 2 with | 0 => .own | 1 => .wt | 2 => .si | _ => .wi
/-- A load of a stream, of its policy: n bytes, aligned to their number (R39). -/
def strGet (ck : Nat) (pol : Policy) (va : DWord) (n align : Nat) : EngM (List Byte) :=
  match chkSpan va n align with
  | some (c, d, a) => engStop (.fault c d a)
  | none => engGet ck pol va n
def strWord (ck : Nat) (pol : Policy) (va : DWord) : EngM Nat := do pure (ofBytesLE (← strGet ck pol va 4 4))
def malformed {α : Type} (q : Nat) (b : Bool) (lev : Nat) (va : DWord) : EngM α :=
  engStop (.fault 0x40 (q + (if b then 16 else 0) + 32 * lev) va)
/-- DEDUCED, log 52. -/
def badState {α : Type} (q : Nat) (va : DWord) : EngM α := engStop (.fault 0x41 q va)
def readDesc (ck q : Nat) (pol : Policy) (va : DWord) : EngM Desc := do
  let bytes ← strGet ck pol va 128 64
  let d : Desc := { va := va, bytes := bytes }
  if d.ok then pure d else badState q va

/-! ## Elements (R117, R118) -/

/-- An element: its coordinate, its position, and the address of its word. -/
structure Elt where
  (coord pos : Nat) (va : DWord)
  deriving DecidableEq, Repr
/-- The first set bit at or above the cursor of a bitmap fibre, word by word: coordinate and word address. -/
def scanBits (ck : Nat) (pol : Policy) (crd : DWord) (first cur : Nat) (words : List Nat) : EngM (Option (Nat × DWord)) :=
  match words with
  | [] => pure none
  | j :: t => do
    let va := crd + BitVec.ofNat 64 (8 * (first + j))
    let w := ofBytesLE (← strGet ck pol va 8 8)
    match (List.range 64).find? fun k => w.testBit k && cur ≤ 64 * j + k with
    | some k => pure (some (64 * j + k, va))
    | none => scanBits ck pol crd first cur t
/-- Read the element at a fibre's cursor, with its checks; none past the end. -/
def peekElt (ck q : Nat) (x : Stream) (b : Bool) : EngM (Option Elt) := do
  let f := x.fibre b
  let p := fibreAt b
  let cur := x.get32 p.cur
  let par := x.get32 p.par
  let lev := x.lev b
  let spec := specAddr (x.desc b) lev
  let word (va : DWord) (pos : Nat) : EngM (Option Elt) := do
    let c ← strWord ck x.pol va
    pure (some ⟨c, pos, va⟩)
  let e ← match f.kind with
    | .dense => pure (if cur < f.size then some ⟨cur, par * f.size + cur, spec⟩ else none)
    | .compressed => if cur < x.get32 p.fin' then word (f.crd + BitVec.ofNat 64 (4 * cur)) cur else pure none
    | .singleton => if cur = par then word (f.crd + BitVec.ofNat 64 (4 * par)) par else pure none
    | .bitmap => do
      let n := (f.size + 63) / 64
      match ← scanBits ck x.pol f.crd (par * n) cur (iota (cur / 64) (n - cur / 64)) with
      | some (c, va) => pure (some ⟨c, f.base.toNat + x.get32 p.cnt, va⟩)
      | none => pure none
  match e with
  | none => pure none
  | some e =>
    let order : Bool := match f.kind, f.prev with
      | .compressed, some w => if f.o then (if f.u then w.toNat < e.coord else w.toNat ≤ e.coord) else !f.u || e.coord ≠ w.toNat
      | _, _ => true
    if (f.kind ≠ .dense && e.coord ≥ f.size) || !order || e.pos % 2 ^ 32 = 0xFFFFFFFF then malformed q b lev e.va
    else pure (some e)
/-- The cursor moves past an element. -/
def Stream.pass (x : Stream) (b : Bool) (e : Elt) : Stream :=
  let f := x.fibre b
  let p := fibreAt b
  let cur := match f.kind with | .dense | .bitmap => e.coord + 1 | _ => x.get32 p.cur + 1
  let x := (x.set p.cur 32 cur).setFibre b { f with prev := some (BitVec.ofNat 32 e.coord) }
  if f.kind = .bitmap then x.set p.cnt 32 (x.get32 p.cnt + 1) else x

/-- What a stream delivers: a coordinate with its positions (R122). -/
structure Item where
  (coord posA posB : Nat)
  deriving DecidableEq, Repr
def absent : Nat := 0xFFFFFFFF
/-- What a stream's next read brings: an element to deliver, a head that a meet passes over, or the stream's end. -/
inductive Next where
  | item (e : Item)
  | passed
  | done
  deriving DecidableEq, Repr
/-- Whether a fibre has no element left, as far as that can be read. -/
def endsNow (ck q : Nat) (x : Stream) (b : Bool) (s : State) : Bool := match peekElt ck q x b s with | .ok (none, _) => true | _ => false
/-- The next read of a meet: one head is passed over until they agree; the end of either fibre is its end, whatever the other's head holds (R122). -/
def meetNext (ck q : Nat) (x : Stream) : EngM (Stream × Next) := do
  let s ← get
  if endsNow ck q x false s || endsNow ck q x true s then pure (x.set 508 1 1, .done)
  else
    match ← peekElt ck q x false, ← peekElt ck q x true with
    | some a, some b =>
      if a.coord = b.coord then pure ((x.pass false a).pass true b, .item ⟨a.coord, a.pos, b.pos⟩)
      else if a.coord < b.coord then pure (x.pass false a, .passed)
      else pure (x.pass true b, .passed)
    | _, _ => pure (x.set 508 1 1, .done)
/-- The next read of a stream. It reads an element only when it delivers or passes it, never ahead (DESIGN CHOICE, log 117). -/
def nextItem (ck q : Nat) (x : Stream) : EngM (Stream × Next) := do
  if x.exh then pure (x, .done)
  else match x.kind with
    | 2 => meetNext ck q x
    | 3 =>
      match ← peekElt ck q x false, ← peekElt ck q x true with
      | none, none => pure (x.set 508 1 1, .done)
      | some a, none => pure (x.pass false a, .item ⟨a.coord, a.pos, absent⟩)
      | none, some b => pure (x.pass true b, .item ⟨b.coord, absent, b.pos⟩)
      | some a, some b =>
        if a.coord = b.coord then pure ((x.pass false a).pass true b, .item ⟨a.coord, a.pos, b.pos⟩)
        else if a.coord < b.coord then pure (x.pass false a, .item ⟨a.coord, a.pos, absent⟩)
        else pure (x.pass true b, .item ⟨b.coord, absent, b.pos⟩)
    | _ => match ← peekElt ck q x false with
      | some a => pure (x.pass false a, .item ⟨a.coord, a.pos, 0⟩)
      | none => pure (x.set 508 1 1, .done)

/-! ## FBOPEN (R120) -/

/-- Bind a fibre: its descriptor, and POS[p] and POS[p + 1] of a compressed or bitmap level. -/
def openFibre (ck q : Nat) (desc : DWord) (par lev : Nat) (x : Stream) : EngM Stream := do
  let d ← readDesc ck q x.pol desc
  if lev ≥ d.rank then badState q desc
  let spec := d.spec lev
  let f : Fibre := { spec := spec, crd := d.crd lev }
  let pos (k : Nat) : DWord := d.pos lev + BitVec.ofNat 64 (4 * k)
  let put (x : Stream) (cur fin : Nat) (f : Fibre) : Stream := (((x.set 160 32 fin).set 128 32 cur).set 352 32 0).setFibre false f
  match f.kind with
  | .dense =>
    if par * f.size + f.size > 0xFFFFFFFF then malformed q false lev (specAddr desc lev)
    pure (put x 0 f.size f)
  | .singleton => pure (put x par (par + 1) f)
  | k =>
    let lo ← strWord ck x.pol (pos par)
    let hi ← strWord ck x.pol (pos (par + 1))
    if hi < lo then malformed q false lev (pos (par + 1))
    pure (if k = .bitmap then put x 0 f.size { f with base := BitVec.ofNat 32 lo } else put x lo hi f)
def openStream (ck q : Nat) (desc : DWord) (par lev : Nat) (pol : Policy) (scope : Scope) : EngM Unit := do
  let x ← openFibre ck q desc par lev (({} : Stream).set 501 2 pol.code.toNat)
  let x := (((x.set 509 3 1).set 505 2 lev).set 498 3 scope.code.toNat).set 288 32 par
  let x := (x.set 256 32 0xFFFFFFFF).set 0 64 desc.toNat
  modify fun s => s.setStream ck q x

/-! ## FBSKIP, FBSAVE and FBREST (R123, R124) -/

/-- More than the elements that two fibres can hold. -/
def meetFuel : Nat := 2 ^ 33 + 2
/-- Move one cursor to the first element whose coordinate is at least k; true when there is none. Every coordinate passed is read (DEDUCED, log 51). -/
def skipTo (ck q : Nat) (b : Bool) (k : Nat) (x : Stream) (fuel : Nat) : EngM (Stream × Bool) :=
  match fuel with
  | 0 => engStop .later
  | n + 1 =>
    if (x.fibre b).kind = .dense then
      let p := fibreAt b
      let cur := max (x.get32 p.cur) (min k (x.fibre b).size)
      pure (x.set p.cur 32 cur, (x.fibre b).size ≤ cur)
    else do
      match ← peekElt ck q x b with
      | none => pure (if (x.fibre b).kind = .bitmap then x.set (fibreAt b).cur 32 (max (x.get32 (fibreAt b).cur) (x.fibre b).size) else x, true)
      | some e => if e.coord ≥ k then pure (if (x.fibre b).kind = .bitmap then x.set (fibreAt b).cur 32 e.coord else x, false) else skipTo ck q b k (x.pass b e) n
def skipStream (ck q k : Nat) : EngM Unit := do
  let s ← get
  let x := s.stream ck q
  if x.kind = 0 then badState q 0
  if !x.pair && !x.a.o then badState q (x.desc false)
  let (x, ea) ← skipTo ck q false k x meetFuel
  let (x, eb) ← if x.pair then skipTo ck q true k x meetFuel else pure (x, true)
  let x := if (match x.kind with | 2 => ea || eb | _ => ea && eb) then x.set 508 1 1 else x
  modify fun s => s.setStream ck q x
def saveStream (ck q : Nat) (pol : Policy) (va : DWord) : EngM Unit := do
  match chkSpan va 64 64 with
  | some (c, d, a) => engStop (.fault c d a)
  | none => pure ()
  let s ← get
  engPut ck pol va (bytesLE 64 (s.stream ck q).st.toNat)
/-- A fibre of a restored state: its descriptor, read with the stream's own policy, its level, its cursor (DEDUCED, log 116). -/
def restFibre (ck q : Nat) (b : Bool) (x : Stream) (va : DWord) : EngM Stream := do
  let p := fibreAt b
  let d ← readDesc ck q x.pol (x.desc b)
  let lev := x.lev b
  if lev ≥ d.rank then badState q va
  if x.get32 p.fin' < x.get32 p.cur then badState q va
  let f : Fibre := { spec := d.spec lev, crd := d.crd lev }
  if f.kind = .bitmap then
    let lo ← strWord ck x.pol (d.pos lev + BitVec.ofNat 64 (4 * x.get32 p.par))
    pure (x.setFibre b { f with base := BitVec.ofNat 32 lo })
  else pure (x.setFibre b f)
/-- A level and a cursor are checked in the fibres that KIND names: in none of an unbound state, in A alone of a single stream (DEDUCED, log 116). -/
def restStream (ck q : Nat) (pol : Policy) (va : DWord) : EngM Unit := do
  let bs ← strGet ck pol va 64 64
  let x : Stream := { st := BitVec.ofNat 512 (ofBytesLE bs) }
  let fl := stGet x.st 475 4
  if x.kind ≥ 4 || x.st.getLsbD 507 || stGet x.st 498 3 = 7 || stGet x.st 479 3 = 7 || (fl ≥ 12 && fl ≤ 14) || stGet x.st 448 27 ≠ 0 then badState q va
  let x ← if x.kind = 0 then pure x else restFibre ck q false x va
  let x ← if x.pair then restFibre ck q true x va else pure x
  modify fun s => s.setStream ck q x

/-! ## Collectives (R270) -/

/-- Bytes of an element (R270). -/
def collBytes : CollTy → Nat
  | .i32 | .f32 | .b32 => 4
  | .i64 | .b64 => 8
  | .bf16 | .b16 => 2
  | .xsum | .b128 => 16
  | .b8 => 1
/-! ## The descriptor (R271) -/

structure CollDesc where
  (src dst : DWord) (count parts rank rcap : Nat) (cnt ovf : DWord) (ovflen pad : Nat) (stat : DWord)
  deriving DecidableEq, Repr
def CollDesc.of (b : List Byte) : CollDesc :=
  let w (o : Nat) : Nat := ofBytesLE ((b.drop o).take 4)
  let d (o : Nat) : DWord := dwordOfBytes ((b.drop o).take 8)
  { src := d 0, dst := d 8, count := w 0x10, parts := w 0x14, rank := w 0x18, rcap := w 0x1C, cnt := d 0x20, ovf := d 0x28, ovflen := w 0x30
    pad := w 0x34, stat := d 0x38 }
/-- Elements of SRC and of DST. -/
def srcElems (op : CollOp) (count parts : Nat) : Nat := match op with | .allred | .allga => count | .redsc | .alltoall => parts * count
def dstElems (op : CollOp) (count parts rcap : Nat) : Nat := match op with | .allred | .redsc => count | .allga => parts * count | .alltoall => rcap
/-- An area: aligned, and wholly in the global window; else the cause. -/
def areaBad (va : DWord) (n align : Nat) : Option Nat :=
  if va.toNat % align ≠ 0 then some 0x14
  else if windowOf va ≠ .global || va.toNat + n > 0x200000000000000 then some 0x13
  else none
/-- The checks of the fields in their order: offset and cause of the first that fails. -/
def CollDesc.bad (d : CollDesc) (op : CollOp) (es : Nat) : Option (Nat × Nat) :=
  let all := op = .alltoall
  let area (o : Nat) (va : DWord) (n align : Nat) : Option (Nat × Nat) := (areaBad va n align).map fun c => (o, c)
  let when' (b : Bool) (o : Nat) : Option (Nat × Nat) := if b then some (o, 0x02) else none
  (area 0 d.src (srcElems op d.count d.parts * es) 64).or <|
  (area 8 d.dst (dstElems op d.count d.parts d.rcap * es) 64).or <|
  (when' (d.count < 1 || d.count > 0x1000000) 0x10).or <|
  (when' (d.parts = 0) 0x14).or <|
  (when' (d.rank ≥ d.parts) 0x18).or <|
  (when' (!all && d.rcap ≠ 0) 0x1C).or <|
  (when' ((d.cnt ≠ 0) ≠ all) 0x20).or <|
  (if all then area 0x20 d.cnt (4 * d.parts) 4 else none).or <|
  (if all && d.ovf ≠ 0 then area 0x28 d.ovf d.ovflen 64 else none).or <|
  (when' (d.ovflen % es ≠ 0) 0x30).or <|
  (when' (d.pad ≠ 0) 0x34).or <|
  (when' ((d.stat ≠ 0) ≠ all) 0x38).or <|
  (if all then area 0x38 d.stat (8 * d.parts) 64 else none)

/-- What the head context's read of its descriptor gives: the descriptor with its send counts (DEDUCED, log 68). -/
def readColl (ck : Nat) (va : DWord) (op : CollOp) (es : Nat) : EngM (CollDesc × List Nat) := do
  match chkSpan va 64 64 with
  | some (c, d, a) => engStop (.fault c d a)
  | none => pure ()
  let b ← engGet ck .own va 64
  let d := CollDesc.of b
  match d.bad op es with
  | some (o, c) => engStop (.fault c 0 (va + BitVec.ofNat 64 o))
  | none => pure ()
  if op = .alltoall then
    let n ← engGet ck .own d.cnt (4 * d.parts)
    let cs := (List.range d.parts).map fun q => ofBytesLE ((n.drop (4 * q)).take 4)
    if cs.any fun c => c > d.count then engStop (.fault 0x02 0 (va + 0x20)) else pure (d, cs)
  else pure (d, [])

/-! ## What a word reads as it issues -/

/-- The read of a stream instruction or a collective, whose faults stop it at check 8, and of a layout conversion's record. -/
def readsNow (s : State) (i : Issue) (act : Lanes) (x : Instr) : Option (EngM Unit) :=
  let l := lowestLane act
  let at' (a : Reg) (o : DWord) : DWord := src64 s i l a + o
  match x with
  | .fbopen y => some (openStream i.ctx y.q.val (at' y.a 0) (src32 s i l y.b).toNat y.lev.toNat y.pol y.scope)
  | .fbskip y => some (skipStream i.ctx y.q.val (src32 s i l y.k).toNat)
  | .fbsave y => some (saveStream i.ctx y.q.val y.pol (at' y.addr (BitVec.ofNat 64 (64 * y.off.toNat))))
  | .fbsaveX y => some (saveStream i.ctx y.q.val y.pol (at' y.addr (y.off.signExtend 64)))
  | .fbrest y => some (restStream i.ctx y.q.val y.pol (at' y.addr (BitVec.ofNat 64 (64 * y.off.toNat))))
  | .fbrestX y => some (restStream i.ctx y.q.val y.pol (at' y.addr (y.off.signExtend 64)))
  | .coll y => some do let _ ← readColl i.ctx (at' y.a 0) y.op (collBytes y.ty); pure ()
  | .cpycv y => some do let _ ← engGet i.ctx y.pol (at' y.src 0) (if (y.form.extractLsb' 24 8).toNat ≥ 0x10 then 64 else 0); pure ()
  | _ => none
/-- Whether that read must wait for the coherence of a word it needs. -/
def State.readsLater (s : State) (i : Issue) (act : Lanes) (x : Instr) : Bool :=
  match readsNow s i act x with
  | some m => (match m s with | .error .later => true | _ => false)
  | none => false

end Sys2Proof.Machine
end

