-- ==== Sys2Proof/Machine/Issue.lean ====
section
/-! DEFINITION. Issue: which context is ready and is picked (R32, R33), the fetch and its checks (R34, R148, R194), what holds a word
back (R80, R81, R85), time, and the happenings of the issue logic. -/
namespace Sys2Proof.Machine

/-! ## What a word holds back for -/

/-- How a word stands to the fences before it (R80): no access, a load, a store or atomic, or a releasing action. -/
inductive Acts where
  | none | load | store | release
  deriving DecidableEq, Repr
def Instr.acts : Instr → Acts
  | .ld8 _ | .ld8X _ | .ld16 _ | .ld16X _ | .ld32 _ | .ld32X _ | .ld64 _ | .ld64X _ | .ld128 _ | .ld128X _ | .lds _ | .ldsX _ | .ldlv _
  | .gath _ | .gathX _ | .ldfe _ | .ldfeX _ | .lr _ | .lrX _ | .tld _ | .fbopen _ | .fbnext _ | .fbskip _ | .fbrest _ | .fbrestX _ => .load
  | .st8 _ | .st8X _ | .st16 _ | .st16X _ | .st32 _ | .st32X _ | .st64 _ | .st64X _ | .st128 _ | .st128X _ | .sts _ | .stsX _ | .stlv _
  | .scat _ | .scatX _ | .stef _ | .stefX _ | .feset _ | .atom _ | .atcas _ | .red _ | .sc _ | .tst _ | .fbsave _ | .fbsaveX _
  | .reclaim _ | .coll _ => .store
  | .dqpush _ | .bara _ | .barad _ | .sync _ | .launch _ | .exit _ | .cpy _ | .cpym _ | .cpycv _ | .cpylb _ => .release
  | .ldp _ | .ldpX _ | .cinv _ | .cflush _ => .load
  | _ => .none
/-- Words whose accesses a fence holds in the pipeline: they issue, and State.held or State.jobHeld makes the accesses wait (R80). -/
def Instr.pipelined : Instr → Bool
  | .ld8 _ | .ld8X _ | .ld16 _ | .ld16X _ | .ld32 _ | .ld32X _ | .ld64 _ | .ld64X _ | .ld128 _ | .ld128X _ | .ldlv _ | .ldp _ | .ldpX _
  | .gath _ | .gathX _ | .lr _ | .lrX _ | .tld _ | .fbnext _
  | .st8 _ | .st8X _ | .st16 _ | .st16X _ | .st32 _ | .st32X _ | .st64 _ | .st64X _ | .st128 _ | .st128X _ | .stlv _
  | .scat _ | .scatX _ | .atom _ | .atcas _ | .red _ | .sc _ | .tst _ => true
  | _ => false
/-- LDS and STS, which a fence holds at issue (R32, R80). -/
def Instr.fixedCist : Instr → Bool
  | .lds _ | .ldsX _ | .sts _ | .stsX _ => true
  | _ => false

/-- Whether every earlier access of these lanes is performed as a fence of this kind and scope demands (R80): an access is earlier when its number is
below the bound. -/
def State.quiet (s : State) (ck : Nat) (lanes : Lanes) (kind : FenceKind) (scope : Scope) (bound : Nat) : Bool :=
  let rel := kind ≠ .acq
  (s.accs.all fun (_, a) =>
    a.id ≥ bound || a.ctx ≠ ck || (a.lanes &&& lanes) = 0 ||
    ((!rel || a.performedAt scope) && (kind = .rel || !(a.isLoad || a.elems.any (·.isAtomic)) || a.elems.all (·.done)))) &&
  ((s.ctx ck).pends.all fun p => p.id ≥ bound || p.elems.isEmpty || (p.lanes &&& lanes) = 0) &&
  (s.jobs.all fun (_, j) => j.id ≥ bound || j.ctx ≠ ck || (j.lanes &&& lanes) = 0 ||
    (match j.job with | .tld _ _ _ _ _ _ _ _ => false | .tst _ _ _ _ _ _ _ => !rel | .stream _ _ _ _ _ stopped => stopped | .reqs _ => !rel | _ => true))

/-- Whether the core's stores below the bound that are on their way to home are performed at a scope. The lanes of a release may have read any of them in the
core's write path before it, so it belongs to the release; the bound is taken once their own accesses are done (R81) (DEDUCED, log 20). -/
def State.storesDone (s : State) (core : Nat) (scope : Scope) (bound : Nat) : Bool :=
  s.accs.all fun (_, a) => a.id ≥ bound || a.core ≠ core ||
    a.elems.all fun e => e.done || !e.isStore || e.req = 0 || (scopeRank scope ≤ 1 && e.atCore a.pol)

/-- Whether an older fence holds a fence back: one that releases is a releasing action, and every fence but a .REL holds an acquire's loads (R80). -/
def Fence.after (f g : Fence) : Bool := g.id < f.id && (g.lanes &&& f.lanes) ≠ 0 && (f.kind ≠ .acq || g.kind ≠ .rel)
/-- Fences that are complete end, and an acquire discards (R70, R80); what they held back goes on. -/
def State.settleFences (s : State) : State :=
  s.ctxs.foldl (fun t (ck, c) =>
    c.fences.foldl (fun u f =>
      if (u.ctx ck).fences.any f.after || !u.quiet ck f.lanes f.kind f.scope f.id then u
      else if f.kind = .acq || u.storesDone (u.coreOf ck) f.scope (f.seen.getD u.ids) then
        let u1 := u.updCtx ck fun c => { c with fences := c.fences.filter (· ≠ f) }
        let u2 := if f.kind = .rel then u1 else u1.acquire (u1.coreOf ck) f.scope
        -- at .GRP a fence pairs with no other context's (R81)
        let u3 := if f.scope = .grp then u2 else (fun u => if f.kind = .acq then u else u.publish ck) (if f.kind = .rel then u2 else u2.learn ck)
        u3.kick (u1.coreOf ck)
      else u.updCtx ck fun c => { c with fences := c.fences.map fun g => if g = f then { f with seen := some (f.seen.getD u.ids) } else g }) t) s

/-- A word that accesses memory waits for a TLBINV of its lanes (R279). -/
def State.tlbHeld (s : State) (i : Issue) (x : Instr) : Bool :=
  (Instr.acts x = .load || Instr.acts x = .store) && (Tab.vals s.jobs).any fun (j : JobRec) => j.ctx = i.ctx && (j.lanes &&& i.exec) ≠ 0 && (match j.job with | .tlbinv _ => true | _ => false)
/-- An incomplete fence of the fragment holds a word at issue (R80): LDS and STS; a releasing action; and an access whose outcome decides at issue what its lanes
do next, so that it cannot wait in the pipeline (DEDUCED, log 20). -/
def State.fenced (s : State) (i : Issue) (x : Instr) : Bool :=
  !Instr.pipelined x && !(match x with | .cinv _ | .cflush _ => true | _ => false) &&
  (s.ctx i.ctx).fences.any fun f => (f.lanes &&& i.exec) ≠ 0 && (match Instr.acts x with | .none => false | .load => f.kind ≠ .rel | .release => f.kind ≠ .acq | .store => true)

/-- STEF and LDFE synchronise at .core where every word they name lies in the issuing core's cistern, by either window, else at .die (R85). -/
def State.feScope (s : State) (i : Issue) (act : Lanes) (addr : Reg) (off : DWord) : Scope :=
  let core := s.coreOf i.ctx
  if (lanesOf act).all fun l => match windowOf (src64 s i l addr + off) with | .own _ => true | .die o => o / 0x40000 = core % 256 | _ => false then .core else .die
/-- The scope at which a word releases (R85, R86); none for a word that does not. -/
def State.releaseScope (s : State) (i : Issue) (act : Lanes) (x : Instr) : Option Scope :=
  match x with
  | .stef y => some (s.feScope i act y.addr (BitVec.ofNat 64 (4 * y.off.toNat)))
  | .stefX y => some (s.feScope i act y.addr (y.off.signExtend 64))
  | .dqpush _ | .bara _ | .barad _ | .cpy _ | .cpym _ | .cpycv _ | .cpylb _ => some .core
  | .sync y => some y.scope
  | .launch _ | .exit _ => some .pkg
  | _ => none
/-- The lanes whose earlier accesses a release waits for: a copy waits for those of its whole group (R86). -/
def Instr.releasing (act : Lanes) : Instr → Lanes
  | .cpy _ | .cpym _ | .cpycv _ | .cpylb _ => BitVec.allOnes 32
  | _ => act

/-- The stream registers that a word names. -/
def Instr.streams : Instr → List Nat
  | .fbopen x => [x.q.val]
  | .fbnext x => [x.q.val]
  | .fbmeet x | .fbjoin x => [x.d.val, x.a.val, x.b.val]
  | .fbskip x => [x.q.val]
  | .fbsave x | .fbrest x => [x.q.val]
  | .fbsaveX x | .fbrestX x => [x.q.val]
  | _ => []
/-- Whether a lane that waited for a page has not issued its word again yet, and is not parked. -/
def State.stillThere (s : State) (j : JobRec) : Bool :=
  let f := s.front j.ctx j.level
  (lanesOf j.lanes).any fun l => Tab.get 0 (s.ctx j.ctx).seq l = Tab.get 0 j.seqs l && ((f.lane l).st = .active || (match (f.lane l).st with | .waitPage _ _ _ | .waitClass _ _ => true | _ => false))
/-- A stream instruction waits until the earlier ones on its streams are complete, and one that reads memory at issue until the lanes' earlier
accesses are (R77, R124, R125); a handler does not wait for an FBNEXT that a fault has stopped (R127). -/
def State.streamHeld (s : State) (i : Issue) (x : Instr) : Bool :=
  let qs := Instr.streams x
  let reads := match x with | .fbopen _ | .fbskip _ | .fbsave _ | .fbsaveX _ | .fbrest _ | .fbrestX _ => true | _ => false
  !qs.isEmpty &&
  ((s.jobs.any fun (_, j) => j.ctx = i.ctx && (match j.job with
      | .stream q _ _ _ _ stopped => qs.contains q && !(stopped && i.level)
      | .streamOp q => qs.contains q
      | .streamWait q => qs.contains q && (j.lanes &&& i.exec) = 0 && s.stillThere j
      | _ => false)) ||
   (reads && !s.quiet i.ctx i.exec .ar .grp s.ids))

def collScope : CollScope → Scope
  | .die => .die
  | .pkg => .pkg
  | .pod => .pod
/-- SCBWAIT is not ready until every flag is zero and 15 cycles have passed since the previous issue (R335). -/
def State.scbHeld (s : State) (i : Issue) (x : Instr) : Bool :=
  match x with
  | .scbwait _ =>
    let f := s.front i.ctx i.level
    !(f.flags.all (· = 0) && (match f.lastIssue with | some l => decide (l + 15 ≤ (s.core (s.coreOf i.ctx)).time) | none => true))
  | _ => false
/-- Whether a word issues nothing now although its fields allow it: a missing token; another reason of R32 (a completion flag, an empty trough, LDS or
STS behind a fence); or the order of accesses that R32 does not name (R23, R80, R85, R86, R275, R279), which breaks no chain: that of a release of these
lanes whose own accesses are done and which awaits stores of its core has a name of its own. -/
inductive Hold where
  | none | token | other | order
  | stores (lanes : Lanes)
  deriving DecidableEq, Repr
/-- A release at issue: its lanes' own accesses are done first, and then the stores that belong to it. -/
def State.releaseHold (s : State) (i : Issue) (lanes : Lanes) (kind : FenceKind) (scope : Scope) : Hold :=
  if !s.quiet i.ctx lanes kind scope s.ids then .order
  else
    let bound := match (s.front i.ctx i.level).seen with | some (l, n) => if l = lanes then n else s.ids | none => s.ids
    if s.storesDone (s.coreOf i.ctx) scope bound then .none else .stores lanes
def State.capped (s : State) : Bool := s.pf.capped
/-- A DQPUSH also waits for the head's results on their way, which the group that pops may read (R298) (DEDUCED, log 20). -/
def State.hold (s : State) (i : Issue) (x : Instr) : Hold :=
  let g := s.wgOf i.ctx
  let act := match Instr.hdr x with | some h => guardMask s i h | none => i.exec
  let matrix := match x with | .tmma _ | .tmms _ | .tmmq _ => true | _ => false
  let head := i.ctx % 32 == 16
  if s.scbHeld i x || (Instr.fixedCist x && s.fenced i x) then .other
  else if act = 0 then .none
  else if matrix && s.capped && !g.token then .token
  else if s.fenced i x then .order
  else if s.tlbHeld i x || s.streamHeld i x || s.readsLater i act x then .order
  else match x with
    | .dqpop _ => if !head && g.trough.isEmpty && !g.headExited then .other else .none
    | .coll y => s.releaseHold i act .ar (collScope y.scope)
    | _ =>
      let full := match x with | .dqpush _ => head && (g.trough.length ≥ 64 || (s.ctx i.ctx).pends.any fun p => !p.codes.isEmpty) | _ => false
      match s.releaseScope i act x with
      | some sc => if full then .order else s.releaseHold i (Instr.releasing act x) .rel sc
      | none => .none

/-! ## Fetch (R34, R148, R194) -/

/-- What the issue logic finds at a context's issue address. -/
inductive Look where
  | idle
  | busy
  | fetch (va : DWord)
  | switch
  | trap (i : Issue) (cause detail : Nat)
  | page (i : Issue) (st : LaneSt) (what : Instr) (args : Args)
  | hold (why : Hold)
  | go (i : Issue)
  deriving DecidableEq, Repr

/-- The chain's head, and the words before an address in the chain that the lanes there are inside; else the address itself (R290). -/
def Front.inside (f : Front) (a : DWord) : DWord × Nat :=
  match f.chain with
  | some ch => if ch.open' && ch.lanes &&& f.at a ≠ 0 then (ch.head, ch.words) else (a, 0)
  | none => (a, 0)
/-- The issue address (R14, R18, R20). -/
def Ctx.issueAddr (c : Ctx) (level : Bool) : Option DWord :=
  let f := c.frontAt level
  let held (p : Option (DWord × Nat)) : Option DWord := match p with | some (a, _) => if f.at a ≠ 0 then some a else none | none => none
  if level then f.lowest else (held c.lrWin).or ((held c.turn).or f.lowest)

def State.word? (s : State) (ck : Nat) (va : DWord) : Option DWord := Tab.find? (s.ctx ck).ibuf va.toNat
/-- The second word of an extended instruction is fetched too. -/
def State.words? (s : State) (ck : Nat) (va : DWord) : DWord ⊕ (DWord × DWord) :=
  match s.word? ck va with
  | none => .inl va
  | some w0 =>
    if sizeOf w0 = 8 then .inr (w0, 0)
    else match s.word? ck (va + 8) with
      | none => .inl (va + 8)
      | some w1 => .inr (w0, w1)

/-- Whether the loader engine has admitted code of a loaded object to a page (R347): the page's X alone does not make it executable. -/
def State.admitted (s : State) (t : Tlb) : Bool := (s.vf t.vfn).objects.any fun (o : Object) => o.code.any fun (a, n) => a < t.va + 2 ^ t.bits && t.va < a + n
/-- Check 3 of R194, which R316 extends: what a fetch address translates to. A wait notes whether it is for the second word of an instruction (info bit 2),
whose fault is raised at the first word's address (R148). -/
def State.chkFetch (s : State) (vfn core : Nat) (va : DWord) (second : Bool := false) : Chk :=
  let info := if second then 6 else 2
  let page : DWord := BitVec.ofNat 64 (va.toNat / 65536 * 65536)
  match s.xlat core vfn va.toNat with
  | .absent => .wait (.waitPage va info 0) .notPresentFault { id := vfn, num := 2, v := page }
  | .walkHost => .wait (.waitPage va info 0) .walkMissRecord { id := vfn, num := 2, v := va }
  | .bad => .fault 0x11 2 va
  | .lost => .fault 0x15 0 va
  | .ok t =>
    let pr := physRange (t.phys va.toNat)
    if t.bind then .fault 0x50 0 va
    else if (pr ≠ .tier && pr ≠ .host) || !t.x || !s.admitted t then .fault 0x11 2 va
    else if (s.vf vfn).busyPages.contains t.va then .wait (.waitClass (BitVec.ofNat 64 t.va) s.ids) .reclassification { id := vfn, v := BitVec.ofNat 64 t.va }
    else .ok (.mem (t.phys va.toNat) t.cls t.own)

/-- The context's place in the issue logic at this moment. A handler's fragment and its group have places of their own, so both may issue in one
cycle (DEDUCED, log 106). A word of lanes outside the chain is not inside it: it names its own address (DEDUCED, log 67). A word of FMT 0b10 needs its second
word before check 2 is made, and a second word outside the global window traps with 0x13 at the first (DESIGN CHOICE, log 129). A word with the opcode LAND and
a bad field is no LAND for check 4 (DEDUCED, log 130). -/
def State.lookAt (s : State) (ck : Nat) (level : Bool) : Look :=
  let c := s.ctx ck
  let g := s.wgOf ck
  let f := c.frontAt level
  let now := (s.core g.core).time
  match c.issueAddr level with
  | none => .idle
  | some a =>
    if f.lastIssue = some now || f.pickedAt = some s.clock || now < f.notBefore then .busy
    else if !level && c.deferred && c.lrWin.isNone then .busy
    else
      let (head, off) := f.inside a
      let i : Issue := { ctx := ck, level := level, pc := a, exec := f.at a, size := 8, head := head, off := off, last := true }
      if windowOf a ≠ .global then .trap i 0x13 0
      else if a.toNat % 8 ≠ 0 then .trap i 0x14 0
      else match s.chkFetch g.vfn g.core a with
        | .fault cz d _ => .trap i cz d
        | .wait st w x => .page i st w { x with list := [ck] }
        | .ok _ =>
          if !c.nextPcs.isEmpty && !c.nextPcs.contains a then .switch
          else match s.words? ck a with
            | .inl va =>
              if va = a then .fetch va
              else if windowOf va ≠ .global then .trap i 0x13 0
              else match s.chkFetch g.vfn g.core va true with
                | .fault cz d _ => .trap i cz d
                | .wait st w x => .page i st w { x with list := [ck] }
                | .ok _ => .fetch va
            | .inr (w0, w1) =>
              let landing := (lanesOf i.exec).any fun l => (f.lane l).landing
              let dec := decode w0 w1
              if landing && !(match dec with | .ok (.land _) => true | _ => false) then .trap i 0x16 0
              else
                let cbit := w0.getLsbD 61 && off < 3
                let i := { i with size := sizeOf w0, last := !cbit }
                let dist := (w0.extractLsb' 57 4).toNat
                let wait : BitVec 12 := w0.extractLsb' 45 12
                let early : Bool := match f.lastIssue with | some l => decide (now < l + dist) | none => false
                let waits := w0.extractLsb' 62 2 ≠ 3 && (List.range 12).any fun j => wait.getLsbD j && nth 0 f.flags j ≠ 0
                if early then .busy
                else if waits then .hold .other
                else match dec with
                  | .ok x => if s.hold i x = .none then .go i else .hold (s.hold i x)
                  | _ => .go i
/-- A context has one fetch slot (R34): a switch of a group or of its handler waits for the other's, as long as that goes on (DEDUCED, log 106). -/
def State.look (s : State) (ck : Nat) (level : Bool) : Look :=
  match s.lookAt ck level with
  | .switch =>
    if (s.ctx ck).switching = some (!level) && (match s.lookAt ck (!level) with | .hold _ | .idle => false | _ => true) then .busy else .switch
  | k => k

/-! ## Selection (R33) -/

/-- Whether an engine of a workgroup still has to come to rest before its eviction (R114): a copy, or its part of the array. -/
def State.enginesRun (s : State) (wk : Nat) : Bool :=
  (s.copies.any fun (_, c) => c.wk = wk) || (match (s.core (s.wg wk).core).mat with | some (w, _, _) => w = wk | none => false)
/-- The contexts of a core that may issue, with their levels: those of a workgroup that leaves do not, once its engines are at rest (R114). -/
def State.contexts (s : State) (core : Nat) : List (Nat × Bool) :=
  s.ctxs.flatMap fun (ck, c) =>
    let g := s.wgOf ck
    if g.core ≠ core || c.evicted || g.evicted || (g.leaving && !s.enginesRun (ck / 32)) || (s.vf g.vfn).quiescing then []
    else (match c.trap with | some t => if t.dead then [] else [(ck, true)] | none => []) ++ [(ck, false)]

/-- A number's turn in a round robin: after the one picked last. -/
def turnAfter (last k : Nat) : Nat := if k > last then k else k + 2 ^ 40
/-- The order of R33 as numbers, compared from the first on: lower is picked first. Of one age, the workgroups take turns, after the one picked last;
in a workgroup the head comes first and the groups take turns (DEDUCED, log 98). -/
def State.rank (s : State) (ck : Nat) (level : Bool) : List Nat :=
  let c := s.ctx ck
  let g := s.wgOf ck
  let aged := [g.placed, turnAfter (Tab.get 0 (s.core g.core).rr g.placed) (ck / 32), if ck % 32 = 16 then 0 else turnAfter g.rr (ck % 32) + 1]
  match level, c.trap with
  | true, some t => if t.demoted then 2 :: aged else 0 :: t.entered :: aged
  | _, _ =>
    let waited : Bool := match c.readySince with | some r => decide (s.clock - r ≥ 64) | none => false
    (if waited then 1 else 2) :: aged
def rankLt : List Nat → List Nat → Bool
  | [], l => !l.isEmpty
  | _ :: _, [] => false
  | a :: x, b :: y => a < b || (a = b && rankLt x y)
/-- A context is picked in this cycle; where rule 3 picks it, its turns are over (R33). -/
def State.picked (s : State) (ck : Nat) (level : Bool) : State :=
  let g := s.wgOf ck
  let third := (s.rank ck level).headD 0 = 2
  let s := s.updFront ck level fun f => { f with pickedAt := some s.clock }
  if !third then s else
  let t := s.updCore g.core fun c => { c with rr := Tab.put (Tab.filter c.rr fun p _ => (Tab.vals s.wgs).any fun (w : Wg) => w.placed = p) g.placed (ck / 32) }
  if ck % 32 = 16 then t else t.updWg (ck / 32) fun w => { w with rr := ck % 32 }

/-- A held slot of a chain waits for its next word (R307). -/
def State.holdsSlot (s : State) (ck : Nat) (level : Bool) : Bool :=
  let f := s.front ck level
  match f.chain with
  | some ch => ch.open' && f.lastIssue ≠ some (s.core (s.coreOf ck)).time
  | none => false
/-- A chain whose next word is not ready for a reason that breaks it (R307) (DEDUCED, log 22). -/
def Look.breaks : Look → Bool
  | .idle => true
  | .hold .order | .hold (.stores _) => false
  | .hold _ => true
  | _ => false
def State.breakChain (s : State) (ck : Nat) (level : Bool) : State :=
  s.updFront ck level fun f => { f with chain := f.chain.map fun ch => { ch with open' := false } }

/-- Ask the reservoir for a token, once (R110). -/
def State.askToken (s : State) (wk : Nat) : State :=
  if (s.wg wk).tokenAsked then s
  else (({ s with tokenq := s.tokenq ++ [wk] }).updWg wk fun g => { g with tokenAsked := true }).pushOnce .tokenGrant

/-- What the issue logic does at once for a context that cannot issue: it starts a fetch or a fragment switch, raises the trap of a fetch
check, lets lanes wait for a page, breaks a chain, asks for a token (DEDUCED, log 26). -/
def State.react (s : State) (ck : Nat) (level : Bool) (k : Look) : State :=
  let s := if s.holdsSlot ck level && k.breaks then s.breakChain ck level else s
  match k with
  | .fetch va => s.pushOnce .instructionFetchFill { id := ck, v := va }
  | .switch =>
    let now := (s.core (s.coreOf ck)).time
    let a := (s.ctx ck).issueAddr level
    (s.updCtx ck fun c => { c with ibuf := [], nextPcs := a.toList, switching := some level }).updFront ck level fun f => { f with notBefore := now + 6 }
  | .trap i cause detail => s.trapAt i i.exec cause detail i.pc
  | .page i st what args =>
    (((s.arrived true).updFront ck level fun f => (f.dropChain i.exec false).updLanes i.exec fun _ x => { x with st := st.inChain i.off, pc := i.head }).updCtx ck Ctx.trim).pushOnce what args
  | .hold .token => s.askToken (ck / 32)
  | _ => s

/-! ## Time -/

/-- What a lane's older stores and tile stores, still in the pipeline, are to write, in their order. -/
def State.ownWrites (s : State) (ck lane bound : Nat) : List (Nat × Byte) :=
  let cellsOf (a n : Nat) : List Nat := (s.cells ck a n).flatMap fun (b, m) => iota b m
  let stores := (Tab.filter s.accs fun k a => a.ctx = ck && k < bound).map fun (k, a) => (k, a.elems.flatMap fun x =>
    match x.op with
    | .store v => if x.lane = lane && !x.done then (bytesLE x.n v.toNat).mapIdx fun j b => (x.place.cell + j, b) else []
    | _ => [])
  let tiles := (Tab.filter s.jobs fun k j => j.ctx = ck && k < bound && hasLane j.lanes lane).map fun (k, j) => (k, match j.job with
    | .tst data _ _ _ _ _ _ => (j.job.spans.flatMap fun (a, n) => cellsOf a n).zip data
    | _ => [])
  (sortBy (fun x y => decide (x.1 ≤ y.1)) (stores ++ tiles)).flatMap (·.2)
/-- A fixed-latency read of a scratchpad does not wait for the lane's older stores, which a fence may hold: their data is forwarded to it (R77, R80). -/
def State.forwarded (s : State) (ck : Nat) (e : Elem) (bound : Nat) (bs : List Byte) : List Byte :=
  let ws := (s.ownWrites ck e.lane bound).reverse
  bs.mapIdx fun j b => match ws.find? fun (c, _) => c = e.place.cell + j with | some (_, x) => x | none => b
/-- The lane's older accesses to the same word, or its atomics alone, are performed first: all of them before an STS, an LDFE or a STEF, the atomics before an
LDS (R77) (DEDUCED, log 44). -/
def State.flushOlder (s : State) (ck : Nat) (e : Elem) (bound : Nat) (every : Bool) : State :=
  s.accs.foldl (fun t (k, a) =>
    if a.ctx = ck && k < bound then
      let (t1, es) := a.elems.foldl (fun (acc : State × List Elem) (x : Elem) =>
        let (u, out) := acc
        if x.lane = e.lane && !x.done && x.touches e.units && (every || x.isAtomic) then
          let (u1, x1) := u.perform a x false
          (u1, out ++ [x1])
        else (u, out ++ [x])) (t, ([] : List Elem))
      if es = a.elems then t else (t1.updAcc k fun a => { a with elems := es }).pushOnce .flagCountDown { id := k }
    else t) s
/-- The latch that an LDS fills (R197): a .128 result comes in two parts, of which the second stands above bit 63 (DEDUCED, log 32). -/
def Latch.fill (l : Latch) (lane : Nat) (v : DWord) : Latch :=
  if (Tab.find? l.vals lane).isNone then { l with vals := Tab.put l.vals lane v } else { l with high := Tab.put l.high lane (v.setWidth 192) }
def Front.fillLatch (f : Front) (id lane : Nat) (got : List Byte) : Front :=
  { f with latches := f.latches.map fun l => if l.src = id && !got.isEmpty then l.fill lane (dwordOfBytes got) else l }
def State.fillLatch (s : State) (ck id lane : Nat) (got : List Byte) : State :=
  (s.updFront ck false fun f => f.fillLatch id lane got).updFront ck true fun f => f.fillLatch id lane got
/-- Before an STS the lane's older tile loads and stores of the same bytes come first. -/
def State.flushJobs (s : State) (ck : Nat) (e : Elem) (bound : Nat) : State :=
  s.jobs.foldl (fun t (k, j) => if e.isStore && j.ctx = ck && k < bound && hasLane j.lanes e.lane && t.spansMeet ck j.job e then t.runTile k 33 else t) s
/-- A cistern access is performed: what it read, and the state. -/
def State.cistApply (s : State) (ck : Nat) (e : Elem) : List Byte × State :=
  match e.place with
  | .cist c b =>
    let (got, new) := e.apply (s.cistBytes c b e.n)
    (got, (match new with | some bs => s.setCistBytes c b bs | none => s).carry ck e)
  | .mem _ _ _ => ([], s)
/-- The lane's LDS and STS of the same words, still on their way, come first. -/
def State.flushPends (s : State) (ck : Nat) (e : Elem) : State :=
  let first (x : Elem) : Bool := x.lane = e.lane && !x.done && x.touches e.units
  let (t, ps) := (s.ctx ck).pends.foldl (fun (acc : State × List Pend) (p : Pend) =>
    if p.elems.any first then
      let (u, es) := p.elems.foldl (fun (a : State × List Elem) (x : Elem) =>
        if first x then
          let (got, v) := a.1.cistApply ck x
          (v, a.2 ++ [{ x with done := true, got := got }])
        else (a.1, a.2 ++ [x])) (acc.1, ([] : List Elem))
      (u, acc.2 ++ [{ p with elems := es }])
    else (acc.1, acc.2 ++ [p])) (s, ([] : List Pend))
  if ps = (s.ctx ck).pends then s else t.updCtx ck fun c => { c with pends := ps }
/-- Fixed-latency results that are due are written, LDS and STS are performed, and flags count down (R165, R302). -/
def State.settlePend (s : State) (ck : Nat) (p : Pend) : State :=
  let head := ck % 32 == 16
  let s := p.elems.foldl (fun t e =>
    let (got, t) := if e.done then (e.got, t) else
      let u := (t.flushJobs ck e p.id).flushOlder ck e p.id e.isStore
      let (bs, v) := u.cistApply ck e
      (if e.isStore then bs else u.forwarded ck e p.id bs, v)
    (t.writeAll ck (({ e with got := got } : Elem).wrs head)).fillLatch ck p.id e.lane got) s
  (s.writeAll ck p.wr).flagDown ck p.flag
def State.settle (s : State) (ck : Nat) : State :=
  let c := s.ctx ck
  let now := (s.core (s.coreOf ck)).time
  let due (p : Pend) : Bool := match p.due with | some d => d ≤ now | none => false
  let ps := c.pends.filter due
  if ps.isEmpty then s
  else
    let s := s.updCtx ck fun c => { c with pends := c.pends.filter fun p => !due p }
    (ps.foldl (fun t p => t.settlePend ck p) s).kick (s.coreOf ck)

/-- A list of happenings joins the agenda, each once. -/
def State.pushEach (s : State) (what : Instr) (l : List Args) : State := l.foldl (fun t a => t.pushOnce what a) s
def idArgs (l : List Nat) : List Args := l.map fun k => { id := k }
/-- Happenings that time brings about in the issue logic and the engines. -/
def State.timeCores (s : State) : State :=
  let s := s.ctxs.foldl (fun t (ck, c) =>
    let now := (t.core (t.coreOf ck)).time
    let t := if c.pends.any fun p => match p.due with | some d => d ≤ now | none => false then t.pushOnce .fixedLatencyWriteback { id := ck } (some t.clock) else t
    let t := if c.deferred then t.pushOnce .fairnessTurn { id := ck } else t
    match c.trap with
    | some x => if !x.demoted && t.clock - x.entered ≥ 65536 then t.pushOnce .trapLevelTimeout { id := ck } (some t.clock) else t
    | none => if c.waiting.isEmpty then t else t.pushOnce .trapEntryDeferred { id := ck }) s
  let s := s.cores.foldl (fun t (k, c) =>
    let t := if c.sump.any fun (o, _) => t.clock - o ≥ 32 then t.pushOnce .sumpWindowClose { id := k } (some t.clock) else t
    match c.mat with
    | some (_, id, e) => if e ≤ t.clock then t.pushOnce (if id = 0 then .selfTest else .matrixOpComplete) { id := k } (some t.clock) else t
    | none => if (Tab.vals t.wgs).any fun (g : Wg) => g.core = k && !g.mq.isEmpty then (t.pushOnce .matrixOpStart { id := k }).pushOnce .pumpStep { id := k } else t) s
  let s := s.reqs.foldl (fun t (k, r) =>
    if r.announced || r.atHome || t.clock ≤ r.at' then t else t.pushOnce .standpipeAnnounce { id := k } (some (r.at' + 20))) s
  let s := s.pushEach .flagCountDown (idArgs (Tab.keys s.jobs))
  let s := s.copies.foldl (fun t (k, c) => if c.stopped then t else t.pushOnce (if c.form.chan.isSome && !c.begun then .copyChannelStart else .copyArrival) { id := k }) s
  (s.colls.filter fun (c : Coll) => c.status.isNone).foldl (fun t c => t.pushOnce .collectiveComplete { id := c.id }) s
/-- Happenings of dispatch, of the services and of the registers that have become possible, or may have. -/
def State.timeGrids (s : State) : State :=
  let s := s.pushEach .workgroupRetire (idArgs ((Tab.keys s.wgs).filter fun wk => s.ctxs.all fun (k, c) => k / 32 ≠ wk || c.front.live = 0))
  let s := s.pushEach .gridRetire (idArgs (Tab.keys (Tab.filter s.grids fun _ g => g.retired ≥ g.wgcnt)))
  let s := s.dies.foldl (fun t (d, x) =>
    if x.queue.isEmpty then t
    else
      let t := if x.queue.any fun q => q.prio < 7 && t.clock - q.since ≥ 2 ^ 20 then t.pushOnce .priorityAging { id := d } (some t.clock) else t
      let t := t.pushOnce .workgroupPlace { id := d }
      let t := t.pushEach .groupEvict (idArgs ((Tab.keys t.ctxs).filter fun k => k % 32 ≠ 16 && coreDie (t.coreOf k) = d))
      t.pushEach .workgroupEvict (idArgs (Tab.keys (Tab.filter t.wgs fun _ g => coreDie g.core = d)))) s
  let s := s.coresident.foldl (fun t g =>
    (if t.clock - (t.grid g).since ≥ 2 ^ 20 then t.pushOnce .coresidentWithhold { id := g } (some t.clock) else t).pushOnce .coresidentPlace { id := g }) s
  let s := s.pushEach .workgroupEvict (idArgs (Tab.keys (Tab.filter s.wgs fun _ g => g.leaving)))
  let s := s.pushEach .contextRestore (idArgs (Tab.keys (Tab.filter s.ctxs fun k c => c.evicted && !(s.wgOf k).evicted)))
  let s := s.pushEach .contextRestore ((Tab.keys (Tab.filter s.wgs fun _ g => g.evicted)).map fun k => { id := k, num := 1 })
  let s := s.vfs.foldl (fun t (k, v) =>
    let t := v.busyPages.foldl (fun (u : State) a => u.pushOnce .reclassification { id := k, v := BitVec.ofNat 64 a } (some v.busyDue)) t
    let t := if v.opens.isEmpty then t else t.pushOnce .trapQueueLogCopy { id := k }
    let t := if v.rootq.isEmpty then t else t.pushOnce .rootlaunchProcess { id := k }
    let t := if v.quiescing && !v.quiesced then t.pushOnce .quiesce { id := k } else t
    if v.invctl.getLsbD 63 then t.pushOnce .invctlComplete { id := k } else t) s
  let s := s.pushEach .formatWindowChangeDone (idArgs ((List.range 16).filter fun w => (nth {} s.pf.fw w).ctl.getLsbD 31))
  let s := if s.tokenq.isEmpty then s else s.pushOnce .tokenGrant
  let s := if s.clock % 1024 = 0 then s.pushOnce .tokenRefill {} (some s.clock) else s
  if s.clock % 65536 = 0 then s.pushOnce .persistBoundaryInterval {} (some s.clock) else s
def State.timers (s : State) : State := s.timeCores.timeGrids

/-- The stores that belong to a release that waits for them are those of this moment (R81). -/
def Front.note (f : Front) (k : Look) (ids : Nat) : Front :=
  { f with seen := match k, f.seen with
    | .hold (.stores l), some (m, n) => some (l, if m = l then n else ids)
    | .hold (.stores l), none => some (l, ids)
    | _, _ => none }
/-- A cycle ends: every core that is not stalled counts one, and the late items of its issues stall it from now on (R309); contexts that were ready and not picked, and releases that wait, are noted (R33, R81)
(DESIGN CHOICE, log 5). -/
def State.tick (s : State) : State :=
  let s := s.ctxs.foldl (fun t (ck, c) =>
    let k := t.look ck false
    let h := t.look ck true
    let ready := match k with | .go _ => true | _ => false
    t.updCtx ck fun x => { x with readySince := if ready then some (c.readySince.getD t.clock) else none, front := x.front.note k t.ids
                                  trap := x.trap.map fun y => { y with front := y.front.note h t.ids } }) s
  let s := { s with clock := s.clock + 1, cores := Tab.mapVals s.cores fun _ c =>
    if c.stall > 0 then { c with stall := c.stall - 1, slots := 0 } else { c with time := c.time + 1, stall := c.late, late := 0, slots := 0 } }
  s.timers

/-- One core's part of a cycle: its first context that needs something done at once, or else its pick. -/
inductive CorePick where
  | nothing
  | react (ck : Nat) (level : Bool) (k : Look)
  | issue (i : Issue)
  deriving DecidableEq, Repr
def Look.urgent : Look → Bool
  | .fetch _ | .switch | .trap _ _ _ | .page _ _ _ _ => true
  | _ => false
def State.pickCore (s : State) (core : Nat) : CorePick :=
  let c := s.core core
  if c.stall > 0 || c.slots ≥ 4 then .nothing
  else
    let ls := (s.contexts core).map fun (ck, level) => (ck, level, s.look ck level)
    let fetching (ck : Nat) (k : Look) : Bool := match k with | .fetch va => s.awaits .instructionFetchFill { id := ck, v := va } | _ => false
    match ls.find? fun (ck, level, k) => (k.urgent && !fetching ck k) || (s.holdsSlot ck level && k.breaks) || (k = .hold .token && !(s.wgOf ck).tokenAsked) with
    | some (ck, level, k) => .react ck level k
    | none =>
      let heldBy := (ls.filter fun (ck, level, _) => s.holdsSlot ck level).length
      let cands := ls.filterMap fun (ck, level, k) => match k with
        | .go i => if s.holdsSlot ck level || c.slots + heldBy < 4 then some (ck, level, i) else none
        | _ => none
      match cands with
      | [] => .nothing
      | x :: t =>
        let best := t.foldl (fun b y => if rankLt (s.rank y.1 y.2.1) (s.rank b.1 b.2.1) then y else b) x
        .issue best.2.2

/-- ISSUE_CYCLE (R33): a slot of a core picks a ready context, whose word is to issue next; where no context of any core can, the cycle
ends (DESIGN CHOICE, log 99). -/
def issueCycle (s : State) : State :=
  let s := { s with issue := none }
  if !s.powered then s
  else
    let s := s.settleFences
    match (Tab.keys s.cores).findSome? fun k => match s.pickCore k with | .nothing => none | p => some p with
    | some (.react ck level k) => s.react ck level k
    | some (.issue i) =>
      let core := s.coreOf i.ctx
      let s := (s.settle i.ctx).picked i.ctx i.level
      { s.touchTlb core (s.wgOf i.ctx).vfn i.pc.toNat with issue := some i }
    | _ => s.tick

end Sys2Proof.Machine
end

