-- ==== Sys2Proof/Machine/Floating.lean ====
section
/-! DEFINITION. Floating-point instructions (R174 to R179). -/
namespace Sys2Proof.Machine

/-- The rounding and flush of a word (R132). -/
def fpCtl (s : State) (i : Issue) (rm : RmSel) : FpCtl := fpSel rm (s.ctx i.ctx).fpctl
def fsrc (s : State) (i : Issue) (l : Nat) (r : Reg) : Nat := (src32 s i l r).toNat
def fres (p : Nat × Fl) : DWord × Fl := (BitVec.ofNat 64 p.1, p.2)

/-- A form with two 32-bit sources, and one that reads its destination as a third. -/
def fpTwo (x : FpR) (f : FpCtl → Nat → Nat → Nat × Fl) : State → Out :=
  issueForm { h := x.h, opc := 0, who := .both, plan := { srcs := [(x.a, 1), (x.b, 1)], dsts := [(x.d, 1)], wbs := x.h.wbs } }
    fun i act s => vecEff i act s x.h x.d false 4 fun l => fres (f (fpCtl s i x.rm) (fsrc s i l x.a) (fsrc s i l x.b))
def fpThree (x : FpR) (f : FpCtl → Nat → Nat → Nat → Nat × Fl) : State → Out :=
  issueForm { h := x.h, opc := 0, who := .both, plan := { srcs := [(x.a, 1), (x.b, 1), (x.d, 1)], dsts := [(x.d, 1)], wbs := x.h.wbs } }
    fun i act s => vecEff i act s x.h x.d false 4 fun l => fres (f (fpCtl s i x.rm) (fsrc s i l x.a) (fsrc s i l x.b) (fsrc s i l x.d))
/-- A form with an immediate for source B. -/
def fpImm (x : FpX) (f : FpCtl → Nat → Nat → Nat × Fl) : State → Out :=
  issueForm { h := x.h, opc := 0, who := .both, plan := { srcs := [(x.a, 1)], dsts := [(x.d, 1)], wbs := x.h.wbs } }
    fun i act s => vecEff i act s x.h x.d false 4 fun l => fres (f (fpCtl s i x.rm) (fsrc s i l x.a) x.imm.toNat)
/-- FMIN and FMAX do not round (R175). -/
def fpMinMax (x : FpM) (isMax : Bool) : State → Out :=
  issueForm { h := x.h, opc := 0, who := .both, plan := { srcs := [(x.a, 1), (x.b, 1)], dsts := [(x.d, 1)], wbs := x.h.wbs } }
    fun i act s => vecEff i act s x.h x.d false 4 fun l => fres (fp32.minMax isMax (fpCtl s i .dyn).ftz (fsrc s i l x.a) (fsrc s i l x.b))
/-- A form with one source: rounding chosen by MOD, and rounding RNE. -/
def fpOne (h : Hdr) (rm : RmSel) (d a : Reg) (lat : Nat) (f : FpCtl → Nat → Nat × Fl) : State → Out :=
  issueForm { h := h, opc := 0, who := .both, plan := { srcs := [(a, 1)], dsts := [(d, 1)], wbs := h.wbs } }
    fun i act s => vecEff i act s h d false lat fun l => fres (f (fpCtl s i rm) (fsrc s i l a))

def execFadd (x : FpR) (s : State) : Out := fpTwo x fp32.add s
def execFaddX (x : FpX) (s : State) : Out := fpImm x fp32.add s
def execFsub (x : FpR) (s : State) : Out := fpTwo x fp32.sub s
def execFsubX (x : FpX) (s : State) : Out := fpImm x fp32.sub s
def execFmul (x : FpR) (s : State) : Out := fpTwo x fp32.mul s
def execFmulX (x : FpX) (s : State) : Out := fpImm x fp32.mul s
def execFfma (x : FpR) (s : State) : Out := fpThree x fp32.fma s
def execFmin (x : FpM) (s : State) : Out := fpMinMax x false s
def execFmax (x : FpM) (s : State) : Out := fpMinMax x true s

/-- FCMP (R176). -/
def execFcmp (x : FcmpF) (s : State) : Out :=
  issueForm { h := x.h, opc := 0x26, who := .both, plan := { srcs := [(x.a, 1), (x.b, 1)], pdst := [x.p.toNat] } }
    (fun i act s => predEff i act s x.p.toNat 4 fun l => fcmp x.cond (fpCtl s i .dyn).ftz (fsrc s i l x.a) (fsrc s i l x.b)) s

/-! Transcendentals (R177): the RNE rounding of the exact value. -/
def execFrcp (x : FpV) (s : State) : Out := fpOne x.h .dyn x.d x.a 8 (fun c a => frcp c.ftz a) s
def execFrsq (x : FpV) (s : State) : Out := fpOne x.h .dyn x.d x.a 8 (fun c a => frsq c.ftz a) s
def execFsqrt (x : FpU) (s : State) : Out := fpOne x.h x.rm x.d x.a 8 fsqrt s
def execFexp2 (x : FpV) (s : State) : Out := fpOne x.h .dyn x.d x.a 8 (fun c a => fexp2 c.ftz a) s
def execFlog2 (x : FpV) (s : State) : Out := fpOne x.h .dyn x.d x.a 8 (fun c a => flog2 c.ftz a) s
def execFsin (x : FpV) (s : State) : Out := fpOne x.h .dyn x.d x.a 8 (fun c a => fsin c.ftz a) s
def execFcos (x : FpV) (s : State) : Out := fpOne x.h .dyn x.d x.a 8 (fun c a => fcos c.ftz a) s
/-- FRND and FCLASS (R178). -/
def execFrnd (x : FpU) (s : State) : Out := fpOne x.h x.rm x.d x.a 4 frnd s
def execFclass (x : FpV) (s : State) : Out := fpOne x.h .dyn x.d x.a 4 (fun _ a => (fclass a, 0)) s

/-! Packed halves (R179). -/
def halfAdd (f : Fmt) (c : FpCtl) (a b : Nat) : Nat × Fl := halves (fun p q _ => f.add c p q) a b 0
def halfMul (f : Fmt) (c : FpCtl) (a b : Nat) : Nat × Fl := halves (fun p q _ => f.mul c p q) a b 0
def halfFma (f : Fmt) (c : FpCtl) (a b d : Nat) : Nat × Fl := halves (fun p q r => f.fma c p q r) a b d
def execHadd2 (x : FpR) (s : State) : Out := fpTwo x (halfAdd fp16) s
def execHmul2 (x : FpR) (s : State) : Out := fpTwo x (halfMul fp16) s
def execHfma2 (x : FpR) (s : State) : Out := fpThree x (halfFma fp16) s
def execBadd2 (x : FpR) (s : State) : Out := fpTwo x (halfAdd bf16) s
def execBmul2 (x : FpR) (s : State) : Out := fpTwo x (halfMul bf16) s
def execBfma2 (x : FpR) (s : State) : Out := fpThree x (halfFma bf16) s

end Sys2Proof.Machine
end

