-- ==== Sys2Proof/Machine/Integer.lean ====
section
/-! DEFINITION. Integer and address instructions (R167 to R173). -/
namespace Sys2Proof.Machine

/-! ## Values, on naturals below 2^w -/

def sgn (w a : Nat) : Int := if a < 2 ^ (w - 1) then a else (a : Int) - 2 ^ w
def unsgn (w : Nat) (x : Int) : Nat := (x % 2 ^ w).toNat
def clamp (lo hi x : Int) : Int := if x < lo then lo else if x > hi then hi else x

/-- IADD and ISUB (R168). -/
def addSub (m : IntMod) (sub : Bool) (w a b : Nat) : Nat :=
  let p : Int := if m.us then a else sgn w a
  let q : Int := if m.us then b else sgn w b
  let x := if sub then p - q else p + q
  if !m.sat then unsgn w x
  else if m.us then unsgn w (clamp 0 (2 ^ w - 1) x)
  else unsgn w (clamp (-(2 ^ (w - 1))) (2 ^ (w - 1) - 1) x)
/-- IMULH (R168): the floor of the product over 2^w. -/
def mulHigh (us : Bool) (w a b : Nat) : Nat :=
  if us then a * b / 2 ^ w else unsgn w ((sgn w a * sgn w b) / 2 ^ w)
def lesser (us : Bool) (w a b : Nat) : Nat := if us then min a b else if sgn w b < sgn w a then b else a
def greater (us : Bool) (w a b : Nat) : Nat := if us then max a b else if sgn w a < sgn w b then b else a
/-- IABS (R168). -/
def absVal (sat : Bool) (w a : Nat) : Nat :=
  if a < 2 ^ (w - 1) then a else if a = 2 ^ (w - 1) then (if sat then 2 ^ (w - 1) - 1 else a) else 2 ^ w - a
def shiftLeft (w a b : Nat) : Nat := a * 2 ^ (b % w) % 2 ^ w
def shiftRight (w a b : Nat) : Nat := a / 2 ^ (b % w)
def shiftArith (w a b : Nat) : Nat := unsgn w (sgn w a / 2 ^ (b % w))
def andNot (w a b : Nat) : Nat := a &&& (2 ^ w - 1 - b)
def popCount (w a : Nat) : Nat := ((List.range w).filter fun i => a.testBit i).length
def leadingZeros (w a : Nat) : Nat := if a = 0 then w else w - 1 - a.log2
def bitReverse (w a : Nat) : Nat := (List.range w).foldl (fun m i => if a.testBit (w - 1 - i) then m + 2 ^ i else m) 0
/-- BFX and BFI (R169). -/
def fieldStart (b : Nat) : Nat := b % 32
def fieldLen (b : Nat) : Nat := min (b / 256 % 64) 32
def bitExtract (sx : Bool) (a b : Nat) : Nat :=
  let len := fieldLen b
  let f := a / 2 ^ fieldStart b % 2 ^ len
  if len = 0 then 0 else if sx then unsgn 32 (sgn len f) else f
def bitInsert (a b d : Nat) : Nat :=
  let st := fieldStart b
  let len := min (fieldLen b) (32 - st)
  d % 2 ^ st + (a % 2 ^ len) * 2 ^ st + d / 2 ^ (st + len) * 2 ^ (st + len)
/-- ICMP (R171): whether the condition reads 64-bit sources, and whether it holds. -/
def icmpWide : ICond → Bool
  | .eq64 | .ne64 | .lt64 | .ge64 | .ltu64 | .geu64 => true
  | _ => false
def icmpHolds (c : ICond) (a b : Nat) : Bool :=
  match c with
  | .eq | .eq64 => a = b
  | .ne | .ne64 => a ≠ b
  | .lt => sgn 32 a < sgn 32 b
  | .le => sgn 32 a ≤ sgn 32 b
  | .gt => sgn 32 a > sgn 32 b
  | .ge => sgn 32 a ≥ sgn 32 b
  | .ltu | .ltu64 => a < b
  | .leu => a ≤ b
  | .gtu => a > b
  | .geu | .geu64 => a ≥ b
  | .lt64 => sgn 64 a < sgn 64 b
  | .ge64 => sgn 64 a ≥ sgn 64 b

/-! ## Forms -/

/-- A source of w bits, and an immediate in its place (R159). -/
def opnd (s : State) (i : Issue) (l : Nat) (w64 : Bool) (r : Reg) : Nat := if w64 then (src64 s i l r).toNat else (src32 s i l r).toNat
def immVal (w64 : Bool) (imm : Word) : Nat := if w64 then (imm.signExtend 64).toNat else imm.toNat
def regsOf (w64 : Bool) : Nat := if w64 then 2 else 1
def bitsOf (w64 : Bool) : Nat := if w64 then 64 else 32

/-- An integer form with two sources: whether .64 widens source B and the result, whether it reads its destination, and its value. -/
def intRegs (x : IntR) (wideB readD : Bool) (f : Nat → Nat → Nat → Nat → Nat) : State → Out :=
  let w := x.m.w64
  issueForm { h := x.h, opc := 0, who := .both
              plan := { srcs := [(x.a, regsOf w), (x.b, regsOf (wideB && w))] ++ (if readD then [(x.d, regsOf w)] else []), dsts := [(x.d, regsOf w)], wbs := x.h.wbs } }
    fun i act s => vecEff i act s x.h x.d w 4 fun l =>
      (BitVec.ofNat 64 (f (bitsOf w) (opnd s i l w x.a) (opnd s i l (wideB && w) x.b) (opnd s i l w x.d)), 0)
/-- The same with an immediate for source B. -/
def intImm (x : IntX) (wideB readD : Bool) (f : Nat → Nat → Nat → Nat → Nat) : State → Out :=
  let w := x.m.w64
  issueForm { h := x.h, opc := 0, who := .both
              plan := { srcs := [(x.a, regsOf w)] ++ (if readD then [(x.d, regsOf w)] else []), dsts := [(x.d, regsOf w)], wbs := x.h.wbs } }
    fun i act s => vecEff i act s x.h x.d w 4 fun l =>
      (BitVec.ofNat 64 (f (bitsOf w) (opnd s i l w x.a) (immVal (wideB && w) x.imm) (opnd s i l w x.d)), 0)
/-- A form with one source. -/
def intOne (x : IntU) (wideD : Bool) (f : Nat → Nat → Nat) : State → Out :=
  let w := x.m.w64
  issueForm { h := x.h, opc := 0, who := .both, plan := { srcs := [(x.a, regsOf w)], dsts := [(x.d, regsOf (wideD && w))], wbs := x.h.wbs } }
    fun i act s => vecEff i act s x.h x.d (wideD && w) 4 fun l => (BitVec.ofNat 64 (f (bitsOf w) (opnd s i l w x.a)), 0)

/-! ## Meanings -/

def execIadd (x : IntR) (s : State) : Out := intRegs x true false (fun w a b _ => addSub x.m false w a b) s
def execIaddX (x : IntX) (s : State) : Out := intImm x true false (fun w a b _ => addSub x.m false w a b) s
def execIsub (x : IntR) (s : State) : Out := intRegs x true false (fun w a b _ => addSub x.m true w a b) s
def execIsubX (x : IntX) (s : State) : Out := intImm x true false (fun w a b _ => addSub x.m true w a b) s
def execImul (x : IntR) (s : State) : Out := intRegs x true false (fun w a b _ => a * b % 2 ^ w) s
def execImulX (x : IntX) (s : State) : Out := intImm x true false (fun w a b _ => a * b % 2 ^ w) s
def execImulh (x : IntR) (s : State) : Out := intRegs x true false (fun w a b _ => mulHigh x.m.us w a b) s
def execImulhX (x : IntX) (s : State) : Out := intImm x true false (fun w a b _ => mulHigh x.m.us w a b) s
def execImad (x : IntR) (s : State) : Out := intRegs x true true (fun w a b d => (a * b + d) % 2 ^ w) s
def execImin (x : IntR) (s : State) : Out := intRegs x true false (fun w a b _ => lesser x.m.us w a b) s
def execIminX (x : IntX) (s : State) : Out := intImm x true false (fun w a b _ => lesser x.m.us w a b) s
def execImax (x : IntR) (s : State) : Out := intRegs x true false (fun w a b _ => greater x.m.us w a b) s
def execImaxX (x : IntX) (s : State) : Out := intImm x true false (fun w a b _ => greater x.m.us w a b) s
def execIabs (x : IntU) (s : State) : Out := intOne x true (absVal x.m.sat) s
def execAnd (x : IntR) (s : State) : Out := intRegs x true false (fun _ a b _ => a &&& b) s
def execAndX (x : IntX) (s : State) : Out := intImm x true false (fun _ a b _ => a &&& b) s
def execOr (x : IntR) (s : State) : Out := intRegs x true false (fun _ a b _ => a ||| b) s
def execOrX (x : IntX) (s : State) : Out := intImm x true false (fun _ a b _ => a ||| b) s
def execXor (x : IntR) (s : State) : Out := intRegs x true false (fun _ a b _ => a ^^^ b) s
def execXorX (x : IntX) (s : State) : Out := intImm x true false (fun _ a b _ => a ^^^ b) s
def execAndn (x : IntR) (s : State) : Out := intRegs x true false (fun w a b _ => andNot w a b) s
def execAndnX (x : IntX) (s : State) : Out := intImm x true false (fun w a b _ => andNot w a b) s
def execShl (x : IntR) (s : State) : Out := intRegs x false false (fun w a b _ => shiftLeft w a b) s
def execShlX (x : IntX) (s : State) : Out := intImm x false false (fun w a b _ => shiftLeft w a b) s
def execShr (x : IntR) (s : State) : Out := intRegs x false false (fun w a b _ => shiftRight w a b) s
def execShrX (x : IntX) (s : State) : Out := intImm x false false (fun w a b _ => shiftRight w a b) s
def execSar (x : IntR) (s : State) : Out := intRegs x false false (fun w a b _ => shiftArith w a b) s
def execSarX (x : IntX) (s : State) : Out := intImm x false false (fun w a b _ => shiftArith w a b) s
def execPopc (x : IntU) (s : State) : Out := intOne x false popCount s
def execClz (x : IntU) (s : State) : Out := intOne x false leadingZeros s
def execBrev (x : IntU) (s : State) : Out := intOne x true bitReverse s
def execBfx (x : IntR) (s : State) : Out := intRegs x false false (fun _ a b _ => bitExtract x.m.us a b) s
def execBfxX (x : IntX) (s : State) : Out := intImm x false false (fun _ a b _ => bitExtract x.m.us a b) s
def execBfi (x : IntR) (s : State) : Out := intRegs x false true (fun _ a b d => bitInsert a b d) s
def execBfiX (x : IntX) (s : State) : Out := intImm x false true (fun _ a b d => bitInsert a b d) s

/-- LEA (R170). -/
def execLea (x : LeaF) (s : State) : Out :=
  issueForm { h := x.h, opc := 0x15, who := .both, plan := { srcs := [(x.a, 2), (x.b, 1)], dsts := [(x.d, 2)], wbs := x.h.wbs } }
    (fun i act s => vecEff i act s x.h x.d true 4 fun l =>
      let idx := src32 s i l x.b
      (src64 s i l x.a + ((if x.sx then idx.signExtend 64 else idx.setWidth 64) <<< x.sh.toNat), 0)) s

/-- ICMP (R171); a write of P7 is discarded. -/
def execIcmp (x : IcmpF) (s : State) : Out :=
  let w := icmpWide x.cond
  issueForm { h := x.h, opc := 0x16, who := .both, plan := { srcs := [(x.a, regsOf w), (x.b, regsOf w)], pdst := [x.p.toNat] } }
    (fun i act s => predEff i act s x.p.toNat 4 fun l => (icmpHolds x.cond (opnd s i l w x.a) (opnd s i l w x.b), 0)) s
def execIcmpX (x : IcmpX) (s : State) : Out :=
  let w := icmpWide x.cond
  issueForm { h := x.h, opc := 0x16, who := .both, plan := { srcs := [(x.a, regsOf w)], pdst := [x.p.toNat] } }
    (fun i act s => predEff i act s x.p.toNat 4 fun l => (icmpHolds x.cond (opnd s i l w x.a) (immVal w x.imm), 0)) s

/-- SEL (R172). -/
def execSel (x : SelF) (s : State) : Out :=
  let n := regsOf x.w64
  issueForm { h := x.h, opc := 0x17, who := .both, plan := { srcs := [(x.a, n), (x.b, n)], psrc := [x.p.toNat], dsts := [(x.d, n)], wbs := x.h.wbs } }
    (fun i act s => vecEff i act s x.h x.d x.w64 4 fun l =>
      (if hasLane ((s.ctx i.ctx).pred x.p.toNat) l then readReg s i l x.w64 x.a else readReg s i l x.w64 x.b, 0)) s

/-- MOVI (R173). -/
def execMovi (x : MoviF) (s : State) : Out :=
  issueForm { h := x.h, opc := 0x18, who := .both, plan := { dsts := [(x.d, regsOf x.w64)], wbs := x.h.wbs } }
    (fun i act s => vecEff i act s x.h x.d x.w64 4 fun _ => (x.imm.signExtend 64, 0)) s
def execMoviX (x : MoviX) (s : State) : Out :=
  issueForm { h := x.h, opc := 0x18, who := .both, plan := { dsts := [(x.d, regsOf x.w64)], wbs := x.h.wbs } }
    (fun i act s => vecEff i act s x.h x.d x.w64 4 fun _ => (x.imm.signExtend 64, 0)) s

end Sys2Proof.Machine
end

