-- ==== Sys2Proof/Machine/Move.lean ====
section
/-! DEFINITION. Moves and conversions, lane exchange, group reductions and system registers (R180 to R190), and MOVTS (R231 to R233). -/
namespace Sys2Proof.Machine

/-- MOV (R180). -/
def execMov (x : MovF) (s : State) : Out :=
  issueForm { h := x.h, opc := 0x40, who := .both, plan := { srcs := [(x.a, regsOf x.w64)], dsts := [(x.d, regsOf x.w64)], wbs := x.h.wbs } }
    (fun i act s => vecEff i act s x.h x.d x.w64 4 fun l => (readReg s i l x.w64 x.a, 0)) s
/-- MOVS (R180): the lowest acting lane's value in every acting lane. -/
def execMovs (x : MovF) (s : State) : Out :=
  issueForm { h := x.h, opc := 0x41, who := .groups, plan := { srcs := [(x.a, regsOf x.w64)], dsts := [(x.d, regsOf x.w64)], wbs := x.h.wbs } }
    (fun i act s => vecEff i act s x.h x.d x.w64 6 fun _ => (readReg s i (lowestLane act) x.w64 x.a, 0)) s
/-- F2I and I2F (R181), FCVT (R182). -/
def execF2i (x : FpU) (s : State) : Out := fpOne x.h x.rm x.d x.a 4 f2i s
def execI2f (x : FpU) (s : State) : Out := fpOne x.h x.rm x.d x.a 4 (fun c a => i2f c.rm a) s
def execFcvt (x : FcvtF) (s : State) : Out := fpOne x.h x.rm x.d x.a 4 (fun c a => fcvt x.conv c x.nsat a) s

/-! ## Q4X blocks held across half-groups (R183, R184) -/

/-- An element scaled by 2^(127 − e) and rounded to an integer. -/
def packRound (rm : Rm) (v : FVal) (e : Nat) : Option (Bool × Nat × Bool) :=
  match v with
  | .fin n m x => let (k, ix) := roundTo rm n m (x + 127 - e) false 0; some (n, k, ix)
  | _ => none
/-- An element scaled by 2^(127 − e), exactly. -/
def packScale (v : FVal) (e : Nat) : FVal :=
  match v with
  | .fin n m x => .fin n m (x + 127 - e)
  | w => w
/-- The slots of a block from its elements, in ascending order; skip counts the nibbles given up to the last outlier, whose byte is pend. -/
def q4xPack (rm : Rm) (e : Nat) (j : Nat) (skip pend : Nat) (vs : List FVal) : List Nat × Fl :=
  match vs with
  | [] => ([], 0)
  | v :: t =>
    if skip > 0 then
      let (r, fl) := q4xPack rm e (j + 1) (skip - 1) (pend / 16) t
      (pend % 16 :: r, fl ||| (if v.isZero then 0 else fIX))
    else
      match packRound rm v e with
      | some (n, k, ix) =>
        if k ≤ 7 then
          let (r, fl) := q4xPack rm e (j + 1) 0 0 t
          ((if n then (16 - k) % 16 else k) :: r, fl ||| (if ix then fIX else 0))
        else if j ≤ 125 then
          let (b, f1) := e4m3.pack rm false false (packScale v e)
          let (r, fl) := q4xPack rm e (j + 1) 2 b t
          (8 :: r, fl ||| f1)
        else
          let (r, fl) := q4xPack rm e (j + 1) 0 0 t
          ((if n then 9 else 7) :: r, fl ||| fOF ||| fIX)
      | none =>
        if j ≤ 125 then
          let (b, f1) := match v with
            | .nan _ => (e4m3.nan, fIV)
            | w => e4m3.pack rm false false w
          let (r, fl) := q4xPack rm e (j + 1) 2 b t
          (8 :: r, fl ||| f1)
        else
          let (r, fl) := q4xPack rm e (j + 1) 0 0 t
          match v with
          | .nan _ => (0 :: r, fl ||| fIV)
          | w => ((if w.sgn then 9 else 7) :: r, fl ||| fOF ||| fIX)
/-- The scale of a lane's half: bits 7:0 of source B in the half's lowest acting lane. -/
def halfScale (s : State) (i : Issue) (act : Lanes) (b : Reg) (half : Nat) : Nat :=
  let ls := (lanesOf act).filter fun l => l / 16 = half
  (src32 s i (ls.headD 0) b).toNat % 256
/-- The slots of one half under QPACK, and its flags. -/
def packHalf (c : FpCtl) (e : Nat) (elem : Nat → Nat) : List Nat × Fl :=
  if e = 0xFF then (List.replicate 128 0, fIV)
  else q4xPack c.rm e 0 0 0 ((List.range 128).map fun j => fp32.src c.ftz (elem j))
def execQpack (x : FpR) (s : State) : Out :=
  issueForm { h := x.h, opc := 0x45, who := .groups
              plan := { srcs := [(x.a, 8), (x.b, 1)], dsts := [(x.d, 1)], wbs := x.h.wbs } }
    (fun i act s =>
      let c := fpCtl s i x.rm
      let half (k : Nat) := packHalf c (halfScale s i act x.b k) fun j =>
        let l := 16 * k + j / 8
        if hasLane act l then (src32 s i l (regPlus x.a (j % 8))).toNat else 0
      let h0 := if act.extractLsb' 0 16 = 0 then ([], 0) else half 0
      let h1 := if act.extractLsb' 16 16 = 0 then ([], 0) else half 1
      vecEff i act s x.h x.d false 10 fun l =>
        let h := if l < 16 then h0 else h1
        (BitVec.ofNat 64 ((List.range 8).foldl (fun m k => m + nth 0 h.1 (8 * (l % 16) + k) * 16 ^ k) 0), h.2)) s
/-- The eight values that QUNPK delivers to each lane of a half, and the half's flags; the block is decoded as a whole. -/
def unpackHalf (c : FpCtl) (e : Nat) (slot : Nat → Nat) : List (Nat × Fl) × Fl :=
  let (vs, q) := q4xElems slot
  (vs.map fun v => if e = 0xFF then (fp32.nan, 0) else fp32.pack c.rm c.ftz false (scaleBy v e), if q then fQFMT else 0)
/-- QUNPK has eight results a lane, which L0 holds together, the first in the lowest bits (R153) (DEDUCED, log 32). -/
def execQunpk (x : FpR) (s : State) : Out :=
  issueForm { h := x.h, opc := 0x46, who := .groups
              plan := { srcs := [(x.a, 1), (x.b, 1)], dsts := [(x.d, 8)], wbs := x.h.wbs } }
    (fun i act s =>
      let c := fpCtl s i x.rm
      let half (k : Nat) := unpackHalf c (halfScale s i act x.b k) fun j =>
        let l := 16 * k + j / 8
        if hasLane act l then (src32 s i l x.a).toNat / 16 ^ (j % 8) % 16 else 0
      let h0 := if act.extractLsb' 0 16 = 0 then ([], 0) else half 0
      let h1 := if act.extractLsb' 16 16 = 0 then ([], 0) else half 1
      let now := (s.core (s.coreOf i.ctx)).time
      let vals := (lanesOf act).flatMap fun l =>
        let h := if l < 16 then h0 else h1
        (List.range 8).map fun k => (l, k, nth (0, 0) h.1 (8 * (l % 16) + k))
      let row (l : Nat) : Nat := (vals.filter fun x => x.1 = l).foldl (fun m (_, k, v, _) => m + v % 2 ^ 32 * 2 ^ (32 * k)) 0
      { st := s
        latch := [{ vals := (lanesOf act).map fun l => (l, BitVec.ofNat 64 (row l)), high := (lanesOf act).map fun l => (l, BitVec.ofNat 192 (row l / 2 ^ 64))
                    wide := true, due := now + 10 }]
        wr := if x.h.wbs then [] else vals.flatMap fun (l, k, v, _) => match x.d with | .v n => [⟨.v l (n.val + k), BitVec.ofNat 64 v⟩] | _ => []
        lat := 10
        fl := vals.foldl (fun m (_, _, _, fl) => m ||| fl) (h0.2 ||| h1.2) }) s

/-! ## Lane exchange (R186, R187) -/

/-- The source lane that SHFL forms; none outside 0 to 31 (DEDUCED, log 62). -/
def shflLane (m : ShflMode) (i b : Nat) : Option Nat :=
  match m with
  | .idx => some (b % 32)
  | .up => if b ≤ i then some (i - b) else none
  | .dn => if i + b < 32 then some (i + b) else none
  | .xor => some (i ^^^ (b % 32))
def execShfl (x : ShflF) (s : State) : Out :=
  issueForm { h := x.h, opc := 0x47, who := .groups
              plan := { srcs := [(x.a, regsOf x.w64), (x.b, 1)], dsts := [(x.d, regsOf x.w64)], wbs := x.h.wbs } }
    (fun i act s => vecEff i act s x.h x.d x.w64 6 fun l =>
      let k := match shflLane x.mode l (src32 s i l x.b).toNat with
        | some k => if hasLane act k then k else l
        | none => l
      (readReg s i k x.w64 x.a, 0)) s
def voteValue (m : VoteMode) (vs : List (Nat × Word)) : Word :=
  match m with
  | .ballot => maskOf ((vs.filter fun (_, v) => v ≠ 0).map (·.1))
  | .any => if vs.any fun (_, v) => v ≠ 0 then 1 else 0
  | .all => if vs.all fun (_, v) => v ≠ 0 then 1 else 0
  | .uni => if vs.all fun (_, v) => some v = vs.head?.map (·.2) then 1 else 0
def execVote (x : VoteF) (s : State) : Out :=
  issueForm { h := x.h, opc := 0x48, who := .groups, plan := { srcs := [(x.a, 1)], dsts := [(x.d, 1)], wbs := x.h.wbs } }
    (fun i act s => vecEff i act s x.h x.d false 6 fun _ =>
      ((voteValue x.mode ((lanesOf act).map fun l => (l, src32 s i l x.a))).setWidth 64, 0)) s

/-! ## Reductions (R137, R188) -/

def redWide : RedOp → Bool
  | .addI64 => true
  | _ => false
/-- One combination (DEDUCED, log 61). -/
def redCombine (op : RedOp) (ctl : Word) (a b : Nat) : Nat × Fl :=
  match op with
  | .addI32 => ((a + b) % 2 ^ 32, 0)
  | .addF32 => fp32.add (fpSel .dyn ctl) a b
  | .addF32Rne => fp32.add (fpSel .rne ctl) a b
  | .addI64 => ((a + b) % 2 ^ 64, 0)
  | .minS32 => (lesser false 32 a b, 0)
  | .maxS32 => (greater false 32 a b, 0)
  | .minU32 => (min a b, 0)
  | .maxU32 => (max a b, 0)
  | .minF32 => fp32.minMax false (fpctlFtz ctl) a b
  | .maxF32 => fp32.minMax true (fpctlFtz ctl) a b
  | .and => (a &&& b, 0)
  | .or => (a ||| b, 0)
  | .xor => (a ^^^ b, 0)
/-- A value that may be empty, and the flags of the combinations made for it. -/
abbrev Sum := Option Nat × Fl
def sumJoin (f : Nat → Nat → Nat × Fl) (a b : Sum) : Sum :=
  match a, b with
  | (none, p), (y, q) => (y, p ||| q)
  | (x, p), (none, q) => (x, p ||| q)
  | (some x, p), (some y, q) => let (z, r) := f x y; (some z, p ||| q ||| r)
/-- node(lo, 2^k) of R137: a lone element passes unchanged, a NaN's bits among them, for no sum is made of it (DEDUCED, log 61). -/
def sumNode (f : Nat → Nat → Nat × Fl) (v : Nat → Option Nat) (lo k : Nat) : Sum :=
  match k with
  | 0 => (v lo, 0)
  | j + 1 => sumJoin f (sumNode f v lo j) (sumNode f v (lo + 2 ^ j) j)
/-- The inclusive prefix over the first n lanes: the aligned blocks that the binary digits of n name, from the highest down. -/
def sumPrefix (f : Nat → Nat → Nat × Fl) (v : Nat → Option Nat) (n : Nat) : Sum :=
  ([5, 4, 3, 2, 1, 0].foldl (fun (acc : Sum × Nat) k =>
    if n.testBit k then (sumJoin f acc.1 (sumNode f v acc.2 k), acc.2 + 2 ^ k) else acc) (((none, 0) : Sum), 0)).1
/-- The lane at which the segment of a contributing lane begins. -/
def segStart (act : Lanes) (mark : Nat → Bool) (l : Nat) : Nat :=
  ((lanesOf act).filter fun k => k ≤ l && mark k).getLast?.getD (lowestLane act)
def reduce (x : RedF) (opc : Nat) (scan : Bool) : State → Out :=
  let w := redWide x.op
  issueForm { h := x.h, opc := opc, who := .groups
              plan := { srcs := [(x.a, regsOf w), (x.b, regsOf w)], dsts := [(x.d, regsOf w)], wbs := x.h.wbs } }
    fun i act s =>
      let f := redCombine x.op (s.ctx i.ctx).fpctl
      let seg := segStart act fun k => readReg s i k w x.b ≠ 0
      vecEff i act s x.h x.d w 10 fun l =>
        let v (k : Nat) : Option Nat := if hasLane act k && seg k = seg l then some (opnd s i k w x.a) else none
        let (r, fl) := if scan then sumPrefix f v (l + 1) else sumNode f v 0 5
        (BitVec.ofNat 64 (r.getD 0), fl)
def execRedg (x : RedF) (s : State) : Out := reduce x 0x49 false s
def execScang (x : RedF) (s : State) : Out := reduce x 0x4A true s

/-! ## System registers (R189, R190) -/

def sysWide : SysReg → Bool
  | .taddr | .tpc | .trapbase | .retcnt _ | .d _ | .pumpst | .wptr _ => true
  | _ => false
/-- Registers that are there at trap level only. -/
def sysTrap : SysReg → Bool
  | .tcause | .taddr | .tpc | .tlanes | .tparent | .tsibs => true
  | _ => false
/-- PUMPST (R98). -/
def Pump.bits (p : Pump) : DWord :=
  BitVec.ofBool p.act ++ 0#1 ++ BitVec.ofNat 2 p.acn ++ BitVec.ofNat 12 p.mt ++ BitVec.ofNat 12 p.nt ++ 0#20 ++ BitVec.ofNat 16 p.kb
/-- FAIRCNT (R17). -/
def Ctx.faircnt (c : Ctx) : Word := 0#3 ++ BitVec.ofNat 13 c.issued ++ 0#3 ++ BitVec.ofNat 13 c.limit
/-- DUTYSEL as a virtual function reads it: bit 7 is the physical function's (R351). -/
def State.dutysel (s : State) (vfn : Nat) : Word := ((s.vf vfn).dutysel &&& 0x7F) ||| (s.pf.dutysel &&& 0x80)
/-- The value of a system register. -/
def sysRead (s : State) (i : Issue) (r : SysReg) : DWord :=
  let c := s.ctx i.ctx
  let g := s.wgOf i.ctx
  let t (f : TrapCtx → DWord) : DWord := match c.trap with | some t => f t | none => 0
  match r with
  | .fpctl => c.fpctl.setWidth 64
  | .fpstat => c.fpstat.setWidth 64
  | .faircnt => c.faircnt.setWidth 64
  | .tcause => t fun t => t.regs.cause.setWidth 64
  | .taddr => t fun t => t.regs.addr
  | .tpc => t fun t => t.regs.pc
  | .tlanes => t fun t => t.regs.lanes.setWidth 64
  | .tparent => t fun _ => BitVec.ofNat 64 (i.ctx % 32)
  | .tsibs => t fun t => t.sibs.setWidth 64
  | .trapbase => g.trapbase
  | .dutysel => (s.dutysel g.vfn).setWidth 64
  | .retcnt n => nth 0 (s.vf g.vfn).retcnt n.val
  | .d n => nth 0 g.d n.val
  | .cways => g.cways.setWidth 64
  | .pumpst => g.pump.bits
  | .wptr n => nth 0 g.wptr n.val
/-- The wait for earlier vector instructions (R134, R189). -/
def fpWait (s : State) (i : Issue) : Nat :=
  let now := (s.core (s.coreOf i.ctx)).time
  min 10 ((s.ctx i.ctx).vecDone - now)
/-- A trap at check 8 of every acting lane. -/
def allFault (s : State) (act : Lanes) (cause detail : Nat) (addr : DWord) : Eff := { st := s, fault := some ⟨act, cause, detail, addr⟩ }

def execRdsr (x : RdsrF) (s : State) : Out :=
  let w := sysWide x.sr
  issueFormS (fun i _ => { h := x.h, opc := 0x4B, who := .both
                           plan := { dsts := [(x.d, regsOf w)], wbs := x.h.wbs
                                     ok := !(x.sr = .faircnt && i.ctx % 32 = 16) && !(w && x.d = .sp .zero) } })
    (fun i act s =>
      if sysTrap x.sr && !i.level && act ≠ 0 then allFault s act 0x11 0 i.pc
      else
        let e := vecEff i act s x.h x.d w 6 fun _ => (sysRead s i x.sr, 0)
        match x.sr with
        | .fpstat => if act ≠ 0 then { e with stall := fpWait s i } else e
        | .wptr _ => if act ≠ 0 then { e with st := s.learn i.ctx } else e
        | _ => e) s

/-- WRSR's checks of the value (R17, R131, R284) and its write; none where it traps with 0x02. -/
def sysWrite (s : State) (i : Issue) (r : SysReg) (v : DWord) : Option State :=
  let w : Word := v.setWidth 32
  match r with
  | .fpctl => if fpctlOk w then some (s.updCtx i.ctx fun c => { c with fpctl := w }) else none
  | .fpstat => if fpstatOk w then some (s.updCtx i.ctx fun c => { c with fpstat := w }) else none
  | .faircnt =>
    let lim := (w.extractLsb' 0 13).toNat
    if w.extractLsb' 29 3 ≠ 0 || w.extractLsb' 13 3 ≠ 0 || lim < 64 || lim > 4096 || lim % 8 ≠ 0 then none
    else some (s.updCtx i.ctx fun c => { c with limit := lim })
  | .trapbase =>
    if v.toNat % 8 ≠ 0 || windowOf v ≠ .global then none else some (s.updWg (i.ctx / 32) fun g => { g with trapbase := v })
  | _ => some s
def execWrsr (x : WrsrF) (s : State) : Out :=
  let named := match x.sr with | .d _ | .cways | .pumpst | .wptr _ => false | _ => true
  issueFormS (fun i _ => { h := x.h, opc := 0x4C, who := .both
                           plan := { srcs := [(x.a, regsOf (sysWide x.sr))], ok := named && !(x.sr = .faircnt && i.ctx % 32 = 16) } })
    (fun i act s =>
      let writable := match x.sr with | .fpctl | .fpstat | .faircnt => true | .trapbase => i.level | _ => false
      if act = 0 then { st := s }
      else if !writable then allFault s act 0x11 0 i.pc
      else match sysWrite s i x.sr (readReg s i (lowestLane act) (sysWide x.sr) x.a) with
        | none => allFault s act 0x02 0 i.pc
        | some t => { st := t, stall := if x.sr = .fpstat then fpWait s i else 0 }) s

/-! ## Tile shapes (R231 to R233) -/

def shapeType (w : Word) : Nat := (w.extractLsb' 28 4).toNat
def shapeRows (w : Word) : Nat := (w.extractLsb' 22 6).toNat
def shapeCols (w : Word) : Nat := (w.extractLsb' 8 14).toNat
/-- Row bytes (R232). -/
def shapeRb (w : Word) : Nat := if shapeType w ≤ 1 then 2 * shapeCols w else if shapeType w = 4 then shapeCols w / 2 else shapeCols w
def shapeOk (w : Word) : Bool :=
  shapeType w ≤ 5 && 1 ≤ shapeRows w && shapeRows w ≤ 32 && 1 ≤ shapeCols w && shapeCols w ≤ 8192 && w.extractLsb' 0 8 = 0 &&
  shapeRb w % 8 = 0 && (shapeType w ≠ 4 || shapeCols w % 128 = 0) && shapeRows w * shapeRb w ≤ 4096
def execMovts (x : MovtsF) (s : State) : Out :=
  issueForm { h := x.h, opc := 0x4D, who := .both, plan := { srcs := [(x.a, 1)] } }
    (fun i act s =>
      if act = 0 then { st := s }
      else
        let w := src32 s i (lowestLane act) x.a
        if shapeOk w then { st := s.updWg (i.ctx / 32) fun g => { g with tshape := setNth g.tshape x.t.val w } }
        else allFault s act 0x02 0 i.pc) s

end Sys2Proof.Machine
end

