-- ==== Sys2Proof/Machine/Control.lean ====
section
/-! DEFINITION. Control flow, the trough and TFENCE (R19, R22, R23, R135, R191 to R196), and the phases of SYNC, which an exiting lane
can complete (R227). -/
namespace Sys2Proof.Machine

/-- Go on with the next state of an outcome. -/
def Out.andThen (o : Out) (f : State → State) : Out :=
  match o with
  | .next s => .next (f s)
  | .fault x => .fault x
  | .refused r => .refused r

/-! ## Phases of SYNC (R227) -/

/-- Whether two cores lie in one instance of a scope; quad q of a die is its cores 4q to 4q + 3 (DESIGN CHOICE, log 16). -/
def sameInstance (scope : Scope) (a b : Nat) : Bool :=
  match scope with
  | .grp | .core => a = b
  | .quad => a / 4 = b / 4
  | .die => coreDie a = coreDie b
  | .pkg | .pod | .sys => true
/-- The unretired groups of a group's grid in its instance of a scope. -/
def State.syncMembers (s : State) (ck : Nat) (scope : Scope) : List Nat :=
  (Tab.keys s.ctxs).filter fun k => k % 32 ≠ 16 && (s.wgOf k).grid = (s.wgOf ck).grid && sameInstance scope (s.coreOf k) (s.coreOf ck) && (s.ctx k).front.live ≠ 0
def Ctx.arrived (c : Ctx) (scope : Scope) : Lanes := c.syncs.foldl (fun m (sc, l) => if sc = scope then m ||| l else m) 0
/-- The phase completes when every member has arrived: the lanes wake, and acquire. -/
def State.syncSettle1 (s : State) (ck : Nat) (scope : Scope) : State :=
  let ms := if scope = .grp then (if (s.ctx ck).front.live ≠ 0 then [ck] else []) else s.syncMembers ck scope
  let done := match scope with
    | .grp => (s.ctx ck).arrived .grp ≠ 0 && (s.ctx ck).front.live &&& ~~~(s.ctx ck).arrived .grp = 0
    | _ => !ms.isEmpty && ms.all fun k => (s.ctx k).arrived scope ≠ 0
  if !done then s
  else
    let s := ms.foldl (fun t k => t.updCtx k fun c => { c with syncs := c.syncs.filter fun (sc, _) => sc ≠ scope }) s
    let s := (((ms.map s.coreOf).eraseDups).foldl (fun t core => t.acquire core scope) s).learnAll ms fun k => syncKey (k / 32) scope
    s.wakeAll fun k st => ms.contains k && st = .blockedBar (.sync scope)
def State.syncSettle (s : State) (ck : Nat) : State :=
  if ck % 32 = 16 then [Scope.core, .quad, .die, .pkg].foldl (fun t sc => t.syncSettle1 ck sc) s
  else [Scope.grp, .core, .quad, .die, .pkg].foldl (fun t sc => t.syncSettle1 ck sc) s

/-! ## Branches (R191, R192) -/

/-- PC + 8 × offset. -/
def branchTarget (pc : DWord) (off : DWord) : DWord := pc + (off <<< 3)
def sameNext (act : Lanes) (t : DWord) : Tab DWord := (lanesOf act).map fun l => (l, t)
def ownNext (s : State) (i : Issue) (act : Lanes) (r : Reg) : Tab DWord := (lanesOf act).map fun l => (l, src64 s i l r)

/-- NOP changes nothing but the PC (R195). -/
def execNop (x : Plain) (s : State) : Out :=
  issueForm { h := x.h, opc := 0x60, who := .both, plan := {} } (fun _ _ s => { st := s }) s
def execBra (x : BraF) (s : State) : Out :=
  issueForm { h := x.h, opc := 0x61, who := .both, plan := {} }
    (fun i act s => { st := s, next := sameNext act (branchTarget i.pc (x.off.signExtend 64)) }) s
def execBraX (x : BraX) (s : State) : Out :=
  issueForm { h := x.h, opc := 0x61, who := .both, plan := {} }
    (fun i act s => { st := s, next := sameNext act (branchTarget i.pc (x.off.signExtend 64)) }) s
/-- BRX sets the landing bits (R193). -/
def execBrx (x : JumpF) (s : State) : Out :=
  issueForm { h := x.h, opc := 0x62, who := .both, plan := { srcs := [(x.a, 2)] } }
    (fun i act s => { st := s, next := ownNext s i act x.a, land := some (act, true) }) s
/-- The link register of the full form of CALL: V0–V1, or S31 in a head context. -/
def fullLink (i : Issue) : Reg := if i.ctx % 32 = 16 then .s 31 else .v 0
/-- A link must be an even V pair or an S register, never ZERO. -/
def linkOk (r : Reg) : Bool := match r with | .sp _ => false | _ => true
def linkEff (i : Issue) (act : Lanes) (s : State) (h : Hdr) (d : Reg) : Eff :=
  vecEff i act s h d true 4 fun _ => (i.pc + BitVec.ofNat 64 i.size, 0)
def execCall (x : BraF) (s : State) : Out :=
  issueFormS (fun i _ => { h := x.h, opc := 0x63, who := .both, plan := { dsts := [(fullLink i, 2)], wbs := x.h.wbs } })
    (fun i act s => { linkEff i act s x.h (fullLink i) with next := sameNext act (branchTarget i.pc (x.off.signExtend 64)) }) s
def execCallX (x : CallX) (s : State) : Out :=
  issueForm { h := x.h, opc := 0x63, who := .both, plan := { dsts := [(x.d, 2)], ok := linkOk x.d, wbs := x.h.wbs } }
    (fun i act s => { linkEff i act s x.h x.d with next := sameNext act (branchTarget i.pc (x.off.signExtend 64)) }) s
def execCallx (x : CallxF) (s : State) : Out :=
  issueForm { h := x.h, opc := 0x64, who := .both, plan := { srcs := [(x.a, 2)], dsts := [(x.d, 2)], ok := linkOk x.d, wbs := x.h.wbs } }
    (fun i act s => { linkEff i act s x.h x.d with next := ownNext s i act x.a, land := some (act, true) }) s
def execRet (x : JumpF) (s : State) : Out :=
  issueForm { h := x.h, opc := 0x65, who := .both, plan := { srcs := [(x.a, 2)] } }
    (fun i act s => { st := s, next := ownNext s i act x.a }) s
/-- LAND clears the landing bit of every executing lane. -/
def execLand (x : Plain) (s : State) : Out :=
  issueForm { h := x.h, opc := 0x66, who := .both, plan := {} } (fun i _ s => { st := s, land := some (i.exec, false) }) s

/-- EXIT retires the acting lanes, and releases; in a head context it ends the context (R85, R195). A handler's lane that exits leaves the handler; the
lane it works for stays parked (R13) (DEDUCED, log 45). -/
def execExit (x : Plain) (s : State) : Out :=
  Out.andThen
    (issueForm { h := x.h, opc := 0x67, who := .both, plan := {} }
      (fun i act s =>
        let t := if act = 0 then s else s.publish i.ctx
        { st := if i.ctx % 32 = 16 && !i.level && act ≠ 0 then t.updWg (i.ctx / 32) fun g => { g with headExited := true } else t
          exits := act }) s)
    fun t => match s.issue with | some i => t.syncSettle i.ctx | none => t
/-- YIELD (R19); in a head context it only advances the PC (DEDUCED, log 25). -/
def execYield (x : Plain) (s : State) : Out :=
  issueForm { h := x.h, opc := 0x68, who := .both, plan := {} } (fun _ act s => { st := s, yields := act ≠ 0 }) s

/-! ## The trough (R23, R196) -/

def execDqpush (x : JumpF) (s : State) : Out :=
  issueForm { h := x.h, opc := 0x69, who := .heads, plan := { srcs := [(x.a, 2)] } }
    (fun i act s => { st := if act = 0 then s else (s.updWg (i.ctx / 32) fun g => { g with trough := g.trough ++ [src64 s i 0 x.a] }).publishAt i.ctx (troughKey (i.ctx / 32)) }) s
def execDqpop (x : DestF) (s : State) : Out :=
  issueForm { h := x.h, opc := 0x6A, who := .groups, plan := { dsts := [(x.d, 2)], wbs := x.h.wbs } }
    (fun i act s =>
      match (s.wgOf i.ctx).trough with
      | [] => vecEff i act s x.h x.d true 0 fun _ => (0xFFFFFFFFFFFFFFFF, 0)
      | v :: t =>
        vecEff i act (if act = 0 then s else (s.updWg (i.ctx / 32) fun g => { g with trough := t }).learnAt (troughKey (i.ctx / 32)) i.ctx) x.h x.d true 3 fun _ => (v, 0)) s

/-- TFENCE (R135): the enabled flags of FPSTAT trap, in the acting lanes; with none it only waits for nothing and goes on (DEDUCED, log 123). -/
def execTfence (x : Plain) (s : State) : Out :=
  issueForm { h := x.h, opc := 0x6B, who := .both, plan := {} }
    (fun i act s =>
      let c := s.ctx i.ctx
      let f : Fl := (c.fpstat.setWidth 6) &&& fpctlEn c.fpctl
      if act = 0 then { st := s }
      else if f = 0 then { st := s, stall := fpWait s i }
      else { allFault s act (if f &&& fQFMT ≠ 0 then 0x21 else 0x20) f.toNat i.pc with stall := fpWait s i }) s

end Sys2Proof.Machine
end

