-- ==== Sys2Proof/Machine/Memory.lean ====
section
/-! DEFINITION. Loads and stores, gather and scatter, prefetch, invalidate, flush and fence (R197 to R210). -/
namespace Sys2Proof.Machine

/-! ## Lanes of an access -/

/-- The parts of one lane's access, each with its checks (R39, R198): an access of 16 bytes is two parts of eight (DEDUCED, log 97). -/
def State.laneParts (s : State) (ck lane : Nat) (va : DWord) (w : Width) (write : Bool) (d : Reg) (op : Nat → ElemOp) : List (Chk × Elem) :=
  let n := widthBytes w
  let e (k m : Nat) : Elem := { lane := lane, va := va + BitVec.ofNat 64 (8 * k), place := .mem 0 0 0, n := m, dst := regPlus d (2 * k), op := op k }
  match (chkSpan va n (min n 8)).or (s.chkReach ck va n write) with
  | some (c, t, a) => [(.fault c t a, e 0 n)]
  | none =>
    if n = 16 then (List.range 2).map fun k => (s.chkWindow ck (va + BitVec.ofNat 64 (8 * k)) 8 write, e k 8)
    else [(s.chkWindow ck va n write, e 0 n)]
def lookAll (act : Lanes) (f : Nat → List (Chk × Elem)) : Lookup := (lanesOf act).foldl (fun k l => k.add l (f l)) {}
/-- The data of a store, part by part. -/
def storeData (s : State) (i : Issue) (lane : Nat) (w : Width) (d : Reg) (k : Nat) : DWord :=
  readReg s i lane (w = .w64 || w = .w128) (regPlus d (2 * k))
/-- The offset of a full form: OFF5 or OFF8 times the access size (R197). -/
def offBy (n : Nat) (off : Nat) : DWord := BitVec.ofNat 64 (off * n)

def loadForm (h : Hdr) (pol : Policy) (scope : Scope) (w : Width) (d addr : Reg) (off : DWord) : State → Out :=
  issueForm { h := h, opc := 0, who := .both, plan := { srcs := [(addr, 2)], dsts := [(d, widthRegs w)], ok := addrOk addr } }
    fun i act s => accessEff i s pol scope true false <|
      lookAll act fun l => s.laneParts i.ctx l (src64 s i l addr + off) w false d fun _ => .load
def storeForm (h : Hdr) (pol : Policy) (scope : Scope) (w : Width) (d addr : Reg) (off : DWord) : State → Out :=
  issueForm { h := h, opc := 0, who := .both, plan := { srcs := [(addr, 2), (d, widthRegs w)], ok := addrOk addr } }
    fun i act s => accessEff i s pol scope false false <|
      lookAll act fun l => s.laneParts i.ctx l (src64 s i l addr + off) w true (.sp .zero) fun k => .store (storeData s i l w d k)
def loadF (x : PolMem) (w : Width) : State → Out := loadForm x.h x.pol x.scope w x.data x.addr (offBy (widthBytes w) x.off.toNat)
def loadX (x : PolMemX) (w : Width) : State → Out := loadForm x.h x.pol x.scope w x.data x.addr (x.off.signExtend 64)
def storeF (x : PolMem) (w : Width) : State → Out := storeForm x.h x.pol x.scope w x.data x.addr (offBy (widthBytes w) x.off.toNat)
def storeX (x : PolMemX) (w : Width) : State → Out := storeForm x.h x.pol x.scope w x.data x.addr (x.off.signExtend 64)

/-! ## LD and ST (R203) -/

def execLd8 (x : PolMem) (s : State) : Out := loadF x .w8 s
def execLd8X (x : PolMemX) (s : State) : Out := loadX x .w8 s
def execLd16 (x : PolMem) (s : State) : Out := loadF x .w16 s
def execLd16X (x : PolMemX) (s : State) : Out := loadX x .w16 s
def execLd32 (x : PolMem) (s : State) : Out := loadF x .w32 s
def execLd32X (x : PolMemX) (s : State) : Out := loadX x .w32 s
def execLd64 (x : PolMem) (s : State) : Out := loadF x .w64 s
def execLd64X (x : PolMemX) (s : State) : Out := loadX x .w64 s
def execLd128 (x : PolMem) (s : State) : Out := loadF x .w128 s
def execLd128X (x : PolMemX) (s : State) : Out := loadX x .w128 s
def execSt8 (x : PolMem) (s : State) : Out := storeF x .w8 s
def execSt8X (x : PolMemX) (s : State) : Out := storeX x .w8 s
def execSt16 (x : PolMem) (s : State) : Out := storeF x .w16 s
def execSt16X (x : PolMemX) (s : State) : Out := storeX x .w16 s
def execSt32 (x : PolMem) (s : State) : Out := storeF x .w32 s
def execSt32X (x : PolMemX) (s : State) : Out := storeX x .w32 s
def execSt64 (x : PolMem) (s : State) : Out := storeF x .w64 s
def execSt64X (x : PolMemX) (s : State) : Out := storeX x .w64 s
def execSt128 (x : PolMem) (s : State) : Out := storeF x .w128 s
def execSt128X (x : PolMemX) (s : State) : Out := storeX x .w128 s

/-! ## LDS and STS (R42, R204) -/

/-- One lane's parts: the own-cistern offset o, its alignment, the reserved bytes, and words that are lost. -/
def State.cistParts (s : State) (ck lane : Nat) (o : Nat) (w : Width) (write : Bool) (d : Reg) (op : Nat → ElemOp) : List (Chk × Elem) :=
  let n := widthBytes w
  let g := s.wgOf ck
  let va (a : Nat) : DWord := BitVec.ofNat 64 (0xFF00000000000000 + a)
  let e (k m : Nat) (p : Place) : Elem := { lane := lane, va := va (o + 8 * k), place := p, n := m, dst := regPlus d (2 * k), op := op k }
  if o % min n 8 ≠ 0 then [(.fault 0x14 0 (va o), e 0 n (.cist 0 0))]
  else if o + n > g.reserved then [(.fault 0x11 (if write then 1 else 0) (va (max o g.reserved)), e 0 n (.cist 0 0))]
  else if n = 16 then (List.range 2).map fun k => (s.chkCist (va (o + 8 * k)) g.core (g.cistPhys (o + 8 * k)) 8, e k 8 (.cist 0 0))
  else [(s.chkCist (va o) g.core (g.cistPhys o) n, e 0 n (.cist 0 0))]
/-- The cycles that a bank conflict adds (DEDUCED, log 18). -/
def cistStall (es : List Elem) : Nat :=
  let ws := (es.flatMap fun e => e.units).eraseDups
  (List.range 32).foldl (fun m b => max m ((ws.filter fun w => w % 32 = b).length - 1)) 0
def cistOffset (s : State) (i : Issue) (lane : Nat) (base : Reg) (off : DWord) : Nat := (((src32 s i lane base).setWidth 64) + off).toNat % 2 ^ 32
/-- LDS: the result is written, and fills its latch, 12 cycles after issue. -/
def ldsForm (h : Hdr) (w : Width) (d base : Reg) (off : DWord) : State → Out :=
  issueForm { h := h, opc := 0x8A, who := .both, plan := { srcs := [(base, 1)], dsts := [(d, widthRegs w)], wbs := h.wbs, ok := addrOk base } }
    fun i act s =>
      let dst : Reg := if h.wbs then .sp .zero else d
      let k := lookAll act fun l => s.cistParts i.ctx l (cistOffset s i l base off) w false dst fun _ => .load
      let now := (s.core (s.coreOf i.ctx)).time
      { st := s, fault := k.fault, elems := k.elems, lat := 12, stall := cistStall k.elems
        latch := [{ wide := w = .w64 || w = .w128, due := now + 12, src := s.ids }] }
def stsForm (h : Hdr) (w : Width) (d base : Reg) (off : DWord) : State → Out :=
  issueForm { h := h, opc := 0x8B, who := .both, plan := { srcs := [(base, 1), (d, widthRegs w)], ok := addrOk base } }
    fun i act s =>
      let k := lookAll act fun l => s.cistParts i.ctx l (cistOffset s i l base off) w true (.sp .zero) fun j => .store (storeData s i l w d j)
      { st := s, fault := k.fault, elems := k.elems, lat := 12, stall := cistStall k.elems }
def execLds (x : CistMem) (s : State) : Out := ldsForm x.h x.w x.data x.base (offBy (widthBytes x.w) x.off.toNat) s
def execLdsX (x : CistMemX) (s : State) : Out := ldsForm x.h x.w x.data x.base (x.off.signExtend 64) s
def execSts (x : CistMem) (s : State) : Out := stsForm x.h x.w x.data x.base (offBy (widthBytes x.w) x.off.toNat) s
def execStsX (x : CistMemX) (s : State) : Out := stsForm x.h x.w x.data x.base (x.off.signExtend 64) s

/-! ## LDLV and STLV (R46, R205) -/

def State.lexParts (s : State) (ck lane k off : Nat) (w : Width) (write : Bool) (d : Reg) (op : Nat → ElemOp) : List (Chk × Elem) :=
  let n := widthBytes w
  let e (j m : Nat) (va : DWord) : Elem := { lane := lane, va := va, place := .mem 0 0 0, n := m, dst := regPlus d (2 * j), op := op j }
  if off % min n 8 ≠ 0 then [(.fault 0x14 0 (frameAddr k off), e 0 n 0)]
  else match s.chkLex ck k off n write with
    | .inr (c, t, a) => [(.fault c t a, e 0 n 0)]
    | .inl g =>
      if n = 16 then (List.range 2).map fun j => (s.chkGlobal ck (g + 8 * j) write, e j 8 (BitVec.ofNat 64 (g + 8 * j)))
      else [(s.chkGlobal ck g write, e 0 n (BitVec.ofNat 64 g))]
def lexOff (s : State) (i : Issue) (lane : Nat) (idx : Reg) (off : Word) : Nat := off.toNat + (src32 s i lane idx).toNat
def execLdlv (x : LexMem) (s : State) : Out :=
  issueForm { h := x.h, opc := 0x8C, who := .both, plan := { srcs := [(x.idx, 1)], dsts := [(x.data, widthRegs x.w)], ok := addrOk x.idx } }
    (fun i act s => accessEff i s x.pol x.scope true false <|
      lookAll act fun l => s.lexParts i.ctx l x.level.toNat (lexOff s i l x.idx x.off) x.w false x.data fun _ => .load) s
def execStlv (x : LexMem) (s : State) : Out :=
  issueForm { h := x.h, opc := 0x8D, who := .both, plan := { srcs := [(x.idx, 1), (x.data, widthRegs x.w)], ok := addrOk x.idx } }
    (fun i act s => accessEff i s x.pol x.scope false false <|
      lookAll act fun l => s.lexParts i.ctx l x.level.toNat (lexOff s i l x.idx x.off) x.w true (.sp .zero) fun k => .store (storeData s i l x.w x.data k)) s

/-! ## LDP (R206) -/

/-- A lane whose address would fault is dropped, and so is one whose page is not there or that names a cistern; one whose page is being reclassified, or
must be, waits (R73). A prefetch into the home slice changes only what the last-level cache holds. -/
def prefetchForm (h : Hdr) (pol : Policy) (scope : Scope) (addr : Reg) (off : DWord) : State → Out :=
  issueForm { h := h, opc := 0x8E, who := .both, plan := { srcs := [(addr, 2)], ok := addrOk addr } }
    fun i act s =>
      let k := (lanesOf act).foldl (fun (k : Lookup) l =>
        let va := src64 s i l addr + off
        match s.chkAccess i.ctx va 1 1 false with
        | .ok (.mem pa c o) => { k with elems := k.elems ++ [{ lane := l, va := va, place := .mem pa c o, n := 1, dst := .sp .zero, op := .pref }] }
        | .wait (.waitClass a n) w x => k.addWait l (.waitClass a n) w x
        | _ => k) ({} : Lookup)
      if scopeRank scope ≤ 1 then accessEff i s pol scope true false k
      else
        let lines := (k.elems.filter fun e => !e.meetsZ s).flatMap (·.memWords)
        { accessEff i ((k.elems.foldl (fun t e => t.touchVa i.ctx e.va) s).llcUseWords (s.coreOf i.ctx) lines) pol scope true false { k with elems := [] } with block := k.wait }
def execLdp (x : LdpF) (s : State) : Out := prefetchForm x.h x.pol x.scope x.addr (offBy 128 x.off.toNat) s
def execLdpX (x : LdpX) (s : State) : Out := prefetchForm x.h x.pol x.scope x.addr (x.off.signExtend 64) s

/-! ## GATH and SCAT (R108, R109, R207) -/

/-- Queue 1 of R306: a full queue stops the word whatever its guards (R160). -/
def sumpFull (s : State) (i : Issue) : Check := if (s.ctx i.ctx).outstanding ≥ 64 then some (6, 1) else none
/-- A lane access joins the core's sump (R108): the window that is open, unless its 32 cycles are over or 64 distinct lines are pending in it; else it opens
the next one. A window closes when its time comes, and at once with its 64th line. -/
def State.joinSump1 (s : State) (core : Nat) (x : Nat × Nat) : State :=
  let ws := (s.core core).sump
  let close (t : State) (due : Nat) : State := t.push .sumpWindowClose { id := core } (some due)
  match ws.getLast? with
  | some (o, l) =>
    if s.clock < o + 32 && (s.sumpBlocks l).length < 64 then
      let t := s.updCore core fun c => { c with sump := ws.dropLast ++ [(o, l ++ [x])] }
      if (s.sumpBlocks (l ++ [x])).length ≥ 64 then close t s.clock else t
    else close (s.updCore core fun c => { c with sump := ws ++ [(s.clock, [x])] }) (s.clock + 32)
  | none => close (s.updCore core fun c => { c with sump := [(s.clock, [x])] }) (s.clock + 32)
/-- An instruction's lane accesses join the sump in their order. -/
def State.joinSump (s : State) (core id : Nat) : State :=
  match s.acc id with
  | some a => (List.range a.elems.length).foldl (fun t k => t.joinSump1 core (id, k)) s
  | none => s
def sumpEff (i : Issue) (s : State) (pol : Policy) (scope : Scope) (isLoad : Bool) (k : Lookup) : Eff :=
  let e := accessEff i s pol scope isLoad true k
  match e.vary with
  | some 0 | none => e
  | some id => { e with st := e.st.joinSump (e.st.coreOf i.ctx) id }
def gathForm (h : Hdr) (pol : Policy) (scope : Scope) (w : Width) (d addr : Reg) (off : DWord) : State → Out :=
  issueFormS (fun i s => { h := h, opc := 0x8F, who := .both, plan := { srcs := [(addr, 2)], dsts := [(d, widthRegs w)], ok := addrOk addr }, queue := sumpFull s i })
    fun i act s => sumpEff i s pol scope true <|
      lookAll act fun l => s.laneParts i.ctx l (src64 s i l addr + off) w false d fun _ => .load
def scatForm (h : Hdr) (pol : Policy) (scope : Scope) (w : Width) (d addr : Reg) (off : DWord) : State → Out :=
  issueFormS (fun i s => { h := h, opc := 0x90, who := .both, plan := { srcs := [(addr, 2), (d, widthRegs w)], ok := addrOk addr }, queue := sumpFull s i })
    fun i act s => sumpEff i s pol scope false <|
      lookAll act fun l => s.laneParts i.ctx l (src64 s i l addr + off) w true (.sp .zero) fun k => .store (storeData s i l w d k)
def execGath (x : GathF) (s : State) : Out := gathForm x.h x.pol x.scope x.w x.data x.addr 0 s
def execGathX (x : GathX) (s : State) : Out := gathForm x.h x.pol x.scope x.w x.data x.addr (x.off.signExtend 64) s
def execScat (x : GathF) (s : State) : Out := scatForm x.h x.pol x.scope x.w x.data x.addr 0 s
def execScatX (x : GathX) (s : State) : Out := scatForm x.h x.pol x.scope x.w x.data x.addr (x.off.signExtend 64) s

/-! ## CINV and CFLUSH (R208, R209) -/

/-- A core gives up one word of its L1 by itself (R209; WB and Drop of R65). -/
def State.flushWord (s : State) (core w : Nat) : State :=
  let x := s.l1w core w
  let die := coreDie core
  match x.st with
  | .m | .o =>
    let s1 := s.l1GiveUp core w x .inval
    if (s1.dirWord w).mode = .x die then s1.setDir w { s1.dirWord w with mode := .n } else s1
  | .s =>
    let s1 := s.l1GiveUp core w x .inval
    if (s1.l1Of w).any fun (c, y) => coreDie c = die && (y.st = .s || y.st = .o || y.st = .m) then s1
    else match (s1.dirWord w).mode with
      | .t l => s1.setDir w { s1.dirWord w with mode := if l.filter (· ≠ die) = [] then .n else .t (l.filter (· ≠ die)) }
      | _ => s1
  | .us | .uw => s.setL1 core w {}
  | .ro | .i => s
/-- A range of a context's addresses cut at its pages, each piece with its translation; a cistern window and a gap are passed over. -/
def State.rangePieces (s : State) (ck : Nat) (a n : Nat) : List Piece :=
  (cuts a n 65536).flatMap fun (o, m) =>
    let va : DWord := BitVec.ofNat 64 (a + o)
    let at' (g o m : Nat) : Piece := ⟨o, va, m, s.withXlat ck g 0 fun t => .ok (.mem (t.phys g) t.cls t.own)⟩
    match windowOf va with
    | .global => [at' va.toNat o m]
    | .frame k f => match s.chkLex ck k f m false with
      | .inl g => (cuts g m 65536).map fun (p, l) => at' (g + p) (o + p) l
      | .inr (c, d, x) => [⟨o, va, m, .fault c d x⟩]
    | _ => []
/-- The physical pieces of a range, as far as it translates. -/
def State.physSegs (s : State) (ck : Nat) (a n : Nat) : List (Nat × Nat) :=
  (s.rangePieces ck a n).filterMap fun p => match p.chk with | .ok (.mem pa _ _) => some (pa, p.n) | _ => none
def inSegs (segs : List (Nat × Nat)) (w : Nat) : Bool := segs.any fun (a, n) => a < 4 * w + 4 && 4 * w < a + n
/-- The words of a core's L1 that a lane's range, or .ALL, covers. -/
def State.coreWords (s : State) (core : Nat) : List Nat := ((Tab.keys s.l1).filter fun k => k / 2 ^ 46 = core).map fun k => k % 2 ^ 46
def rangePlan : RangeSel → Plan
  | .all => {}
  | .range a n => { srcs := [(a, 2), (n, 1)], ok := addrOk a }
/-- Both forms, with what becomes of a word in range; a length of 0 is a fault of its lane, and a page that is not there lets its lane wait (R200)
(DEDUCED, log 109). -/
def rangeForm (x : RangeF) (opc : Nat) (f : State → Nat → Nat → State) : State → Out :=
  issueForm { h := x.h, opc := opc, who := .both, plan := rangePlan x.sel }
    fun i act s =>
      let core := s.coreOf i.ctx
      match x.sel with
      | .all => if act = 0 then { st := s, vary := some 0 } else { st := (s.coreWords core).foldl (fun t w => f t core w) s, vary := some 0 }
      | .range a n =>
        let (k, segs) := (lanesOf act).foldl (fun (acc : Lookup × List (Nat × Nat)) l =>
          let lo := (src64 s i l a).toNat
          let len := (src32 s i l n).toNat
          if len = 0 then (acc.1.addFault l 0x02 0 i.pc, acc.2)
          else match (badPiece (s.rangePieces i.ctx lo len)).map Piece.chk with
            | some (.fault c d v) => (acc.1.addFault l c d v, acc.2)
            | some (.wait st w y) => (acc.1.addWait l st w y, acc.2)
            | _ => (acc.1, acc.2 ++ s.physSegs i.ctx lo len)) (({} : Lookup), ([] : List (Nat × Nat)))
        accessEff i (((s.coreWords core).filter (inSegs segs)).foldl (fun t w => f t core w) s) .own .grp true false k
/-- CINV discards Us and Uw words. -/
def execCinv (x : RangeF) (s : State) : Out :=
  rangeForm x 0x91 (fun t core w => let y := t.l1w core w; if y.st = .us || y.st = .uw then t.setL1 core w {} else t) s
def execCflush (x : RangeF) (s : State) : Out := rangeForm x 0x92 (fun t core w => t.flushWord core w) s

/-! ## FENCE (R80 to R82, R210) -/

/-- The fence divides the accesses before it from those after; it completes by itself (State.settleFences), and without an acting lane it
has no effect. -/
def execFence (x : FenceF) (s : State) : Out :=
  issueForm { h := x.h, opc := 0x93, who := .both, plan := {} }
    (fun i act s =>
      if act = 0 then { st := s }
      else
        let (id, s) := s.newId
        { st := s.updCtx i.ctx fun c => { c with fences := c.fences ++ [{ lanes := act, kind := x.kind, scope := x.scope, id := id }] } }) s

end Sys2Proof.Machine
end

