-- ==== Sys2Proof/Machine/Sync.lean ====
section
/-! DEFINITION. Full/empty words, atomics, load-reserved and store-conditional, barrier registers and SYNC (R211 to R227). -/
namespace Sys2Proof.Machine

/-! ## LDFE and STEF (R24, R211) -/

/-- A lane's checks: alignment, then a scratchpad word. -/
def State.feCheck (s : State) (i : Issue) (va : DWord) (write : Bool) : Chk :=
  match chkSpan va 4 4 with
  | some (c, t, a) => .fault c t a
  | none => match windowOf va with
    | .global | .frame _ _ => .fault 0x02 0 i.pc
    | _ => s.chkWindow i.ctx va 4 write
/-- Lanes in ascending order: a word in the right state is taken, another blocks its lane. -/
structure FeWork where
  st : State
  look : Lookup := {}
def feStep (i : Issue) (store : Bool) (va : Nat → DWord) (op : Nat → ElemOp) (dst : Reg) (w : FeWork) (l : Nat) : FeWork :=
  match w.st.feCheck i (va l) store with
  | .fault c t a => { w with look := w.look.addFault l c t a }
  | .ok (.cist core b) =>
    let word := b / 4
    if w.st.feBit core word = store then
      let key := match windowOf (va l) with | .own _ => ownFeKey (i.ctx / 32) ((w.st.wgOf i.ctx).ownWord word) | _ => core * 0x10000 + word
      { w with look := { w.look with wait := Tab.put w.look.wait l (.blockedFE key, true) } }
    else
      let e : Elem := { lane := l, va := va l, place := .cist core b, n := 4, dst := dst, op := op l }
      let s := (w.st.flushOlder i.ctx e w.st.ids true).flushPends i.ctx e
      let (got, new) := e.apply (s.cistBytes core b 4)
      let s := match new with | some bs => s.setCistBytes core b bs | none => s
      let s := ((if store then s.publish i.ctx else s).carry i.ctx e).setFe core word store |>.wakeWord core word
      { st := s, look := { w.look with elems := w.look.elems ++ [{ e with done := true, got := got }] } }
  | _ => w
/-- The acquire of LDFE, and what a STEF publishes, at the scope of R85 (DEDUCED, log 46). -/
def feEff (i : Issue) (pol : Policy) (scope sync : Scope) (load : Bool) (w : FeWork) : Eff :=
  let s := if load && !w.look.elems.isEmpty then (w.st.acquire (w.st.coreOf i.ctx) sync).learn i.ctx else if w.look.elems.isEmpty then w.st else w.st.publish i.ctx
  accessEff i s pol scope load false w.look
def ldfeForm (h : Hdr) (pol : Policy) (scope : Scope) (d addr : Reg) (off : DWord) : State → Out :=
  issueForm { h := h, opc := 0xA0, who := .both, plan := { srcs := [(addr, 2)], dsts := [(d, 1)], ok := addrOk addr } }
    fun i act s => feEff i pol scope (s.feScope i act addr off) true <|
      (lanesOf act).foldl (feStep i false (fun l => src64 s i l addr + off) (fun _ => .load) d) { st := s }
def stefForm (h : Hdr) (pol : Policy) (scope : Scope) (d addr : Reg) (off : DWord) : State → Out :=
  issueForm { h := h, opc := 0xA1, who := .both, plan := { srcs := [(addr, 2), (d, 1)], ok := addrOk addr } }
    fun i act s => feEff i pol scope (s.feScope i act addr off) false <|
      (lanesOf act).foldl (feStep i true (fun l => src64 s i l addr + off) (fun l => .store (readReg s i l false d)) (.sp .zero)) { st := s }
def execLdfe (x : PolMem) (s : State) : Out := ldfeForm x.h x.pol x.scope x.data x.addr (offBy 4 x.off.toNat) s
def execLdfeX (x : PolMemX) (s : State) : Out := ldfeForm x.h x.pol x.scope x.data x.addr (x.off.signExtend 64) s
def execStef (x : PolMem) (s : State) : Out := stefForm x.h x.pol x.scope x.data x.addr (offBy 4 x.off.toNat) s
def execStefX (x : PolMemX) (s : State) : Out := stefForm x.h x.pol x.scope x.data x.addr (x.off.signExtend 64) s

/-! ## FESET (R212) -/

/-- The scratchpad words of a range, by core, or the fault. -/
def State.fesetWords (s : State) (i : Issue) (va : DWord) (n : Nat) : List (Nat × Nat) ⊕ (Nat × Nat × DWord) :=
  if n = 0 || n % 4 ≠ 0 then .inr (0x02, 0, i.pc)
  else match chkSpan va n 4 with
    | some f => .inr f
    | none =>
      let g := s.wgOf i.ctx
      match windowOf va with
      | .global | .frame _ _ | .gap => .inr (0x02, 0, i.pc)
      | .own o =>
        if o + n > g.reserved then .inr (0x11, 1, va + BitVec.ofNat 64 (g.reserved - o))
        else .inl ((List.range (n / 4)).map fun j => (g.core, g.cistPhys (o + 4 * j) / 4))
      | .die o =>
        let way (j : Nat) : Bool := match (s.core (coreDie g.core * 256 + j / 8)).way (j % 8) with | .reserved wk => (s.wg wk).vfn = g.vfn | _ => false
        match ((List.range (o % 0x8000 / 0x8000 + (o % 0x8000 + n + 0x7FFF) / 0x8000)).map (· + o / 0x8000)).find? fun j => !way j with
        | some j => .inr (0x11, 1, va + BitVec.ofNat 64 (j * 0x8000 - o))
        | none => .inl ((List.range (n / 4)).map fun j => (coreDie g.core * 256 + (o + 4 * j) / 0x40000, (o + 4 * j) % 0x40000 / 4))
def execFeset (x : FesetF) (s : State) : Out :=
  issueForm { h := x.h, opc := 0xA2, who := .both, plan := { srcs := [(x.a, 2), (x.n, 1)], ok := addrOk x.a } }
    (fun i act s =>
      let (t, k) := (lanesOf act).foldl (fun (acc : State × Lookup) l =>
        match acc.1.fesetWords i (src64 s i l x.a) (src32 s i l x.n).toNat with
        | .inr (c, d, a) => (acc.1, acc.2.addFault l c d a)
        | .inl ws => (ws.foldl (fun t (core, w) => if t.feBit core w = x.toFull then t else (t.setFe core w x.toFull).wakeWord core w) acc.1, acc.2)) (s, ({} : Lookup))
      { st := t, fault := k.fault, vary := some 0 }) s

/-! ## Atomics (R213 to R218) -/

def atomData (s : State) (i : Issue) (lane : Nat) (w : Width) (r : Reg) : DWord := readReg s i lane (w = .w64) r
/-- Checks of an HGATH that belong to the whole instruction: at most eight lanes, all in lines of shared pages homed at one slice, that of the lowest lane
whose own checks pass; a word on a page that is private to another die is on no shared page, unless its page is being made shared (R218) (DEDUCED, log 110). -/
def hgathCheck (busy : DWord → Bool) (i : Issue) (act : Lanes) (look : List (List (Chk × Elem))) : Option (DWord) :=
  if (lanesOf act).length > 8 then some i.pc
  else
    let slice (c : Chk) : Option Nat := match c with | .ok (.mem pa 0 _) => if hostLine (pa / 128) then none else some (Config.homeHash (pa / 128) % 192) | _ => none
    match (look.filterMap (·.head?)).filter fun (c, _) => c.isOk || (match c with | .wait (.waitClass page _) _ _ => !busy page | _ => false) with
    | [] => none
    | (c0, e0) :: t => ((((c0, e0) :: t).find? fun (c, _) => slice c = none || slice c ≠ slice c0).map fun (_, e) => e.va)
def atomEff (i : Issue) (act : Lanes) (s : State) (pol : Policy) (op : AtomOp) (w : Width) (scope : Scope) (isLoad : Bool) (d addr b : Reg) (off : DWord) : Eff :=
  let look := (lanesOf act).map fun l => s.laneParts i.ctx l (src64 s i l addr + off) w (op ≠ .hgath) d fun _ => .atomic op (atomData s i l w b)
  match (if op = .hgath then hgathCheck (fun page => (s.vf (s.wgOf i.ctx).vfn).busyPages.contains page.toNat) i act look else none) with
  | some a => allFault s act 0x02 0 a
  | none => accessEff i s pol scope isLoad false (((lanesOf act).zip look).foldl (fun (k : Lookup) (l, cs) => k.add l cs) {})
def execAtom (x : AtomX) (s : State) : Out :=
  issueForm { h := x.h, opc := 0xA3, who := .both
              plan := { srcs := [(x.addr, 2), (x.b, widthRegs x.w)], dsts := [(x.data, widthRegs x.w)], ok := addrOk x.addr } }
    (fun i act s => atomEff i act s x.pol x.op x.w x.scope true x.data x.addr x.b (x.off.signExtend 64)) s
def execRed (x : RedX) (s : State) : Out :=
  issueForm { h := x.h, opc := 0xA5, who := .both, plan := { srcs := [(x.addr, 2), (x.b, widthRegs x.w)], ok := addrOk x.addr } }
    (fun i act s => atomEff i act s x.pol x.op x.w x.scope false (.sp .zero) x.addr x.b (x.off.signExtend 64)) s
def execAtcas (x : AtcasX) (s : State) : Out :=
  issueForm { h := x.h, opc := 0xA4, who := .both
              plan := { srcs := [(x.addr, 2), (x.b, widthRegs x.w), (x.c, widthRegs x.w)], dsts := [(x.data, widthRegs x.w)], ok := addrOk x.addr } }
    (fun i act s => accessEff i s x.pol x.scope true false <|
      lookAll act fun l => s.laneParts i.ctx l (src64 s i l x.addr + x.off.signExtend 64) x.w true x.data fun _ =>
        .cas (atomData s i l x.w x.b) (atomData s i l x.w x.c)) s

/-! ## LR and SC (R20, R219 to R222) -/

/-- An address in a cistern or frame window, found at check 8, stops every lane (DEDUCED, log 48). -/
def lrCheck (s : State) (i : Issue) (act : Lanes) (addr : Reg) (off : DWord) : Bool :=
  (lanesOf act).any fun l => match windowOf (src64 s i l addr + off) with | .own _ | .die _ | .frame _ _ => true | _ => false
def lrForm (h : Hdr) (pol : Policy) (scope : Scope) (w : Width) (d addr : Reg) (off : DWord) : State → Out :=
  issueForm { h := h, opc := 0xA6, who := .both, plan := { srcs := [(addr, 2)], dsts := [(d, widthRegs w)], ok := addrOk addr } }
    fun i act s =>
      if lrCheck s i act addr off then allFault s act 0x02 0 i.pc
      else { accessEff i s pol scope true false (lookAll act fun l => s.laneParts i.ctx l (src64 s i l addr + off) w false d fun _ => .lr) with lr := true }
def execLr (x : PolMem) (s : State) : Out := lrForm x.h x.pol x.scope .w32 x.data x.addr (offBy 4 x.off.toNat) s
def execLrX (x : LrX) (s : State) : Out := lrForm x.h x.pol x.scope x.w x.data x.addr (x.off.signExtend 64) s
/-- An SC with no acting lane does nothing to the window of an LR (DEDUCED, log 25). -/
def execSc (x : ScX) (s : State) : Out :=
  issueForm { h := x.h, opc := 0xA7, who := .both, plan := { srcs := [(x.addr, 2), (x.b, widthRegs x.w)], dsts := [(x.data, 1)], ok := addrOk x.addr } }
    (fun i act s =>
      let off := x.off.signExtend 64
      if lrCheck s i act x.addr off then { allFault s act 0x02 0 i.pc with sc := act ≠ 0 }
      else { accessEff i s x.pol x.scope true false (lookAll act fun l => s.laneParts i.ctx l (src64 s i l x.addr + off) x.w true x.data fun _ =>
               .sc (atomData s i l x.w x.b)) with sc := act ≠ 0 }) s

/-! ## Barrier registers (R223 to R226) -/

def bariEff (i : Issue) (act : Lanes) (s : State) (n count : Nat) : Eff :=
  let wk := i.ctx / 32
  if act = 0 then { st := s }
  else if count < 1 || count > 255 then allFault s act 0x02 0 i.pc
  else if ((s.wgOf i.ctx).bar n).arrived ≠ 0 || s.copies.any fun (_, c) => c.wk = wk && c.form.bar.val = n then allFault s act 0x30 0 (BitVec.ofNat 64 n)
  else { st := s.updWg wk fun g => g.setBar n { garr := 0, harr := false, phase := 0, drops := 0, expect := count, arrived := 0 } }
def execBari (x : BariF) (s : State) : Out :=
  issueForm { h := x.h, opc := 0xA8, who := .both, plan := { srcs := [(x.a, 1)] } }
    (fun i act s => bariEff i act s x.b.val (src32 s i (lowestLane act) x.a).toNat) s
def execBariX (x : BariX) (s : State) : Out :=
  issueForm { h := x.h, opc := 0xA8, who := .both, plan := {} } (fun i act s => bariEff i act s x.b.val x.count.toNat) s
/-- The arrival of the issuing group or head context. -/
def arriveEff (i : Issue) (act : Lanes) (s : State) (n : Nat) (drop : Bool) : Eff :=
  let wk := i.ctx / 32
  if act = 0 then { st := s }
  else match ((s.wgOf i.ctx).bar n).arrive (whoOf (i.ctx % 32)) drop with
    | none => allFault s act 0x30 0 (BitVec.ofNat 64 n)
    | some (b, full) =>
      let s := (s.updWg wk fun g => g.setBar n b).publishAt i.ctx (barKey wk n)
      { st := if full then s.wakeBar wk n else s }
def execBara (x : BarF) (s : State) : Out :=
  issueForm { h := x.h, opc := 0xA9, who := .both, plan := {} } (fun i act s => arriveEff i act s x.b.val false) s
def execBarad (x : BarF) (s : State) : Out :=
  issueForm { h := x.h, opc := 0xAA, who := .both, plan := {} } (fun i act s => arriveEff i act s x.b.val true) s
/-- The waiting lanes' PCs stand after the BARW: it returns, and is not issued again (DEDUCED, log 23). -/
def execBarw (x : BarF) (s : State) : Out :=
  issueForm { h := x.h, opc := 0xAB, who := .both, plan := {} }
    (fun i act s =>
      let b := (s.wgOf i.ctx).bar x.b.val
      if act = 0 then { st := s }
      else if b.expect = 0 then allFault s act 0x30 0 (BitVec.ofNat 64 x.b.val)
      else if b.hasArrived (whoOf (i.ctx % 32)) then { st := s, block := (lanesOf act).map fun l => (l, .blockedBar (.bar x.b), false) }
      else { st := s.learnAt (barKey (i.ctx / 32) x.b.val) i.ctx }) s
def execBart (x : BartF) (s : State) : Out :=
  issueForm { h := x.h, opc := 0xAC, who := .both, plan := { pdst := [x.p.toNat] } }
    (fun i act s =>
      let b := (s.wgOf i.ctx).bar x.b.val
      { predEff i act s x.p.toNat 0 (fun _ => (b.expect ≠ 0 && !b.hasArrived (whoOf (i.ctx % 32)), 0)) with latch := [], st := if b.expect ≠ 0 && !b.hasArrived (whoOf (i.ctx % 32)) && act ≠ 0 then s.learnAt (barKey (i.ctx / 32) x.b.val) i.ctx else s }) s

/-! ## SYNC (R29, R227) -/

def execSync (x : SyncF) (s : State) : Out :=
  Out.andThen
    (issueForm { h := x.h, opc := 0xAD, who := .groups, plan := {} }
      (fun i act s =>
        if act = 0 then { st := s }
        else if scopeRank x.scope ≥ 5 || (scopeRank x.scope ≥ 2 && !(s.gridOf i.ctx).coresident) then allFault s act 0x02 0 i.pc
        else if x.scope ≠ .grp && (s.ctx i.ctx).arrived x.scope ≠ 0 then allFault s act 0x30 0 0
        else
          { st := (s.updCtx i.ctx fun c => { c with syncs := c.syncs ++ [(x.scope, act)] }).publishAt i.ctx (syncKey (i.ctx / 32) x.scope)
            block := (lanesOf act).map fun l => (l, .blockedBar (.sync x.scope), false) }) s)
    fun t => match s.issue with | some i => t.syncSettle i.ctx | none => t

end Sys2Proof.Machine
end

