-- ==== Sys2Proof/Machine/Tile.lean ====
section
/-! DEFINITION. Tile loads and stores, the matrix engine and its queue, accumulators and the pump (R92 to R101, R138, R139, R228 to R249). -/
namespace Sys2Proof.Machine

/-! ## TLD and TST (R235 to R238) -/

/-- The checks of every row of a tile access at issue; the first row that does not pass decides. -/
def rowsCheck (s : State) (ck : Nat) (addr : DWord) (stride rows rb align : Nat) (write : Bool) : Option Chk :=
  (List.range rows).findSome? fun row =>
    let a := addr + BitVec.ofNat 64 (row * stride)
    match chkSpan a rb align with
    | some (c, d, t) => some (.fault c d t)
    | none => (badPiece (s.pieces ck a rb write)).map (·.chk)
/-- A tile access starts, faults, or lets its lanes wait for a page. -/
def tileEff (i : Issue) (act : Lanes) (s : State) (bad : Option Chk) (onFault : State → State) (job : Job) : Eff :=
  match bad with
  | none => let (id, t) := s.startJob i act job; { st := t, vary := some id }
  | some (.fault c d a) => { allFault (onFault s) act c d a with vary := some 0 }
  | some (.wait st w x) => { st := (s.arrived true).pushOnce w x, block := (lanesOf act).map fun l => (l, st, true), vary := some 0 }
  | some (.ok _) => { st := s, vary := some 0 }
def tileAlign (ty : TileTy) : Nat := if ty = .q4x then 64 else 8
def execTld (x : TldX) (s : State) : Out :=
  issueForm { h := x.h, opc := 0xC0, who := .both, plan := { srcs := [(x.addr, 2)], ok := baseOk x.addr } }
    (fun i act s =>
      let w := nth 0 (s.wgOf i.ctx).tshape x.t.val
      let wk := i.ctx / 32
      if act = 0 then { st := s, vary := some 0 }
      else if w = 0 || shapeType w ≠ x.ty.code.toNat then { allFault s act 0x02 0 i.pc with vary := some 0 }
      else
        let rb := shapeRb w
        let base := src64 s i (lowestLane act) x.addr + x.off.signExtend 64
        let stride := if x.stride = 0 then rb else x.stride.toNat
        tileEff i act s (rowsCheck s i.ctx base stride (shapeRows w) rb (tileAlign x.ty) false) (fun s => (s.spoilTile wk x.t.val).spoilScl wk x.t.val)
          (.tld x.t base stride (shapeRows w) rb 0 false x.pol)) s
def execTst (x : TstX) (s : State) : Out :=
  issueForm { h := x.h, opc := 0xC1, who := .both, plan := { srcs := [(x.addr, 2)], ok := baseOk x.addr } }
    (fun i act s =>
      let (ok, rows, rb, align) : Bool × Nat × Nat × Nat := match x.src with
        | .tile t ty =>
          let w := nth 0 (s.wgOf i.ctx).tshape t.val
          (w ≠ 0 && shapeType w = ty.code.toNat, shapeRows w, shapeRb w, tileAlign ty)
        | .acc _ => (true, 32, 128, 8)
      if act = 0 then { st := s, vary := some 0 }
      else if !ok || (x.stride ≠ 0 && x.stride.toNat < rb) then { allFault s act 0x02 0 i.pc with vary := some 0 }
      else
        let base := src64 s i (lowestLane act) x.addr + x.off.signExtend 64
        let stride := if x.stride = 0 then rb else x.stride.toNat
        match rowsCheck s i.ctx base stride rows rb align true with
        | none => let (data, t) := s.tstBytes i.ctx x.src (rows * rb); tileEff i act t none id (.tst data base stride rows rb 0 x.pol)
        | some c => tileEff i act s (some c) id (.tst [] base stride rows rb 0 x.pol)) s

/-! ## TZERO (R234) -/

def State.clearXp (s : State) (wk ac : Nat) : State := s.updWg wk fun g => { g with xpValid := setNth g.xpValid ac false, xp := Tab.filter g.xp fun k _ => k / 1024 ≠ ac }
def execTzero (x : TzeroF) (s : State) : Out :=
  issueForm { h := x.h, opc := 0xC2, who := .both, plan := {} }
    (fun i act s =>
      let wk := i.ctx / 32
      if act = 0 then { st := s }
      else match x.u with
        | .tile t =>
          let busy := s.tileBusy i.ctx t.val
          let (id, s) := (s.taintTile i.ctx t.val).newId
          let s := s.writeTile wk t.val 0 (List.replicate 4096 0) i.ctx id
          let s := s.updWg wk fun g => { g with tscl := Tab.filter g.tscl fun k _ => k / 64 ≠ t.val }
          { st := if busy then s.spoilTile wk t.val else s }
        | .acc ac =>
          let s := s.updWg wk fun g => { g with acc := Tab.filter g.acc fun k _ => k / 1024 ≠ ac.val }
          { st := (s.clearXp wk ac.val).taintAcc i.ctx ac.val }) s

/-! ## Arithmetic (R138, R139, R240 to R242) -/

/-- The exact sum of products: NaN, an infinity, or a finite value; a zero is negative only when every product is. -/
def exactRun (ps : List FVal) : FVal × Fl :=
  let pos := ps.any fun p => p = .inf false
  let neg := ps.any fun p => p = .inf true
  if (pos && neg) || ps.any (·.isNan) then (.nan false, fIV)
  else if pos || neg then (.inf neg, 0)
  else
    let e := ps.foldl (fun m p => match p with | .fin _ _ x => min m x | _ => m) 0
    let t : Int := ps.foldl (fun m p => match p with | .fin n k x => m + (if n then -1 else 1) * ((k * 2 ^ (x - e).toNat : Nat) : Int) | _ => m) 0
    if t = 0 then (.fin (!ps.isEmpty && ps.all fun p => p.sgn) 0 0, 0) else (.fin (t < 0) t.natAbs e, 0)
/-- AC + run, rounded once. -/
def accStep (ac : Word) (run : FVal × Fl) : Word × Fl :=
  let (v, f1) := (fp32.val ac.toNat).add .rne run.1
  let (r, f2) := fp32.pack .rne false false v
  (BitVec.ofNat 32 r, (run.2 ||| f1 ||| f2) &&& (fIV ||| fOF))
def tyFmt (code : Nat) : Fmt := match code with | 0 => bf16 | 1 => fp16 | 2 => e4m3 | _ => e5m2
/-- Element c of row r of a dense operand, from bytes in tile order. -/
def denseElem (code : Nat) (byte : Nat → Byte) (rb r c : Nat) : FVal :=
  if code ≤ 1 then (tyFmt code).val ((byte (r * rb + 2 * c)).toNat + 256 * (byte (r * rb + 2 * c + 1)).toNat)
  else (tyFmt code).val (byte (r * rb + c)).toNat
/-- A block of a Q4X row, without its scale. -/
def q4Block (byte : Nat → Byte) (rb r b : Nat) : List FVal × Bool :=
  q4xElems fun i => let x := (byte (r * rb + 64 * b + i / 2)).toNat; if i % 2 = 0 then x % 16 else x / 16
def chunkSteps (code : Nat) : Nat := if code ≤ 1 then 64 else 128
/-- Sums of the runs of 16 k-steps of one element, each added into the accumulator. -/
def runsInto (ac : Word) (steps : Nat) (prod : Nat → FVal) : Word × Fl :=
  (List.range (steps / 16)).foldl (fun (acc : Word × Fl) g =>
    let (v, fl) := accStep acc.1 (exactRun ((List.range 16).map fun j => prod (16 * g + j)))
    (v, acc.2 ||| fl)) (ac, 0)
/-- Kept and group sizes and index bits of a pattern (R94). -/
def patKept : Pat → Nat | .p24 => 2 | .p14 => 1 | .p28 => 2 | .p48 => 4
def patGroup : Pat → Nat | .p24 | .p14 => 4 | .p28 | .p48 => 8
def patBits : Pat → Nat | .p24 | .p14 => 2 | .p28 | .p48 => 3
/-- The index of kept element e in a metadata row. -/
def metaIndex (pat : Pat) (byte : Nat → Byte) (rb r e : Nat) : Nat :=
  (List.range (patBits pat)).foldl (fun m k =>
    let bit := e * patBits pat + k
    m + (if (byte (r * rb + bit / 8)).getLsbD (bit % 8) then 2 ^ k else 0)) 0
def keptPerChunk (code : Nat) (pat : Pat) : Nat := chunkSteps code * patKept pat / patGroup pat
/-- Whether the positions of every group of a chunk ascend, in the first rows. -/
def metaOk (code : Nat) (pat : Pat) (kb : Nat) (byte : Nat → Byte) (rb rows : Nat) : Bool :=
  (List.range rows).all fun r => (List.range (keptPerChunk code pat)).all fun j =>
    let e := kb * keptPerChunk code pat + j
    j % patKept pat = 0 || metaIndex pat byte rb r (e - 1) < metaIndex pat byte rb r e
/-- The kept elements of a chunk of one row by logical k within the chunk. -/
def keptRow (code : Nat) (pat : Pat) (kb : Nat) (a m : Nat → Byte) (rba rbm r : Nat) : List (Nat × FVal) :=
  (List.range (keptPerChunk code pat)).map fun j =>
    let e := kb * keptPerChunk code pat + j
    (j / patKept pat * patGroup pat + metaIndex pat m rbm r e, denseElem code a rba r e)
/-- XP form (R139): the exact sum in units of 2^−25, as a 64-bit integer. -/
def xpForm (x : FVal) : DWord :=
  match x with
  | .fin n m e =>
    let k := if e + 25 ≥ 0 then m * 2 ^ (e + 25).toNat else m / 2 ^ (-(e + 25)).toNat
    BitVec.ofInt 64 (if n then -(k : Int) else k)
  | _ => 0x8000000000000000

/-- What an operation makes of its accumulator: elements, XP forms (TMMQ), and flags. -/
structure MatOut where
  (acc : List Word) (xp : List DWord) (fl : Fl)
  deriving DecidableEq, Repr
def matOut (q : MatCmdQ) (old : Nat → Word) : MatOut :=
  let byte (role j : Nat) : Byte := Tab.get 0 q.snap (tileKey role j)
  let sa := nth 0 q.shapes 0
  let sb := nth 0 q.shapes 1
  let sm := nth 0 q.shapes 2
  let code := q.cmd.ty.code.toNat
  let kb := q.cmd.kb.toNat
  let steps := chunkSteps code
  let inside (m n : Nat) : Bool := m < shapeRows sa && n < shapeRows sb
  let cells : List (Word × DWord × Fl) := match q.cmd.mop with
    | .tmma => (List.range 32).flatMap fun m => (List.range 32).map fun n =>
        if inside m n then
          let (v, fl) := runsInto (old (m * 32 + n)) steps fun k =>
            ((denseElem code (byte 0) (shapeRb sa) m (kb * steps + k)).mul (denseElem code (byte 1) (shapeRb sb) n (kb * steps + k))).1
          (v, 0, fl)
        else (0, 0, 0)
    | .tmms => (List.range 32).flatMap fun m =>
        let kept := keptRow code q.cmd.pat kb (byte 0) (byte 2) (shapeRb sa) (shapeRb sm) m
        (List.range 32).map fun n =>
          if inside m n then
            let (v, fl) := runsInto (old (m * 32 + n)) steps fun k =>
              match kept.find? fun (j, _) => j = k with
              | some (_, a) => (a.mul (denseElem code (byte 1) (shapeRb sb) n (kb * steps + k))).1
              | none => .fin false 0 0
            (v, 0, fl)
          else (0, 0, 0)
    | .tmmq =>
      let bs := (List.range 32).map fun n => if n < shapeRows sb then q4Block (byte 1) (shapeRb sb) n kb else ([], false)
      (List.range 32).flatMap fun m =>
        let (as, qa) := if m ≥ shapeRows sa then ([], false)
          else if code = 4 then q4Block (byte 0) (shapeRb sa) m kb
          else ((List.range 128).map fun k => denseElem code (byte 0) (shapeRb sa) m (128 * kb + k), false)
        (List.range 32).map fun n =>
          if inside m n then
            let (ws, qb) := nth ([], false) bs n
            let (x, fl) := exactRun ((as.zip ws).map fun (a, w) => (a.mul w).1)
            let (v, f2) := fp32.pack .rne false false x
            (BitVec.ofNat 32 v, xpForm x, ((fl ||| f2) &&& (fIV ||| fOF)) ||| (if qa || qb then fQFMT else 0))
          else (0, 0, 0)
  { acc := cells.map (·.1), xp := if q.cmd.mop = .tmmq then cells.map (·.2.1) else [], fl := cells.foldl (fun m c => m ||| c.2.2) 0 }

/-! ## Matrix instructions at issue (R92, R243) -/

def matCmd (mop : MatOp) (ty : TileTy) (ac : Fin 4) (ta tb tm : Fin 8) (pat : Pat) (kb : BitVec 8) : MatCmd := { mop := mop, ty := ty, ac := ac, ta := ta, tb := tb, tm := tm, pat := pat, kb := kb }
/-- The checks that need shapes. -/
def Wg.matShapes (g : Wg) (c : MatCmd) : Option (List Word) :=
  let sa := nth 0 g.tshape c.ta.val
  let sb := nth 0 g.tshape c.tb.val
  let sm := nth 0 g.tshape c.tm.val
  let code := c.ty.code.toNat
  let kb := c.kb.toNat
  let typed := sa ≠ 0 && sb ≠ 0 && shapeType sa = code
  let ok : Bool := match c.mop with
    | .tmma => typed && shapeType sb = code && shapeCols sa ≥ (kb + 1) * chunkSteps code && shapeCols sb ≥ (kb + 1) * chunkSteps code
    | .tmms => typed && shapeType sb = code && shapeCols sa ≥ (kb + 1) * keptPerChunk code c.pat && shapeCols sb ≥ (kb + 1) * chunkSteps code &&
        sm ≠ 0 && shapeType sm = 5 && shapeRows sm ≥ shapeRows sa && shapeRb sm ≥ ((kb + 1) * keptPerChunk code c.pat * patBits c.pat + 7) / 8
    | .tmmq => typed && shapeType sb = 4 && shapeCols sa ≥ 128 * (kb + 1) && shapeCols sb ≥ 128 * (kb + 1)
  if ok then some [sa, sb, sm] else none
/-- The operand bytes as the operation reads them. -/
def State.snapshot (s : State) (wk : Nat) (c : MatCmd) : Tab Byte × State :=
  let (m, s) := s.snapTile wk 0 c.ta.val []
  let (m, s) := s.snapTile wk 1 c.tb.val m
  if c.mop = .tmms then s.snapTile wk 2 c.tm.val m else (m, s)
/-- The metadata of a TMMS keeps R94. -/
def snapMetaOk (c : MatCmd) (shapes : List Word) (snap : Tab Byte) : Bool :=
  c.mop ≠ .tmms || metaOk c.ty.code.toNat c.pat c.kb.toNat (fun j => Tab.get 0 snap (tileKey 2 j)) (shapeRb (nth 0 shapes 2)) (shapeRows (nth 0 shapes 0))
/-- A matrix operation counts toward the self-test, which is due after every 4,096th (R100). -/
def State.countMat (s : State) (core : Nat) : State :=
  s.updCore core fun c => { c with matOps := c.matOps + 1, testDue := c.testDue || (c.matOps + 1) % 4096 = 0 }
/-- The workgroup spends the token it holds; with no cap in force a grant is at once (R110, R374). -/
def State.spendToken (s : State) (wk : Nat) : State :=
  if (s.wg wk).token || s.capped then s.updWg wk fun g => { g with token := false, tokenAsked := false } else s.updPf fun p => { p with tokgrant := p.tokgrant + 1 }
/-- When the token was granted that the workgroup is to spend: now, if none is needed. -/
def State.grantTime (s : State) (wk : Nat) : Nat := if (s.wg wk).token then (s.wg wk).tokenAt else s.clock
/-- DEDUCED, log 49. -/
def matFull (s : State) (i : Issue) (h : Hdr) : Check := if guardMask s i h ≠ 0 && (s.wgOf i.ctx).mq.length ≥ 8 then some (6, 3) else none
def matForm (h : Hdr) (opc : Nat) (c : MatCmd) : State → Out :=
  issueFormS (fun i s => { h := h, opc := opc, who := .both, plan := {}, queue := matFull s i h })
    fun i act s =>
      let wk := i.ctx / 32
      if act = 0 then { st := s }
      else match (s.wgOf i.ctx).matShapes c with
        | none => allFault s act 0x02 0 i.pc
        | some shapes =>
          let (snap, t) := s.snapshot wk c
          if !snapMetaOk c shapes snap then allFault t act 0x02 0 i.pc
          else
            let (id, t) := t.newId
            let t := t.updWg wk fun g => { g with mq := g.mq ++ [{ id := id, ctx := i.ctx, cmd := c, shapes := shapes, snap := snap, armed := true, granted := t.grantTime wk }] }
            { st := ((t.spendToken wk).countMat (t.coreOf i.ctx)).pushOnce .matrixOpStart { id := t.coreOf i.ctx } }
def execTmma (x : TmmX) (s : State) : Out := matForm x.h 0xC3 (matCmd .tmma x.ty x.ac x.ta x.tb 0 .p24 x.kb) s
def execTmms (x : TmmsX) (s : State) : Out := matForm x.h 0xC4 (matCmd .tmms x.ty x.ac x.ta x.tb x.tm x.pat x.kb) s
def execTmmq (x : TmmX) (s : State) : Out := matForm x.h 0xC5 (matCmd .tmmq x.ty x.ac x.ta x.tb 0 .p24 x.kb) s

/-! ## TRDY and TWAIT (R244, R245) -/

def execTrdy (x : Plain) (s : State) : Out :=
  issueForm { h := x.h, opc := 0xC6, who := .both, plan := {} }
    (fun i act s =>
      if act = 0 then { st := s, vary := some 0 }
      else
        let waits := Tab.keys (Tab.filter s.jobs fun _ j => j.ctx = i.ctx && (match j.job with | .tld _ _ _ _ _ _ _ _ => true | _ => false))
        let (id, t) := s.startJob i act (.trdy waits)
        { st := t, vary := some id }) s
def execTwait (x : TwaitF) (s : State) : Out :=
  issueForm { h := x.h, opc := 0xC7, who := .both, plan := {} }
    (fun i act s =>
      if act = 0 then { st := s, vary := some 0 }
      else
        let g := s.wgOf i.ctx
        let waits := ((g.mq.filter fun q => q.ac = x.ac.val).map (·.id)) ++ (g.mdone.filter fun d => d.ac = x.ac.val).map (·.id)
        let (id, t) := s.startJob i act (.twait x.ac.val waits)
        { st := t, vary := some id }) s

/-! ## TACC (R246, R247) -/

/-- A reading form: an index above 1,023 in any acting lane stops the whole word; an accumulator in flight delivers free values. -/
def taccEff (i : Issue) (act : Lanes) (s : State) (x : TaccF) (wide : Bool) (f : Wg → Nat → DWord) : Eff :=
  let idx (l : Nat) : Nat := (src32 s i l x.idx).toNat
  if (lanesOf act).any fun l => idx l > 1023 then allFault s act 0x02 0 i.pc
  else if s.accBusy i.ctx x.ac.val then
    let (vs, t) := (lanesOf act).foldl (fun (acc : Tab DWord × State) l => let (v, t) := acc.2.free 64; (Tab.put acc.1 l v, t)) (([] : Tab DWord), s)
    { vecEff i act s x.h x.data wide 6 (fun l => (Tab.get 0 vs l, 0)) with st := t }
  else if wide && act ≠ 0 && !nth false (s.wgOf i.ctx).xpValid x.ac.val then allFault s act 0x02 0 i.pc
  else vecEff i act s x.h x.data wide 6 fun l => (f (s.wgOf i.ctx) (idx l), 0)
def execTacc (x : TaccF) (s : State) : Out :=
  issueForm { h := x.h, opc := 0xC8, who := .both, plan := { srcs := [(x.idx, 1)], dsts := [(x.data, 1)], wbs := x.h.wbs } }
    (fun i act s => taccEff i act s x false fun g j => (g.accAt x.ac.val j).setWidth 64) s
def execTaccXp (x : TaccF) (s : State) : Out :=
  issueForm { h := x.h, opc := 0xC8, who := .both, plan := { srcs := [(x.idx, 1)], dsts := [(x.data, 2)], wbs := x.h.wbs } }
    (fun i act s => taccEff i act s x true fun g j => Tab.get 0 g.xp (accKey x.ac.val j)) s
def execTaccScl (x : TaccScl) (s : State) : Out :=
  issueForm { h := x.h, opc := 0xC8, who := .both, plan := { dsts := [(x.d, 1)], wbs := x.h.wbs } }
    (fun i act s => vecEff i act s x.h x.d false 6 fun _ => (BitVec.ofNat 64 (scaleBits ((s.wgOf i.ctx).scl x.t.val x.j.toNat).toNat), 0)) s
def execTaccWr (x : TaccF) (s : State) : Out :=
  issueForm { h := x.h, opc := 0xC8, who := .both, plan := { srcs := [(x.idx, 1), (x.data, 1)] } }
    (fun i act s =>
      let wk := i.ctx / 32
      let idx (l : Nat) : Nat := (src32 s i l x.idx).toNat
      if act = 0 then { st := s }
      else if (lanesOf act).any fun l => idx l > 1023 then allFault s act 0x02 0 i.pc
      else
        let t := s.updWg wk fun g => (lanesOf act).foldl (fun g l => g.setAcc x.ac.val (idx l) (src32 s i l x.data)) g
        { st := (t.clearXp wk x.ac.val).taintAcc i.ctx x.ac.val }) s

/-! ## TGEMM (R97, R248, R249) -/

def gemmBytes (ty : TileTy) : Nat := if ty.code.toNat ≤ 1 then 2 else 1
/-- The three panels: offset and bytes. -/
def gemmPanels (a b c mt nt ks : Nat) (ty : TileTy) : List (Nat × Nat × Bool) :=
  let k := 128 * ks
  [(a, 32 * (mt + 1) * k * gemmBytes ty, false), (b, 32 * (nt + 1) * k * gemmBytes ty, false), (c, 32 * (mt + 1) * 32 * (nt + 1) * 4, true)]
/-- A TGEMM at the head of its workgroup's queue starts the pump, whose next step asks for a token of its own (R97, R110). -/
def State.pumpWake (s : State) (wk : Nat) : State :=
  let g := s.wg wk
  match g.mq with
  | q :: _ =>
    if q.gemm.isNone then s
    else
      let s := if g.pump.act then s else s.updWg wk fun g => { g with pump := { act := true, acn := q.ac, since := s.clock } }
      let busy : Bool := match (s.core g.core).mat with | some (w, _, _) => w = wk | none => false
      let ready : Bool := match q.gemm with | some m => !busy && (s.wg wk).pump.kb < m.ks | none => false
      let s := if s.capped && !g.token && ready then s.askToken wk else s
      s.pushOnce .matrixOpStart { id := g.core }
  | [] => s
def ownAddr (o : Nat) : DWord := BitVec.ofNat 64 (0xFF00000000000000 + o)
def execTgemm (x : TgemmX) (s : State) : Out :=
  issueFormS (fun i s => { h := x.h, opc := 0xC9, who := .both, plan := { srcs := [(x.ab, 2), (x.c, 1)] }, queue := matFull s i x.h })
    (fun i act s =>
      let wk := i.ctx / 32
      if act = 0 then { st := s }
      else
        let l := lowestLane act
        let ab := src64 s i l x.ab
        let c := src32 s i l x.c
        let a : Word := ab.setWidth 32
        let b : Word := ab.extractLsb' 32 32
        let ps := gemmPanels a.toNat b.toNat c.toNat x.mt.toNat x.nt.toNat x.ks.toNat x.ty
        let top := (s.wgOf i.ctx).reserved
        match ps.find? fun (o, _, _) => o % 64 ≠ 0 with
        | some (o, _, _) => allFault s act 0x14 0 (ownAddr o)
        | none => match ps.find? fun (o, n, _) => o + n > top with
          | some (o, _, w) => allFault s act 0x11 (if w then 1 else 0) (ownAddr (max o top))
          | none =>
            let (id, t) := s.newId
            let gm : Gemm := { ty := x.ty, a := a, b := b, c := c, mt := x.mt.toNat, nt := x.nt.toNat, ks := x.ks.toNat }
            let cmd := matCmd .tmma x.ty x.ac 0 0 0 .p24 0
            { st := (t.updWg wk fun g => { g with mq := g.mq ++ [{ id := id, ctx := i.ctx, cmd := cmd, shapes := [], armed := true, gemm := some gm }] }).pumpWake wk }) s

/-! ## The matrix array at work (R92, R96, R99) -/

/-- How long an operation holds the array; a fenced sub-array slows it (R101). -/
def matCycles (c : Core) (q : MatCmdQ) : Nat :=
  match q.gemm with
  | some g => (if gemmBytes g.ty = 2 then 128 else 64) * (if c.fenced.isEmpty then 1 else 2)
  | none => if !c.fenced.isEmpty then 128 else if q.cmd.mop = .tmma then 64 else 32
/-- Write an operation's result, or an unspecified one where an operand or the accumulator was touched in flight, and free its entry. -/
def State.finishMat (s : State) (wk : Nat) (q : MatCmdQ) (r : Option MatOut) (fl : Fl) : State :=
  let ac := q.ac
  let s := s.clearXp wk ac
  let s := match r with
    | none => s.spoilAcc wk ac
    | some o =>
      let s := s.updWg wk fun g => (o.acc.mapIdx fun j v => (j, v)).foldl (fun g (j, v) => g.setAcc ac j v) g
      if o.xp.isEmpty then s
      else s.updWg wk fun g => { g with xpValid := setNth g.xpValid ac true, xp := (o.xp.mapIdx fun j v => (j, v)).foldl (fun m (j, v) => Tab.set 0 m (accKey ac j) v) g.xp }
  s.updWg wk fun g => { g with mq := g.mq.filter fun p => p.id ≠ q.id, mdone := g.mdone ++ [{ id := q.id, ctx := q.ctx, ac := ac, tiles := q.operands, fl := fl }] }
/-- A sub-array that fails, and is not fenced yet, leaves the results of its core unchecked (R100): they may be any. -/
def Core.suspect (c : Core) : Bool := c.faulty.any fun b => !c.fenced.contains b
/-- What a core's array could take next: of each workgroup its oldest operation, or the pump step of its TGEMM, with the time its token was granted (R92). -/
def State.matReady (s : State) (core : Nat) : List (Nat × Nat × MatCmdQ) :=
  s.wgs.filterMap fun (wk, g) =>
    if g.core ≠ core || g.evicted || g.leaving then none
    else match g.mq with
      | [] => none
      | q :: _ => match q.gemm with
        | none => if q.armed then some (wk, q.granted, q) else none
        | some m =>
          if !g.pump.act || g.pump.kb ≥ m.ks || (s.vf g.vfn).quiescing || (s.capped && !g.token) then none
          else some (wk, if g.token then g.tokenAt else g.pump.since, q)
/-- The array takes what comes next, as soon as it is free: a self-test that is due, else the operation whose token was granted first; of grants that fall
together the pick names one, and where it names none the first workgroup of the table is taken (DESIGN CHOICE, log 125). -/
def State.arrayNext (s : State) (core : Nat) (pick : Option Nat) : State :=
  let c := s.core core
  if c.mat.isSome then s
  else if c.testDue then
    (s.updCore core fun c => { c with mat := some (0, 0, s.clock + 2), testDue := false }).push .selfTest { id := core } (some (s.clock + 2))
  else
    let ready := s.matReady core
    let first := ready.filter fun x => ready.all fun y => x.2.1 ≤ y.2.1
    match (first.find? fun x => some x.1 = pick).or first.head? with
    | none => s
    | some (wk, _, q) =>
      let s := if q.gemm.isSome then (s.spendToken wk).countMat core else s
      let e := s.clock + matCycles c q
      (s.updCore core fun c => { c with mat := some (wk, q.id, e) }).push .matrixOpComplete { id := core } (some e)
/-- MATRIX_OP_START. -/
def State.matStart (s : State) (core : Nat) (pick : Option Nat) : State := s.arrayNext core pick

/-! ## The pump (R97, R99) -/

def Wg.cistAt (s : State) (g : Wg) (o : Nat) : Byte := s.cistByte g.core (g.cistPhys o)
/-- One pump step into the sums so far: 128 k-steps of the current tile. -/
def pumpTile (s : State) (g : Wg) (m : Gemm) (mt nt kb : Nat) (sums : List Word) : List (Word × Fl) :=
  let code := m.ty.code.toNat
  let row := m.ks * 128 * gemmBytes m.ty
  (List.range 32).flatMap fun i => (List.range 32).map fun j =>
    runsInto (if kb = 0 then 0 else nth 0 sums (i * 32 + j)) 128 fun k =>
      ((denseElem code (fun o => Wg.cistAt s g (m.a.toNat + o)) row (mt * 32 + i) (kb * 128 + k)).mul
        (denseElem code (fun o => Wg.cistAt s g (m.b.toNat + o)) row (nt * 32 + j) (kb * 128 + k))).1
/-- Whether the C panel meets A or B: then every C byte is unspecified (R249). -/
def gemmOverlap (m : Gemm) : Bool :=
  match gemmPanels m.a.toNat m.b.toNat m.c.toNat m.mt m.nt m.ks m.ty with
  | [(a, na, _), (b, nb, _), (c, nc, _)] => overlaps [(a, na), (b, nb)] c nc
  | _ => false
/-- A finished C tile goes to the scratchpad. -/
def storeTile (s : State) (wk : Nat) (m : Gemm) (mt nt : Nat) (sums : List Word) : State :=
  let g := s.wg wk
  let n := 32 * (m.nt + 1)
  (List.range 32).foldl (fun t i =>
    let o := m.c.toNat + 4 * ((mt * 32 + i) * n + nt * 32)
    let (bs, t) : List Byte × State := if gemmOverlap m then t.freeBytes 128 else ((List.range 32).flatMap fun j => bytesLE 4 (nth 0 sums (i * 32 + j)).toNat, t)
    (bs.mapIdx fun j b => (j, b)).foldl (fun (u : State) (j, b) => u.setCist g.core (g.cistPhys (o + j)) b) t) s
def State.freeWords (s : State) (n : Nat) : List Word × State :=
  (List.range n).foldl (fun (l, t) _ => let (v, u) := State.free t 32; (l ++ [v], u)) (([] : List Word), s)
/-- A pump step leaves the array: its sums are kept, and KB counts it. -/
def State.pumpDone (s : State) (wk : Nat) (q : MatCmdQ) (m : Gemm) : State :=
  let g := s.wg wk
  let p := g.pump
  let cells := pumpTile s g m p.mt p.nt p.kb q.sums
  let (sums, s) := if (s.core g.core).suspect then s.freeWords 1024 else (cells.map (·.1), s)
  let fl := cells.foldl (fun f c => f ||| c.2) q.fl
  let s := s.updWg wk fun g => { g with
    pump := { p with kb := p.kb + 1, since := s.clock }
    mq := g.mq.map fun x => if x.id = q.id then { x with fl := fl, sums := sums } else x }
  if p.kb + 1 < m.ks then s.pumpWake wk else s.pushOnce .pumpStep { id := g.core }
/-- A tile's last step is done: C takes the tile, and the pump goes on to the next, or the TGEMM is complete; its flags are set at its end (R134). Between two TGEMMs
PUMPST reads zero throughout (DESIGN CHOICE, log 111). -/
def State.pumpTurn (s : State) (wk : Nat) : State :=
  let g := s.wg wk
  match g.mq with
  | [] => s
  | q :: _ => match q.gemm with
    | none => s
    | some m =>
      let p := g.pump
      if !p.act || p.kb < m.ks then s
      else
        let s := storeTile s wk m p.mt p.nt q.sums
        let next (x : Pump) : State := (s.updWg wk fun g => { g with pump := { x with kb := 0, since := s.clock } }).pumpWake wk
        if p.nt < m.nt then next { p with nt := p.nt + 1 }
        else if p.mt < m.mt then next { p with nt := 0, mt := p.mt + 1 }
        else
          let out : MatOut := { acc := q.sums, xp := [], fl := q.fl }
          let s := s.finishMat wk q (if q.tainted then none else some out) 0
          ((s.updWg wk fun g => { g with pump := {} }).orFlags q.ctx q.fl).pumpWake wk
/-- PUMP_STEP: the pump works at its interrupt points, and the array takes what comes next. -/
def State.pumpStep (s : State) (core : Nat) (pick : Option Nat) : State :=
  ((Tab.keys (Tab.filter s.wgs fun _ g => g.core = core && !g.evicted)).foldl (fun t wk => (t.pumpTurn wk).pumpWake wk) s).arrayNext core pick

/-- The flags of an operation whose accumulator is unspecified (R134, R246). Where only the accumulator was written, TMMQ, which does not read it, sets the flags of
its operands, and of TMMA and TMMS a run that is NaN sets IV whatever it is added to; IV besides and OF may be either. Where an operand or the array is in doubt IV may
be either, and OF except of TMMQ, which cannot overflow (R139), and QFMT of a TMMQ with an unspecified operand (DESIGN CHOICE, log 107). -/
def State.looseFlags (s : State) (q : MatCmdQ) (fl : Fl) (doubt : Bool) : Fl × State :=
  let (v, t) := s.free 6
  let quant := q.cmd.mop = .tmmq
  let sure : Fl := if doubt then 0 else (matOut q fun _ => 0x7FC00000).fl &&& fIV
  let open' : Fl := if doubt then fIV ||| (if quant then 0 else fOF) ||| (if q.spoiled && quant then fQFMT else 0)
    else if quant then 0 else (fIV ||| fOF) &&& ~~~sure
  (((fl ||| sure) &&& ~~~open') ||| (v &&& open'), t)
/-- MATRIX_OP_COMPLETE: the operation, or the pump step, leaves the array, and the next one takes it. Metadata that a copy brought may break R94: then the
result is unspecified too. -/
def State.matComplete (s : State) (core : Nat) (pick : Option Nat) : State :=
  match (s.core core).mat with
  | none => s
  | some (wk, id, t) =>
    if s.clock < t || id = 0 then s
    else
      let s := s.updCore core fun c => { c with mat := none }
      let s := match (s.wg wk).mq.find? fun q => q.id = id with
        | none => s
        | some q => match q.gemm with
          | some m => s.pumpDone wk q m
          | none =>
            let o := matOut q ((s.wg wk).accAt q.ac)
            let doubt := q.spoiled || (s.core core).suspect || !snapMetaOk q.cmd q.shapes q.snap
            let s := if q.tainted || doubt then
                let (fl, s) := s.looseFlags q o.fl doubt
                s.finishMat wk q none fl
              else s.finishMat wk q (some o) o.fl
            s.pumpWake wk
      s.arrayNext core pick

/-- SELF_TEST (R100): sub-arrays named in the happening give wrong products from now on; at the end of a test the core fences the ones that do, and the
fleet counts them (DESIGN CHOICE, log 108). -/
def State.selfTested (s : State) (core : Nat) (bad : List Nat) : State :=
  let s := s.updCore core fun c => { c with faulty := (c.faulty ++ bad.filter (· < 16)).eraseDups }
  match (s.core core).mat with
  | some (_, 0, t) =>
    if s.clock < t then s
    else
      let c := s.core core
      let fresh := c.faulty.filter fun b => !c.fenced.contains b
      let s := s.updCore core fun c => { c with mat := none, fenced := c.fenced ++ fresh }
      let s := if fresh.isEmpty then s else s.updPf fun p => { p with
        fencecnt := p.fencecnt + BitVec.ofNat 64 fresh.length
        fencelast := BitVec.ofNat 64 (core / 256 * 65536 + core % 256 * 256 + fresh.getLastD 0) }
      s.arrayNext core none
  | _ => s

end Sys2Proof.Machine
end

