-- ==== Sys2Proof/Machine/Copy.lean ====
section
/-! DEFINITION. The copy family: slices and their matching (R102, R250, R251), channels (R87, R104, R252), the sluice (R107, R119, R256,
R257), line buffers (R106, R258), matrix commands that copies carry (R105, R255), copy faults (R254) and arrival (R86, R225). -/
namespace Sys2Proof.Machine

/-! ## Forms and slices -/

def State.copy? (s : State) (id : Nat) : Option Copy := Tab.find? s.copies id
def State.updCopy (s : State) (id : Nat) (f : Copy → Copy) : State := { s with copies := Tab.modify s.copies id f }
def formSrc (f : CopyForm) : Nat := (f.form.extractLsb' 24 8).toNat
def formDst (f : CopyForm) : Nat := (f.form.extractLsb' 16 8).toNat
def isCv (f : CopyForm) : Bool := f.opc = 0xCC
def isLb (f : CopyForm) : Bool := f.opc = 0xCD
def isLayout (f : CopyForm) : Bool := isCv f && formSrc f ≥ 0x10
def lbRow (f : CopyForm) : Nat := (f.form.extractLsb' 16 16).toNat
def lbStride (f : CopyForm) : Nat := (f.form.extractLsb' 0 16).toNat
/-- Half-bytes of an element of format 1 to 6 (R256). -/
def fmtHalves (n : Nat) : Nat := match n with | 1 => 8 | 2 | 3 => 4 | 4 | 5 => 2 | _ => 1
/-- The pairs of R107. -/
def convPair (a b : Nat) : Bool :=
  match a with
  | 1 => b = 2 || b = 3 || b = 4 || b = 5
  | 2 | 3 => b = 4 || b = 5 || b = 1
  | 4 | 5 => b = 1
  | 6 => b = 2 || b = 1
  | _ => a ≥ 0x10 && a ≤ 0x15 && b = 0x20
/-- Source bytes that are converted together. -/
def convUnit (a : Nat) : Nat := if a = 6 then 64 else fmtHalves a / 2
/-- Destination bytes of a slice between element formats, or of one that is moved. -/
def Slice.total (f : CopyForm) (x : Slice) : Nat := if isCv f then x.len * fmtHalves (formDst f) / fmtHalves (formSrc f) else x.len
/-- Whether a slice has bytes left to write. -/
def Slice.isOpen (f : CopyForm) (x : Slice) : Bool := if isLayout f then x.len ≠ 0 && !x.ended else decide (x.progress < x.total f)
/-- The slices as the engine writes them: in ascending GRP order (R252). -/
def Copy.inOrder (c : Copy) : List Slice := sortBy (fun (a b : Slice) => decide (a.ctx ≤ b.ctx)) c.slices
def Copy.done (c : Copy) : Nat := (c.slices.map (·.progress)).foldl (· + ·) 0

/-- The checks of a slice at check 8 (R252, R253, R256 to R258): true where it is well formed. -/
def sliceOk (f : CopyForm) (dst : DWord) (len : Nat) : Bool :=
  (!f.td || (dst.extractLsb' 15 49 = 0 && (dst.extractLsb' 0 12).toNat + len ≤ 4096)) &&
  (!isCv f || (convPair (formSrc f) (formDst f) && (!f.flag || formDst f = 4) &&
    (if isLayout f then len = 64 || len = 0 else len % convUnit (formSrc f) = 0 && f.form.extractLsb' 0 2 = 0))) &&
  (!isLb f || len % lbRow f = 0)
/-- Reserved fields of a layout record (R257). -/
def recordOk (r : List Byte) : Bool :=
  let w := wordOfBytes ((r.drop 12).take 4)
  w.extractLsb' 0 2 ≠ 3 && w.extractLsb' 2 6 = 0 && w.extractLsb' 16 16 = 0 && (r.drop 0x28).all (· = 0)
def blkOk (f : CopyForm) (r : List Byte) : Bool :=
  let b := (nth 0 r 13).toNat
  (formSrc f ≠ 0x13 || (1 ≤ b && b ≤ 64)) && (formSrc f ≤ 0x12 || ((r.drop 0x18).take 8).all (· = 0))
/-- A record that can be read when its slice issues is checked then. -/
def State.recordBad (s : State) (ck : Nat) (f : CopyForm) (src : DWord) (len : Nat) : Bool :=
  isLayout f && len = 64 && (match engGet ck f.pol src 64 s with | .ok (r, _) => !recordOk r || !blkOk f r | .error _ => false)

/-! ## Supplying a slice (R102, R251) -/

/-- The copy that the next issue of a context supplies: its own for a head context, else the next of the workgroup. -/
def State.target (s : State) (ck : Nat) : Option (Nat × Copy) :=
  if ck % 32 = 16 then none
  else List.find? (fun (_, c) => c.wk = ck / 32 && c.number = some (s.ctx ck).copies) s.copies
/-- A first slice needs an entry of the core's copy queue, and a matrix entry for a command (R102, R105). -/
def copyFull (s : State) (i : Issue) (f : CopyForm) : Check :=
  if (s.target i.ctx).isSome then none
  else if (s.core (s.coreOf i.ctx)).copyq.length ≥ 16 then some (6, 2)
  else if f.cmd.isSome && (s.wgOf i.ctx).mq.length ≥ 8 then some (6, 3)
  else none
/-- A slice joins its copy. -/
def State.supply (s : State) (ck id : Nat) (x : Slice) : State :=
  let (b, s) := s.newId
  let s := s.updCopy id fun c => { c with slices := c.slices ++ [{ x with birth := b }] }
  let s := if ck % 32 = 16 then s else s.updCtx ck fun c => { c with copies := c.copies + 1 }
  match s.copy? id with
  | some c => s.pushOnce (if c.form.chan.isSome then .copyChannelStart else .copyArrival) { id := id }
  | none => s
/-- The first slice: the copy takes its entries. -/
def State.openCopy (s : State) (ck : Nat) (f : CopyForm) (shapes : List Word) : Nat × State :=
  let (id, s) := s.newId
  let wk := ck / 32
  let (mid, s) : Option Nat × State := match f.cmd with
    | none => (none, s)
    | some c =>
      let (m, t) := s.newId
      (some m, t.updWg wk fun g => { g with mq := g.mq ++ [{ id := m, ctx := ck, cmd := c, shapes := shapes, armed := false }] })
  let num : Option Nat := if ck % 32 = 16 then none else some (s.ctx ck).copies
  let s := { s with copies := Tab.put s.copies id { id := id, wk := wk, number := num, form := f, slices := [], matId := mid } }
  (id, s.updCore (s.coreOf ck) fun c => { c with copyq := c.copyq ++ [id] })

/-- Whether a group's slice is the one of the copy's lowest group, as far as its issue can tell: no slice, and no group that may still supply, is below it. -/
def State.lowestSlice (s : State) (ck : Nat) (c : Option Copy) : Bool :=
  ck % 32 = 16 || ((match c with | some c => c.slices.all fun x => x.ctx > ck | none => true) &&
    s.ctxs.all fun (k, x) => k / 32 ≠ ck / 32 || k ≥ ck || x.evicted || x.front.live = 0 || x.copies > (s.ctx ck).copies)
/-- What a copy-family word does once it issues: its checks at check 8, then its slice (DESIGN CHOICE, log 112). -/
def copyEff (i : Issue) (act : Lanes) (s : State) (f : CopyForm) (dst src len : Reg) (pub : Option Reg) : Eff :=
  let l := lowestLane act
  let who := if act = 0 then i.exec else act
  let n := if act = 0 then 0 else (src32 s i l len).toNat
  let d := if act = 0 then 0 else src64 s i l dst
  let a := if act = 0 then 0 else src64 s i l src
  let p : Option DWord := if act = 0 then none else pub.map fun r => src64 s i l r
  let x : Slice := { ctx := i.ctx, level := i.level, lanes := who, pc := i.pc, dst := d, src := a, len := n, pub := p, progress := 0, ended := false }
  let first := s.target i.ctx
  let agree : Bool := match first with | some (_, c) => c.form = f | none => true
  let crooked : Bool := match p with | some y => y.toNat % 8 ≠ 0 && s.lowestSlice i.ctx (first.map (·.2)) | none => false
  if !agree then allFault s who 0x02 0 i.pc
  else if first.isNone && ((s.wgOf i.ctx).bar f.bar.val).expect = 0 then allFault s who 0x30 0 (BitVec.ofNat 64 f.bar.val)
  else if !sliceOk f d n || s.recordBad i.ctx f a n then allFault s who 0x02 0 i.pc
  else if crooked then allFault s who 0x14 0 (p.getD 0)
  else
    let shapes := match f.cmd with | some c => (s.wgOf i.ctx).matShapes c | none => some []
    match first, shapes with
    | none, none => allFault s who 0x02 0 i.pc
    | none, some sh => let (id, t) := s.openCopy i.ctx f sh; { st := t.supply i.ctx id x }
    | some (id, _), _ => { st := s.supply i.ctx id x }

def zeroReg : Reg := .sp .zero
/-- DEDUCED, log 50. -/
def copyForm (h : Hdr) (f : CopyForm) (dst src len pub : Reg) : State → Out :=
  issueFormS (fun i s => { h := h, opc := f.opc.toNat, who := .both, plan := { srcs := [(dst, 2), (src, 2), (len, 1), (pub, 2)] }, queue := copyFull s i f })
    fun i act s => copyEff i act s f dst src len (if pub = zeroReg then none else some pub)
def chanPub (c : Option Chan) : Reg := match c with | some c => c.pub | none => zeroReg
def chanOf (c : Option Chan) : Option (Fin 4 × Scope) := c.map fun c => (c.ch, c.scope)
def execCpy (x : CpyX) (s : State) : Out :=
  copyForm x.h { opc := 0xCA, bar := x.b, pol := x.pol, chan := chanOf x.chan, flag := false, td := x.td, form := 0, cmd := none } x.dst x.src x.len (chanPub x.chan) s
def execCpym (x : CpymX) (s : State) : Out :=
  copyForm x.h { opc := 0xCB, bar := x.b, pol := x.pol, chan := none, flag := false, td := x.td, form := 0, cmd := some x.cmd } x.dst x.src x.len zeroReg s
def execCpycv (x : CpycvX) (s : State) : Out :=
  copyForm x.h { opc := 0xCC, bar := x.b, pol := x.pol, chan := chanOf x.chan, flag := x.nsat, td := false, form := x.form, cmd := none } x.dst x.src x.len (chanPub x.chan) s
def execCpylb (x : CpylbX) (s : State) : Out :=
  copyForm x.h { opc := 0xCD, bar := x.b, pol := x.pol, chan := some (x.chan.ch, x.chan.scope), flag := x.fresh, td := false, form := x.rowb ++ x.sstr, cmd := none }
    x.dst x.src x.len x.chan.pub s

/-! ## Moving bytes -/

/-- What a piece of work leaves: how many destination bytes it adds, the address after them, whether a Q4X block was malformed, and whether a layout
conversion is over. -/
structure Moved where
  (n : Nat) (next : DWord) (bad ended : Bool)
def copyWriter (id : Nat) : Nat := 2 ^ 20 + id
/-- How many bytes of a range can be accessed in one piece: those before the next page or way, and before the next orphaned word. -/
def State.clearLen (s : State) (ck : Nat) (va : DWord) (n : Nat) (write : Bool) : Nat :=
  match s.pieces ck va n write with
  | [] => n
  | p :: _ => match s.pieceZ p with
    | some (a, _) => if a = va then min n p.n else min n (a - va).toNat
    | none => min n p.n
/-- The place of a piece as one number: a physical address, or, above them, a byte of a cistern. -/
def Piece.key (p : Piece) : Nat := match p.place with | .mem pa _ _ => pa | .cist c b => 2 ^ 52 + cistKey c b
def State.segsOf (s : State) (ck : Nat) (va : DWord) (n : Nat) : List (Nat × Nat) :=
  (s.pieces ck va n false).filterMap fun p => if p.chk.isOk then some (p.key, p.n) else none
structure LayoutRec where
  (rows cols nnz idxw blk : Nat) (ptr idx val : DWord)
def LayoutRec.of (r : List Byte) : LayoutRec :=
  let w (o : Nat) : Nat := ofBytesLE ((r.drop o).take 4)
  let d (o : Nat) : DWord := dwordOfBytes ((r.drop o).take 8)
  { rows := w 0, cols := w 4, nnz := w 8, idxw := 2 * 2 ^ (w 12 % 4), blk := w 12 / 256 % 256, ptr := d 0x10, idx := d 0x18, val := d 0x20 }
/-- Bytes of a value under VTYPE; a type that names no format has none (DESIGN CHOICE, log 35). -/
def vtypeBytes (n : Nat) : Nat := match n with | 1 | 6 => 4 | 2 | 3 => 2 | 4 | 5 => 1 | _ => 0
/-- The arrays that a layout conversion reads beside its record. -/
def State.layoutArrays (s : State) (f : CopyForm) (x : Slice) : List (DWord × Nat) :=
  let get (va : DWord) (n : Nat) : List Byte := match engGet x.ctx f.pol va n s with | .ok (b, _) => b | .error _ => []
  let r := LayoutRec.of (get x.src 64)
  let vb := vtypeBytes ((nth 0 (get x.dst 1) 0).toNat / 16)
  let compressed (major : Nat) : List (DWord × Nat) :=
    let last := ofBytesLE (get (r.ptr + BitVec.ofNat 64 (major * r.idxw)) r.idxw)
    [(r.ptr, (major + 1) * r.idxw), (r.idx, last * r.idxw), (r.val, last * vb)]
  let words := (r.cols + 63) / 64 * r.rows
  let slots := if r.blk = 0 then 0 else r.rows / r.blk * (r.cols / r.blk)
  let packed := r.rows * ((r.cols + 3) / 4) * 2
  match formSrc f with
  | 0x10 => compressed r.rows
  | 0x11 => compressed r.cols
  | 0x12 => [(r.ptr, r.nnz * r.idxw), (r.idx, r.nnz * r.idxw), (r.val, r.nnz * vb)]
  | 0x13 => [(r.ptr, slots * r.idxw), (r.val, slots * r.blk * r.blk * vb)]
  | 0x14 => [(r.ptr, 8 * words), (r.val, ((get r.ptr (8 * words)).foldl (fun m b => m + ((List.range 8).filter fun k => b.getLsbD k).length) 0) * vb)]
  | _ => [(r.ptr, (packed + 3) / 4), (r.val, packed * vb)]
/-- What a slice reads. -/
def State.sliceSources (s : State) (f : CopyForm) (x : Slice) : List (DWord × Nat) :=
  if isLayout f then (x.src, x.len) :: s.layoutArrays f x
  else if isLb f then (List.range (x.len / lbRow f)).map fun i => (x.src + BitVec.ofNat 64 (i * lbStride f), lbRow f)
  else [(x.src, x.len)]
/-- Destination bytes are written as .wt stores (R86); those that lie in a source of the same copy are unspecified (R103). -/
def copyPut (c : Copy) (ck : Nat) (va : DWord) (bs : List Byte) : EngM Unit := fun s =>
  let segs := c.slices.flatMap fun x => (s.sliceSources c.form x).flatMap fun (a, n) => s.segsOf x.ctx a n
  let ps := s.pieces ck va bs.length true
  let hit (j : Nat) : Bool := ps.any fun p => p.off ≤ j && j < p.off + p.n && overlaps segs (p.key + (j - p.off)) 1
  if (List.range bs.length).any hit then
    let (fs, t) := s.freeBytes bs.length
    engPut ck .wt va (bs.mapIdx fun j b => if hit j then nth 0 fs j else b) t
  else engPut ck .wt va bs s
/-- A run of bytes within one 128-byte line of source and destination (64 of a tile). The first byte that the copy writes in a 64-byte block of a tile
gives the block's TSCL byte (R253). -/
def rawStep (c : Copy) (x : Slice) : EngM Moved := fun s =>
  let o := x.progress
  let src := x.src + BitVec.ofNat 64 o
  let dst := x.dst + BitVec.ofNat 64 o
  let tile := (x.dst.extractLsb' 12 3).toNat
  let off := (x.dst.extractLsb' 0 12).toNat + o
  let n := min (x.len - o) (min (128 - src.toNat % 128) (if c.form.td then 64 - off % 64 else 128 - dst.toNat % 128))
  let n := s.clearLen x.ctx src n false
  match engGet x.ctx c.form.pol src n s with
  | .error r => .error r
  | .ok (bs, s) =>
    if c.form.td then
      let wk := c.wk
      let s := s.writeTile wk tile off bs (copyWriter c.id) 0
      let block := tile * 64 + off / 64
      let s := if c.scaled.contains block then s
        else
          let s := s.updCopy c.id fun y => { y with scaled := y.scaled ++ [block] }
          match s.pieces x.ctx src n false with
          | p :: _ => s.updWg wk fun g => g.setScl tile (off / 64) (s.scaleAt p.place 0)
          | [] => s
      .ok (⟨n, dst + BitVec.ofNat 64 n, false, false⟩, s.taintTile x.ctx tile)
    else
      let n := s.clearLen x.ctx dst n true
      match copyPut c x.ctx dst (bs.take n) s with
      | .error r => .error r
      | .ok (_, s) => .ok (⟨n, dst + BitVec.ofNat 64 n, false, false⟩, s)
/-- The rest of some destination bytes, as far as they can be written in one piece. -/
def putRest (c : Copy) (x : Slice) (out : List Byte) (bad : Bool) : EngM Moved := fun s =>
  let dst := x.dst + BitVec.ofNat 64 x.progress
  let n := s.clearLen x.ctx dst out.length true
  match copyPut c x.ctx dst (out.take n) s with
  | .error r => .error r
  | .ok (_, t) => .ok (⟨n, dst + BitVec.ofNat 64 n, bad, false⟩, t)
def cvFmt (n : Nat) : Fmt := match n with | 1 => fp32 | 2 => bf16 | 3 => fp16 | 4 => e4m3 | _ => e5m2
/-- One element, or one Q4X block with the scale of its line (R107); where a page ends inside it, its bytes before the page. -/
def convStep (c : Copy) (x : Slice) : EngM Moved := do
  let a := formSrc c.form
  let b := formDst c.form
  let unit := convUnit a
  let outLen := unit * fmtHalves b / fmtHalves a
  let src := x.src + BitVec.ofNat 64 (x.progress / outLen * unit)
  let bs ← engGet x.ctx c.form.pol src unit
  let pack (v : FVal) : List Byte := bytesLE (fmtHalves b / 2) ((cvFmt b).pack .rne false c.form.flag v).1
  if a = 6 then
    let s ← get
    let e : Byte := match s.pieces x.ctx src unit false with | p :: _ => s.scaleAt p.place 0 | [] => 0x7F
    set s
    let (vs, q) := q4xElems fun i => let y := (nth 0 bs (i / 2)).toNat; if i % 2 = 0 then y % 16 else y / 16
    let out := vs.flatMap fun v => pack (if e = 0xFF then .nan false else scaleBy v e.toNat)
    putRest c x (out.drop (x.progress % outLen)) q
  else putRest c x ((pack ((cvFmt a).val (ofBytesLE bs))).drop (x.progress % outLen)) false
/-- A run of a row through the line buffer (R106, R258): a row that is not buffered whole is fetched as it is written, and stands in the buffer once it is. -/
def lbStep (c : Copy) (x : Slice) (ch : Nat) : EngM Moved := do
  let rowb := lbRow c.form
  let o := x.progress % rowb
  let row := x.src + BitVec.ofNat 64 (x.progress / rowb * lbStride c.form)
  let s ← get
  match (Tab.get [] (s.wg c.wk).buf ch).find? fun r => r.src = row && r.rowb = rowb && r.bytes.length = rowb with
  | some r => putRest c x ((r.bytes.drop o).take (128 - (x.dst.toNat + x.progress) % 128)) false
  | none =>
    let src := row + BitVec.ofNat 64 o
    let dst := x.dst + BitVec.ofNat 64 x.progress
    let n := s.clearLen x.ctx dst (min (rowb - o) (min (128 - src.toNat % 128) (128 - dst.toNat % 128))) true
    let bs ← engGet x.ctx c.form.pol src (s.clearLen x.ctx src n false)
    let m ← putRest c x bs false
    let keep := 16384 / rowb
    modify fun s => s.updWg c.wk fun g =>
      let l := Tab.get [] g.buf ch
      let l := if o = 0 then l ++ [{ src := row, rowb := rowb, bytes := bs.take m.n }]
        else l.dropLast ++ (l.getLast?.map fun r => { r with bytes := r.bytes ++ bs.take m.n }).toList
      { g with buf := Tab.put g.buf ch (l.drop (l.length - keep)) }
    pure m

/-! ## Layout conversion (R119, R257) -/

/-- A conversion stops, or has written its next bytes: how many, the address after them, and the state. -/
inductive Halt where
  | stop (r : RowStop)
  | wrote (n : Nat) (next : DWord) (s : State)
/-- A layout conversion, which writes its destination array by array, in ascending address order (R87): it passes over the bytes that it has written, and
writes the next ones (DESIGN CHOICE, log 38). -/
abbrev LayM := StateT (Nat × State) (Except Halt)
def layStop {α : Type} (r : RowStop) : LayM α := fun _ => .error (.stop r)
def layGet (c : Copy) (x : Slice) (va : DWord) (n : Nat) : LayM (List Byte) := fun (k, s) =>
  match engGet x.ctx c.form.pol va n s with
  | .ok (b, t) => .ok (b, k, t)
  | .error r => .error (.stop r)
def layNum (c : Copy) (x : Slice) (va : DWord) (w : Nat) : LayM Nat := do pure (ofBytesLE (← layGet c x va w))
def layPut (c : Copy) (x : Slice) (va : DWord) (bs : List Byte) : LayM Unit := fun (k, s) =>
  if bs.length ≤ k then .ok ((), k - bs.length, s)
  else
    let dst := va + BitVec.ofNat 64 k
    let n := s.clearLen x.ctx dst (bs.length - k) true
    match copyPut c x.ctx dst ((bs.drop k).take n) s with
    | .ok (_, t) => .error (.wrote n (dst + BitVec.ofNat 64 n) t)
    | .error r => .error (.stop r)
/-- DETAIL of a sluice copy's 0x40 (R285): bit 7, and the level that the index is of (DEDUCED, log 113). -/
def badIndex {α : Type} (lev : Nat) (va : DWord) : LayM α := layStop (.fault 0x40 (128 + 32 * lev) va)
/-- An index of 16 or 64 bits that is not below its dimension's size, or does not fit in 32 bits. -/
def indexBad (w size v : Nat) : Bool := w ≠ 4 && (v ≥ size || v ≥ 2 ^ 32)
/-- An output that breaks the flags U and O after the one before it in its fibre (R118). -/
def breaks (u o : Bool) (prev : Option Nat) (v : Nat) : Bool :=
  match prev with
  | some a => if o then (if u then v ≤ a else v < a) else u && v = a
  | none => false
def specWord (kind : Nat) (u o : Bool) (size : Nat) : DWord :=
  BitVec.ofNat 64 (kind * 2 ^ 34 + (if u then 2 ^ 33 else 0) + (if o then 2 ^ 32 else 0) + size % 2 ^ 32)
def Desc.vals (d : Desc) : DWord := d.dword 8
def Desc.vb (d : Desc) : Nat := vtypeBytes ((d.dword 0).extractLsb' 4 4).toNat
def elemAddr (a : DWord) (w k : Nat) : DWord := a + BitVec.ofNat 64 (w * k)
/-- What the steps of one conversion share. -/
structure Lay where
  (c : Copy) (x : Slice) (d : Desc) (r : LayoutRec) (u o : Bool)
def Lay.num (y : Lay) (a : DWord) (w k : Nat) : LayM Nat := layNum y.c y.x (elemAddr a w k) w
def Lay.putNum (y : Lay) (a : DWord) (w k v : Nat) : LayM Unit := layPut y.c y.x (elemAddr a w k) (bytesLE w v)
/-- Value j of the destination is value k of the source. -/
def Lay.putVal (y : Lay) (j k : Nat) : LayM Unit := do
  let b ← layGet y.c y.x (elemAddr y.r.val y.d.vb k) y.d.vb
  layPut y.c y.x (elemAddr y.d.vals y.d.vb j) b
/-- What writes one array: the array's first address, and the work. -/
abbrev Pass := DWord × LayM Unit
/-- RANK and the SPEC words. -/
def Lay.levels (y : Lay) (specs : List DWord) : Pass := (y.d.va, do
  let w0 : DWord := (y.d.dword 0 &&& ~~~7) ||| BitVec.ofNat 64 specs.length
  layPut y.c y.x y.d.va (bytesLE 8 w0.toNat)
  (specs.mapIdx fun l w => (l, w)).forM fun (l, w) => layPut y.c y.x (y.d.va + BitVec.ofNat 64 (0x10 + 24 * l)) (bytesLE 8 w.toNat))
/-- CSR, and CSC with rows and columns exchanged (DEDUCED, log 53). Positions count from the first pointer; a pointer that falls, or needs more than 32
bits, stops the copy as an index would (DESIGN CHOICE, log 114). -/
def Lay.compressed (y : Lay) (major minor : Nat) : List Pass :=
  let r := y.r
  let ptr (i : Nat) : LayM Nat := do
    let p ← y.num r.ptr r.idxw i
    let before ← if i = 0 then pure p else y.num r.ptr r.idxw (i - 1)
    if p < before || p ≥ 2 ^ 32 then badIndex 1 (elemAddr r.ptr r.idxw i)
    pure p
  let entries (f : List Nat → Nat → Nat → LayM Unit) : LayM Unit := do
    let ptrs ← (List.range (major + 1)).mapM ptr
    (List.range (ptrs.getLastD 0 - ptrs.headD 0)).forM fun e => f ptrs (ptrs.headD 0) e
  [(y.d.pos 1, do
      let base ← ptr 0
      (List.range (major + 1)).forM fun i => do y.putNum (y.d.pos 1) 4 i ((← ptr i) - base)),
   (y.d.crd 1, entries fun ptrs base e => do
      let v ← y.num r.idx r.idxw (base + e)
      let prev ← if ptrs.contains (base + e) then pure none else some <$> y.num r.idx r.idxw (base + e - 1)
      if indexBad r.idxw minor v || breaks y.u y.o prev v then badIndex 1 (elemAddr r.idx r.idxw (base + e))
      y.putNum (y.d.crd 1) 4 e v),
   (y.d.vals, entries fun _ base e => y.putVal e (base + e)),
   y.levels [specWord 0 true true major, specWord 1 y.u y.o minor]]
def Lay.coo (y : Lay) : List Pass :=
  let r := y.r
  let each (f : Nat → LayM Unit) : LayM Unit := (List.range r.nnz).forM f
  [(y.d.pos 0, do
      y.putNum (y.d.pos 0) 4 0 0
      y.putNum (y.d.pos 0) 4 1 r.nnz),
   (y.d.crd 0, each fun e => do
      let v ← y.num r.ptr r.idxw e
      let prev ← if e = 0 then pure none else some <$> y.num r.ptr r.idxw (e - 1)
      if indexBad r.idxw r.rows v || breaks false y.o prev v then badIndex 0 (elemAddr r.ptr r.idxw e)
      y.putNum (y.d.crd 0) 4 e v),
   (y.d.crd 1, each fun e => do
      let w ← y.num r.idx r.idxw e
      if indexBad r.idxw r.cols w then badIndex 1 (elemAddr r.idx r.idxw e)
      y.putNum (y.d.crd 1) 4 e w),
   (y.d.vals, each fun e => y.putVal e e),
   y.levels [specWord 1 false y.o r.rows, specWord 3 y.u y.o r.cols]]
/-- Blocked-ELL: COLS/b slots for each of ROWS/b block rows, padding dropped (DEDUCED, log 36); a quotient is rounded down (DESIGN CHOICE, log 115). -/
def Lay.ell (y : Lay) : List Pass :=
  let r := y.r
  let b := r.blk
  let slots := r.cols / b
  let pad := 2 ^ (8 * r.idxw) - 1
  -- the slots that are no padding, in order: of each its place in the fibre's order, its slot, its index and the index before it in its block row
  let row (f : Nat → Nat → Nat → Option Nat → LayM Unit) (n i : Nat) : LayM Nat := do
    let (n, _) ← (List.range slots).foldlM (fun (acc : Nat × Option Nat) j => do
      let k := i * slots + j
      let v ← y.num r.ptr r.idxw k
      if v = pad then pure acc
      else
        f acc.1 k v acc.2
        pure (acc.1 + 1, some v)) (n, none)
    pure n
  let rows (f : Nat → Nat → Nat → Option Nat → LayM Unit) : LayM Unit := do let _ ← (List.range (r.rows / b)).foldlM (row f) 0
  [(y.d.pos 1, do
      let n ← (List.range (r.rows / b)).foldlM (fun (n : Nat) i => do
        y.putNum (y.d.pos 1) 4 i n
        row (fun _ _ _ _ => pure ()) n i) 0
      y.putNum (y.d.pos 1) 4 (r.rows / b) n),
   (y.d.crd 1, rows fun e k v prev => do
      if indexBad r.idxw slots v || breaks y.u y.o prev v then badIndex 1 (elemAddr r.ptr r.idxw k)
      y.putNum (y.d.crd 1) 4 e v),
   (y.d.vals, rows fun e k _ _ => (List.range (b * b)).forM fun q => y.putVal (e * b * b + q) (k * b * b + q)),
   y.levels [specWord 0 true true (r.rows / b), specWord 1 y.u y.o slots, specWord 0 true true b, specWord 0 true true b]]
/-- A set bit counts, whatever its column. -/
def Lay.bitmap (y : Lay) : List Pass :=
  let r := y.r
  let words := (r.cols + 63) / 64
  let count (i n : Nat) : LayM Nat := (List.range words).foldlM (fun (n : Nat) j => do
    let w ← y.num r.ptr 8 (i * words + j)
    pure (n + ((List.range 64).filter fun k => w.testBit k).length)) n
  [(y.d.pos 1, do
      let n ← (List.range r.rows).foldlM (fun (n : Nat) i => do
        y.putNum (y.d.pos 1) 4 i n
        count i n) 0
      y.putNum (y.d.pos 1) 4 r.rows n),
   (y.d.crd 1, (List.range (r.rows * words)).forM fun k => do y.putNum (y.d.crd 1) 8 k (← y.num r.ptr 8 k)),
   (y.d.vals, do
      let n ← (List.range r.rows).foldlM (fun (n : Nat) i => count i n) 0
      (List.range n).forM fun k => y.putVal k k),
   y.levels [specWord 0 true true r.rows, specWord 2 true true r.cols]]
/-- 2:4 packed: two 2-bit indices for each group of four columns, row after row, from bit 0 of each byte (DEDUCED, log 37). -/
def Lay.packed (y : Lay) : List Pass :=
  let r := y.r
  let groups := (r.cols + 3) / 4
  let index (e : Nat) : LayM Nat := do pure (e / 2 % groups * 4 + (← y.num r.ptr 1 (e / 4)) / 4 ^ (e % 4) % 4)
  let each (f : Nat → LayM Unit) : LayM Unit := (List.range (2 * groups * r.rows)).forM f
  [(y.d.pos 1, (List.range (r.rows + 1)).forM fun i => y.putNum (y.d.pos 1) 4 i (2 * groups * i)),
   (y.d.crd 1, each fun e => do
      let v ← index e
      let prev ← if e % (2 * groups) = 0 then pure none else some <$> index (e - 1)
      if breaks true true prev v then badIndex 1 (elemAddr r.ptr 1 (e / 4))
      y.putNum (y.d.crd 1) 4 e v),
   (y.d.vals, each fun e => y.putVal e e),
   y.levels [specWord 0 true true r.rows, specWord 1 true true r.cols]]
def layoutRun (c : Copy) (x : Slice) : LayM Unit := do
  let rec' ← layGet c x x.src 64
  if !recordOk rec' || !blkOk c.form rec' then layStop (.fault 0x02 0 x.pc)
  let bytes ← layGet c x x.dst 128
  let y : Lay := { c := c, x := x, d := { va := x.dst, bytes := bytes }, r := LayoutRec.of rec', u := c.form.form.getLsbD 1, o := c.form.form.getLsbD 0 }
  let passes : List Pass := match formSrc c.form with
    | 0x10 => y.compressed y.r.rows y.r.cols
    | 0x11 => y.compressed y.r.cols y.r.rows
    | 0x12 => y.coo
    | 0x13 => y.ell
    | 0x14 => y.bitmap
    | _ => y.packed
  (sortBy (fun (a b : Pass) => decide (a.1.toNat ≤ b.1.toNat)) passes).forM fun p => p.2
/-- The next bytes of a conversion (R119, R257). -/
def layoutStep (c : Copy) (x : Slice) : EngM Moved := fun s =>
  match layoutRun c x (x.progress, s) with
  | .ok (_, _, t) => .ok (⟨0, x.dst, false, true⟩, t)
  | .error (.wrote n next t) => .ok (⟨n, next, false, false⟩, t)
  | .error (.stop r) => .error r

/-- The next piece of a slice. -/
def copyStep (c : Copy) (x : Slice) : EngM Moved :=
  if isLayout c.form then layoutStep c x
  else if isCv c.form then convStep c x
  else if isLb c.form then lbStep c x (match c.form.chan with | some (ch, _) => ch.val | none => 0)
  else rawStep c x

/-! ## Channels (R87, R104, R252) -/

/-- WPTRn and the publication word of the lowest group's slice take in what the copy has written, as one release (R87, R252). A publication word whose page
is not there lets the update wait, and one that faults is reported as a byte of its slice would be (DESIGN CHOICE, log 112). -/
def State.pubStep (s : State) (c : Copy) (ch : Nat) : Except RowStop State :=
  let v : DWord := nth 0 (s.wg c.wk).wptr ch + BitVec.ofNat 64 (c.done - c.counted)
  let t := (s.updWg c.wk fun g => { g with wptr := setNth g.wptr ch v }).updCopy c.id fun c => { c with counted := c.done }
  match c.inOrder.head?.bind fun x => x.pub.map fun p => (x.ctx, p) with
  | none => .ok t
  | some (ck, p) => match chkSpan p 8 8 with
    | some (cz, d, a) => .error (.fault cz d a)
    | none => (engPut ck .wi p (bytesLE 8 v.toNat) t).map (·.2)
/-- The channel whose count lags behind what its copy has written. -/
def Copy.lags (c : Copy) : Option Nat := if c.done = c.counted then none else c.form.chan.map fun x => x.1.val
def State.wptrUpdate (s : State) (id : Nat) : State :=
  match s.copy? id with
  | none => s
  | some c => match c.lags with
    | none => s
    | some ch => match s.pubStep c ch with
      | .ok t => t.pushOnce .copyArrival { id := id }
      | .error (.wait _ w a) => s.pushOnce w a
      | .error (.fault _ _ _) => s.pushOnce .copyFault { id := id }
      | .error _ => s
/-- The channel's place follows the bytes written. -/
def State.chanAt (s : State) (c : Copy) (next : DWord) : State :=
  match c.form.chan with
  | none => s
  | some (ch, _) => (s.updWg c.wk fun g => { g with ch := setNth g.ch ch.val next }).pushOnce .channelWptrUpdate { id := c.id }
/-- Every resident, unretired group has supplied its slice (R102). -/
def State.supplied (s : State) (c : Copy) : Bool :=
  match c.number with
  | none => true
  | some n => s.ctxs.all fun (k, x) => k / 32 ≠ c.wk || k % 32 = 16 || x.evicted || x.front.live = 0 || x.copies > n
/-- A function that quiesces begins no copy (R357). -/
def State.barred (s : State) (c : Copy) : Bool := (s.vf (s.wg c.wk).vfn).quiescing
/-- COPY_CHANNEL_START: after every earlier copy of the channel has arrived. -/
def State.chanStart (s : State) (id : Nat) : State :=
  match s.copy? id with
  | none => s
  | some c => match c.form.chan with
    | none => s
    | some (ch, _) =>
      let earlier := s.copies.any fun (k, x) => k < id && x.wk = c.wk && (match x.form.chan with | some (y, _) => y = ch | none => false)
      if c.begun || earlier || !s.supplied c || s.barred c then s
      else
        let s := s.updCopy id fun c => { c with started := true, begun := true }
        let s := if !isLb c.form || c.form.flag then s.updWg c.wk fun g => { g with buf := Tab.erase g.buf ch.val } else s
        let s := match c.inOrder.find? fun x => x.isOpen c.form with
          | some x => if nth 0 (s.wg c.wk).ch ch.val = x.dst then s else s.updWg c.wk fun g => { g with wptr := setNth g.wptr ch.val 0 }
          | none => s
        s.pushOnce .copyArrival { id := id }

/-! ## Arrival and faults (R86, R225, R254) -/

/-- The lanes of a slice's issue that still live, at the level that they stand at now. -/
def State.sliceLive (s : State) (x : Slice) : Lanes :=
  if (Tab.find? s.ctxs x.ctx).isNone then 0
  else
    let f := s.front x.ctx (s.levelOf x.ctx x.level x.birth)
    maskOf ((lanesOf x.lanes).filter fun l => (f.lane l).st ≠ .exited)
/-- A report of a copy (R254): its lanes trap, or, with none of them left, a fatal record; true when lanes are parked. -/
def State.copyReport (s : State) (x : Slice) (cause detail : Nat) (addr : DWord) (kind : TrapKind) : Bool × State :=
  let live := s.sliceLive x
  if live = 0 then
    (false, s.fatal (s.wgOf x.ctx).vfn (s.recOf x.ctx 6 cause x.pc addr x.lanes (causeWord cause detail 0)))
  else (true, s.trap x.ctx (s.levelOf x.ctx x.level x.birth) { cause := causeWord cause detail 0, addr := addr, pc := x.pc, lanes := live, kind := kind })
/-- The copy arrives: its channel counts what it has written, its command is issued if its last byte landed, its queue entry is freed, and it arrives on its
barrier (DESIGN CHOICE, log 47). -/
def State.arrive (s : State) (c : Copy) (whole : Bool) : State :=
  let s := match c.lags with
    | none => s
    | some ch => match s.pubStep c ch with
      | .ok t => t
      | .error _ => s.updWg c.wk fun g => { g with wptr := setNth g.wptr ch (nth 0 g.wptr ch + BitVec.ofNat 64 (c.done - c.counted)) }
  let s := s.updWg c.wk fun g => { g with buf := Tab.mapVals g.buf fun _ l => l.filter fun r => r.bytes.length = r.rowb }
  let s := s.updWg c.wk fun g => g.settleTiles (copyWriter c.id) 1
  let s := c.qfmt.eraseDups.foldl (fun t ck => t.orFlags ck fQFMT) s
  let s : State := match c.matId with
    | none => s
    | some m =>
      if whole then
        match List.find? (fun (q : MatCmdQ) => q.id = m) (s.wg c.wk).mq with
        | none => s
        | some q =>
          let (snap, t) := s.snapshot c.wk q.cmd
          let low := match c.inOrder with | x :: _ => x.ctx | [] => q.ctx
          let now := t.grantTime c.wk
          let t := t.updWg c.wk fun g => { g with mq := g.mq.map fun (q : MatCmdQ) => if q.id = m then { q with armed := true, snap := snap, ctx := low, granted := now } else q }
          ((t.spendToken c.wk).countMat (s.wg c.wk).core).pushOnce .matrixOpStart { id := (s.wg c.wk).core }
      else s.updWg c.wk fun g => { g with mq := g.mq.filter fun (q : MatCmdQ) => q.id ≠ m }
  let s := { s with copies := Tab.erase s.copies c.id }
  let s := s.updCore (s.wg c.wk).core fun k => { k with copyq := k.copyq.filter (· ≠ c.id) }
  match ((s.wg c.wk).bar c.form.bar.val).arrive .copy false with
  | some (b, full) =>
    let s := s.updWg c.wk fun g => g.setBar c.form.bar.val b
    if full then s.wakeBar c.wk c.form.bar.val else s
  | none => match c.slices with
    | x :: _ => (s.copyReport x 0x30 0 (BitVec.ofNat 64 c.form.bar.val) .copyBar).2
    | [] => s
/-- The slices with bytes left, in the order in which the engine goes on: on a channel the stream's, else from the slice that the pick names. -/
def Copy.todo (c : Copy) (pick : Option Nat) : List Slice :=
  let open' := c.inOrder.filter fun x => x.isOpen c.form
  if c.form.chan.isSome then open'.take 1 else (open'.filter fun x => some (x.ctx % 32) = pick) ++ open'
/-- COPY_ARRIVAL: the copy moves on by a piece, once its channel has counted the last; when nothing is left it arrives, a command's copy only with the
token that it needs. -/
def State.copyMove (s : State) (id : Nat) (pick : Option Nat) : State :=
  match s.copy? id with
  | none => s
  | some c =>
    if c.stopped || (c.form.chan.isSome && !c.begun) || (!c.started && !s.supplied c) || (!c.begun && s.barred c) then s
    else if c.lags.isSome then s.wptrUpdate id
    else
      let s := s.updCopy id fun c => { c with started := true, begun := true }
      match c.todo pick with
      | [] =>
        if c.matId.isSome && s.capped && !(s.wg c.wk).token then s.askToken c.wk
        else s.arrive c true
      | x :: _ => match copyStep c x s with
        | .error (.wait _ w a) => s.pushOnce w a
        | .error (.fault _ _ _) => s.pushOnce .copyFault { id := id }
        | .error _ => s
        | .ok (m, t) =>
          let t := t.updCopy id fun c => { c with
            slices := c.slices.map fun y => if y.ctx = x.ctx then { y with progress := y.progress + m.n, ended := y.ended || m.ended } else y
            qfmt := if m.bad then c.qfmt ++ [x.ctx] else c.qfmt }
          (if m.n = 0 then t else t.chanAt c m.next).pushOnce .copyArrival { id := id }
/-- The first fault that a copy meets: of its publication word, or of a piece of a slice. -/
def State.copyFault? (s : State) (c : Copy) (pick : Option Nat) : Option (Slice × Nat × Nat × DWord) :=
  match c.lags with
  | some ch => match s.pubStep c ch, c.inOrder.head? with
    | .error (.fault cz d a), some x => some (x, cz, d, a)
    | _, _ => none
  | none => (c.todo pick).findSome? fun x => match copyStep c x s with | .error (.fault cz d a) => some (x, cz, d, a) | _ => none
/-- COPY_FAULT: the first piece that cannot be done stops the copy. -/
def State.copyStop (s : State) (id : Nat) (pick : Option Nat) : State :=
  match s.copy? id with
  | none => s
  | some c =>
    if c.stopped || !c.begun then s
    else match s.copyFault? c pick with
      | none => s
      | some (x, cz, d, a) =>
        let (parked, t) := s.copyReport x cz d a (.copy id)
        if parked then t.updCopy id fun c => { c with stopped := true } else t.arrive c false
/-- TRET restarts a stopped copy; TKILL lets it arrive as it stands (R254). -/
def State.copyResume (s : State) (id : Nat) : State := (s.updCopy id fun c => { c with stopped := false }).pushOnce .copyArrival { id := id }
def State.copyAbort (s : State) (id : Nat) : State := match s.copy? id with | some c => s.arrive c false | none => s

/-! ## The events -/

def execCopyChannelStart (s : State) : Out := .next (s.chanStart s.args.id)
def execCopyArrival (s : State) : Out := .next (s.copyMove s.args.id s.args.pick)
def execChannelWptrUpdate (s : State) : Out := .next (s.wptrUpdate s.args.id)
def execCopyFault (s : State) : Out := .next (s.copyStop s.args.id s.args.pick)
def execMatrixOpStart (s : State) : Out := .next (s.matStart s.args.id s.args.pick)
def execMatrixOpComplete (s : State) : Out := .next (s.matComplete s.args.id s.args.pick)
def execPumpStep (s : State) : Out := .next (s.pumpStep s.args.id s.args.pick)
def execSelfTest (s : State) : Out := .next (s.selfTested s.args.id s.args.list)

end Sys2Proof.Machine
end

