-- ==== Sys2Proof/Machine/Stream.lean ====
section
/-! DEFINITION. Stream instructions (R120 to R127, R261, R262). -/
namespace Sys2Proof.Machine

/-! ## Issue -/

/-- A stream instruction's work, done as it issues; it is complete, and its flag counts down, at a moment of its own (R125). A fault stops every acting
lane with nothing performed. A page that is not there lets the lanes wait, and later stream instructions on its streams with them. -/
def streamEff (i : Issue) (act : Lanes) (s : State) (q : Nat) (m : EngM Unit) : Eff :=
  if act = 0 then { st := s, vary := some 0 }
  else match m s with
    | .ok (_, t) =>
      let (id, t) := t.startJob i act (.streamOp q)
      { st := t.updCtx i.ctx fun c => { c with outstanding := c.outstanding + 1 }, vary := some id }
    | .error (.fault c d a) => { allFault s act c d a with vary := some 0 }
    | .error (.wait st w x) =>
      let (_, t) := (s.pushOnce w x).startJob i act (.streamWait q)
      { st := t, block := (lanesOf act).map fun l => (l, st, true), vary := some 0 }
    | .error _ => { st := s, vary := some 0 }
def streamForm (h : Hdr) (opc : Nat) (srcs : List (Reg × Nat)) (ok : Bool) (q : Nat) (x : Instr) : State → Out :=
  issueFormS (fun i s => { h := h, opc := opc, who := .both, plan := { srcs := srcs, ok := ok && i.ctx % 32 ≠ 16 }, queue := sumpFull s i })
    fun i act s => streamEff i act s q ((readsNow s i act x).getD (pure ()))
def execFbopen (x : FbopenX) (s : State) : Out := streamForm x.h 0xCE [(x.a, 2), (x.b, 1)] (pairOk x.a) x.q.val (.fbopen x) s
def execFbskip (x : FbskipF) (s : State) : Out := streamForm x.h 0xD2 [(x.k, 1)] true x.q.val (.fbskip x) s
def execFbsave (x : FbstF) (s : State) : Out := streamForm x.h 0xD3 [(x.addr, 2)] (baseOk x.addr) x.q.val (.fbsave x) s
def execFbsaveX (x : FbstX) (s : State) : Out := streamForm x.h 0xD3 [(x.addr, 2)] (baseOk x.addr) x.q.val (.fbsaveX x) s
def execFbrest (x : FbstF) (s : State) : Out := streamForm x.h 0xD4 [(x.addr, 2)] (baseOk x.addr) x.q.val (.fbrest x) s
def execFbrestX (x : FbstX) (s : State) : Out := streamForm x.h 0xD4 [(x.addr, 2)] (baseOk x.addr) x.q.val (.fbrestX x) s

/-! ## FBMEET and FBJOIN (R120, R122) -/

/-- A stream that can be met: single, bound, ordered and unique. -/
def Stream.plain (x : Stream) : Bool := x.kind = 1 && x.a.o && x.a.u
/-- Policy and scope are both streams' own; where they differ the manual does not say whose stand, and a free value picks (DESIGN CHOICE, log 39). -/
def pairStream (kind : Nat) (a b : Stream) (pickB : Bool) : Stream :=
  let p := if pickB then b else a
  let st := stPut 509 3 kind (stPut 498 5 (stGet p.st 498 5) 0)
  let st := stPut 505 2 (a.lev false) (stPut 503 2 (b.lev false) st)
  let st := stPut 384 32 (b.get32 352) (stPut 352 32 (a.get32 352) (stPut 320 32 (b.get32 288) (stPut 288 32 (a.get32 288) st)))
  let st := stPut 256 32 0xFFFFFFFF (stPut 224 32 (b.get32 160) (stPut 192 32 (b.get32 128) (stPut 160 32 (a.get32 160) (stPut 128 32 (a.get32 128) st))))
  { st := stPut 64 64 (b.desc false).toNat (stPut 0 64 (a.desc false).toNat st), a := a.a, b := b.a }
def pairForm (x : FbpairF) (opc kind : Nat) : State → Out :=
  issueFormS (fun i _ => { h := x.h, opc := opc, who := .both, plan := { ok := i.ctx % 32 ≠ 16 && x.a ≠ x.b } })
    fun i act s =>
      let a := s.stream i.ctx x.a.val
      let b := s.stream i.ctx x.b.val
      if act = 0 then { st := s }
      else if !a.plain then allFault s act 0x41 x.a.val (if a.kind = 0 then 0 else a.desc false)
      else if !b.plain then allFault s act 0x41 x.b.val (if b.kind = 0 then 0 else b.desc false)
      else
        let (pick, s) : Bool × State := if stGet a.st 498 5 = stGet b.st 498 5 then (false, s) else let (v, t) := s.free 1; (v = 1, t)
        { st := ((s.setStream i.ctx x.a.val {}).setStream i.ctx x.b.val {}).setStream i.ctx x.d.val (pairStream kind a b pick) }
def execFbmeet (x : FbpairF) (s : State) : Out := pairForm x 0xD0 2 s
def execFbjoin (x : FbpairF) (s : State) : Out := pairForm x 0xD1 3 s

/-! ## FBNEXT (R121, R127) -/

def vNum (r : Reg) : Nat := match r with | .v n => n.val | _ => 256
/-- The destinations: Vp + 1 too for a meet or join, where the lane has it. -/
def nextDsts (s : State) (i : Issue) (x : FbnextF) : List (Reg × Nat) :=
  let two := (s.stream i.ctx x.q.val).pair && vNum x.p + 1 < (s.wgOf i.ctx).regs
  [(x.c, 1), (x.p, 1)] ++ (if two then [(regPlus x.p 1, 1)] else [])
def execFbnext (x : FbnextF) (s : State) : Out :=
  issueFormS (fun i s => { h := x.h, opc := 0xCF, who := .both, queue := sumpFull s i
                           plan := { dsts := nextDsts s i x, pdst := [x.pm.toNat]
                                     ok := i.ctx % 32 ≠ 16 && vNum x.c < 192 && vNum x.p < 192 && x.c ≠ x.p && x.pm ≠ 7 } })
    (fun i act s =>
      let st := s.stream i.ctx x.q.val
      if act = 0 then { st := s, vary := some 0 }
      else if st.kind = 0 then { allFault s act 0x41 x.q.val 0 with vary := some 0 }
      else if st.pair && (vNum x.p + 1 ≥ (s.wgOf i.ctx).regs || vNum x.c = vNum x.p + 1) then { allFault s act 0x02 0 i.pc with vary := some 0 }
      else
        let (id, t) := s.startJob i act (.stream x.q.val i.exec (vNum x.c) (vNum x.p) x.pm.toNat false)
        { st := t.updCtx i.ctx fun c => { c with outstanding := c.outstanding + 1 }, vary := some id }) s
/-- The FBNEXT is complete. -/
def State.endNext (s : State) (j : JobRec) : State :=
  (s.updCtx j.ctx fun c => { c with outstanding := c.outstanding - 1 }).endJob j.id
/-- The lanes not served yet. -/
def State.nextLanes (s : State) (j : JobRec) (q : Nat) : List Nat := lanesOf (j.lanes &&& ~~~(s.stream j.ctx q).dmask)
/-- One element, to the lowest lane not served; with none left the instruction is complete. -/
def nextStep (j : JobRec) (q c p pm : Nat) : EngM Bool := do
  let s ← get
  match s.nextLanes j q with
  | [] =>
    modify fun s => (s.setStream j.ctx q ((s.stream j.ctx q).set 416 32 0)).endNext j
    pure true
  | l :: _ =>
    let (x, item) ← nextItem j.ctx q (s.stream j.ctx q)
    let pair := x.pair
    match item with
    | .passed =>
      modify fun s => s.setStream j.ctx q x
      pure false
    | .item e =>
      modify fun s =>
        let s := s.setStream j.ctx q ((x.set 416 32 (x.dmask ||| laneBit l).toNat).set 256 32 e.coord)
        s.writeAll j.ctx ([⟨.v l c, BitVec.ofNat 64 e.coord⟩, ⟨.v l p, BitVec.ofNat 64 e.posA⟩, ⟨.p pm l, 1⟩] ++
          (if pair then [⟨.v l (p + 1), BitVec.ofNat 64 e.posB⟩] else []))
      pure false
    | .done =>
      modify fun s =>
        let s := s.setStream j.ctx q (x.set 416 32 0)
        (s.writeAll j.ctx ((s.nextLanes j q).filterMap fun k => if hasLane (x.dmask) k then none else some ⟨.p pm k, 0⟩)).endNext j
      pure true
/-- The words that a stream's next read may take from a fibre. -/
def Stream.ahead (x : Stream) (b : Bool) : List (Nat × Nat) :=
  let f := x.fibre b
  let cur := x.get32 (fibreAt b).cur
  let par := x.get32 (fibreAt b).par
  match f.kind with
  | .dense => []
  | .compressed => if cur < x.get32 (fibreAt b).fin' then [(f.crd.toNat + 4 * cur, 4)] else []
  | .singleton => if cur = par then [(f.crd.toNat + 4 * par, 4)] else []
  | .bitmap => let n := (f.size + 63) / 64; [(f.crd.toNat + 8 * (par * n + cur / 64), 8 * (n - cur / 64))]
/-- FBNEXT's reads are loads of its lanes: an incomplete fence before it holds them, and so does an older access of the lanes to what they read (R77, R80,
R126). -/
def State.nextHeld (s : State) (j : JobRec) (q : Nat) : Bool :=
  let x := s.stream j.ctx q
  s.jobFenced j false || ((x.ahead false ++ if x.pair then x.ahead true else []).any fun (a, n) => s.jobHeld j a n)
/-- An FBNEXT of an evicted group waits for its restoration (R127). -/
def State.runNext (s : State) (j : JobRec) (q c p pm : Nat) : State :=
  if (s.ctx j.ctx).evicted || s.nextHeld j q then s
  else match nextStep j q c p pm s with
  | .ok (_, t) => t.pushOnce .flagCountDown { id := j.id }
  | .error (.wait _ w x) => s.pushOnce w x
  | .error (.fault _ _ _) => s.pushOnce .streamElementFault { id := j.id }
  | .error _ => s
/-- A bitmap fibre's cursor points at the word that failed, past the empty words before it (R127). -/
def Stream.atWord (x : Stream) (b : Bool) (va : DWord) : Stream :=
  let f := x.fibre b
  let p := fibreAt b
  let n := (f.size + 63) / 64
  let first := f.crd.toNat + 8 * (x.get32 p.par * n)
  if f.kind = .bitmap && first ≤ va.toNat && va.toNat < first + 8 * n then x.set p.cur 32 (max (x.get32 p.cur) (64 * ((va.toNat - first) / 8))) else x
/-- STREAM_ELEMENT_FAULT: the fragment is parked where it stands; with none of its lanes left the instruction ends. -/
def State.nextFault (s : State) (id : Nat) : State :=
  match s.job id with
  | none => s
  | some j => match j.job with
    | .stream q frag c p pm false => match nextStep j q c p pm s with
      | .error (.fault cz d a) =>
        if s.nextHeld j q then s else
        let level := s.levelOf j.ctx j.level j.id
        let f := s.front j.ctx level
        let live := maskOf ((lanesOf frag).filter fun l => (f.lane l).st ≠ .exited)
        if live = 0 then s.endNext j
        else
          let s := s.updJob id fun j => { j with job := .stream q frag c p pm true }
          let x := s.stream j.ctx q
          let s := s.setStream j.ctx q (if x.pair then (x.atWord false a).atWord true a else x.atWord false a)
          s.trap j.ctx level { cause := causeWord cz d 0, addr := a, pc := j.pc, lanes := live, kind := .fbnext id }
      | _ => s
    | _ => s
/-- TRET lets a stopped FBNEXT go on; TKILL ends it, and its flag counts down (R127). -/
def State.nextResume (s : State) (id : Nat) : State :=
  (s.updJob id fun j => match j.job with | .stream q f c p pm _ => { j with job := .stream q f c p pm false } | _ => j).pushOnce .flagCountDown { id := id }
def State.nextAbort (s : State) (id : Nat) : State := match s.job id with | some j => s.endNext j | none => s
/-- Whether a group's FBNEXTs let it be evicted: each waits for a page (R127). -/
def State.streamsRest (s : State) (ck : Nat) : Bool :=
  (Tab.vals s.jobs).all fun (j : JobRec) => j.ctx ≠ ck || match j.job with
    | .stream q _ c p pm stopped => stopped || (match nextStep j q c p pm s with | .error (.wait (.waitPage _ _ _) _ _) => true | _ => false)
    | .streamOp _ => false
    | _ => true
/-- An evicted group's streams are saved with the FBNEXT that waits, and restored without (R124, R127). -/
def State.markStreams (s : State) (ck : Nat) (away : Bool) : State :=
  (Tab.vals s.jobs).foldl (fun t (j : JobRec) =>
    if j.ctx ≠ ck then t
    else match j.job with
      | .stream q _ c p pm _ =>
        let flag := (((t.ctx ck).pends.find? fun x => x.id = j.id).bind (·.flag)).map (·.2)
        let x := t.stream ck q
        t.setStream ck q (if away then ((((x.set 507 1 1).set 490 8 c).set 482 8 p).set 479 3 pm).set 475 4 (flag.getD 15)
          else ((((x.set 507 1 0).set 490 8 0).set 482 8 0).set 479 3 0).set 475 4 0)
      | _ => t) s
def execStreamElementFault (s : State) : Out := .next (s.nextFault s.args.id)

end Sys2Proof.Machine
end

