-- ==== Sys2Proof/Machine/Grid.lean ====
section
/-! DEFINITION. Launch records and handles (R263 to R268), frames (R45 to R48, R362), the dispatchers and placement (R26 to R30, R40, R44),
eviction and restoration (R291, R363), retirement (R10, R31) and root launches (R343 to R345). -/
namespace Sys2Proof.Machine

/-! ## Handles (R264) -/

def failedHandle (reason : Nat) : DWord := BitVec.ofNat 64 (2 ^ 63 + reason)
def handleOf (g : Grid) : DWord := BitVec.ofNat 64 (g.vfn * 2 ^ 54 + g.gen * 2 ^ 32 + g.slot)
/-- What a handle names, for a virtual function. -/
inductive Named where
  | failed | other | never | retired
  | live (grid : Nat)
  deriving DecidableEq, Repr
def State.named (s : State) (vfn : Nat) (h : DWord) : Named :=
  let v := (h.extractLsb' 54 9).toNat
  let gen := (h.extractLsb' 32 22).toNat
  let slot := (h.extractLsb' 0 32).toNat
  let now := Tab.get 0 (s.vf vfn).gens slot
  if h.getLsbD 63 then .failed
  else if v ≠ vfn then .other
  else if slot = 0 || gen = 0 || now < gen then .never
  else if gen < now then .retired
  else match List.find? (fun (_, g) => g.vfn = vfn && g.slot = slot && g.gen = gen) s.grids with
    | some (k, _) => .live k
    | none => .retired
/-- A grid and its ancestors; a lexical level bounds their number. -/
def State.lineage (s : State) (g : Nat) (fuel : Nat) : List Nat :=
  match fuel with
  | 0 => []
  | n + 1 => g :: (match (s.grid g).parent with | some p => s.lineage p n | none => [])

/-! ## Launch records (R263) -/

structure Record where
  (entry : DWord) (wgcnt : Nat) (ordered after coresident : Bool) (prio level regs groups cist frame : Nat) (handle head : DWord)
  deriving DecidableEq, Repr
def Record.of (w : Nat → DWord) : Record :=
  { entry := w 0, wgcnt := ((w 1).extractLsb' 0 32).toNat + 1, ordered := (w 2).getLsbD 27, after := (w 2).getLsbD 26, coresident := (w 2).getLsbD 25
    prio := ((w 2).extractLsb' 21 3).toNat, level := ((w 2).extractLsb' 18 3).toNat, regs := ((w 2).extractLsb' 8 8).toNat
    groups := ((w 2).extractLsb' 0 5).toNat, cist := ((w 3).extractLsb' 32 32).toNat, frame := ((w 3).extractLsb' 0 32).toNat
    handle := w 4, head := w 5 }
/-- Whether word k of a record keeps R263, words 0 to 5. -/
def recordWordOk (w : Nat → DWord) (k : Nat) : Bool :=
  let x := w k
  match k with
  | 0 => x.toNat % 8 = 0 && windowOf x = .global
  | 1 => x.extractLsb' 32 32 = 0
  | 2 =>
    let regs := (x.extractLsb' 8 8).toNat
    let groups := (x.extractLsb' 0 5).toNat
    x.extractLsb' 28 36 = 0 && !(x.getLsbD 27 && x.getLsbD 26) && !x.getLsbD 24 && x.extractLsb' 16 2 = 0 && x.extractLsb' 5 3 = 0 &&
    8 ≤ regs && regs ≤ 192 && regs % 8 = 0 && 1 ≤ groups && groups ≤ 16
  | 3 => (x.extractLsb' 32 32).toNat ≤ 262144 && (x.extractLsb' 0 32).toNat ≤ 0x1000000
  | 4 => x = 0 || (w 2).getLsbD 26
  | 5 => x.toNat % 8 = 0 && (x = 0 || windowOf x = .global)
  | _ => x = 0
def recordFault (w : Nat → DWord) (n : Nat) : Option Nat := (List.range n).find? fun k => !recordWordOk w k
def Record.ways (r : Record) : Nat := (r.cist + 0x7FFF) / 0x8000
/-- Workgroups that one empty core could hold (R27). -/
def coreHolds (groups regs ways : Nat) : Nat :=
  min (min 4 (16 / groups)) (min (2048 / (regs * groups)) (if ways = 0 then 4 else 8 / ways))
def Record.fitsEmpty (r : Record) : Bool := r.wgcnt ≤ 3072 * coreHolds r.groups r.regs r.ways

/-! ## Frames (R45, R48, R362) -/

def Vf.fpfree (v : Vf) : Nat := v.fpact.toNat - (v.frames.map (·.2)).foldl (· + ·) 0
/-- First fit from the pool's start: the offset of a frame of n bytes. -/
def firstFit (frames : List (Nat × Nat)) (act n : Nat) : Option Nat :=
  let starts := sortBy (fun (a b : Nat) => decide (a ≤ b)) (0 :: frames.map fun (o, m) => o + m)
  starts.find? fun o => o + n ≤ act && frames.all fun (p, m) => o + n ≤ p || p + m ≤ o
/-- A frame for a grid: its address, or none where the pool cannot supply it; a page of it that is not present asks for a POOL record. -/
def State.takeFrame (s : State) (vfn user : Nat) : Option DWord × State :=
  let v := s.vf vfn
  let n := 64 + roundUp user 64
  match firstFit v.frames v.fpact.toNat n with
  | none => (none, s)
  | some o =>
    let a := v.fpbase + BitVec.ofNat 64 o
    if (cuts a.toNat n 65536).any fun (k, _) => (s.devPhys vfn (a + BitVec.ofNat 64 k)).isNone then
      (none, s.pushOnce .framePoolRefill { id := vfn, on := true })
    else
      let s := s.updVf vfn fun v => { v with frames := v.frames ++ [(o, n)] }
      let v := s.vf vfn
      (some a, if v.fpfree < v.fplow.toNat then s.pushOnce .framePoolRefill { id := vfn } else s)
/-- The header and zero user bytes of a grid's frame. -/
def State.writeFrame (s : State) (g : Grid) : State :=
  let parent := match g.parent with | some p => (s.grid p).frame | none => 0
  let hdr := bytesLE 8 parent.toNat ++ bytesLE 8 g.level ++ List.replicate 8 0 ++ bytesLE 8 (handleOf g).toNat ++ bytesLE 4 0 ++ bytesLE 4 g.size ++ List.replicate 24 0
  (s.devWrite g.vfn g.frame hdr).devWrite g.vfn (g.frame + 64) (List.replicate g.size 0)
/-- REFCNT of a grid's frame (R48). -/
def State.setRef (s : State) (k n : Nat) : State :=
  let g := s.grid k
  (s.updGrid k fun g => { g with children := n }).lateWrite g.vfn (g.frame + 0x20) (bytesLE 4 n)

/-! ## A new grid -/

/-- A free slot of a virtual function: any that serves no grid and has generations left; a free value names it where it can (DESIGN CHOICE, log 40). -/
def State.takeSlot (s : State) (vfn : Nat) : Nat × State :=
  let (x, s) := s.free 32
  let ok (n : Nat) : Bool := 1 ≤ n && Tab.get 0 (s.vf vfn).gens n < 0x3FFFFF && !(s.grids.any fun (_, g) => g.vfn = vfn && g.slot = n)
  if ok x.toNat then (x.toNat, s)
  else (((List.range (s.grids.length + (s.vf vfn).gens.length + 1)).map (· + 1)).find? ok |>.getD 0, s)
/-- The kernel that an entry address names (R329). -/
def State.kernelAt (s : State) (vfn : Nat) (entry : DWord) : Option Kernel := ((s.vf vfn).objects.flatMap (·.kernels)).find? fun k => k.entry = entry
/-- Queue a grid's workgroups on the dies in turn (R28), or hold a .CORESIDENT grid (R29). -/
def State.enqueue (s : State) (k die : Nat) : State :=
  let g := s.grid k
  if g.coresident then ({ s with coresident := s.coresident ++ [k] }).pushOnce .coresidentPlace { id := k }
  else (List.range (min 12 g.wgcnt)).foldl (fun t j =>
    let d := (die + j) % 12
    (t.updDie d fun x => { x with queue := x.queue ++ [{ grid := k, next := j, prio := g.prio, since := t.clock }] }).pushOnce .workgroupPlace { id := d }) s
/-- Make a grid from a record and its frame: slot and generation, frame contents, the parent's REFCNT, its display (R47). -/
def State.newGrid (s : State) (vfn : Nat) (r : Record) (parent : Option Nat) (frame done : DWord) (arg : Option DWord) (die : Nat) : DWord × State :=
  let (id, s) := s.newId
  let (slot, s) := s.takeSlot vfn
  let gen := Tab.get 0 (s.vf vfn).gens slot + 1
  let s := s.updVf vfn fun v => { v with gens := Tab.put v.gens slot gen }
  let above : List DWord := match parent with | some p => (s.grid p).display | none => []
  let kern := s.kernelAt vfn r.entry
  let g : Grid := { id := id, vfn := vfn, slot := slot, gen := gen, level := r.level, parent := parent, frame := frame, size := roundUp r.frame 64
                    entry := r.entry, head := r.head, wgcnt := r.wgcnt, groups := r.groups, regs := r.regs, cist := r.cist, prio := r.prio
                    coresident := r.coresident, ordered := r.ordered, after := if r.after then some r.handle else none
                    display := (List.range 8).map fun j => if j < r.level then nth 0 above j else if j = r.level then frame else 0
                    done := done, pmin := (kern.map (·.pmin)).getD 0, pmax := (kern.map (·.pmax)).getD 12, since := s.clock }
  let s := { s with grids := Tab.put s.grids id g }
  let s := s.writeFrame g
  let s := match arg with | some x => s.devWrite vfn (frame + 0x40) (bytesLE 8 x.toNat) | none => s
  let s := match parent with | some p => s.setRef p ((s.grid p).children + 1) | none => s.updVf vfn fun v => { v with roots := v.roots ++ [handleOf g] }
  (handleOf g, s.enqueue id die)

/-! ## LAUNCH (R265 to R267) -/

/-- One lane's launch. -/
def State.launch1 (s : State) (ck : Nat) (r : Record) (arg : Option DWord) : DWord × State :=
  let g := s.wgOf ck
  let gr := s.grid g.grid
  let badAfter : Bool := r.after && (match s.named g.vfn r.handle with
    | .failed | .other | .never => true
    | .live k => (s.lineage g.grid 8).contains k
    | .retired => false)
  if r.level ≠ gr.level + 1 then (failedHandle 1, s)
  else if badAfter then (failedHandle 4, s)
  else if r.coresident && !r.fitsEmpty then (failedHandle 3, s)
  else match s.takeFrame g.vfn r.frame with
    | (none, t) => (failedHandle 2, t)
    | (some f, t) => t.newGrid g.vfn r (some g.grid) f 0 arg (coreDie g.core)
def recReg (n : Fin 4) (k : Nat) (h : k < 8) : Reg := .s ⟨8 * n.val + k, by omega⟩
def launchSrcs (x : LaunchF) : List (Reg × Nat) := ((List.finRange 8).map fun k => (recReg x.recd k.val k.isLt, 2)) ++ [(x.arg, 2)]
def execLaunch (x : LaunchF) (s : State) : Out :=
  issueForm { h := x.h, opc := 0xD7, who := .both, plan := { srcs := launchSrcs x, dsts := [(x.d, 2)] } }
    (fun i act s =>
      let w (k : Nat) : DWord := (s.wgOf i.ctx).sreg (8 * x.recd.val + k)
      let r := Record.of w
      let argued := x.arg ≠ .sp .zero
      if act = 0 then { st := s, vary := some 0 }
      else if (s.gridOf i.ctx).level ≥ 7 then { allFault s act 0x33 0 i.pc with vary := some 0 }
      else match recordFault w 8 with
        | some k => { allFault s act 0x02 0 (BitVec.ofNat 64 (8 * x.recd.val + k)) with vary := some 0 }
        | none =>
          if argued && r.frame < 8 then { allFault s act 0x02 0 i.pc with vary := some 0 }
          else
            let args := (lanesOf act).map fun l => (l, src64 s i l x.arg)
            let (hs, t) := args.foldl (fun (acc : List (Nat × DWord) × State) (l, a) =>
              let (h, t) := acc.2.launch1 i.ctx r (if argued then some a else none)
              (acc.1 ++ [(l, h)], t)) (([] : List (Nat × DWord)), s.publish i.ctx)
            { st := t.writeAll i.ctx (hs.flatMap fun (l, h) => destWr (i.ctx % 32 == 16) l true x.d h), vary := some 0 }) s

/-! ## JOIN (R268) -/

/-- DEDUCED, log 60. -/
def execJoin (x : JumpF) (s : State) : Out :=
  issueForm { h := x.h, opc := 0xD8, who := .both, plan := { srcs := [(x.a, 2)] } }
    (fun i act s =>
      let g := s.wgOf i.ctx
      let (k, woke) := (lanesOf act).foldl (fun (acc : Lookup × Bool) l =>
        let h := src64 s i l x.a
        match s.named g.vfn h with
        | .failed => acc
        | .other => (acc.1.addFault l 0x11 0 i.pc, acc.2)
        | .never => (acc.1.addFault l 0x02 0 h, acc.2)
        | .retired => (acc.1, true)
        | .live y =>
          if (s.lineage g.grid 8).contains y then (acc.1.addFault l 0x02 0 i.pc, acc.2)
          else ({ acc.1 with wait := Tab.put acc.1.wait l (.blockedBar (.join h), false) }, acc.2)) (({} : Lookup), false)
      { st := if woke then (s.acquire g.core .pkg).learn i.ctx else s, fault := k.fault, block := k.wait }) s

/-! ## Room on a core (R27, R44) -/

structure Use where
  (wgs groups regs ways : Nat)
  deriving DecidableEq, Repr
def State.residents (s : State) (core : Nat) : List (Nat × Wg) := List.filter (fun (_, g) => g.core = core && !g.evicted) s.wgs
/-- Groups of a workgroup that are in the save area. -/
def State.awayGroups (s : State) (wk : Nat) : Nat := (List.filter (fun (k, c) => k / 32 = wk && k % 32 ≠ 16 && c.evicted) s.ctxs).length
def State.use (s : State) (core : Nat) : Use :=
  (s.residents core).foldl (fun u (k, g) =>
    let n := g.ngroups - s.awayGroups k
    { wgs := u.wgs + 1, groups := u.groups + n, regs := u.regs + n * g.regs, ways := u.ways + (waysOf g.cways).length }) ⟨0, 0, 0, 0⟩
def lentWays (c : Core) : List Nat := (List.range 8).filter fun w => c.way w = .lent
def State.room (s : State) (core groups regs ways : Nat) : Bool :=
  let u := s.use core
  u.wgs + 1 ≤ 4 && u.groups + groups ≤ 16 && u.regs + groups * regs ≤ 2048 && ways ≤ (lentWays (s.core core)).length
/-- A workgroup or group of a core that waits in the save area, with a priority at or above p, comes before a new placement (R363). -/
def State.owed (s : State) (core p : Nat) : Bool :=
  s.wgs.any fun (k, g) => g.core = core && (s.grid g.grid).prio ≥ p && (g.evicted || s.awayGroups k > 0)
/-- The .CORESIDENT grids for which freed capacity is withheld from a grid's workgroups (R29): of two such grids, the one launched first keeps its own (DEDUCED,
log 56). -/
def State.withholders (s : State) (k : Nat) : List Nat :=
  (s.coresident.takeWhile (· ≠ k)) ++ (if (s.grid k).withhold then [] else s.coresident.filter (· ≠ k))
/-- Capacity freed on the core is withheld from workgroups of grid k that stand at priority p. -/
def State.withheldFor (s : State) (core k p : Nat) : Bool :=
  (s.core core).withheld && (s.withholders k).any fun j => (s.grid j).withhold && (s.grid j).prio ≥ p

/-! ## Placement (R28, R40, R44, R47) -/

/-- Every line of a way is written back and invalidated (R44). -/
def State.flushWay (s : State) (core way : Nat) : State :=
  ((s.coreWords core).filter fun w => (s.l1w core w).way = way).foldl (fun t w => (t.flushWord core w).setL1 core w {}) s
/-- A way's scratchpad contents are gone: bytes read zero and words are empty, and none is lost. -/
def State.clearWay (s : State) (core way : Nat) : State :=
  let lo := cistKey core (way * 0x8000)
  { s with cist := Tab.filter s.cist fun k _ => !(lo ≤ k && k < lo + 0x8000)
           fe := Tab.filter s.fe fun k _ => !(lo ≤ 4 * k && 4 * k < lo + 0x8000)
           cistBad := s.cistBad.filter fun k => !(lo ≤ 4 * k && 4 * k < lo + 0x8000) }
def freshCtx (wk num : Nat) (pc : DWord) (live : Lanes) : Ctx :=
  { wk := wk, num := num, front := Front.fresh ((List.range 32).map fun l => if hasLane live l then { pc := pc, st := .active } else {})
    p := List.replicate 8 0, streams := List.replicate 16 {}, known := List.replicate 4 0 }
/-- The workgroup starts: its contexts begin, .data is in its scratchpad, as far as it has reserved bytes for it (DESIGN CHOICE, log 119), and its start
acquires (R22, R40, R85, R345). -/
def State.startWg (s : State) (wk : Nat) : State :=
  let g := s.wg wk
  let gr := s.grid g.grid
  let ctxs := ((List.range g.ngroups).map fun n => (wk * 32 + n, freshCtx wk n gr.entry (BitVec.allOnes 32))) ++
    [(wk * 32 + 16, freshCtx wk 16 gr.head (if gr.head = 0 then 0 else 1))]
  let s := { s with ctxs := ctxs.foldl (fun m (k, c) => Tab.put m k c) s.ctxs }
  let s := s.updWg wk fun g => { g with starting := false, placed := s.clock }
  let spad := match s.kernelAt g.vfn gr.entry with | some k => k.spad | none => []
  let s := ((spad.take g.reserved).mapIdx fun j b => (j, b)).foldl (fun (t : State) (j, b) => t.setCist g.core (g.cistPhys j) b) s
  s.acquire g.core .sys
/-- A workgroup's ways drain one after another, each within 2,048 cycles, the highest first (R44); with none left it starts. -/
def State.drainNext (s : State) (core wk : Nat) : State :=
  match (List.range 8).reverse.find? fun w => (s.core core).way w = .draining wk with
  | some w => s.pushOnce .wayDrain { id := core, num := w } (some (s.clock + 2048))
  | none => s.startWg wk
/-- Place a workgroup: its slot, its ways, its display (R47). -/
def State.placeWg (s : State) (core k wgid : Nat) : State :=
  let (wk, s) := s.newId
  let gr := s.grid k
  let n := (gr.cist + 0x7FFF) / 0x8000
  let ways := (lentWays (s.core core)).reverse.take n
  let used := (s.residents core).map fun (_, g) => g.slot
  let slot := ((List.range 4).find? fun x => !used.contains x).getD 0
  let mask : Byte := ways.foldl (fun m w => m ||| (1 <<< w)) 0
  let g : Wg := { id := wk, vfn := gr.vfn, grid := k, wgid := wgid, core := core, slot := slot, ngroups := gr.groups, regs := gr.regs, placed := s.clock
                  bars := List.replicate 16 0, d := gr.display, cways := mask, ch := List.replicate 4 0, wptr := List.replicate 4 0
                  tshape := List.replicate 8 0, xpValid := List.replicate 4 false
                  trapbase := (s.vf gr.vfn).trapbase, headExited := gr.head = 0, starting := true }
  let s := s.setWg wk g
  let s := s.updGrid k fun g => { g with placed := g.placed + 1 }
  let s := s.updCore core fun c => { c with ways := (List.range 8).map fun w => if ways.contains w then .draining wk else c.way w }
  s.drainNext core wk
/-- WAY_DRAIN: the way is scratchpad now; after the last one the workgroup starts. -/
def State.drainWay (s : State) (core way : Nat) : State :=
  match (s.core core).way way with
  | .draining wk =>
    let s := ((s.flushWay core way).clearWay core way).updCore core fun c => { c with ways := (List.range 8).map fun w => if w = way then .reserved wk else c.way w }
    s.drainNext core wk
  | _ => s

/-- Whether a queued workgroup may be placed now: its function runs, its .AFTER tree has retired, earlier .ORDERED siblings have begun (R30). -/
def State.mayPlace (s : State) (k : Nat) : Bool :=
  let g := s.grid k
  !(s.vf g.vfn).quiescing &&
  (match g.after with | some h => (match s.named g.vfn h with | .retired => true | _ => false) | none => true) &&
  (!g.ordered || s.grids.all fun (j, x) => j ≥ k || x.vfn ≠ g.vfn || x.parent ≠ g.parent || !x.ordered || x.placed > 0)
/-- The entries that a dispatcher may serve next: the heads of the highest priority, function by function in turn (DEDUCED, log 55). -/
def State.heads (s : State) (die : Nat) : List QEntry :=
  let d := s.die die
  let open' := d.queue.filter fun e => s.mayPlace e.grid
  let top := open'.foldl (fun m e => max m e.prio) 0
  let at' := open'.filter fun e => e.prio = top
  let vfs := sortBy (fun (a b : Nat) => decide (a ≤ b)) ((at'.map fun e => (s.grid e.grid).vfn).eraseDups)
  ((vfs.filter (d.rr < ·)) ++ vfs.filter (· ≤ d.rr)).filterMap fun v => at'.find? fun e => (s.grid e.grid).vfn = v
/-- The cores of a die that could take an entry's workgroup. -/
def State.roomFor (s : State) (die : Nat) (e : QEntry) : List Nat :=
  let g := s.grid e.grid
  (iota (256 * die) 256).filter fun c => s.room c g.groups g.regs ((g.cist + 0x7FFF) / 0x8000) && !s.owed c e.prio && !s.withheldFor c e.grid e.prio
/-- WORKGROUP_PLACE: a dispatcher serves an entry; the core is any with room. -/
def State.dispatch (s : State) (die : Nat) (pick : Option Nat) : State :=
  match (s.heads die).findSome? fun e => match s.roomFor die e with | [] => none | l => some (e, l) with
  | none => s
  | some (e, cores) =>
    let core := match pick with | some c => if cores.contains c then c else cores.headD 0 | none => cores.headD 0
    let g := s.grid e.grid
    let s := s.placeWg core e.grid e.next
    let s := s.updDie die fun d => { d with rr := g.vfn, queue := d.queue.filterMap fun x =>
      if x = e then (if x.next + 12 < g.wgcnt then some { x with next := x.next + 12 } else none) else some x }
    s.pushOnce .workgroupPlace { id := die }
/-- PRIORITY_AGING: entries that have waited 2^20 cycles rise by one (R28). -/
def State.age (s : State) (die : Nat) : State :=
  s.updDie die fun d =>
    let old (e : QEntry) : Bool := e.prio < 7 && s.clock - e.since ≥ 2 ^ 20
    { d with queue := d.queue.filter (fun e => !old e) ++ (d.queue.filter old).map fun e => { e with prio := e.prio + 1, since := s.clock } }
/-- CORESIDENT_PLACE: every workgroup of the grid has room, and all are placed (R29); the cores are any with room. -/
def State.placeAll (s : State) (k : Nat) (prefer : List Nat) : State :=
  if !s.coresident.contains k || !s.mayPlace k then s
  else
    let g := s.grid k
    let n := (g.cist + 0x7FFF) / 0x8000
    let room (t : State) (c : Nat) : Bool := c < 3072 && t.room c g.groups g.regs n && !t.owed c g.prio && !s.withheldFor c k g.prio
    let r := (List.range g.wgcnt).foldl (fun (acc : Option (State × List Nat × Nat)) w =>
      match acc with
      | none => none
      | some (t, pref, from') =>
        let (first, rest) := match pref with | c :: r => (if room t c then some c else none, r) | [] => (none, [])
        match first.or ((iota from' (3072 - from')).find? (room t)) with
        | some c => some (t.placeWg c k w, rest, if first.isSome then from' else c)
        | none => none) (some (s, prefer, 0))
    match r with
    | some (t, _, _) => { t with coresident := t.coresident.filter (· ≠ k) }
    | none => s
/-- CORESIDENT_WITHHOLD: from now on capacity that frees is withheld from its priority and below (R29). -/
def State.withhold (s : State) (k : Nat) : State :=
  if s.coresident.contains k && s.clock - (s.grid k).since ≥ 2 ^ 20 && !(s.grid k).withhold then
    let first := !(s.coresident.any fun j => (s.grid j).withhold)
    let s := s.updGrid k fun g => { g with withhold := true }
    if first then { s with cores := Tab.mapVals s.cores fun _ c => { c with withheld := false } } else s
  else s
/-- Capacity of a core has freed (DEDUCED, log 56). -/
def State.freed (s : State) (core : Nat) : State :=
  let s := if s.coresident.any fun k => (s.grid k).withhold then s.updCore core fun c => { c with withheld := true } else s
  let s := s.coresident.foldl (fun t k => t.pushOnce .coresidentPlace { id := k }) s
  s.pushOnce .workgroupPlace { id := coreDie core }

/-! ## Retirement (R10, R31, R48) -/

def BarWait.joins (h : DWord) : BarWait → Bool
  | .join x => x = h
  | _ => false
/-- The lanes that JOIN a handle return, and acquire, parked ones too. -/
def State.wakeJoin (s : State) (vfn : Nat) (h : DWord) : State :=
  let p (k : Nat) (st : LaneSt) : Bool := (s.wgOf k).vfn = vfn && (match st with | .blockedBar w => w.joins h | _ => false)
  let cks := s.waiters p
  (cks.foldl (fun t k => t.learn k) ((cks.map s.coreOf).eraseDups.foldl (fun t c => t.acquire c .pkg) s)).wakeAll p
/-- A grid with no live child and no workgroup left: its tree has retired; its frame is freed and its parent's REFCNT falls. -/
def State.treeRetire (s : State) (k fuel : Nat) : State :=
  match fuel with
  | 0 => s
  | n + 1 =>
    match Tab.find? s.grids k with
    | none => s
    | some g =>
      if !g.dead || g.children ≠ 0 then s
      else
        let s := if g.done = 0 then s else s.lateWrite g.vfn g.done (bytesLE 8 (handleOf g).toNat)
        let off := (g.frame - (s.vf g.vfn).fpbase).toNat
        let s := s.updVf g.vfn fun v => { v with frames := v.frames.filter fun (o, _) => o ≠ off, late := v.late.filter fun (a, _) => a ≠ g.frame + 0x20 }
        let s := { s with grids := Tab.erase s.grids k }
        let s := s.wakeJoin g.vfn (handleOf g)
        let s := (List.range 12).foldl (fun t d => if (t.die d).queue.isEmpty then t else t.pushOnce .workgroupPlace { id := d }) s
        let s := s.coresident.foldl (fun t j => t.pushOnce .coresidentPlace { id := j }) s
        match g.parent with
        | some p => (s.setRef p ((s.grid p).children - 1)).treeRetire p n
        | none => s
/-- GRID_RETIRE: every workgroup of the grid has retired. -/
def State.gridRetire (s : State) (k : Nat) : State :=
  match Tab.find? s.grids k with
  | none => s
  | some g => if g.retired < g.wgcnt then s else (s.updGrid k fun g => { g with dead := true }).treeRetire k 9
def Coll.full (c : Coll) : Bool := c.members.length ≥ c.parts
/-- A retired workgroup wants no status any more. -/
def Coll.left (c : Coll) (wk : Nat) : Coll := { c with members := c.members.map fun (m : Part) => if m.ctx / 32 = wk then { m with collected := true } else m }
/-- Whether a workgroup's contexts and engines are all done, their LDS and STS performed, and the collective operations over that have areas of its (R275). -/
def State.wgDone (s : State) (wk : Nat) : Bool :=
  let g := s.wg wk
  !g.starting && (s.ctxs.all fun (k, c) => k / 32 ≠ wk || (c.front.live = 0 && c.trap.isNone && c.waiting.isEmpty && c.pends.all (·.elems.isEmpty))) &&
  g.mq.isEmpty && (s.colls.all fun (c : Coll) => c.status.isSome || c.members.all fun (m : Part) => m.ctx / 32 ≠ wk) && (s.copies.all fun (_, c) => c.wk ≠ wk) && (s.accs.all fun (_, a) => a.ctx / 32 ≠ wk) && s.jobs.all fun (_, j) => j.ctx / 32 ≠ wk
/-- The save slots of a workgroup and of its groups are free. -/
def State.freeSlots (s : State) (vfn wk : Nat) : State :=
  s.updVf vfn fun v => { v with saved := v.saved.filter fun (_, k) => k ≠ 2 ^ 60 + wk && k / 32 ≠ wk }
/-- WORKGROUP_RETIRE: contents of its ways are discarded and the ways are lent (R43); entries left in its trough are discarded (R23). -/
def State.wgRetire (s : State) (wk : Nat) : State :=
  match Tab.find? s.wgs wk with
  | none => s
  | some g =>
    if !s.wgDone wk then s
    else
      let s := if g.evicted then s else (waysOf g.cways).foldl (fun t w => t.clearWay g.core w) s
      let s := s.updCore g.core fun c => { c with ways := (List.range 8).map fun w => if c.way w = .reserved wk then .lent else c.way w }
      let s := s.freeSlots g.vfn wk
      let s := { s with wgs := Tab.erase s.wgs wk, ctxs := Tab.filter s.ctxs fun k _ => k / 32 ≠ wk, tokenq := s.tokenq.filter (· ≠ wk)
                        colls := (s.colls.map fun (c : Coll) => c.left wk).filter fun (c : Coll) => !(c.full && c.members.all (·.collected)) }
      let s := s.updGrid g.grid fun x => { x with retired := x.retired + 1 }
      (s.freed g.core).pushOnce .gridRetire { id := g.grid }

/-! ## Eviction and restoration (R114, R291, R363) -/

def Vf.saveSlots (v : Vf) : Nat := v.savesize.toNat / 0x8000
/-- The first run of n free save slots. -/
def Vf.saveRun (v : Vf) (n : Nat) : Option Nat :=
  (List.range (v.saveSlots + 1 - n)).find? fun i => (List.range n).all fun j => v.saved.all fun (x, _) => x ≠ i + j
/-- Save slots are written with the device's own layout: the bytes are free values (DESIGN CHOICE, log 58). -/
def State.spoilSlots (s : State) (vfn : Nat) (slots : List Nat) : State :=
  slots.foldl (fun t i =>
    let (bs, t) := t.freeBytes 0x8000
    t.homeWrite 0 ((t.vf vfn).savebase.toNat + i * 0x8000) bs) s
/-- Take slots for a group (one) or a workgroup (eleven in a row, and one for each group). -/
def State.takeSlots (s : State) (vfn key run singles : Nat) : Option State :=
  match (s.vf vfn).saveRun run with
  | none => none
  | some i =>
    let got := iota i run
    let s := s.updVf vfn fun v => { v with saved := v.saved ++ got.map fun j => (j, key) }
    (List.range singles).foldl (fun (acc : Option State) _ =>
      match acc with
      | none => none
      | some t => match (t.vf vfn).saveRun 1 with
        | none => none
        | some j => some ((t.updVf vfn fun v => { v with saved := v.saved ++ [(j, key)] }).spoilSlots vfn [j])) (some (s.spoilSlots vfn got))
/-- An evicted context: its latches, its chain, its buffer and its reservations are lost; the lanes inside a chain go back to its head (R290, R291, R307). -/
def Front.away (f : Front) : Front :=
  let f := match f.chain with
    | some ch => if ch.open' then f.updLanes ch.lanes fun _ (x : Lane) => if x.st = LaneSt.active then { x with pc := ch.head } else x else f
    | none => f
  { f with latches := List.replicate 4 {}, chain := none, lastIssue := none }
def Ctx.away (c : Ctx) : Ctx :=
  { c with evicted := true, front := c.front.away, trap := c.trap.map fun t => { t with front := t.front.away }, ibuf := [], resv := [], lrWin := none, endTurn := false }
/-- A restored context: its first issue comes after every fixed-latency result of its earlier issues (R303); a handler has its 65,536 cycles again (R288). -/
def Ctx.back (c : Ctx) (now : Nat) : Ctx :=
  let first (f : Front) : Front := { f with notBefore := max f.notBefore c.drained }
  { c with evicted := false, mark := none, turn := none, nextPcs := [], switching := none, vecDone := 0, front := first c.front
           trap := c.trap.map fun t => { t with entered := now, demoted := false, front := first t.front } }
/-- A fragment at trap level, whatever stopped it, keeps its group from eviction until it has been there 65,536 cycles (R288). -/
def Ctx.trapSettled (c : Ctx) : Bool := match c.trap with | some t => t.demoted | none => true
def Ctx.evictable (c : Ctx) : Bool := !c.evicted && c.front.live ≠ 0 && c.trapSettled
/-- A workgroup of higher priority waits on the core's die and finds no room. -/
def State.wanting (s : State) (core prio : Nat) : Option QEntry :=
  (s.heads (coreDie core)).find? fun e => e.prio > prio && (s.roomFor (coreDie core) e).isEmpty
/-- The choice among the victims that a test admits: lowest priority, then youngest. -/
def State.victimKey (s : State) (wk : Nat) : Nat × Nat := ((s.grid (s.wg wk).grid).prio, 2 ^ 64 - (s.wg wk).placed)
def State.firstVictim (s : State) (core wk : Nat) (may : Nat → Bool) : Bool :=
  (s.residents core).all fun (k, g) => g.starting || !may k || (let a := s.victimKey wk; let b := s.victimKey k; a.1 < b.1 || (a.1 = b.1 && a.2 ≤ b.2))
/-- A group that may be evicted: its trap level, its streams and its save area allow it (R127, R288, R363). -/
def State.groupMay (s : State) (ck : Nat) : Bool :=
  ck % 32 ≠ 16 && (Tab.find? s.ctxs ck).isSome && (s.ctx ck).evictable && s.streamsRest ck && ((s.vf (s.wgOf ck).vfn).saveRun 1).isSome
/-- The groups of a workgroup that have no slot of their own yet. -/
def State.unsaved (s : State) (wk : Nat) : Nat := (s.wg wk).ngroups - (Tab.filter s.ctxs fun k c => k / 32 = wk && k % 32 ≠ 16 && c.evicted).length
/-- A workgroup that may be evicted as a whole. -/
def State.wgMay (s : State) (wk : Nat) : Bool :=
  (s.ctxs.all fun (k, c) => k / 32 ≠ wk || c.trapSettled) &&
  (let v := s.vf (s.wg wk).vfn; (v.saveRun 11).isSome && v.saved.length + 11 + s.unsaved wk ≤ v.saveSlots)
/-- Whether a waiting workgroup lacks only register space on a core: groups go for it, and whole workgroups only for a slot, the tile file or ways (R363). -/
def State.onlyRegs (s : State) (core : Nat) (e : QEntry) : Bool :=
  (s.use core).wgs + 1 ≤ 4 && ((s.grid e.grid).cist + 0x7FFF) / 0x8000 ≤ (lentWays (s.core core)).length
/-- GROUP_EVICT: a waiting workgroup needs only register space. -/
def State.groupEvict (s : State) (ck : Nat) : State :=
  let g := s.wgOf ck
  match s.wanting g.core (s.grid g.grid).prio with
  | none => s
  | some e =>
    if !s.groupMay ck || g.evicted || !s.onlyRegs g.core e || !s.firstVictim g.core (ck / 32) (fun k => (Tab.keys s.ctxs).any fun x => x / 32 = k && s.groupMay x) then s
    else match s.takeSlots g.vfn ck 1 0 with
      | none => s
      | some t => ((t.markStreams ck true).updCtx ck Ctx.away).freed g.core
/-- Whether an access that has issued, or a row of a tile load or store, still has to reach one of a workgroup's ways, or a stream instruction of it to complete
(R91, R127). -/
def State.accessesRun (s : State) (wk : Nat) : Bool :=
  let g := s.wg wk
  let mine (e : Elem) : Bool := !e.done && (match e.place with | .cist c b => c = g.core && (waysOf g.cways).contains (b / 0x8000) | .mem _ _ _ => false)
  -- the cisterns stand above the physical addresses in Place.cell
  let ours (c n : Nat) : Bool := (waysOf g.cways).any fun w => let lo := (Place.cist g.core (w * 0x8000)).cell; c < lo + 0x8000 && lo < c + n
  (s.accs.any fun (_, a) => a.elems.any mine) ||
  (s.jobs.any fun (_, j) => j.job.spans.any fun (a, n) => (s.cells j.ctx a n).any fun (c, m) => ours c m) || (s.ctxs.any fun (k, c) => (c.pends.any fun p => p.elems.any mine) || (k / 32 = wk && !s.streamsRest k))
/-- WORKGROUP_EVICT: a slot, the tile file or ways are needed. The workgroup that is chosen leaves once its copies have arrived, its pump stands at an interrupt
point and its accesses have reached its ways (R91, R114). -/
def State.wgEvict (s : State) (wk : Nat) : State :=
  match Tab.find? s.wgs wk with
  | none => s
  | some g =>
    let needed := match s.wanting g.core (s.grid g.grid).prio with | some e => !s.onlyRegs g.core e | none => false
    if g.evicted || g.starting || !needed || !s.wgMay wk || !s.firstVictim g.core wk s.wgMay then
      if g.leaving then (s.updWg wk fun g => { g with leaving := false }).pumpWake wk else s
    else if s.enginesRun wk || s.accessesRun wk then s.updWg wk fun g => { g with leaving := true }
    else match s.takeSlots g.vfn (2 ^ 60 + wk) 11 (s.unsaved wk) with
      | none => s
      | some t =>
        let bytes := (iota 0 g.reserved).foldl (fun m o => Tab.set 0 m o (t.cistByte g.core (g.cistPhys o))) ([] : Tab Byte)
        let fes := (iota 0 (g.reserved / 4)).foldl (fun m o => Tab.set false m o (t.feBit g.core (g.cistPhys (4 * o) / 4))) ([] : Tab Bool)
        let t := (waysOf g.cways).foldl (fun t w => t.clearWay g.core w) t
        let t := t.updCore g.core fun c => { c with ways := (List.range 8).map fun w => if c.way w = .reserved wk then .lent else c.way w }
        let t := ((Tab.keys t.ctxs).filter fun k => k / 32 = wk).foldl (fun (u : State) k => u.markStreams k true) t
        let t := t.updWg wk fun g => { g with evicted := true, leaving := false, stash := bytes, stashFe := fes, buf := [] }
        let t := { t with ctxs := Tab.mapVals t.ctxs fun k c => if k / 32 = wk then Ctx.away c else c }
        t.freed g.core
/-- CONTEXT_RESTORE of a group (num 0), or of a workgroup (num 1), where its core has room again (R11, R363). -/
def State.restore (s : State) (key num : Nat) : State :=
  if num = 0 then
    let g := s.wgOf key
    let u := s.use g.core
    if !(s.ctx key).evicted || g.evicted || u.groups + 1 > 16 || u.regs + g.regs > 2048 || (s.vf g.vfn).quiescing then s
    else ((s.markStreams key false).updCtx key fun c => c.back s.clock).updVf g.vfn fun v => { v with saved := v.saved.filter fun (_, k) => k ≠ key }
  else match Tab.find? s.wgs key with
    | none => s
    | some g =>
      let n := (waysOf g.cways).length
      if !g.evicted || !s.room g.core g.ngroups g.regs n || (s.vf g.vfn).quiescing then s
      else
        let ways := (lentWays (s.core g.core)).reverse.take n
        let used := (s.residents g.core).map fun (_, g) => g.slot
        let slot := ((List.range 4).find? fun x => !used.contains x).getD 0
        let t := ways.foldl (fun t w => (t.flushWay g.core w).clearWay g.core w) s
        let t := t.updCore g.core fun c => { c with ways := (List.range 8).map fun w => if ways.contains w then .reserved key else c.way w }
        let t := t.updWg key fun g => { g with evicted := false, cways := ways.foldl (fun m w => m ||| (1 <<< w)) 0, slot := slot, stash := [], stashFe := [] }
        let g' := t.wg key
        let t := g.stash.foldl (fun (u : State) (o, b) => u.setCist g.core (g'.cistPhys o) b) t
        let t := g.stashFe.foldl (fun (u : State) (o, b) => u.setFe g.core (g'.cistPhys (4 * o) / 4) b) t
        let t := ((Tab.keys t.ctxs).filter fun k => k / 32 = key).foldl (fun (u : State) k => u.markStreams k false) t
        let t := { t with ctxs := Tab.mapVals t.ctxs fun k c => if k / 32 = key then c.back t.clock else c }
        t.freeSlots g.vfn key

/-! ## Root grids (R343 to R345) -/

/-- ROOTLAUNCH: a host write enters the queue, or is lost; no virtual function answers before an image runs (R368). -/
def State.rootWrite (s : State) (vfn : Nat) (v : DWord) : State :=
  let s := s.updVf vfn fun x => if x.rootq.length ≥ 16 then { x with rootDrop := true } else { x with rootq := x.rootq ++ [v] }
  s.pushOnce .rootlaunchProcess { id := vfn }
/-- The record at an address: not there yet, not readable, or its words. -/
inductive RootRead where
  | wait
  | bad
  | ok (w : Nat → DWord)
/-- The record is read as a .WI load of an agent that keeps no copy; a private page is reclassified first (R73, R344) (DEDUCED, log 65). -/
def State.rootRead (s : State) (vfn : Nat) (v : DWord) : RootRead × State :=
  if windowOf v ≠ .global then (.bad, s)
  else match s.walk vfn v.toNat with
    | .absent _ _ => (.wait, s.pushOnce .notPresentFault { id := vfn, v := BitVec.ofNat 64 (v.toNat / 65536 * 65536) })
    | .bad | .lost => (.bad, s)
    | .ok t =>
      let p := t.phys v.toNat
      let ws := iota (p / 4) 16
      if (physRange p ≠ .tier && physRange p ≠ .host) || s.anyZ p 64 then (.bad, s)
      else if t.cls = 2 || (s.vf vfn).busyPages.contains t.va then (.wait, s.pushOnce .reclassification { id := vfn, v := BitVec.ofNat 64 t.va } (some s.clock))
      else if s.behind none ws || ws.any fun w => (s.dirWord w).busy.isSome then (.wait, s)
      else
        let s := ws.foldl (fun t w => match (t.dirWord w).mode with
          | .x o => (t.holderGiveUp o w (ReqKind.giveUp .rdT)).setDir w { t.dirWord w with mode := .t [o] }
          | _ => t) s
        let s := s.llcUse (p / 128) t.pers
        (.ok fun k => dwordOfBytes (s.peekN (p + 8 * k) 8), s)
/-- The handle, or the failure, of a root record; level 0 only. -/
def State.rootHandle (s : State) (vfn : Nat) (w : Nat → DWord) : DWord × State :=
  let r := Record.of w
  if (recordFault w 6).isSome || w 7 ≠ 0 || (w 6).toNat % 8 ≠ 0 || (w 6 ≠ 0 && windowOf (w 6) ≠ .global) then (failedHandle 5, s)
  else if r.level ≠ 0 then (failedHandle 1, s)
  else if r.after && !((s.vf vfn).roots.contains r.handle) then (failedHandle 4, s)
  else if r.coresident && !r.fitsEmpty then (failedHandle 3, s)
  else match s.takeFrame vfn r.frame with
    | (none, t) => (failedHandle 2, t)
    | (some f, t) => t.newGrid vfn r none f (w 6) none 0
/-- ROOTLAUNCH_PROCESS: the device takes the oldest queued record, unless the function is quiescing. -/
def State.rootProcess (s : State) (vfn : Nat) : State :=
  let x := s.vf vfn
  match x.rootq with
  | [] => s
  | v :: rest =>
    if x.quiescing then s
    else
      let done (t : State) (h : DWord) : State := (t.updVf vfn fun y => { y with rootq := rest, rootstat := h }).pushOnce .rootlaunchProcess { id := vfn }
      if v.toNat % 64 ≠ 0 then done s (failedHandle 5)
      else match s.rootRead vfn v with
        | (.wait, t) => t
        | (.bad, t) => done t (failedHandle 6)
        | (.ok w, t) => let (h, t) := t.rootHandle vfn w; done t h

/-! ## The events -/

def execWorkgroupPlace (s : State) : Out := .next (s.dispatch s.args.id s.args.pick)
def execCoresidentPlace (s : State) : Out := .next (s.placeAll s.args.id s.args.list)
def execPriorityAging (s : State) : Out := .next (s.age s.args.id)
def execCoresidentWithhold (s : State) : Out := .next (s.withhold s.args.id)
def execWayDrain (s : State) : Out := .next (s.drainWay s.args.id s.args.num)
def execWorkgroupRetire (s : State) : Out := .next (s.wgRetire s.args.id)
def execGridRetire (s : State) : Out := .next (s.gridRetire s.args.id)
def execWorkgroupEvict (s : State) : Out := .next (s.wgEvict s.args.id)
def execGroupEvict (s : State) : Out := .next (s.groupEvict s.args.id)
def execContextRestore (s : State) : Out := .next (s.restore s.args.id s.args.num)
def execRootlaunch (s : State) : Out := .next (if s.answers then s.rootWrite s.args.id s.args.v else s)
def execRootlaunchProcess (s : State) : Out := .next (s.rootProcess s.args.id)
/-- ROOTCTL_CLEAR_DROP: writing 1 clears DROP (R342). -/
def execRootctlClearDrop (s : State) : Out := .next (if s.answers then s.updVf s.args.id fun v => { v with rootDrop := false } else s)

end Sys2Proof.Machine
end

