-- ==== Sys2Proof/Machine/Coll.lean ====
section
/-! DEFINITION. The collective network: descriptors and arrivals (R269 to R271, R273), what an operation computes and writes (R111 to R113,
R272, R273), COLLW (R274) and faults of a participant's areas (R275). -/
namespace Sys2Proof.Machine

/-- The instance of the scope that a core lies in: one package, one pod (DESIGN CHOICE, log 91). -/
def collInst (sc : CollScope) (core : Nat) : Nat := match sc with | .die => coreDie core | .pkg => 12 | .pod => 13

/-! ## Arrival (R273) -/

def collOf (s : State) (id : Nat) : Option Coll := s.colls.find? fun (c : Coll) => c.id = id
def State.updColl (s : State) (id : Nat) (f : Coll → Coll) : State := { s with colls := s.colls.map fun c => if c.id = id then f c else c }
/-- The operation that an arrival joins: the oldest of its ID that still wants arrivals. -/
def State.collOpen (s : State) (vfn inst cid : Nat) (sc : CollScope) : Option Coll :=
  s.colls.find? fun c => c.vfn = vfn && c.inst = inst && c.cid = cid && c.scope = sc && !c.full
def Coll.refuses (c : Coll) (op : CollOp) (ty : CollTy) (d : CollDesc) : Bool :=
  c.members.any (fun (m : Part) => m.rank = d.rank) || c.op ≠ op || c.ty ≠ ty || c.count ≠ d.count || c.parts ≠ d.parts || c.rcap ≠ d.rcap
/-- The network accepts an arrival, or refuses it. -/
def State.collArrive (s : State) (ck : Nat) (x : CollX) (d : CollDesc) (counts : List Nat) : Option State :=
  let g := s.wgOf ck
  let inst := collInst x.scope g.core
  let m : Part := { ctx := ck, rank := d.rank, src := d.src, dst := d.dst, ovf := d.ovf, stat := d.stat, ovflen := if d.ovf = 0 then 0 else d.ovflen
                    counts := counts, held := false, killed := false, collected := false }
  let queued (s : State) (id : Nat) : State := (s.updWg (ck / 32) fun g => { g with collq := g.collq ++ [(id, d.rank)] }).pushOnce .collectiveComplete { id := id }
  match s.collOpen g.vfn inst x.id.toNat x.scope with
  | some c => if c.refuses x.op x.ty d then none else some (queued (s.updColl c.id fun c => { c with members := c.members ++ [m] }) c.id)
  | none =>
    let (id, s) := s.newId
    let c : Coll := { id := id, vfn := g.vfn, inst := inst, cid := x.id.toNat, scope := x.scope, op := x.op, ty := x.ty, count := d.count, parts := d.parts
                      rcap := d.rcap, members := [m], status := none }
    some (queued { s with colls := s.colls ++ [c] } id)
def collFull (s : State) (i : Issue) : Check := if (s.wgOf i.ctx).collq.length ≥ 4 then some (6, 4) else none
def execColl (x : CollX) (s : State) : Out :=
  issueFormS (fun i s => { h := x.h, opc := 0xD5, who := .heads, plan := { srcs := [(x.a, 2)] }, queue := collFull s i })
    (fun i act s =>
      if act = 0 then { st := s }
      else if !(s.gridOf i.ctx).coresident then allFault s act 0x02 0 i.pc
      else
        let va := src64 s i (lowestLane act) x.a
        match readColl i.ctx va x.op (collBytes x.ty) s with
        | .error (.fault c d a) => allFault s act c d a
        | .error (.wait st w e) => { st := s.pushOnce w e, block := (lanesOf act).map fun l => (l, st, true) }
        | .error _ => { st := s }
        | .ok ((d, cs), t) => match t.collArrive i.ctx x d cs with
          | some u => { st := u }
          | none => allFault t act 0x02 0 va) s

/-! ## Combining (R112, R270, R272) -/

/-- A wrapping sum of n bytes. -/
def sumWrap (n : Nat) (xs : List Nat) : Nat := xs.foldl (fun a x => (a + x) % 2 ^ (8 * n)) 0
/-- A sum in the fixed tree: a pair of partial sums is added until one is left (DESIGN CHOICE, log 15). -/
def sumTree (f : Fmt) (key : Nat) (cores : List Nat) (fuel : Nat) (xs : List Nat) : Nat :=
  match fuel, xs with
  | n + 1, x :: y :: t =>
    let l := x :: y :: t
    let (p, q) := Config.collPick key cores l.length
    let i := p % l.length
    let rest := l.eraseIdx i
    let j := q % rest.length
    sumTree f key cores n (rest.eraseIdx j ++ [(f.add engineFp (nth 0 l i) (nth 0 rest j)).1])
  | _, x :: _ => if (f.val x).isNan then f.nan else x
  | _, [] => 0
/-- The exact sum of XP partials at the least exponent, or the non-finite marker. -/
def xsum (xs : List (BitVec 64 × BitVec 32)) : List Byte :=
  let x' : Int := xs.foldl (fun m (_, x) => min m x.toInt) (match xs with | (_, x) :: _ => x.toInt | [] => 0)
  let far := xs.any fun (m, x) => m = 0x8000000000000000 || x.toInt - x' > 64
  let t : Int := if far then 0 else xs.foldl (fun a (m, x) => a + m.toInt * (2 : Int) ^ (x.toInt - x').toNat) 0
  let m' : BitVec 96 := if far || t < -(2 : Int) ^ 95 || t ≥ (2 : Int) ^ 95 then 0x800000000000000000000000 else BitVec.ofInt 96 t
  bytesLE 12 m'.toNat ++ bytesLE 4 (BitVec.ofInt 32 x').toNat
/-- One element of every rank, in rank order, combined. -/
def combine (ty : CollTy) (key : Nat) (cores : List Nat) (xs : List (List Byte)) : List Byte :=
  match ty with
  | .i32 => bytesLE 4 (sumWrap 4 (xs.map ofBytesLE))
  | .i64 => bytesLE 8 (sumWrap 8 (xs.map ofBytesLE))
  | .f32 => bytesLE 4 (sumTree fp32 key cores xs.length (xs.map ofBytesLE))
  | .bf16 => bytesLE 2 (sumTree bf16 key cores xs.length (xs.map ofBytesLE))
  | .xsum => xsum (xs.map fun b => (dwordOfBytes (b.take 8), wordOfBytes ((b.drop 8).take 4)))
  | _ => xs.headD []

/-! ## The network's own accesses (R275) -/

/-- The network reads a participant's area at home, untracked, and writes it there: it is no agent of a die, so untracked copies stay (DESIGN CHOICE, log 28). -/
def netGet (ck : Nat) (va : DWord) (n : Nat) : EngM (List Byte) := fun s =>
  let ps := s.pieces ck va n false
  match s.stopOf ps with
  | .go => .ok (ps.foldl (fun (acc : List Byte × State) p => let (b, t) := acc.2.homeRead (match p.place with | .mem pa _ _ => pa | .cist _ _ => 0) p.n; (acc.1 ++ b, t)) (([] : List Byte), s))
  | r => .error r
def netPut (ck : Nat) (va : DWord) (bs : List Byte) : EngM Unit := fun s =>
  let ps := s.pieces ck va bs.length true
  match s.stopOf ps with
  | .go => .ok ((), ps.foldl (fun (t : State) p => t.homeWrite 12 (match p.place with | .mem pa _ _ => pa | .cist _ _ => 0) ((bs.drop p.off).take p.n)) s)
  | r => .error r

/-! ## An operation -/

def Coll.byRank (c : Coll) : List Part := sortBy (fun (a b : Part) => decide (a.rank ≤ b.rank)) c.members
def elemAt (es : Nat) (b : List Byte) (k : Nat) : List Byte := (b.drop (k * es)).take es
/-- A source area: of a killed participant, elements that the network had not read count as zero, and which they are a free value says. -/
def srcOf (c : Coll) (m : Part) : EngM (List Byte) := do
  let es := collBytes c.ty
  let n := srcElems c.op c.count c.parts
  if m.killed then
    let parts ← (List.range n).mapM fun k => (fun s =>
      match netGet m.ctx (m.src + BitVec.ofNat 64 (k * es)) es s with
      | .ok (b, t) => let (v, t) := t.free 1; .ok (if v = 1 then b else List.replicate es 0, t)
      | .error _ => .ok (List.replicate es 0, s) : EngM (List Byte))
    pure parts.flatten
  else netGet m.ctx m.src (n * es)
/-- Bytes into a participant's area; of a killed one, each element may stay unwritten. -/
def collPut (m : Part) (es : Nat) (va : DWord) (bs : List Byte) : EngM Unit :=
  if m.killed then
    (List.range (bs.length / es)).forM fun k => (fun s =>
      let (v, t) := s.free 1
      match if v = 1 then netPut m.ctx (va + BitVec.ofNat 64 (k * es)) (elemAt es bs k) t else .ok ((), t) with
      | .ok r => .ok r
      | .error _ => .ok ((), t) : EngM Unit)
  else netPut m.ctx va bs
/-- What receiver q of an all-to-all gets: the items in its stream's order, with their senders. -/
def streamFor (c : Coll) (ms : List (Part × List Byte)) (q : Nat) : List (Nat × List Byte) :=
  ms.flatMap fun (m, src) => (List.range (nth 0 m.counts q)).map fun k => (m.rank, elemAt (collBytes c.ty) src (q * c.count + k))
/-- A DST that meets a SRC has unspecified contents (R275). -/
def dstOverlaps (c : Coll) (m : Part) : Bool :=
  let es := collBytes c.ty
  overlaps (c.members.map fun (p : Part) => (p.src.toNat, srcElems c.op c.count c.parts * es)) m.dst.toNat (dstElems c.op c.count c.parts c.rcap * es)
def putDst (c : Coll) (m : Part) (bs : List Byte) : EngM Unit := do
  let bs ← if dstOverlaps c m then (fun s => .ok (s.freeBytes bs.length) : EngM (List Byte)) else pure bs
  collPut m (collBytes c.ty) m.dst bs
/-- The part of a receiver: its destinations, overflow and status words; and the status that it adds. -/
def receive (c : Coll) (ms : List (Part × List Byte)) (m : Part) : EngM Nat := do
  let es := collBytes c.ty
  let srcs := ms.map (·.2)
  let key := (c.scope.code).toNat
  let cores ← (fun s => .ok (c.byRank.map fun (p : Part) => s.coreOf p.ctx, s) : EngM (List Nat))
  let sum (k : Nat) : List Byte := combine c.ty key cores (srcs.map fun b => elemAt es b k)
  match c.op with
  | .allred => putDst c m ((List.range c.count).flatMap sum); pure 0
  | .redsc => putDst c m ((List.range c.count).flatMap fun k => sum (m.rank * c.count + k)); pure 0
  | .allga => putDst c m srcs.flatten; pure 0
  | .alltoall =>
    let items := streamFor c ms m.rank
    let room := m.ovflen / es
    putDst c m ((items.take c.rcap).flatMap (·.2))
    let extra := (items.drop c.rcap).take room
    if extra.isEmpty then pure () else collPut m es m.ovf (extra.flatMap (·.2))
    let sent := items.take (c.rcap + room)
    let got (r : Nat) : Nat := (sent.filter fun (x, _) => x = r).length
    let want (r : Nat) : Nat := (items.filter fun (x, _) => x = r).length
    let ranks := List.range c.parts
    collPut m 4 m.stat ((ranks.flatMap fun r => bytesLE 4 (want r - got r)) ++ ranks.flatMap fun r => bytesLE 4 (got r))
    pure (if items.length > sent.length then 2 else if extra.isEmpty then 0 else 1)
/-- A participant's stop names it. -/
structure CollStop where
  (rank : Nat) (stop : RowStop)
def forPart {α : Type} (m : Part) (x : EngM α) (s : State) : Except CollStop (α × State) :=
  match x s with
  | .ok r => .ok r
  | .error e => .error ⟨m.rank, e⟩
/-- The whole operation: every source is read, then every receiver is served in rank order. -/
def collRun (c : Coll) (s : State) : Except CollStop (Nat × State) := do
  let ps := c.byRank
  let (ms, s) ← ps.foldlM (fun (acc : List (Part × List Byte) × State) m => do
    let (b, t) ← forPart m (srcOf c m) acc.2
    pure (acc.1 ++ [(m, b)], t)) (([] : List (Part × List Byte)), s)
  ps.foldlM (fun (acc : Nat × State) m => do
    let (st, t) ← forPart m (receive c ms m) acc.2
    pure (max acc.1 st, t)) (0, s)

/-- The COLLW of a participant that waits. -/
def State.collWaiter (s : State) (m : Part) (op : Nat) : Option JobRec :=
  (Tab.vals s.jobs).find? fun (j : JobRec) => j.ctx = m.ctx && (match j.job with | .collw o r _ => o = op && r = m.rank | _ => false)
/-- A participant's entry is free, and the ID once all are (R273). -/
def State.collect (s : State) (op ck rank : Nat) : State :=
  let s := s.updWg (ck / 32) fun g => { g with collq := g.collq.filter (· ≠ (op, rank)) }
  let s := s.updColl op fun c => { c with members := c.members.map fun (m : Part) => if m.rank = rank then { m with collected := true } else m }
  { s with colls := s.colls.filter fun (c : Coll) => !(c.full && c.members.all (·.collected)) }
/-- A COLLW returns: Sd holds the status. -/
def State.collwDone (s : State) (j : JobRec) (op rank : Nat) (sd : Reg) : State :=
  match collOf s op with
  | some c => match c.status with
    | some st =>
      let s := s.updCtx j.ctx fun x => { x with collsCovered := x.collsCovered - 1 }
      (s.collect op j.ctx rank).endJob j.id (destWr true 0 true sd (BitVec.ofNat 64 st))
    | none => s
  | none => s
/-- COLLECTIVE_COMPLETE: with every arrival in and no report open, the operation is done, and its COLLWs return. -/
def State.collComplete (s : State) (op : Nat) : State :=
  match collOf s op with
  | none => s
  | some c =>
    if !c.full || c.status.isSome || c.members.any (·.held) then s
    else match collRun c s with
      | .error ⟨_, .wait _ w a⟩ => s.pushOnce w a
      | .error ⟨_, .fault _ _ _⟩ => s.pushOnce .collectiveFault { id := op }
      | .error _ => s
      | .ok (st, t) =>
        let t := t.updColl op fun c => { c with status := some st }
        t.jobs.foldl (fun u (k, j) => match j.job with | .collw o _ _ => if o = op then u.pushOnce .flagCountDown { id := k } else u | _ => u) t
/-- COLLECTIVE_FAULT: the report waits for the participant's COLLW; with no lane of its left the participant is killed. -/
def State.collFault (s : State) (op : Nat) : State :=
  match collOf s op with
  | none => s
  | some c =>
    if !c.full || c.status.isSome || c.members.any (·.held) then s
    else match collRun c s with
      | .error ⟨rank, .fault cz d a⟩ =>
        match c.members.find? fun (m : Part) => m.rank = rank with
        | none => s
        | some m =>
          let mark (f : Part → Part) (s : State) : State := s.updColl op fun c => { c with members := c.members.map fun (p : Part) => if p.rank = rank then f p else p }
          match s.collWaiter m op with
          | none => if (s.ctx m.ctx).front.live = 0 then (mark (fun p => { p with killed := true }) s).pushOnce .collectiveComplete { id := op } else s
          | some j =>
            let level := s.levelOf m.ctx j.level j.id
            let f := s.front m.ctx level
            let live := maskOf ((lanesOf j.lanes).filter fun l => (f.lane l).st ≠ .exited)
            if live = 0 then (mark (fun p => { p with killed := true }) s).pushOnce .collectiveComplete { id := op }
            else (mark (fun p => { p with held := true }) s).trap m.ctx level { cause := causeWord cz d 0, addr := a, pc := j.pc, lanes := live, kind := .coll op }
      | _ => s
/-- TRET: the access is retried; TKILL: the operation goes on without the participant, whose COLLW ends (R275). -/
def State.collResume (s : State) (ck op : Nat) : State :=
  (s.updColl op fun c => { c with members := c.members.map fun (m : Part) => if m.ctx = ck then { m with held := false } else m }).pushOnce .collectiveComplete { id := op }
def State.collAbort (s : State) (ck op : Nat) : State :=
  let held := match collOf s op with | some c => c.members.filter fun (m : Part) => m.ctx = ck && m.held | none => []
  let s := s.updColl op fun c => { c with members := c.members.map fun (m : Part) => if m.ctx = ck && m.held then { m with held := false, killed := true } else m }
  let s := held.foldl (fun t m =>
    let t := match t.collWaiter m op with
      | some j => (t.updCtx ck fun x => { x with collsCovered := x.collsCovered - 1 }).endJob j.id
      | none => t
    t.collect op ck m.rank) s
  s.pushOnce .collectiveComplete { id := op }

/-- COLLW covers the oldest COLL of its head context that none has covered. -/
def execCollw (x : DestF) (s : State) : Out :=
  issueForm { h := x.h, opc := 0xD6, who := .heads, plan := { dsts := [(x.d, 2)] } }
    (fun i act s =>
      if act = 0 then { st := s, vary := some 0 }
      else match (s.wgOf i.ctx).collq[(s.ctx i.ctx).collsCovered]? with
        | none => { allFault s act 0x02 0 i.pc with vary := some 0 }
        | some (op, rank) =>
          let (id, t) := s.startJob i act (.collw op rank x.d)
          let t := (t.updCtx i.ctx fun c => { c with collsCovered := c.collsCovered + 1 }).pushOnce .collectiveFault { id := op }
          { st := t, vary := some id }) s

def execCollectiveComplete (s : State) : Out := .next (s.collComplete s.args.id)
def execCollectiveFault (s : State) : Out := .next (s.collFault s.args.id)

end Sys2Proof.Machine
end

