-- ==== Sys2Proof/Machine/System.lean ====
section
/-! DEFINITION. Software traps and the ends of trap level (R276, R277), translation and instruction-cache invalidation (R278 to R280),
RECLAIM (R281), PWRHINT (R282) and the Damain 2 cells (R163, R335). -/
namespace Sys2Proof.Machine

/-! ## TRAP, TRET and TKILL -/

/-- The acting lanes trap; the others run on. -/
def execTrap (x : TrapF) (s : State) : Out :=
  issueForm { h := x.h, opc := 0xE0, who := .both, plan := {} }
    (fun _ act s => if act = 0 then { st := s } else allFault s act 0x60 0 (x.code.setWidth 64)) s

/-- The issue of a handler's word that ends trap level: from anywhere else it traps with 0x11. -/
def leaveForm (h : Hdr) (opc : Nat) (srcs : List (Reg × Nat)) (f : Issue → Lanes → State → TrapRec → Eff) : State → Out :=
  issueForm { h := h, opc := opc, who := .both, plan := { srcs := srcs } } fun i act s =>
    if act = 0 then { st := s }
    else match i.level, (s.ctx i.ctx).trap with
      | true, some t => f i act s t.regs
      | _, _ => allFault s act 0x11 0 i.pc
/-- A parked lane that returns to where it stood: a barrier it waited for still blocks it. -/
def Lane.resume (x : Lane) : Lane := { x with st := match x.st with | .parked (some w) => .blockedBar w | .parked none => .active | st => st }
/-- What follows a plain TRET: a stopped copy, FBNEXT or collective goes on (R127, R254, R275). -/
def State.afterReturn (s : State) (ck : Nat) (k : TrapKind) : State :=
  match k with
  | .copy id => s.copyResume id
  | .fbnext job => s.nextResume job
  | .coll op => s.collResume ck op
  | .precise | .deferred | .copyBar => s
/-- What follows the end of a fragment, or its return to another address. -/
def State.afterAbandon (s : State) (ck : Nat) (k : TrapKind) : State :=
  match k with
  | .copy id => s.copyAbort id
  | .fbnext job => s.nextAbort job
  | .coll op => s.collAbort ck op
  | .precise | .deferred | .copyBar => s
/-- TRET: the lanes of TLANES are active at TPC, or where they had got to. -/
def execTret (x : Plain) (s : State) : Out :=
  leaveForm x.h 0xE1 [] (fun i _ s r => { st := (s.leaveTrap i.ctx fun _ l => l.resume).afterReturn i.ctx r.kind }) s
/-- Only a precise trap, or that of an FBNEXT, can be left for another address. -/
def moveOk : TrapKind → Bool
  | .precise | .fbnext _ => true
  | _ => false
def moveEff (i : Issue) (act : Lanes) (s : State) (r : TrapRec) (target : DWord) : Eff :=
  if !moveOk r.kind then allFault s act 0x02 0 i.pc
  else { st := (s.leaveTrap i.ctx fun _ _ => { pc := target, st := .active }).afterAbandon i.ctx r.kind }
/-- The size of the word at an address, as a context's fetch finds it. -/
def State.sizeAt (s : State) (ck : Nat) (va : DWord) : Nat :=
  match s.word? ck va with
  | some w => sizeOf w
  | none => sizeOf (s.devReadDWord (s.wgOf ck).vfn va)
def execTretSkip (x : Plain) (s : State) : Out :=
  leaveForm x.h 0xE1 [] (fun i act s r => moveEff i act s r (r.pc + BitVec.ofNat 64 (s.sizeAt i.ctx r.pc))) s
def execTretTo (x : JumpF) (s : State) : Out :=
  leaveForm x.h 0xE1 [(x.a, 2)] (fun i act s r => moveEff i act s r (src64 s i (lowestLane act) x.a)) s
/-- TKILL: the lanes of TLANES exit; a group's phases of SYNC go on without them. -/
def execTkill (x : Plain) (s : State) : Out :=
  leaveForm x.h 0xE2 [] (fun i _ s r =>
    let s := (s.leaveTrap i.ctx fun _ l => { l with landing := false, st := .exited }).afterAbandon i.ctx r.kind
    let s := if i.ctx % 32 = 16 then s.updWg (i.ctx / 32) fun g => { g with headExited := true } else s
    { st := s.syncSettle i.ctx }) s

/-! ## TLBINV (R278, R279) -/

def inInstance (sc : InvScope) (here core : Nat) : Bool :=
  match sc with
  | .core => core = here
  | .die => coreDie core = coreDie here
  | .pkg => true
/-- The translations of a virtual function that an invalidation covers: a page of any size that meets the range, or all. -/
def Tlb.meets (t : Tlb) (vfn : Nat) (range : Option (Nat × Nat)) : Bool :=
  t.vfn = vfn && (match range with | some (a, n) => t.va < a + n && a < t.va + 2 ^ t.bits | none => true)
def Tlb.holds (t : Tlb) (pa n : Nat) : Bool := pa < t.pa + 2 ^ t.bits && t.pa < pa + n
/-- The accesses, tile loads and stores, reclaims and copies under way that used one of these translations (DEDUCED, log 69). -/
def State.usersOf (s : State) (cores : Nat → Bool) (ts : List Tlb) : List Nat :=
  let hit (ck a n : Nat) : Bool := (s.physSegs ck a n).any fun (p, m) => ts.any (·.holds p m)
  let accs := Tab.filter s.accs fun _ a => cores a.core && a.elems.any fun e => !e.done && (match e.place with | .mem pa _ _ => ts.any (·.holds pa e.n) | _ => false)
  let asks (id : Nat) : Bool := match s.req id with | some r => r.words.any fun w => ts.any (·.holds (4 * w) 4) | none => false
  let jobs := Tab.filter s.jobs fun _ j => cores (s.coreOf j.ctx) && ((j.job.spans.any fun (a, n) => hit j.ctx a n) || (match j.job with | .reqs l => l.any asks | _ => false))
  let copies := Tab.filter s.copies fun _ c => cores (s.wg c.wk).core && c.begun && !c.stopped && c.slices.any fun x =>
    isLayout c.form || hit x.ctx x.src.toNat x.len || hit x.ctx x.dst.toNat x.len
  Tab.keys accs ++ Tab.keys jobs ++ Tab.keys copies
/-- Remove translations from the core and die TLBs that a test admits. -/
def State.dropTlb (s : State) (core die : Nat → Bool) (p : Tlb → Bool) : State :=
  { s with cores := Tab.mapVals s.cores fun k c => if core k then { c with tlb := c.tlb.filter fun t => !p t } else c
           dies := Tab.mapVals s.dies fun k d => if die k then { d with tlb := d.tlb.filter fun t => !p t } else d }
def State.tlbsOf (s : State) (core die : Nat → Bool) (p : Tlb → Bool) : List Tlb :=
  ((Tab.filter s.cores fun k _ => core k).flatMap fun (_, c) => c.tlb.filter p) ++ (Tab.filter s.dies fun k _ => die k).flatMap fun (_, d) => d.tlb.filter p
/-- An invalidation begins: the numbers of what it waits for. -/
def State.invalidate (s : State) (sc : InvScope) (here vfn : Nat) (range : Option (Nat × Nat)) : List Nat × State :=
  let core := inInstance sc here
  let die (d : Nat) : Bool := match sc with | .core => false | .die => d = coreDie here | .pkg => true
  let p (t : Tlb) : Bool := t.meets vfn range
  (s.usersOf core ((s.tlbsOf core die p).eraseDups), s.dropTlb core die p)
/-- Whether something under way still holds a translation: what waits for a page holds none. -/
def State.stillUses (s : State) (id : Nat) : Bool :=
  (match s.acc id with | some _ => true | none => false) ||
  (match s.job id with
    | some j => (match j.job with | .reqs l => l.any fun k => (s.req k).isSome | _ => false) || (match j.job.spans with
      | (a, n) :: _ => (match s.stopOf (s.pieces j.ctx (BitVec.ofNat 64 a) n false) with | .wait _ _ _ => false | _ => true)
      | [] => false)
    | none => false) ||
  (match s.copy? id with
    | some c => !c.stopped && (match c.todo none with
      | x :: _ => (match copyStep c x s with | .error (.wait _ _ _) => false | _ => true)
      | [] => false)
    | none => false)
def tlbForm (h : Hdr) (sc : InvScope) (srcs : List (Reg × Nat)) (range : State → Issue → Nat → Option (Nat × Nat)) : State → Out :=
  issueForm { h := h, opc := 0xE3, who := .both, plan := { srcs := srcs } } fun i act s =>
    if act = 0 then { st := s, vary := some 0 }
    else if !i.level then { allFault s act 0x11 0 i.pc with vary := some 0 }
    else match range s i (lowestLane act) with
      | some (_, 0) => { allFault s act 0x02 0 i.pc with vary := some 0 }
      | r =>
        let (ws, t) := s.invalidate sc (s.coreOf i.ctx) (s.wgOf i.ctx).vfn r
        let (id, t) := t.startJob i act (.tlbinv ws)
        { st := t, vary := some id }
def execTlbinvPage (x : TlbPageF) (s : State) : Out := tlbForm x.h x.scope [(x.a, 2)] (fun s i l => some ((src64 s i l x.a).toNat, 1)) s
def execTlbinvRange (x : TlbRangeF) (s : State) : Out :=
  tlbForm x.h x.scope [(x.a, 2), (x.n, 1)] (fun s i l => some ((src64 s i l x.a).toNat, (src32 s i l x.n).toNat)) s
def execTlbinvVf (x : TlbVfF) (s : State) : Out := tlbForm x.h x.scope [] (fun _ _ _ => none) s
/-- TLBINV completes when nothing holds a removed translation. -/
def State.tlbinvDone (s : State) (id : Nat) (waits : List Nat) : State := if waits.any s.stillUses then s else s.endJob id

/-! ## ICINV (R280) -/

/-- A page of the range that is not there lets the lanes wait, and one that cannot be read faults them (R200) (DEDUCED, log 71). -/
def icForm (h : Hdr) (sc : InvScope) (srcs : List (Reg × Nat)) (range : State → Issue → Nat → Option (Nat × Nat)) : State → Out :=
  issueForm { h := h, opc := 0xE4, who := .both, plan := { srcs := srcs } } fun i act s =>
    if act = 0 then { st := s, vary := some 0 }
    else match range s i (lowestLane act) with
      | some (_, 0) => { allFault s act 0x02 0 i.pc with vary := some 0 }
      | r =>
        let (a, n) := r.getD (0, 0)
        match (badPiece (s.rangePieces i.ctx a n)).map Piece.chk with
        | some (.fault c d v) => { allFault s act c d v with vary := some 0 }
        | some (.wait st w x) => { st := s.pushOnce w x, block := (lanesOf act).map fun l => (l, st, true), vary := some 0 }
        | _ =>
          let (id, t) := s.startJob i i.exec (.icinv sc a n r.isNone)
          { st := t, vary := some id }
def execIcinv (x : TlbRangeF) (s : State) : Out := icForm x.h x.scope [(x.a, 2), (x.n, 1)] (fun s i l => some ((src64 s i l x.a).toNat, (src32 s i l x.n).toNat)) s
def execIcinvAll (x : TlbVfF) (s : State) : Out := icForm x.h x.scope [] (fun _ _ _ => none) s
def invToScope : InvScope → Scope
  | .core => .core
  | .die => .die
  | .pkg => .pkg
/-- Whether a word of a context's buffer, at a virtual address, is covered by a range of addresses or by its physical pieces, whichever virtual function
fetched it; one that has no translation now may be covered. -/
def State.buffered (s : State) (ck vfn a n : Nat) (segs : List (Nat × Nat)) (w : Nat) : Bool :=
  let g := s.wgOf ck
  (g.vfn = vfn && w < a + n && a < w + 8) ||
  (match s.xlat g.core g.vfn w with
    | .ok t => segs.any fun (p, m) => t.phys w < p + m && p < t.phys w + 8
    | _ => true)
/-- A context loses covered words of its buffer: it refetches at the cost of a fragment switch (R34). -/
def Ctx.dropWords (c : Ctx) (now : Nat) (p : Nat → Bool) : Ctx :=
  if c.ibuf.any fun (w, _) => p w then
    let slow (f : Front) : Front := { f with notBefore := max f.notBefore (now + 6) }
    { c with ibuf := Tab.filter c.ibuf fun w _ => !p w, front := slow c.front, trap := c.trap.map fun t => { t with front := slow t.front } }
  else c
/-- The discard, once the lanes' earlier stores are performed at the scope (DEDUCED, log 71). -/
def State.icinvDone (s : State) (j : JobRec) (sc : InvScope) (a n : Nat) (all : Bool) : State :=
  if !s.quiet j.ctx j.lanes .rel (invToScope sc) j.id then s
  else
    let here := s.coreOf j.ctx
    let vfn := (s.wgOf j.ctx).vfn
    let segs := if all then [] else s.physSegs j.ctx a n
    let s := { s with
      cores := Tab.mapVals s.cores fun k c => if inInstance sc here k then { c with icache := Tab.filter c.icache fun w _ => !(all || segs.any fun (p, m) => w < p + m && p < w + 8) } else c
      ctxs := Tab.mapVals s.ctxs fun k c =>
        if inInstance sc here (s.coreOf k) then c.dropWords (s.core (s.coreOf k)).time fun w => all || s.buffered k vfn a n segs w else c }
    s.endJob j.id

/-! ## RECLAIM (R65, R75, R281) -/

def contiguous (m : Lanes) : Bool := m = wordMask (lowestLane m) (lanesOf m).length
/-- DEDUCED, log 70. -/
def execReclaim (x : ReclaimF) (s : State) : Out :=
  issueForm { h := x.h, opc := 0xE5, who := .both, plan := { srcs := [(x.addr, 2), (x.data, 1)] } }
    (fun i act s =>
      let bad (s : State) (c d : Nat) (a : DWord) : Eff := { allFault s act c d a with vary := some 0 }
      let wait (st : LaneSt) (w : Instr) (e : Args) : Eff := { st := (s.arrived true).pushOnce w e, block := (lanesOf act).map fun l => (l, st, true), vary := some 0 }
      if act = 0 then { st := s, vary := some 0 }
      else if !i.level then bad s 0x11 0 i.pc
      else
        let l0 := lowestLane act
        let va := src64 s i l0 x.addr
        let g := s.wgOf i.ctx
        if va.toNat % 128 ≠ 0 then bad s 0x14 0 va
        else if !contiguous act || windowOf va ≠ .global then bad s 0x02 0 i.pc
        else
          let page : DWord := BitVec.ofNat 64 (va.toNat / 65536 * 65536)
          match s.xlat g.core g.vfn va.toNat with
          | .absent => wait (.waitPage va 1 0) .notPresentFault { id := g.vfn, num := 1, v := page, list := [i.ctx] }
          | .walkHost => wait (.waitPage va 1 0) .walkMissRecord { id := g.vfn, num := 1, v := va, list := [i.ctx] }
          | .bad => bad s 0x11 1 va
          | .lost => bad s 0x15 0 va
          | .ok t =>
            let class' : Eff := wait (.waitClass (BitVec.ofNat 64 t.va) s.ids) .reclassification { id := g.vfn, v := BitVec.ofNat 64 t.va }
            if physRange (t.phys va.toNat) = .none then bad s 0x11 1 va
            else if physRange (t.phys va.toNat) ≠ .tier then bad s 0x02 0 i.pc
            else if (s.vf g.vfn).busyPages.contains t.va then class'
            else if t.cls = 1 && !t.w then bad s 0x11 1 va
            else if t.cls ≠ 0 then class'
            else
              let w0 := t.phys va.toNat / 4
              let ws := (lanesOf act).map (w0 + ·)
              let (rid, s) := s.newId
              let (id, s) := s.startJob i act (.reqs [rid])
              let r : Req := { id := rid, acc := 0, core := g.core, kind := .reclaim, line := w0 / 32, words := ws, need := ws, atHome := true
                               data := (lanesOf act).map fun l => (w0 + l, src32 s i l x.data) }
              { st := ({ s with reqs := Tab.put s.reqs rid r } : State).push .homeReclaim { id := rid }, vary := some id }) s

/-! ## PWRHINT (R282) -/

def execPwrhint (x : PwrhintF) (s : State) : Out :=
  issueForm { h := x.h, opc := 0xE6, who := .both, plan := {} }
    (fun i act s => { st := if act = 0 then s else s.updWg (i.ctx / 32) fun g => { g with pwrhint := x.level } }) s

/-! ## The Damain 2 cells (R163, R335, R336) -/

/-- RETCNTn counts an issue. -/
def State.retire (s : State) (vfn n : Nat) : State :=
  s.updVf vfn fun v => { v with retcnt := (List.range 8).map fun k => nth 0 v.retcnt k + (if k = n then 1 else 0) }
def State.countD2 (s : State) (n : Nat) : State := match s.issuing with | some i => s.retire (s.wgOf i.ctx).vfn n | none => s
/-- A trapped or removed cell: the trap comes at check 2. -/
def d2Trap (n cause : Nat) (s : State) : Out :=
  match s.issuing with
  | none => .refused .noIssuer
  | some i => .next (rejectWord (s.countD2 n) i cause (0xF8 + n))
/-- A microcoded cell acts as NOP. -/
def d2Nop (x : D2F) (n : Nat) (s : State) : Out :=
  issueForm { h := x.h, opc := 0xF8 + n, who := .both, plan := {} } (fun _ _ s => { st := s }) (s.countD2 n)
/-- DEDUCED, log 33. -/
def execBrstk (_ : D2F) (s : State) : Out := d2Trap 0 0x01 s
def execRcvpt (x : D2F) (s : State) : Out := d2Nop x 1 s
def execRcvj (x : D2F) (s : State) : Out := d2Nop x 2 s
/-- State.scbHeld keeps it back until its time has come. -/
def execScbwait (x : D2F) (s : State) : Out := d2Nop x 3 s
def execLdcoh (_ : D2F) (s : State) : Out := d2Trap 4 0x51 s
def execStcoh (_ : D2F) (s : State) : Out := d2Trap 5 0x51 s
def execMma8 (_ : D2F) (s : State) : Out := d2Trap 6 0x51 s
def execBymix (_ : D2F) (s : State) : Out := d2Trap 7 0x01 s

end Sys2Proof.Machine
end

