-- ==== Sys2Proof/Machine/Service.lean ====
section
/-! DEFINITION. Services to waiting accesses and to the host: not-present and walk requests (R359, R360), the trap queue and its log (R353 to
R358), the frame pool (R362), orphaned words (R364), quiesce and function-level reset (R352, R357). -/
namespace Sys2Proof.Machine

/-! ## Lanes that wait for a page -/

/-- The fragments of a virtual function that wait for a page of a range: context, level, the lanes, where they stand. -/
structure Waiter where
  (ck : Nat) (level : Bool) (lanes : Lanes) (pc va : DWord) (info off : Nat)
  deriving DecidableEq, Repr
def inPage (lo n : Nat) (va : DWord) : Bool := lo ≤ va.toNat && va.toNat < lo + n
def Front.pageWaiters (f : Front) (ck : Nat) (level : Bool) (lo n : Nat) : List Waiter :=
  let ls := (List.range f.lanes.length).filterMap fun l =>
    match (f.lane l).st with
    | .waitPage va info off => if inPage lo n va then some (l, (f.lane l).pc, va, info, off) else none
    | _ => none
  let keys := (ls.map fun (_, pc, _, _, off) => (pc, off)).eraseDups
  keys.filterMap fun (pc, off) =>
    match ls.filter fun (_, p, _, _, o) => p = pc && o = off with
    | [] => none
    | (l, _, va, info, _) :: t => some { ck := ck, level := level, lanes := maskOf (l :: t.map (·.1)), pc := pc, va := va, info := info, off := off }
def State.pageWaiters (s : State) (vfn : Nat) (die : Option Nat) (lo n : Nat) : List Waiter :=
  s.ctxs.flatMap fun (ck, c) =>
    if (s.wgOf ck).vfn ≠ vfn || (match die with | some d => coreDie (s.coreOf ck) ≠ d | none => false) then []
    else c.front.pageWaiters ck false lo n ++ (match c.trap with | some t => t.front.pageWaiters ck true lo n | none => [])
/-- Every waiting access of the page retries, and the device's own writes that waited. -/
def State.wakePage (s : State) (vfn lo n : Nat) : State :=
  (s.lateRetry vfn).wakeAll fun k st => (s.wgOf k).vfn = vfn && (match st with | .waitPage va _ _ => inPage lo n va | _ => false)
/-- Every waiting lane of the page faults: unobtainable, 0x10, or 0x11 for an answer that breaks R347; the fault of a second instruction word names the
first word's address (R148). The device's own writes to it are lost (R48, R344) (DEDUCED, log 118). -/
def State.denyPage (s : State) (vfn : Nat) (die : Option Nat) (lo n cause : Nat) : State :=
  let s := if die.isNone && (s.vf vfn).late.any (fun (a, _) => inPage lo n a) then s.updVf vfn fun v => { v with late := v.late.filter fun (a, _) => !inPage lo n a } else s
  (s.pageWaiters vfn die lo n).foldl (fun t w =>
    t.trap w.ck w.level { cause := causeWord cause (w.info % 4) w.off, addr := if w.info ≥ 4 then w.va - 8 else w.va, pc := w.pc, lanes := w.lanes, kind := .precise }) s

/-! ## Not-present requests (R359) -/

/-- Where the leaf entry of an address stands, if the tables above it are there: its physical address and the page's size. -/
def State.leafFrom (s : State) (va table level : Nat) : Option (Nat × Nat) :=
  let at' := table + 16 * (va / 2 ^ levelShift level % 2 ^ levelBits level)
  let e := s.peekDWord at'
  match level with
  | 0 => some (at', 16)
  | l + 1 =>
    if e.getLsbD 1 then (if level ≤ 2 then some (at', levelShift level) else none)
    else if !e.getLsbD 0 then none
    else s.leafFrom va ((e.extractLsb' 8 40).toNat * 256) l
def State.leafAt (s : State) (vfn va : Nat) : Option (Nat × Nat) := s.leafFrom va (s.vf vfn).ptbase.toNat 4
/-- The record of a waiting context: the PC is that of the first lane that waits for the page, else of the context's engine (DEDUCED, log 96). -/
def State.pageRec (s : State) (vfn kind cause : Nat) (va : DWord) (info : Nat) (cks : List Nat) : Rec :=
  match cks with
  | ck :: _ =>
    let c := s.ctx ck
    let lane (x : Lane) : Option DWord := match x.st with | .waitPage a _ _ => if a.toNat / 65536 = va.toNat / 65536 then some x.pc else none | _ => none
    let engine (j : JobRec) : Option DWord := if j.ctx = ck && (match j.job with | .tld _ _ _ _ _ _ _ _ | .tst _ _ _ _ _ _ _ | .stream _ _ _ _ _ _ => true | _ => false) then some j.pc else none
    let slice (x : Slice) : Option DWord := if x.ctx = ck then some x.pc else none
    let pc := (((c.front.lanes ++ (match c.trap with | some t => t.front.lanes | none => [])).findSome? lane).or
      (((Tab.vals s.jobs).findSome? engine).or (((Tab.vals s.copies).flatMap fun (y : Copy) => y.slices).findSome? slice))).getD 0
    { s.recOf ck kind cause pc va 0 0 with info := BitVec.ofNat 64 info }
  | [] => { kind := kind, cause := cause, vfn := vfn, die := 0, core := 0, grp := 31, slot := 0, pc := 0, addr := va, tlanes := 0, tcause := 0, handle := 0, info := BitVec.ofNat 64 info }
def State.openFor (s : State) (vfn kind : Nat) (p : Open → Bool) : Bool := (s.vf vfn).opens.any fun (o : Open) => o.kind = kind && !o.answered && p o
/-- The zero-page stack serves a DZ page: its leaf takes the popped address with V = 1 (DEDUCED, log 77). -/
def State.zeroPage (s : State) (vfn leaf : Nat) : State :=
  let n := (s.vf vfn).zpcnt - 1
  let p := s.peekDWord ((s.vf vfn).zpbase.toNat + 8 * n.toNat)
  let e := s.peekDWord leaf
  let e' : DWord := (e &&& 0xFC) ||| (p &&& 0x0000FFFFFFFF0000) ||| 3
  (s.updVf vfn fun v => { v with zpcnt := n }).homeWrite 0 leaf (bytesLE 8 e'.toNat)
/-- NOT_PRESENT_FAULT: misses on a page coalesce; the page is served by the device, or goes to the host. -/
def State.notPresent (s : State) (vfn : Nat) (page : DWord) (info : Nat) (cks : List Nat) : State :=
  match s.walk vfn page.toNat with
  | .ok t => s.wakePage vfn t.va (2 ^ t.bits)
  | .bad | .lost => s.wakePage vfn (page.toNat / 65536 * 65536) 65536
  | .absent leaf bits =>
    let lo := page.toNat / 2 ^ bits * 2 ^ bits
    let n := 2 ^ bits
    let v := s.vf vfn
    if s.openFor vfn 1 fun o => o.va.toNat = lo then s
    else match leaf with
      | some p =>
        if !v.dutysel.getLsbD 1 && bits = 16 && (s.peekDWord (p + 8)).getLsbD 4 && v.zpcnt ≠ 0 then (s.zeroPage vfn p).wakePage vfn lo n
        else ask lo n bits
      | none => ask lo n bits
where
  ask (lo n bits : Nat) : State :=
    match s.request vfn (s.pageRec vfn 1 0x10 (BitVec.ofNat 64 lo) info cks) (BitVec.ofNat 64 lo) bits with
    | (.off, t) => t.denyPage vfn none lo n 0x10
    | (_, t) => t
def execNotPresentFault (s : State) : Out := .next (s.notPresent s.args.id s.args.v s.args.num s.args.list)

/-! ## Host-assisted walks (R360) -/

def recDie (r : BitVec 512) : Nat := (r.extractLsb' 35 4).toNat
def pageOf (va : DWord) : Nat := va.toNat / 65536 * 65536
/-- WALK_MISS_RECORD: one record for the misses of a die on one page. -/
def State.walkMiss (s : State) (vfn : Nat) (va : DWord) (info : Nat) (cks : List Nat) : State :=
  let die := match cks with | ck :: _ => coreDie (s.coreOf ck) | [] => 0
  if s.openFor vfn 2 fun o => pageOf o.va = pageOf va && recDie o.recd = die then s
  else match s.request vfn (s.pageRec vfn 2 0x10 va info cks) va info with
    | (.off, t) => t.denyPage vfn (some die) (pageOf va) 65536 0x10
    | (_, t) => t
def execWalkMissRecord (s : State) : Out := .next (s.walkMiss s.args.id s.args.v s.args.num s.args.list)

/-! ## The trap queue (R356, R358) -/

def State.tqWr (s : State) (vfn : Nat) : Nat := (s.devReadDWord vfn (s.vf vfn).tqbase).toNat
def State.tqRd (s : State) (vfn : Nat) : Nat := (s.devReadDWord vfn ((s.vf vfn).tqbase + 8)).toNat
def State.tqSeq (s : State) (vfn : Nat) : Nat := (s.devReadDWord vfn ((s.vf vfn).tqbase + 16)).toNat
def State.tqEntry (s : State) (vfn n : Nat) : DWord := (s.vf vfn).tqbase + 64 + BitVec.ofNat 64 (64 * (n % (s.vf vfn).tqN))
/-- What a request answered unobtainable means to what waits on it. -/
def State.denyOpen (s : State) (vfn : Nat) (o : Open) : State :=
  if o.kind = 1 then s.denyPage vfn none o.va.toNat (2 ^ o.info) 0x10
  else if o.kind = 2 then s.denyPage vfn (some (recDie o.recd)) (pageOf o.va) 65536 0x10
  else s
/-- Requests that wait for an entry are written, in order, while there is room. -/
def State.tqRetry (s : State) (vfn fuel : Nat) : State :=
  match fuel with
  | 0 => s
  | n + 1 =>
    match (s.vf vfn).opens.find? fun (o : Open) => o.index.isNone with
    | none => s
    | some o =>
      match s.putWords vfn ((List.range 8).map fun k => o.recd.extractLsb' (64 * k) 64) false with
      | (.at i, t) =>
        (t.updVf vfn fun v => { v with opens := v.opens.map fun (x : Open) => if x = o then { x with index := some i } else x }).tqRetry vfn n
      | (.wait, _) => s
      | (.off, t) => ((t.updVf vfn fun v => { v with opens := v.opens.filter (· ≠ o) }).denyOpen vfn o).tqRetry vfn n
/-- RD has moved: entries that it has passed are closed; an NP or WALK entry that nobody answered counts as unobtainable. -/
def State.tqScan (s : State) (vfn : Nat) : State :=
  let rd := s.tqRd vfn
  let gone := (s.vf vfn).opens.filter fun (o : Open) => match o.index with | some i => decide (i < rd) | none => false
  let s := s.updVf vfn fun v => { v with opens := v.opens.filter fun o => !gone.contains o, hostEntries := v.hostEntries.filter fun n => rd ≤ n }
  let s := (gone.filter fun o => !o.answered).foldl (fun t o => t.denyOpen vfn o) s
  s.tqRetry vfn ((s.vf vfn).opens.length + 1)
/-- A host address of the log ring as a device physical address (DEDUCED, log 75). -/
def hostPhys (a : DWord) : Nat := if a.toNat < 0x800000000000 then a.toNat + 0x800000000000 else a.toNat
/-- TRAP_QUEUE_LOG_COPY: of the entries that were reserved in hardware mode, the device copies a finished record, then moves RD past what is copied and
answered; an entry of the other mode is the host's to release (R351, R358) (DEDUCED, log 76). -/
def State.tqCopy (s : State) (vfn : Nat) : State :=
  let v := s.vf vfn
  if !v.tqEn then s
  else
    let again (t : State) : State := t.pushOnce .trapQueueLogCopy { id := vfn }
    let seq := s.tqSeq vfn
    let rd := s.tqRd vfn
    -- the next entry to be copied: the host may have released entries that no log holds
    let n := max (seq + v.passed) rd
    let kindAt (n : Nat) : Nat := (nth 0 (s.devRead vfn (s.tqEntry vfn n) 8) 7).toNat
    if n < s.tqWr vfn && kindAt n ≠ 0 && !v.hostEntries.contains n then
      let s := s.homeWrite 0 (hostPhys v.tqlog + 64 * (seq % v.tqN)) (s.devRead vfn (s.tqEntry vfn n) 64)
      let s := s.updVf vfn fun v => { v with passed := n - seq }
      again (s.devWriteDWord vfn (v.tqbase + 16) (BitVec.ofNat 64 (seq + 1)))
    else if rd < n && !v.hostEntries.contains rd then
      let k := kindAt rd
      let answered := (v.opens.find? fun (o : Open) => o.index = some rd).map (·.answered) |>.getD true
      let free := if k = 3 then s.devReadDWord vfn (s.tqEntry vfn rd + 0x38) ≠ 0 else answered || k = 4 || k = 6
      if free then again (((s.devWriteDWord vfn (s.tqEntry vfn rd) 0).devWriteDWord vfn (v.tqbase + 8) (BitVec.ofNat 64 (rd + 1))).tqScan vfn)
      else s
    else s
def execTrapQueueLogCopy (s : State) : Out := .next ((s.tqCopy s.args.id).tqScan s.args.id)

/-- Words of a line are written from a replacement and left in N with u = 0 (the RECLAIM row of R65). -/
def State.reclaimWords (s : State) (ws : List (Nat × Word)) : State :=
  let wasU := ws.any fun (w, _) => (s.dirWord w).u
  let s := ws.foldl (fun t (w, x) =>
    let t := (recallsOf .reclaim 0 (t.dirWord w)).foldl (fun (u : State) h => u.holderGiveUp h w .drop) t
    let t := { t with mem := Memory.setWord t.mem (4 * w) x }
    (t.setDir w { (t.dirWord w) with mode := .n, u := false }).clearResvOthers (w / 32) none) s
  if wasU then
    { s with l1 := Tab.filter s.l1 fun k x => !((ws.any fun (w, _) => w = k % 2 ^ 46) && (x.st = .us || x.st = .uw)) }
  else s
/-- TQRESP: an answer to an open, unanswered NP, WALK or ORPHAN entry; that of an ORPHAN entry waits its turn at home (R364). -/
def State.tqAnswer (s : State) (vfn : Nat) (v : DWord) : State :=
  let status := (v.extractLsb' 32 4).toNat
  let size := (v.extractLsb' 36 2).toNat
  let ix := (v.extractLsb' 0 32).toNat
  let rd := s.tqRd vfn
  if v.extractLsb' 38 26 ≠ 0 || size = 3 || status ≥ 2 then s
  else match (s.vf vfn).opens.find? fun (o : Open) => !o.answered && (o.kind = 1 || o.kind = 2 || o.kind = 5) && (match o.index with | some i => i % 2 ^ 32 = ix && i ≥ rd | none => false) with
    | none => s
    | some o =>
      let n := o.index.getD 0
      let lost := if o.kind = 5 && status = 0 then
        (let m := s.devReadDWord vfn (s.tqEntry vfn n + 0x38); ((List.range 32).filter fun k => m.getLsbD k).map fun k => o.va.toNat / 4 + k) else []
      if s.hostHeld lost then s.hostAgain .tqresp lost else
      let s := s.updVf vfn fun v => { v with opens := v.opens.map fun (x : Open) => if x = o then { x with answered := true } else x }
      let r0 := s.devReadDWord vfn (s.tqEntry vfn n + 0x30)
      let r1 := s.devReadDWord vfn (s.tqEntry vfn n + 0x38)
      let s := if status = 1 then s.denyOpen vfn o
        else if o.kind = 1 then s.wakePage vfn o.va.toNat (2 ^ o.info)
        else if o.kind = 2 then
          let bits := if size = 0 then 16 else if size = 1 then 21 else 30
          if !r0.getLsbD 0 then s.denyOpen vfn o
          else match (if r0.getLsbD 1 then leafOf vfn o.va.toNat bits r0 r1 else .bad) with
            | .ok t => (s.updDie (recDie o.recd) fun d => { d with tlb := if d.tlb.contains t then d.tlb else d.tlb ++ [t] }).wakePage vfn (pageOf o.va) 65536
            | _ => s.denyPage vfn (some (recDie o.recd)) (pageOf o.va) 65536 0x11
        else
          let line := o.va.toNat / 4
          s.reclaimWords (((List.range 32).filter fun k => r1.getLsbD k).map fun k => (line + k, s.peekWord (r0.toNat / 4 + k)))
      (s.pushOnce .trapQueueLogCopy { id := vfn }).tqScan vfn
/-- DEDUCED, log 100. -/
def execTqresp (s : State) : Out := .next (if s.answers then s.tqAnswer s.args.id s.args.v else s)

/-! ## The frame pool (R362) -/

/-- A POOL record, of which one is open at a time. -/
def State.poolRecord (s : State) (vfn : Nat) (lost : Bool) : State :=
  if (s.vf vfn).opens.any fun (o : Open) => o.kind = 4 then s
  else
    let v := s.vf vfn
    let info := BitVec.ofNat 64 v.fpfree ||| (if lost then 0x8000000000000000 else 0)
    (s.request vfn { kind := 4, cause := 0, vfn := vfn, die := 0, core := 0, grp := 31, slot := 0, pc := 0, addr := v.fpbase, tlanes := 0, tcause := 0, handle := 0, info := info } v.fpbase 0).2
/-- FRAME_POOL_REFILL: the device grows the pool, or tells the host. -/
def State.poolRefill (s : State) (vfn : Nat) (lost : Bool) : State :=
  let v := s.vf vfn
  if lost then s.poolRecord vfn true
  else if v.fpfree ≥ v.fplow.toNat then s
  else if v.dutysel.getLsbD 4 then s.poolRecord vfn false
  else if v.fpact.toNat < v.fplimit.toNat then
    let g := min v.fpstep.toNat (v.fplimit.toNat - v.fpact.toNat)
    let t := s.updVf vfn fun v => { v with fpact := v.fpact + BitVec.ofNat 64 g }
    if g ≠ 0 && (t.vf vfn).fpfree < v.fplow.toNat then t.pushOnce .framePoolRefill { id := vfn } else t
  else s
def execFramePoolRefill (s : State) : Out := .next (s.poolRefill s.args.id s.args.on)
/-- FPGROW: honoured in host-assisted FPR, and as the answer of a POOL record that was written in it (R351) (DEDUCED, log 57). -/
def State.fpGrow (s : State) (vfn : Nat) (g : DWord) : State :=
  if !((s.vf vfn).dutysel.getLsbD 4 || (s.vf vfn).opens.any fun (o : Open) => o.kind = 4) || g.toNat % 0x10000 ≠ 0 then s
  else s.updVf vfn fun v => { v with fplimit := v.fplimit + g, fpact := v.fpact + g }
def execFpgrow (s : State) : Out := .next (if s.answers then s.fpGrow s.args.id s.args.v else s)

/-! ## What maps a physical page -/

/-- The leaf entries of a table, found by descent: base address, size, entry word; below table entries with V = 0 too where any is set. -/
def State.leaves (s : State) (any : Bool) (table va level : Nat) : List (Nat × Nat × DWord) :=
  (List.range (2 ^ levelBits level)).flatMap fun ix =>
    let e := s.peekDWord (table + 16 * ix)
    let a := va + ix * 2 ^ levelShift level
    if e = 0 then []
    else match level with
      | 0 => [(a, 16, e)]
      | l + 1 =>
        if e.getLsbD 1 then (if level ≤ 2 then [(a, levelShift level, e)] else [])
        else if any || e.getLsbD 0 then s.leaves any ((e.extractLsb' 8 40).toNat * 256) a l
        else []
def State.leavesOf (s : State) (vfn : Nat) (any : Bool := false) : List (Nat × Nat × DWord) := s.leaves any (s.vf vfn).ptbase.toNat 0 4
def leafPa (e : DWord) : Nat := (e.extractLsb' 16 32).toNat * 65536
/-- Whether a virtual function maps a physical address, in a class that a test admits. -/
def State.maps (s : State) (vfn pa : Nat) (cls : Nat → Bool) : Bool :=
  (s.leavesOf vfn).any fun (_, bits, e) => e.getLsbD 0 && cls (e.extractLsb' 2 2).toNat && leafPa e ≤ pa && pa < leafPa e + 2 ^ bits
def State.mapped (s : State) (pa : Nat) (cls : Nat → Bool) : Bool := (Tab.keys s.vfs).any fun v => s.maps v pa cls

/-! ## Orphaned words (R364) -/

/-- Words that a failed holder held dirty enter Z; virtual functions in host-assisted RECL that map their lines are sent records (DEDUCED, log 74). -/
def State.orphanRecorded (s : State) (holder : Nat) (ws : List Nat) : State :=
  let ws := ws.filter fun w => (s.dirWord w).mode ≠ .z
  let s := s.orphan ws
  let lines := (ws.map (· / 32)).eraseDups
  lines.foldl (fun t line =>
    let mask := t.zMask line
    let a : DWord := BitVec.ofNat 64 (line * 128)
    ((Tab.keys t.vfs).filter fun v => (t.vf v).dutysel.getLsbD 6 && t.maps v (line * 128) fun _ => true).foldl (fun (u : State) v =>
      (u.request v { kind := 5, cause := 0, vfn := v, die := 0, core := 0, grp := 31, slot := 0, pc := 0, addr := a, tlanes := 0, tcause := 0, handle := 0
                     info := BitVec.ofNat 64 (holder * 2 ^ 32 + mask.toNat) } a 0).2) t) s

/-! ## Accesses that wait for a reclassification (R73) -/

/-- The pages that lanes wait for, with the numbers of their arrival. -/
def State.classWaits (s : State) : List (Nat × DWord × Nat) :=
  s.ctxs.flatMap fun (k, c) => (c.front.lanes ++ (match c.trap with | some t => t.front.lanes | none => [])).filterMap fun x =>
    match x.st with | .waitClass va n => some ((s.wgOf k).vfn, va, n) | _ => none
/-- The unit goes on with the pages that are waited for. -/
def State.nextPages (s : State) : State :=
  ((s.classWaits.map fun (v, a, _) => (v, a)).eraseDups).foldl (fun t (v, a) => t.pushOnce .reclassification { id := v, v := a }) s
/-- The waiting accesses of a page go on, in the order of their arrival: the first of them now, the others one after another. -/
def State.releasePage (s : State) (vfn va : Nat) : State :=
  let a : DWord := BitVec.ofNat 64 va
  let s := s.updVf vfn fun v => { v with busyPages := v.busyPages.filter (· ≠ va) }
  let ns := s.classWaits.filterMap fun (v, b, n) => if v = vfn && b = a then some n else none
  let s := match ns.find? fun n => ns.all fun m => n ≤ m with
    | some n => s.wakeAll fun k st => (s.wgOf k).vfn = vfn && decide (st = LaneSt.waitClass a n)
    | none => s
  (s.lateRetry vfn).nextPages

/-! ## Quiesce and function-level reset (R357) -/

/-- Whether an engine of the virtual function still runs to its interrupt point. -/
def State.engineBusy (s : State) (vfn : Nat) : Bool :=
  (s.copies.any fun (_, c) => (s.wg c.wk).vfn = vfn && c.begun && !c.stopped) ||
  s.cores.any fun (_, c) => match c.mat with | some (wk, _, _) => (s.wg wk).vfn = vfn | none => false
/-- QUIESCE: QUIESCED is set when the engines stand. -/
def State.quiesceDone (s : State) (vfn : Nat) : State :=
  if (s.vf vfn).quiescing && !s.engineBusy vfn then s.updVf vfn fun v => { v with quiesced := true } else s
def execQuiesce (s : State) : Out := .next (s.quiesceDone s.args.id)

/-- What a discarded request held is free again. -/
def State.dropReqs (s : State) (p : Req → Bool) : State :=
  let gone := (Tab.vals s.reqs).filter p
  let ids := gone.map (·.id)
  let s := { s with reqs := Tab.filter s.reqs fun _ r => !p r
                    dir := Tab.mapVals s.dir fun _ (d : DirWord) => match d.busy with | some k => if ids.contains k then { d with busy := none } else d | none => d }
  let s := { s with dir := Tab.filter s.dir fun _ (d : DirWord) => decide (d ≠ ({} : DirWord)) }
  ((gone.flatMap fun r => r.words.map (· / 32)).eraseDups).foldl (fun t line => t.wakeReqs line) s
/-- Everything of the workgroups that a test admits goes. -/
def State.discardWgs (s : State) (p : Nat → Bool) : State :=
  let mine (ck : Nat) : Bool := p (ck / 32)
  let s := s.dropReqs fun r => match s.acc r.acc with
    | some a => mine a.ctx
    | none => (Tab.vals s.jobs).any fun (j : JobRec) => mine j.ctx && (match j.job with | .reqs l => l.contains r.id | _ => false)
  let s := s.wgs.foldl (fun t (wk, g) => if p wk then (waysOf g.cways).foldl (fun u w => if (u.core g.core).way w = .reserved wk then u.clearWay g.core w else u) t else t) s
  let own : WaySt → Bool
    | .lent => false
    | .draining wk | .reserved wk => p wk
  let copies := Tab.keys (Tab.filter s.copies fun _ c => p c.wk)
  { s with
    cores := Tab.mapVals s.cores fun _ (c : Core) => { c with
      ways := c.ways.map fun w => if own w then .lent else w
      copyq := c.copyq.filter fun k => !copies.contains k
      mat := match c.mat with | some (wk, a, b) => if p wk then none else some (wk, a, b) | none => none
      sump := (c.sump.map fun (t, l) => (t, l.filter fun (a, _) => match s.acc a with | some x => !mine x.ctx | none => false)).filter fun (_, l) => !l.isEmpty }
    wgs := Tab.filter s.wgs fun k _ => !p k
    ctxs := Tab.filter s.ctxs fun k _ => !mine k
    accs := Tab.filter s.accs fun _ a => !mine a.ctx
    jobs := Tab.filter s.jobs fun _ j => !mine j.ctx
    copies := Tab.filter s.copies fun k _ => !copies.contains k
    tokenq := s.tokenq.filter fun w => !p w }
/-- The registers of R352 and the default TRAPBASE are clear, every grid slot starts again (R264), and no object stays loaded, so that no later grid runs on a
table that the reset left in memory (R322) (DEDUCED, log 78). -/
def Vf.flr (v : Vf) : Vf :=
  { v with trapbase := 0, tqbase := 0, tqctl := 0, tqlog := 0, fpbase := 0, fplimit := 0, fpact := 0, fplow := 0, fpstep := 0, frames := [], zpbase := 0
           zpcnt := 0, hostEntries := [], passed := 0, objects := [], savebase := 0, savesize := 0, saved := [], gens := [], roots := [], late := [], quiescing := false, quiesced := false, latched := false, fatalrec := 0, opens := [], busyPages := [] }
/-- FUNCTION_LEVEL_RESET: the function quiesces, and then its grids, frames, save slots and ways are discarded (DEDUCED, log 78). -/
def State.flr (s : State) (vfn : Nat) : State :=
  if !(s.vf vfn).quiesced then (s.quiesce vfn).pushOnce .functionLevelReset { id := vfn }
  else
    let s := s.discardWgs fun wk => (s.wg wk).vfn = vfn
    let dead := Tab.keys (Tab.filter s.grids fun _ g => g.vfn = vfn)
    let s := { s with
      grids := Tab.filter s.grids fun _ g => g.vfn ≠ vfn
      coresident := s.coresident.filter fun k => !dead.contains k
      dies := Tab.mapVals s.dies fun _ (d : Die) => { d with queue := d.queue.filter fun e => !dead.contains e.grid }
      colls := s.colls.filter fun (c : Coll) => c.vfn ≠ vfn }
    let s := (s.updVf vfn Vf.flr).nextPages
    let s := (List.range 12).foldl (fun t d => if (t.die d).queue.isEmpty then t else t.pushOnce .workgroupPlace { id := d }) s
    if (s.vf vfn).rootq.isEmpty then s else s.pushOnce .rootlaunchProcess { id := vfn }
def execFunctionLevelReset (s : State) : Out := .next (if s.answers then s.flr s.args.id else s)

end Sys2Proof.Machine
end

