-- ==== Sys2Proof/Machine/Home.lean ====
section
/-! DEFINITION. The happenings of the coherence machinery: standpipe and home (R62 to R68), holders that fail (R74, R365), reclassification (R73),
the host as an agent (R71, R384), and the sump's windows (R108). -/
namespace Sys2Proof.Machine

/-! ## Requests -/

/-- The order of the standpipe: by the cycle of the injection, then by core number (R62). -/
def Req.before (q r : Req) : Bool := q.at' < r.at' || (q.at' = r.at' && (q.core < r.core || (q.core = r.core && q.id < r.id)))
/-- The announced requests of a die. -/
def State.onPipe (s : State) (die : Nat) : List Req := (Tab.vals s.reqs).filter fun (q : Req) => !q.quiet && q.kind ≠ .reclaim && q.die = die
/-- An announcement that has still to fall comes before this one: a die has one order of announcements (R62). -/
def State.pipeAhead (s : State) (r : Req) : Bool := (s.onPipe r.die).any fun q => q.id ≠ r.id && !q.fell && !q.announced && q.before r
/-- Another request of the die that has fallen, and is not complete, comes first for one of these words (R63) (DEDUCED, log 92). -/
def State.standpipeBusy (s : State) (r : Req) : Bool :=
  (s.onPipe r.die).any fun q => q.id ≠ r.id && (q.announced || q.before r) && q.words.any fun w => r.words.contains w
/-- STANDPIPE_ANNOUNCE, after the cycle of the injection: the announcement falls in its turn, and the next may fall; where an earlier request for one of its words is
not complete it keeps its position and waits. -/
def State.standpipe (s : State) (id : Nat) : State :=
  match s.req id with
  | none => s
  | some r =>
    if r.announced || r.atHome || s.clock ≤ r.at' || (!r.fell && s.pipeAhead r) then s
    else
      let t := s.updReq id fun q => { q with fell := true }
      let t := if r.fell then t else (t.onPipe r.die).foldl (fun (u : State) q =>
        if q.id ≠ id && !q.fell && !q.announced && q.at' < u.clock then u.pushOnce .standpipeAnnounce { id := q.id } (some (q.at' + 20)) else u) t
      if t.standpipeBusy r then t else t.announce { r with fell := true }
def execStandpipeAnnounce (s : State) : Out := .next (s.standpipe s.args.id)

/-- A request of one kind is served at home, if it is there. -/
def homeEvent (kind : ReqKind) (served : State → Req → State) (s : State) : Out :=
  .next (match s.req s.args.id with
    | some r => if r.kind = kind && r.atHome then s.homeServe r.id served else s
    | none => s)
def serveRead (s : State) (r : Req) : State := (s.afterServe r).grant r
/-- Untracked copies of the .wt kind that other cores of the writer's die have filled since its write notice go with the write: it is performed at .quad and wider
only when no core of the die keeps one (R60, R78). -/
def State.dropUw (s : State) (r : Req) : State :=
  r.need.foldl (fun t w => (t.l1Of w).foldl (fun (u : State) (core, x) =>
    if core ≠ r.core && coreDie core = r.die && x.st = .uw then u.setL1 core w {} else u) t) s
/-- A write or atomic is performed in memory, an SC while the directory still names its die. -/
def serveWrite (s : State) (r : Req) : State := ((s.dropUw r).finishReq r true).afterServe r
def execHomeRdu (s : State) : Out := homeEvent .rdU serveRead s
def execHomeRdt (s : State) : Out := homeEvent .rdT serveRead s
def execHomeRdo (s : State) : Out := homeEvent .rdO serveRead s
def execHomeWrw (s : State) : Out := homeEvent .wrW serveWrite s
def execHomeAth (s : State) : Out := homeEvent .atH serveWrite s
/-- RECLAIM at home: the span is written and cleared, and its job may end. -/
def serveReclaim (s : State) (r : Req) : State :=
  let s := r.words.foldl (fun t w => let d := t.dirWord w; t.setDir w { d with busy := none }) s
  let s := s.reclaimWords r.data
  let s := { s with reqs := Tab.erase s.reqs r.id }
  let s := s.jobs.foldl (fun t (k, j) => match j.job with | .reqs l => if l.contains r.id then t.pushOnce .flagCountDown { id := k } else t | _ => t) s
  s.wakeReqs r.line
def execHomeReclaim (s : State) : Out := homeEvent .reclaim serveReclaim s

/-! ## Copies that a core gives up by itself -/

def isOwned (x : L1St) : Bool := x = .o || x = .m
/-- HOME_WB: an L1 evicts an owned word (core id, word num); HOME_DROP: any other. -/
def execHomeWb (s : State) : Out := .next (if isOwned (s.l1w s.args.id s.args.num).st then s.flushWord s.args.id s.args.num else s)
def execHomeDrop (s : State) : Out :=
  .next (match (s.l1w s.args.id s.args.num).st with
    | .o | .m => s
    | .ro => (s.setL1 s.args.id s.args.num {}).clearResv s.args.id (s.args.num / 32)
    | _ => s.flushWord s.args.id s.args.num)

/-! ## Recalls (R67) -/

/-- A lane for which its core, in the die, may refuse: it has failed eight SCs in a row to the line, and the core has refused for no lane that has not
succeeded since. -/
def State.refuser (s : State) (die line : Nat) : Option (Nat × Nat) :=
  s.ctxs.findSome? fun (k, c) =>
    if coreDie (s.coreOf k) = die && (s.core (s.coreOf k)).refused.isEmpty then
      (List.find? (fun (_, l, n) => l = line && decide (n ≥ 8)) c.scFails).map fun (lane, _) => (k, lane)
    else none
/-- HOLDER_RECALL of request id at holder num: the holder answers, or refuses once, for at most 256 cycles, as a free value says. It gives up too a word that its die
supplied to an access which still waits for another word: were the word kept, two dies could each hold one that the other waits for (DEDUCED, log 92). -/
def State.recall (s : State) (id h : Nat) : State :=
  match s.req id with
  | none => s
  | some r =>
    if !r.asked.contains h || r.answered.contains h then s
    else
      let lines := (r.need.map (· / 32)).eraseDups
      let refusal : Option State := match lines.findSome? fun l => s.refuser h l with
        | some (ck, lane) =>
          let (v, t) := s.free 1
          if v = 1 then some (t.updCore (t.coreOf ck) fun k => { k with refused := k.refused ++ [(ck, lane)] }) else none
        | none => none
      match refusal with
      | some t => t.pushOnce .recallRefusalExpiry { id := id, num := h } (some (t.clock + 256))
      | none =>
        let how := r.kind.giveUp
        let s := if h < 12 then lines.foldl (fun t l => t.clearResvDie h l) s else s
        let ws := r.need.filter fun w => match (s.dirWord w).mode with | .t l => l.contains h | .x o => o = h | _ => false
        let s := ws.foldl (fun t w => t.holderGiveUp h w how) s
        (s.updReq id fun q => { q with answered := q.answered ++ [h] }).pushOnce r.kind.home { id := id }
def execHolderRecall (s : State) : Out := .next (s.recall s.args.id s.args.num)
/-- RECALL_REFUSAL_EXPIRY: the home asks again. -/
def execRecallRefusalExpiry (s : State) : Out := .next (if (s.req s.args.id).isSome then s.pushOnce .holderRecall { id := s.args.id, num := s.args.num } else s)

/-! ## Holders that fail (R74, R365) -/

/-- A die that no longer holds a word, as the directory sees it. -/
def DirMode.without (m : DirMode) (h : Nat) : DirMode :=
  match m with
  | .t l => if l.filter (· ≠ h) = [] then .n else .t (l.filter (· ≠ h))
  | .x o => if o = h then .n else .x o
  | m => m
def State.failL1 (s : State) (core : Nat) : State :=
  let ws := s.coreWords core
  let dirty := ws.filter fun w => (s.l1w core w).st = .m
  let s := (ws.filter fun w => !dirty.contains w).foldl (fun t w => t.flushWord core w) s
  let s := { s with l1 := Tab.filter s.l1 fun k _ => k / 2 ^ 46 ≠ core
                    ctxs := Tab.mapVals s.ctxs fun k c => if s.coreOf k = core then { c with resv := [] } else c }
  (s.orphanRecorded (coreDie core) dirty).countUnc 4
def State.failAgent (s : State) (die : Nat) : State :=
  if (s.die die).agentDown then s
  else
    let held := Tab.filter s.l1 fun k (x : L1Word) => coreDie (k / 2 ^ 46) = die && (x.st = L1St.s || isOwned x.st)
    let dirty := (Tab.keys (Tab.filter held fun _ x => x.st = .m)).map (· % 2 ^ 46)
    let s := { s with l1 := Tab.filter s.l1 fun k (x : L1Word) => !(coreDie (k / 2 ^ 46) = die && (x.st = L1St.s || isOwned x.st))
                      dir := Tab.filter (Tab.mapVals s.dir fun _ (d : DirWord) => { d with mode := d.mode.without die }) fun _ (d : DirWord) => decide (d ≠ ({} : DirWord))
                      ctxs := Tab.mapVals s.ctxs fun k c => if coreDie (s.coreOf k) = die then { c with resv := [] } else c }
    (s.updDie die fun d => { d with agentDown := true }).orphanRecorded die dirty
/-- The CXL link is lost; the list names the words that the host had written. -/
def State.failHost (s : State) (written : List Nat) : State :=
  if !s.linkUp then s
  else
    let dirty := written.filter fun w => (s.dirWord w).mode = .x 12
    let s := { s with linkUp := false
                      dir := Tab.filter (Tab.mapVals s.dir fun _ (d : DirWord) => { d with mode := d.mode.without 12 }) fun _ (d : DirWord) => decide (d ≠ ({} : DirWord)) }
    s.orphanRecorded 12 dirty
/-- A read from a store of hop h (the DRAM arrays and the last-level cache) meets an uncorrectable error: words that no copy owns enter Z, of the last-level
cache those that were dirty there, which the happening names; clean ones are refetched.
No holder failed, so the holder that a record names is free (DESIGN CHOICE, log 90). -/
def State.failStore (s : State) (h : Nat) (ws : List Nat) : State :=
  let lost := ws.filter fun w => physRange (4 * w) = .tier && (match (s.dirWord w).mode with | .n | .t _ => true | _ => false)
  if h > 3 then s
  else if lost.isEmpty then s.countUnc h
  else
    let (who, t) := s.free 4
    (t.orphanRecorded who.toNat lost).countUnc h
/-- Scratchpad words of a core have an uncorrectable error: every access to them faults from now on (R365). -/
def State.failCist (s : State) (core : Nat) (ws : List Nat) : State :=
  let lost := (ws.filter (· < 0x10000)).map (core * 0x10000 + ·)
  ({ s with cistBad := s.cistBad ++ lost.filter fun k => !s.cistBad.contains k } : State).countUnc 4
/-- An announcement that met a parity error takes its order from its second injection (R365). -/
def State.reinject (s : State) (id : Nat) : State :=
  match s.req id with
  | some r => if r.announced || r.atHome then s else s.updReq id fun q => { q with at' := max (s.clock + 1) (s.nextInject r.core) }
  | none => s
/-- HOLDER_FAIL, and the other errors of R365; the list of the happening names the words, or the announcements that the standpipe lost: each is
injected again in the core's next free cycle (R365). -/
def execHolderFail (s : State) : Out :=
  .next (match s.args.who with
    | .l1 c => s.failL1 c
    | .dieAgent d => s.failAgent d
    | .hostLink => s.failHost s.args.list
    | .store h => s.failStore h s.args.list
    | .cistern c => s.failCist c s.args.list
    | .standpipe => (s.args.list.foldl State.reinject s).countUnc 6
    | .corrected h => if h < 6 then s.updPf fun p => { p with errcorr := updNth p.errcorr h (· + 1) } else s)
/-- LINK_DOWN: after eight failed retries a mesh or package link is down, and its die agent fails. -/
def execLinkDown (s : State) : Out := .next ((s.countUnc 5).failAgent s.args.id)
/-- REGISTER_PARITY_ERROR: the context (id) is parked for good; the record's ADDR is the register's code (num). -/
def State.parityError (s : State) (ck code : Nat) : State :=
  match Tab.find? s.ctxs ck with
  | none => s
  | some c =>
    let stop (f : Front) : Front := { f with chain := none, lanes := f.lanes.map fun (x : Lane) => if x.st = .exited then x else { x with st := .parked none } }
    let level := c.trap.isSome
    let r := s.recOf ck 6 0x15 ((c.issueAddr level).getD 0) (BitVec.ofNat 64 code) (c.frontAt level).live (causeWord 0x15 0 0)
    let s := s.setCtx ck { c with front := stop c.front, waiting := [], trap := c.trap.map fun t => { t with dead := true, front := stop t.front } }
    (s.countUnc 7).fatal (s.wgOf ck).vfn r
def execRegisterParityError (s : State) : Out := .next (s.parityError s.args.id s.args.num)

/-! ## Reclassification (R73) -/

/-- Copies of a physical range leave every L1, dirty words written back; Us and Uw ones stay where only a flush asks (R60, R348). Its words come to N with u = 0,
except those in Z. -/
def State.clearRange (s : State) (pa n : Nat) (untracked : Bool) : State :=
  let inside (w : Nat) : Bool := pa ≤ 4 * w && 4 * w < pa + n
  let held := Tab.filter s.l1 fun k x => inside (k % 2 ^ 46) && (untracked || !(x.st = .us || x.st = .uw))
  let s := held.foldl (fun (t : State) (k, x) => if x.st = .us || x.st = .uw then t.setL1 (k / 2 ^ 46) (k % 2 ^ 46) {} else t.l1GiveUp (k / 2 ^ 46) (k % 2 ^ 46) x .inval) s
  { s with dir := Tab.filter s.dir fun w d => !inside w || d.mode = .z || d.busy.isSome }
def State.rangeBusy (s : State) (pa n : Nat) : Bool := s.dir.any fun (w, d) => pa ≤ 4 * w && 4 * w < pa + n && d.busy.isSome
/-- The entry names the class shared. -/
def State.writeShared (s : State) (leaf : Nat) : State := s.homeWrite 0 leaf (bytesLE 8 ((s.peekDWord leaf) &&& ~~~(0xC : DWord)).toNat)
/-- At the end of the unit's time the accesses to the page that are still under way go on as accesses to a shared page, with requests of their own. -/
def State.reclassAccs (s : State) (t : Tlb) : State :=
  let inside (e : Elem) : Bool := !e.done && (match e.place with | .mem pa c _ => c ≠ 0 && t.pa ≤ pa && pa < t.pa + 2 ^ t.bits | .cist _ _ => false)
  let gone := ((Tab.vals s.accs).flatMap fun (a : Acc) => (a.elems.filter inside).map (·.req)).filter (· ≠ 0)
  let late := Tab.keys (Tab.filter s.accs fun _ (a : Acc) => a.elems.any inside)
  let fix (e : Elem) : Elem :=
    let e := if inside e then { e with place := match e.place with | .mem pa _ own => .mem pa 0 own | p => p } else e
    if gone.contains e.req then { e with req := 0 } else e
  let s := s.dropReqs fun r => gone.contains r.id
  let s := { s with accs := Tab.mapVals s.accs fun _ (a : Acc) => { a with elems := a.elems.map fix } }
  late.foldl (fun t k => t.pushOnce .flagCountDown { id := k }) s
/-- RECLASSIFICATION: the unit serves one page at a time. The page is busy until no access that used its translation is under way, at most 32,768 cycles for each
64 KiB; then it is shared (R73, R385) (DEDUCED, log 72). -/
def State.reclassify (s : State) (vfn va : Nat) : State :=
  match s.walk vfn va, s.leafAt vfn va with
  | .ok t, some (leaf, _) =>
    if t.cls = 0 then (s.dropTlb (fun _ => true) (fun _ => true) fun x => x.covers vfn va && x.cls ≠ 0).releasePage vfn t.va
    else if s.vfs.any fun (k, v) => v.busyPages.any fun a => k ≠ vfn || a ≠ t.va then s
    else
      let s := s.updVf vfn fun v => if v.busyPages.contains t.va then v else { v with busyPages := [t.va], busyDue := s.clock + 32768 * (2 ^ t.bits / 65536) }
      if s.clock < (s.vf vfn).busyDue && (s.usersOf (fun _ => true) [t]).any s.stillUses then s
      else
        let s := ((s.reclassAccs t).clearRange t.pa (2 ^ t.bits) true).writeShared leaf
        (s.dropTlb (fun _ => true) (fun _ => true) fun x => x.covers vfn va).releasePage vfn t.va
  | _, _ => (s.dropTlb (fun _ => true) (fun _ => true) fun x => x.covers vfn va).releasePage vfn va
def execReclassification (s : State) : Out := .next (s.reclassify s.args.id s.args.v.toNat)

/-! ## The host as an agent (R71, R384) -/

/-- Whether the home keeps directory state for a line: pages that programs map only private or read-only have none. -/
def State.tracked (s : State) (pa : Nat) : Bool := s.mapped pa (· = 0) || !s.mapped pa (· ≠ 0)
/-- The host's part in the directory for one word: as a reader, or as a writer. -/
def State.hostTakes (s : State) (kind : ReqKind) (w : Nat) : State :=
  let d := s.dirWord w
  if d.mode = .z then s
  else
    let s := (recallsOf kind 12 d).foldl (fun (t : State) h => if h = 12 then t else t.holderGiveUp h w kind.giveUp) s
    s.setDir w (dirAfter kind 12 (s.dirWord w))
/-- Whether a page in reclassification lies on a physical address: every agent's access to it waits (R73). -/
def State.physBusy (s : State) (pa : Nat) : Bool := s.vfs.any fun (k, v) => v.busyPages.any fun a => match s.walk k a with
  | .ok t => t.pa ≤ pa && pa < t.pa + 2 ^ t.bits
  | _ => false
/-- HOST_CXL_MEM_READ of the 64-byte half at v: one byte that says whether the data is poisoned, and the data (DESIGN CHOICE, log 73). -/
def State.hostRead (s : State) (a : Nat) : State :=
  let a := a / 64 * 64
  let ws := iota (a / 4) 16
  if physRange a ≠ .tier then s
  else if s.physBusy a || s.hostHeld ws then s.hostAgain .hostCxlMemRead ws
  else
    let s := s.llcUse (a / 128) false
    let s := if s.tracked a then ws.foldl (fun t w => t.hostTakes .rdT w) s else s
    if s.anyZ a 64 then
      let (bs, t) := s.freeBytes 64
      { t with answer := 1 :: bs }
    else { s with answer := 0 :: Memory.readN s.mem a 64 }
/-- HOST_CXL_MEM_WRITE of bytes at v, within a 64-byte half, of which the host takes ownership (R71): data for a word in Z is dropped. -/
def State.hostWrite (s : State) (a : Nat) (bs : List Byte) : State :=
  let bs := bs.take (64 - a % 64)
  let ws := iota (a / 64 * 16) 16
  if physRange a ≠ .tier || bs.isEmpty then s
  else if s.physBusy a || s.hostHeld ws then s.hostAgain .hostCxlMemWrite ws
  else
    let s := s.llcUse (a / 128) false
    let s := if s.tracked a then ws.foldl (fun t w => t.hostTakes .rdO w) s else s
    let s := s.clearResvOthers (a / 128) none
    { s with mem := Memory.writeSome s.mem a bs fun b => (s.dirWord (b / 4)).mode ≠ .z, answer := [] }
def execHostCxlMemRead (s : State) : Out := .next (if s.reached then s.hostRead s.args.v.toNat else s)
/-- A write may move the read pointer of a trap queue. -/
def execHostCxlMemWrite (s : State) : Out :=
  .next (if s.reached then
      let t := s.hostWrite s.args.v.toNat s.args.bytes
      (Tab.keys (Tab.filter t.vfs fun _ v => v.tqEn)).foldl (fun (u : State) v =>
        (if u.tqRd v = s.tqRd v then u else u.pushOnce .trapQueueLogCopy { id := v }).tqScan v) t
    else s)
/-- HOST_CXL_CACHE_SNOOP of the 64-byte host line at v: the device's copies are invalidated (on), or kept as shared, dirty words written
back first. The bytes are what the host itself stores there once no device copy is left (R345). -/
def State.hostSnoop (s : State) (a : Nat) (inval : Bool) (bs : List Byte) : State :=
  let ws := iota (a / 64 * 16) 16
  if physRange a ≠ .host then s
  else if ws.any fun w => (s.dirWord w).busy.isSome then s.push .hostCxlCacheSnoop s.args
  else
    let how : GiveUp := if inval then .inval else .keepS
    let s := ws.foldl (fun t w =>
      let hs := match (t.dirWord w).mode with | .t l => if inval then l else [] | .x o => [o] | _ => []
      let t := hs.foldl (fun (u : State) h => u.holderGiveUp h w how) t
      t.setDir w { t.dirWord w with mode := if inval then .n else (match (t.dirWord w).mode with | .x o => .t [o] | m => m) }) s
    if inval then { s with mem := Memory.writeN s.mem a (bs.take (64 - a % 64)) } else s
def execHostCxlCacheSnoop (s : State) : Out := .next (if s.reached then s.hostSnoop s.args.v.toNat s.args.on s.args.bytes else s)

/-! ## The sump (R108) -/

/-- What the accesses of one merged request have in common: the line or block, policy, scope, direction and page class. -/
def State.sumpKey (s : State) (x : Nat × Nat) : Option (Nat × Policy × Scope × Bool × Nat) :=
  (s.sumpElem x).bind fun (a, e) => if e.done then none else some (e.block, a.pol, a.scope, a.isLoad, e.cls)
def State.setElem (s : State) (x : Nat × Nat) (f : Elem → Elem) : State := s.updAcc x.1 fun a => { a with elems := updNth a.elems x.2 f }
/-- The accesses to one line or block leave the window (R89, R108, R293): what the scratchpad or the core's copies serve is performed, in the order of
arrival; the others go in one request, whose span covers all that the lanes name in the line (R59). One that an older access of its lane holds up goes by itself
later, and so does every higher lane of its instruction that names a byte of it (R84). -/
def State.sumpLeave (s : State) (xs : List (Nat × Nat)) : State :=
  let named := xs.filterMap fun x => (s.sumpElem x).map (·.2)
  let (s, miss, _) := xs.foldl (fun (acc : State × List ((Nat × Nat) × Acc × Elem) × List (Nat × List Nat)) x =>
    let (t, miss, stay) := acc
    match t.sumpElem x with
    | none => acc
    | some (a, e) =>
      let now := (match e.place with | .cist _ _ => true | .mem _ _ _ => t.hits a.core e (t.kindOf a.pol a.scope e) && t.matesHit a e)
      if e.done || e.req ≠ 0 then acc
      else if t.held a e || (stay.any fun (k, us) => k = a.id && e.touches us) then (t, miss, stay ++ [(a.id, e.units)])
      else if now && !e.touches (miss.flatMap fun y => y.2.2.units) then
        let (u, e1) := t.perform a e false
        (u.setElem x fun _ => e1, miss, stay)
      else (t, miss ++ [(x, a, e)], stay)) (s, ([] : List ((Nat × Nat) × Acc × Elem)), ([] : List (Nat × List Nat)))
  match miss with
  | [] => s
  | (_, a0, e0) :: _ =>
    let es := miss.map fun y => y.2.2
    let kind := s.kindOf a0.pol a0.scope e0
    (s.spans { a0 with elems := named } kind (e0.pa / 128) es).foldl (fun t span =>
      let (id, t) := t.inject a0 kind (e0.pa / 128) span e0.cls
      let names (e : Elem) : Bool := e.memWords.any fun w => span.contains w
      (miss.filter fun y => names y.2.2 || (y.2.2.isStore && miss.any fun z => z.2.1.id = y.2.1.id && z.2.2.lane = y.2.2.lane && names z.2.2)).foldl
        (fun (u : State) y => u.setElem y.1 fun e => if e.req = 0 then { e with req := id } else e) t) s
/-- SUMP_WINDOW_CLOSE: after 32 cycles, or with 64 lines pending, the oldest window closes, and its requests leave in the order of each line's first arrival
(DEDUCED, log 34). -/
def State.sumpClose (s : State) (core : Nat) : State :=
  match (s.core core).sump with
  | [] => s
  | (o, l) :: rest =>
    if s.clock < o + 32 && (s.sumpBlocks l).length < 64 then s
    else
      let s := s.updCore core fun c => { c with sump := rest }
      let s := l.foldl (fun t x => t.setElem x fun e => { e with sump := false }) s
      let s := ((l.filterMap s.sumpKey).eraseDups).foldl (fun t k => t.sumpLeave (l.filter fun x => s.sumpKey x = some k)) s
      ((l.map (·.1)).eraseDups).foldl (fun t k => t.pushOnce .flagCountDown { id := k }) s
def execSumpWindowClose (s : State) : Out := .next (s.sumpClose s.args.id)

end Sys2Proof.Machine
end

