-- ==== Sys2Proof/Machine/Pipe.lean ====
section
/-! DEFINITION. The happenings of the issue logic: fetch (R34, R148), write-back (R302), completion (R79, R199, R305), the turns of a group
(R18, R20) and trap level (R287, R288). -/
namespace Sys2Proof.Machine

def execIssueCycle (s : State) : Out := .next (issueCycle s)

/-! ## Fetch -/

/-- Words of a line, read from the instruction cache, else at home untracked, as far as the line is intact. All of them are read at one moment, so that the two
words of an extended instruction mix old and new only across a line's end, or where one of them was cached before (DESIGN CHOICE, log 128). -/
def State.fetchWords (s : State) (ck va pa cls n : Nat) : State :=
  match n with
  | 0 => s
  | k + 1 =>
    let core := s.coreOf ck
    let give (s : State) (w : DWord) : State := (s.updCtx ck fun c => { c with ibuf := Tab.put c.ibuf va w }).fetchWords ck (va + 8) (pa + 8) cls k
    match Tab.find? (s.core core).icache pa with
    | some w => give s w
    | none =>
      if s.anyZ pa 8 then s
      else
        let (bs, t) := s.fetchRead core pa cls 8
        let w := dwordOfBytes bs
        give (t.updCore core fun c => { c with icache := Tab.put c.icache pa w }) w
/-- INSTRUCTION_FETCH_FILL: the fetch slot of a context fills its buffer from an address on. A word in Z faults the fragment that waits for
it (R66) (DEDUCED, log 63). -/
def State.fetchFill (s : State) (ck : Nat) (va : DWord) : State :=
  if (Tab.find? s.ctxs ck).isNone || windowOf va ≠ .global || va.toNat % 8 ≠ 0 then s
  else
    let g := s.wgOf ck
    match s.chkFetch g.vfn g.core va with
    | .ok (.mem pa cls _) =>
      let core := s.core g.core
      if (Tab.find? core.icache pa).isNone && s.anyZ pa 8 then
        match [true, false].find? fun l => s.look ck l = .fetch va with
        | none => s
        | some level =>
          let f := s.front ck level
          let a := ((s.ctx ck).issueAddr level).getD va
          let (head, off) := f.inside a
          let z := if (s.dirWord (pa / 4)).mode = .z then 0 else 1
          s.trap ck level { cause := causeWord 0x15 (s.zDetail (pa / 4 + z)) off, addr := va + BitVec.ofNat 64 (4 * z), pc := head, lanes := f.at a, kind := .precise }
      else s.fetchWords ck va.toNat pa cls ((128 - pa % 128) / 8)
    | _ => s
def execInstructionFetchFill (s : State) : Out := .next (s.fetchFill s.args.id s.args.v)

/-! ## Results -/

/-- FIXED_LATENCY_WRITEBACK: what is due is written. -/
def execFixedLatencyWriteback (s : State) : Out := .next (s.settle s.args.id)
/-- A job goes on, and ends when what it waits for is done. -/
def State.runJob (s : State) (j : JobRec) : State :=
  let live (k : Nat) : Bool := (s.job k).isSome
  match j.job with
  | .tld t addr stride rows rb row sp pol => s.tldRow j t addr stride rows rb row sp pol
  | .tst src addr stride rows rb row pol => s.tstRow j src addr stride rows rb row pol
  | .trdy waits => if waits.any live then s else (s.updWg (j.ctx / 32) fun g => g.settleTiles j.ctx j.id).endJob j.id
  | .twait ac waits => if (s.wgOf j.ctx).mq.any fun q => waits.contains q.id then s else (s.twaitDone j ac waits).endJob j.id
  | .tlbinv waits => s.tlbinvDone j.id waits
  | .icinv sc lo n all => s.icinvDone j sc lo n all
  | .reqs ids => if ids.any fun k => (s.req k).isSome then s else s.endJob j.id
  | .collw op rank sd => s.collwDone j op rank sd
  | .stream q _ c p pm stopped => if stopped then s else s.runNext j q c p pm
  | .streamOp _ => s.endNext j
  | .streamWait _ => if s.stillThere j then s else s.endJob j.id
/-- FLAG_COUNT_DOWN: an access or a job moves on; when it is complete, its flag counts down. -/
def State.moveOn (s : State) (id : Nat) : State :=
  match s.acc id, s.job id with
  | some _, _ => (s.advance id).complete id
  | none, some j => s.runJob j
  | none, none => s
def execFlagCountDown (s : State) : Out := .next (s.moveOn s.args.id)

/-! ## Turns and trap level -/

/-- FAIRNESS_TURN: the turn that ISSUED = LIMIT brought starts, once no LR window is open (R20). -/
def execFairnessTurn (s : State) : Out :=
  .next (let c := s.ctx s.args.id
    if c.deferred && c.lrWin.isNone then s.updCtx s.args.id fun c => { c.startTurn with deferred := false } else s)
/-- TRAP_ENTRY_DEFERRED: the fragment that trapped first of those that wait enters trap level; if the workgroup has no handler any more, a
fatal record is written and its lanes stay parked (R286). -/
def State.enterNext (s : State) (ck : Nat) : State :=
  let c := s.ctx ck
  match c.trap, c.waiting with
  | none, r :: rest =>
    let s := s.updCtx ck fun c => { c with waiting := rest }
    if (s.wgOf ck).trapbase = 0 then
      s.fatal (s.wgOf ck).vfn (s.recOf ck 6 (r.cause.extractLsb' 0 8).toNat r.pc r.addr r.lanes r.cause)
    else s.enterTrap ck r
  | _, _ => s
def execTrapEntryDeferred (s : State) : Out := .next (s.enterNext s.args.id)
/-- TRAP_LEVEL_TIMEOUT (R288). -/
def execTrapLevelTimeout (s : State) : Out :=
  .next (s.updCtx s.args.id fun c => { c with trap := c.trap.map fun t => if s.clock - t.entered ≥ 65536 then { t with demoted := true } else t })

end Sys2Proof.Machine
end

