-- ==== Sys2Proof/Machine/HostRegs.lean ====
section
/-! DEFINITION. The host's registers: writes that only set one (R342, R349, R352, R369), the duty split (R351), invalidations (R348), format
windows (R349, R350), power caps and tokens (R110, R373 to R375), persisting boundaries (R51 to R53), and islands (R376). -/
namespace Sys2Proof.Machine

def State.liveGrids (s : State) (vfn : Nat) : Bool := s.grids.any fun (_, g) => g.vfn = vfn

/-! ## REGISTER_WRITE -/

/-- Which registers of a virtual function's page have no behaviour of their own. -/
inductive VfReg where
  | trapbase | ptbase | invaddr | tqbase | tqctl | tqlog | fpbase | fplimit | fplow | fpstep | zpbase | zpcnt | savebase | savesize
  deriving DecidableEq, Repr
def VfReg.ofOffset (o : Nat) : Option VfReg :=
  match o with
  | 0x020 => some .trapbase
  | 0x028 => some .ptbase
  | 0x030 => some .invaddr
  | 0x040 => some .tqbase
  | 0x048 => some .tqctl
  | 0x058 => some .tqlog
  | 0x060 => some .fpbase
  | 0x068 => some .fplimit
  | 0x080 => some .fplow
  | 0x088 => some .fpstep
  | 0x098 => some .zpbase
  | 0x0A0 => some .zpcnt
  | 0x0A8 => some .savebase
  | 0x0B0 => some .savesize
  | _ => none
/-- A register's rule: a write that breaks it is ignored (DEDUCED, log 80). -/
def VfReg.ok (r : VfReg) (v : Vf) (live : Bool) (x : DWord) : Bool :=
  match r with
  | .trapbase => x.toNat % 8 = 0
  | .ptbase => x.toNat % 8192 = 0
  | .invaddr | .tqlog | .fplow | .zpbase | .zpcnt => true
  | .tqbase => !v.tqEn && x.toNat % 64 = 0 && windowOf x = .global
  | .tqctl =>
    let log := (x.extractLsb' 0 5).toNat
    x.extractLsb' 32 32 = 0 && x.extractLsb' 5 26 = 0 && (if x.getLsbD 31 then !v.tqEn && 4 ≤ log && log ≤ 16 else log ≤ 16)
  | .fpbase => !live && x.toNat % 0x10000 = 0 && windowOf x = .global
  | .fplimit | .savebase => !live && x.toNat % 0x10000 = 0
  | .fpstep => x.toNat % 0x10000 = 0
  | .savesize => !live && x.toNat % 0x8000 = 0
def VfReg.set (r : VfReg) (v : Vf) (x : DWord) : Vf :=
  match r with
  | .trapbase => { v with trapbase := x }
  | .ptbase => { v with ptbase := x }
  | .invaddr => { v with invaddr := x }
  | .tqbase => { v with tqbase := x }
  | .tqctl => { v with tqctl := x }
  | .tqlog => { v with tqlog := x }
  | .fpbase => { v with fpbase := x }
  | .fplimit => { v with fplimit := x }
  | .fplow => { v with fplow := x }
  | .fpstep => { v with fpstep := x }
  | .zpbase => { v with zpbase := x }
  | .zpcnt => { v with zpcnt := x }
  | .savebase => { v with savebase := x }
  | .savesize => { v with savesize := x }
/-- What a written register may bring about: the pool may grow, and requests that waited for the queue are tried. -/
def State.vfWritten (s : State) (vfn : Nat) (r : VfReg) : State :=
  match r with
  | .fplimit | .fplow | .fpstep => s.pushOnce .framePoolRefill { id := vfn }
  | .tqctl => s.tqRetry vfn ((s.vf vfn).opens.length + 1)
  | _ => s
def State.vfWrite (s : State) (vfn off : Nat) (x : DWord) : State :=
  match VfReg.ofOffset off with
  | none => s
  | some r => if r.ok (s.vf vfn) (s.liveGrids vfn) x then (s.updVf vfn fun v => r.set v x).vfWritten vfn r else s
/-- ROOTCTL and VFSTAT as the host reads them (R342, R352). -/
def Vf.rootctl (v : Vf) : DWord := BitVec.ofNat 64 (v.rootq.length + if v.rootDrop then 256 else 0)
def Vf.vfstat (v : Vf) : DWord :=
  BitVec.ofNat 64 ((if v.quiesced then 1 else 0) + (if v.latched then 2 else 0) + if v.opens.any fun (o : Open) => o.index.isNone then 4 else 0)
/-- What an offset of a virtual function's page reads (R342, R352): zero where no register that reads stands. -/
def State.vfRead (s : State) (vfn off : Nat) : DWord :=
  let v := s.vf vfn
  match off with
  | 0x008 => v.rootstat
  | 0x010 => v.rootctl
  | 0x018 => v.dutysel.setWidth 64
  | 0x020 => v.trapbase
  | 0x028 => v.ptbase
  | 0x030 => v.invaddr
  | 0x038 => v.invctl
  | 0x040 => v.tqbase
  | 0x048 => v.tqctl
  | 0x058 => v.tqlog
  | 0x060 => v.fpbase
  | 0x068 => v.fplimit
  | 0x070 => v.fpact
  | 0x078 => BitVec.ofNat 64 v.fpfree
  | 0x080 => v.fplow
  | 0x088 => v.fpstep
  | 0x098 => v.zpbase
  | 0x0A0 => v.zpcnt
  | 0x0A8 => v.savebase
  | 0x0B0 => v.savesize
  | 0x0B8 => v.vfstat
  | _ =>
    if off % 8 ≠ 0 then 0
    else if 0x0C0 ≤ off && off < 0x100 then v.fatalrec.extractLsb' (64 * ((off - 0x0C0) / 8)) 64
    else if 0x100 ≤ off && off < 0x140 then nth 0 v.retcnt ((off - 0x100) / 8)
    else 0
/-- What an offset of the physical function's page reads (R349, R351, R369, R373). -/
def State.pfRead (s : State) (off : Nat) : DWord :=
  let p := s.pf
  match off with
  | 0x018 => p.dutysel.setWidth 64
  | 0x800 => p.mbaddr
  | 0x808 => p.mblen
  | 0x818 => p.mbstat
  | 0x900 => p.pwrctl
  | 0x908 => p.tokrate
  | 0x910 => p.tokcap
  | 0x918 => p.toklevel
  | 0x920 => p.tokgrant
  | 0x928 => p.fencecnt
  | 0x930 => p.fencelast
  | 0xA80 => p.lostline
  | _ =>
    if off % 8 ≠ 0 then 0
    else if 0xA00 ≤ off && off < 0xA80 then nth 0 (if off % 16 = 0 then p.errcorr else p.errunc) ((off - 0xA00) / 16)
    else if 0xB00 ≤ off && off < 0xC00 then nth 0 p.islstat ((off - 0xB00) / 8)
    else if 0x1000 ≤ off && off < 0x1200 then
      let w := nth {} p.fw ((off - 0x1000) / 0x20)
      match off % 0x20 with | 0x00 => w.data | 0x08 => w.size | 0x10 => w.scale | _ => w.ctl
    else 0
def fwIdle (w : FmtWin) : Bool := !w.ctl.getLsbD 0 && !w.ctl.getLsbD 31
/-- The physical function's page: the mailbox's buffer, and the ranges of the format windows. -/
def State.pfWrite (s : State) (off : Nat) (x : DWord) : State :=
  if off = 0x800 then if x.toNat % 64 = 0 then s.updPf fun p => { p with mbaddr := x } else s
  else if off = 0x808 then s.updPf fun p => { p with mblen := x }
  else if 0x1000 ≤ off && off < 0x1200 then
    let n := (off - 0x1000) / 0x20
    let w := nth {} s.pf.fw n
    let range := x.extractLsb' 48 16 = 0 && x.toNat % 128 = 0
    let put (w : FmtWin) : State := s.updPf fun p => { p with fw := setNth p.fw n w }
    if !fwIdle w then s
    else match off % 0x20 with
      | 0x00 => if range then put { w with data := x } else s
      | 0x08 => if range then put { w with size := x } else s
      | 0x10 => if x.extractLsb' 48 16 = 0 then put { w with scale := x } else s
      | _ => s
  else s
/-- Whether the physical function, or a virtual one, answers an access to its page. -/
def State.pageAnswers (s : State) (pf : Bool) : Bool := if pf then s.reached else s.answers
/-- REGISTER_WRITE of v at offset num, of virtual function id, or (on) of the physical function. The host's read of a register is the access of this kind
whose list is not empty: nothing is written, and the answer is what the register reads (DESIGN CHOICE, log 126). -/
def execRegisterWrite (s : State) : Out :=
  .next (if !s.pageAnswers s.args.on then s
    else if !s.args.list.isEmpty then { s with answer := bytesLE 8 (if s.args.on then s.pfRead s.args.num else s.vfRead s.args.id s.args.num).toNat }
    else if s.args.on then s.pfWrite s.args.num s.args.v
    else s.vfWrite s.args.id s.args.num s.args.v)

/-! ## DUTYSEL (R351) -/

/-- Bit 7 is the physical function's own, and reads so in every virtual function. -/
def execDutyselWrite (s : State) : Out :=
  let v := s.args.v
  let w : Word := v.setWidth 32
  .next (if !s.answers || v.extractLsb' 8 56 ≠ 0 then s
    else if s.args.on then
      { (s.updPf fun p => { p with dutysel := w }) with vfs := Tab.mapVals s.vfs fun _ x => { x with dutysel := (x.dutysel &&& 0x7F) ||| (w &&& 0x80) } }
    else s.updVf s.args.id fun x => { x with dutysel := (w &&& 0x7F) ||| (s.pf.dutysel &&& 0x80) })

/-! ## INVCTL (R348) -/

/-- A write in one mode: it starts an invalidation, unless one is under way. -/
def State.invStart (s : State) (vfn mode : Nat) (v : DWord) : State :=
  let x := s.vf vfn
  let len := (v.extractLsb' 0 32).toNat
  if !s.answers || x.invctl.getLsbD 63 || (v.extractLsb' 32 2).toNat ≠ mode || v.extractLsb' 35 28 ≠ 0 || (mode = 1 && len = 0) then s
  else
    let range := if mode = 0 then some (x.invaddr.toNat, 1) else if mode = 1 then some (x.invaddr.toNat, len) else none
    let held := ((s.tlbsOf (fun _ => true) (fun _ => true) fun e => e.meets vfn range).map fun e => (e.pa, 2 ^ e.bits)).eraseDups
    let (ws, t) := s.invalidate .pkg 0 vfn range
    (t.updVf vfn fun y => { y with invpages := held, invctl := v ||| 0x8000000000000000, invat := x.invaddr, invwaits := ws }).pushOnce .invctlComplete { id := vfn }
def execInvctlPage (s : State) : Out := .next (s.invStart s.args.id 0 s.args.v)
def execInvctlRange (s : State) : Out := .next (s.invStart s.args.id 1 s.args.v)
def execInvctlVf (s : State) : Out := .next (s.invStart s.args.id 2 s.args.v)
/-- The physical pages that an invalidation covers, found in the tables whether or not their entries are valid, and those that a removed translation named,
which a host's answer may have given without any table (R348, R360). -/
def State.coveredPages (s : State) (vfn : Nat) : List (Nat × Nat) :=
  let x := s.vf vfn
  let lo := x.invat.toNat
  let n := if (x.invctl.extractLsb' 32 2).toNat = 0 then 1 else (x.invctl.extractLsb' 0 32).toNat
  let all := (x.invctl.extractLsb' 32 2).toNat = 2
  let found : List (Nat × Nat × DWord) := (s.leavesOf vfn true).filter fun (va, bits, _) => all || (va < lo + n && lo < va + 2 ^ bits)
  let pages : List (Nat × Nat) := found.map fun (_, bits, e) => (leafPa e, 2 ^ bits)
  (pages ++ x.invpages).eraseDups
/-- INVCTL_COMPLETE: nothing holds a removed translation, and any flush is done. -/
def State.invDone (s : State) (vfn : Nat) : State :=
  let x := s.vf vfn
  let flush := x.invctl.getLsbD 34
  let ps := if flush then s.coveredPages vfn else []
  if !x.invctl.getLsbD 63 || x.invwaits.any s.stillUses || ps.any fun (pa, n) => s.rangeBusy pa n then s
  else
    let s := ps.foldl (fun t (pa, n) => t.clearRange pa n false) s
    s.updVf vfn fun y => { y with invctl := y.invctl &&& 0x7FFFFFFFFFFFFFFF, invwaits := [], invpages := [] }
def execInvctlComplete (s : State) : Out := .next (s.invDone s.args.id)

/-! ## FWCTL (R349, R350) -/

/-- A physical range that lies wholly in one tier. -/
def inTier (a n : Nat) : Bool := n = 0 || (a + n ≤ 0x004000000000) || (0x010000000000 ≤ a && a + n ≤ 0x0D0000000000)
/-- Whether an enable is refused. -/
def State.fwRefuses (s : State) (n fmt : Nat) : Bool :=
  let w := nth {} s.pf.fw n
  let sc := w.size.toNat / blockBytes fmt
  fmt = 3 || !inTier w.data.toNat w.size.toNat || !inTier w.scale.toNat sc ||
  (List.range 16).any fun k =>
    let x := nth {} s.pf.fw k
    (k = n || x.ctl.getLsbD 0) && x.data.toNat < w.scale.toNat + sc && w.scale.toNat < x.data.toNat + x.size.toNat
/-- FWCTL_WRITE of v to window num (DEDUCED, log 79). -/
def State.fwWrite (s : State) (n : Nat) (v : DWord) : State :=
  let w := nth {} s.pf.fw n
  let put (w : FmtWin) : State := s.updPf fun p => { p with fw := setNth p.fw n w }
  let new := v &&& 7
  if n ≥ 16 || w.ctl.getLsbD 31 then s
  else if v.getLsbD 0 && s.fwRefuses n (v.extractLsb' 1 2).toNat then put { w with ctl := w.ctl ||| 0x40000000 }
  else
    let err : DWord := if v.getLsbD 0 then 0 else w.ctl &&& 0x40000000
    if w.ctl &&& 7 = new then put { w with ctl := new ||| err }
    else { (put { w with ctl := (w.ctl &&& 7) ||| err ||| 0x80000000, next := new ||| err, change := s.ids }) with
      ids := s.ids + 1, agenda := s.agenda ++ [{ what := .formatWindowChangeDone, args := { id := n } }] }
def execFwctlWrite (s : State) : Out := .next (if s.answers then s.fwWrite s.args.num s.args.v else s)
/-- FORMAT_WINDOW_CHANGE_DONE: once home serves no request to them, the lines are written back and invalidated in the last-level cache, and the change
applies. The lines of the scale region, which the cache does not hold while the window is enabled (R56), leave it too. -/
def execFormatWindowChangeDone (s : State) : Out :=
  let w := nth {} s.pf.fw s.args.id
  let gone (line : Nat) : Bool := (w.data.toNat ≤ line * 128 + 127 && line * 128 < w.data.toNat + w.size.toNat) || w.scaleLine w.next line || w.scaleLine w.ctl line
  .next (if w.ctl.getLsbD 31 && !s.rangeBusy w.data.toNat w.size.toNat then (s.llcDrop gone).updPf fun p => { p with fw := setNth p.fw s.args.id { w with ctl := w.next } } else s)

/-! ## Power (R110, R374, R375) -/

def pwrctlOk (v : DWord) : Bool :=
  let cap := (v.extractLsb' 16 12).toNat
  v.extractLsb' 28 35 = 0 && v.extractLsb' 0 16 = 0 && (!v.getLsbD 63 || (400 ≤ cap && cap ≤ 3200))
def hostPower (p : Pf) : Bool := p.dutysel.getLsbD 7
/-- A write that sets EN in hardware PWR mode, as it is then, brings the start figures at the next interval (R351, R375). -/
def execPwrctlWrite (s : State) : Out :=
  .next (if s.reached && pwrctlOk s.args.v then
      s.updPf fun p => { p with pwrctl := s.args.v, capStarts := p.capStarts || (s.args.v.getLsbD 63 && !p.pwrctl.getLsbD 63 && !hostPower p) }
    else s)
def execTokcapWrite (s : State) : Out :=
  .next (if s.reached && s.args.v.extractLsb' 20 44 = 0 && s.args.v ≠ 0 then s.updPf fun p => { p with tokcap := s.args.v } else s)
def execTokrateWrite (s : State) : Out :=
  .next (if s.reached && hostPower s.pf && s.args.v.extractLsb' 17 47 = 0 then s.updPf fun p => { p with tokrate := s.args.v } else s)
/-- The end of an interval: the refill, and then what was written to PWRCTL and TOKCAP. -/
def Pf.interval (p : Pf) : Pf :=
  let level := min (p.toklevel.toNat + p.tokrate.toNat) p.tokcapNow.toNat
  let en := p.pwrctl.getLsbD 63
  let cap := (p.pwrctl.extractLsb' 16 12).toNat
  let start := en && p.capStarts
  { p with
    toklevel := if start then p.tokcap else BitVec.ofNat 64 (min level p.tokcap.toNat)
    tokrate := if start then BitVec.ofNat 64 (98304 * cap / 3200) else p.tokrate
    tokcapNow := p.tokcap
    capped := en
    capStarts := false
    intervals := if start || (en && !p.capped) then 0 else p.intervals + 1 }
/-- TOKEN_REFILL. -/
def execTokenRefill (s : State) : Out :=
  let s := s.updPf Pf.interval
  let s := if s.pf.capped && !hostPower s.pf && s.pf.intervals % 64 = 0 && s.pf.intervals ≠ 0 then s.pushOnce .powerMeasure else s
  .next (if s.tokenq.isEmpty then s else s.pushOnce .tokenGrant)
/-- TOKEN_GRANT: to the workgroup that asked first. -/
def State.grantToken (s : State) : State :=
  match s.tokenq with
  | [] => s
  | wk :: rest =>
    let s := { s with tokenq := rest }
    let again (t : State) : State := if rest.isEmpty then t else t.pushOnce .tokenGrant
    if !s.capped then again (s.updWg wk fun g => { g with tokenAsked := false })
    else if s.pf.toklevel.toNat = 0 then { s with tokenq := wk :: rest }
    else again ((s.updWg wk fun g => { g with token := true, tokenAt := s.clock }).updPf fun p => { p with toklevel := p.toklevel - 1, tokgrant := p.tokgrant + 1 })
def execTokenGrant (s : State) : Out := .next s.grantToken
/-- POWER_MEASURE: what the device makes of its measurement is a free value (DESIGN CHOICE, log 89). -/
def execPowerMeasure (s : State) : Out :=
  .next (if s.pf.capped && !hostPower s.pf then let (v, t) := s.free 17; t.updPf fun p => { p with tokrate := v.setWidth 64 } else s)

/-! ## Persisting boundaries (R51 to R53) -/

/-- PERSIST_BOUNDARY_INTERVAL: in each slice the boundary moves toward the half of the sample that hit more often, or into changed bounds; the counts
clear, and a way that leaves the persisting side keeps its lines. -/
def State.boundary (s : State) (slice : Nat) : State :=
  let x := Tab.get {} s.llc slice
  let lo := s.persistMin
  let hi := s.persistMax
  let p := if x.p < lo then lo else if x.p > hi then hi else if x.up > x.down && x.p < hi then x.p + 1 else if x.down > x.up && x.p > lo then x.p - 1 else x.p
  { s with llc := Tab.set {} s.llc slice { x with p := p, up := 0, down := 0 } }
def execPersistBoundaryInterval (s : State) : Out := .next ((List.range 192).foldl (fun t k => t.boundary k) s)

/-! ## Islands (R376) -/

def islTemp (v : DWord) : Nat := (v.extractLsb' 40 8).toNat
def islMask : DWord := 0x0000FFFFFFFFF000
def State.setIsland (s : State) (n : Nat) (v : DWord) (low : Bool) : State :=
  s.updPf fun p => { p with islstat := setNth p.islstat n (v &&& islMask), throttled := setNth p.throttled n low }
/-- The module stands in standby: nothing is on its way any more (DESIGN CHOICE, log 87). -/
def State.powerDown (s : State) : State := { s with powered := false, running := false, linkUp := false, agenda := [], picks := [] }
def islFreq (v : DWord) : Nat := (v.extractLsb' 12 12).toNat
/-- THERMAL_THROTTLE of island id, with what its sensors report (v): at 100 °C its clock is lower than the island last reported, and stays low until its
temperature falls below 95 °C; no cycle count changes. At 110 °C the module powers down. -/
def execThermalThrottle (s : State) : Out :=
  let n := s.args.id
  let was := islFreq (nth 0 s.pf.islstat n)
  let low := nth false s.pf.throttled n
  .next (if islTemp s.args.v ≥ 110 then (s.setIsland n s.args.v true).powerDown
    else if (islTemp s.args.v ≥ 100 && (low || was = 0 || islFreq s.args.v < was)) || (islTemp s.args.v ≥ 95 && low && islFreq s.args.v ≤ was) then s.setIsland n s.args.v true
    else s)
/-- THERMAL_THROTTLE_END of island id, with what its sensors report: a lowered clock is restored below 95 °C. An island whose clock is not lowered reports what
it measures below 100 °C in the same way (DESIGN CHOICE, log 87). -/
def execThermalThrottleEnd (s : State) : Out :=
  let low := nth false s.pf.throttled s.args.id
  .next (if islTemp s.args.v < 95 || (!low && islTemp s.args.v < 100) then s.setIsland s.args.id s.args.v false else s)
def execThermalShutdown (s : State) : Out := .next (if islTemp s.args.v ≥ 110 then (s.setIsland s.args.id s.args.v true).powerDown else s)

end Sys2Proof.Machine
end

