-- ==== Sys2Proof/Machine/Boot.lean ====
section
/-! DEFINITION. Boot (R367, R368), the mailbox (R369 to R371), and the loader: the container (R323 to R328), the choice of an image (R330), its
relocation and placement (R297, R316, R333), and its admission (R331, R332, R372). -/
namespace Sys2Proof.Machine

/-! ## Byte strings -/

def bytesAt (bs : List Byte) (off n : Nat) : List Byte := (bs.drop off).take n
def natAt (bs : List Byte) (off n : Nat) : Nat := natOfBytes (bytesAt bs off n)
/-- A digest, most significant byte first. -/
def digestBytes (d : BitVec 384) : List Byte := (List.range 48).map fun i => d.extractLsb' (8 * (47 - i)) 8
/-- An extension of the attestation record (R370). -/
def extend (m : BitVec 384) (v : List Byte) : BitVec 384 := Config.sha384 (digestBytes m ++ v)

/-! ## The firmware image (R367, R368) -/

def imgBody (f : List Byte) : Nat := natAt f 16 8
def imgSvn (f : List Byte) : Nat := natAt f 12 4
def imgRev (f : List Byte) : Nat := natAt f 8 4
def imgDigest (f : List Byte) : BitVec 384 := Config.sha384 (f.take (64 + imgBody f))
/-- The header checks, and an image that is not all there. -/
def imgHeaderOk (f : List Byte) : Bool :=
  natAt f 0 4 = 0x33574D46 && natAt f 4 4 = 0 && Config.fusedSvn ≤ imgSvn f && 1 ≤ imgBody f && imgBody f ≤ 0x4000000 && natAt f 24 40 = 0 &&
  f.length = 64 + imgBody f + 384 + 16224
/-- The checks of the boot ROM: the header, and both signatures. -/
def imgOk (f : List Byte) : Bool :=
  imgHeaderOk f && Config.rsaVerifies Config.romRsaKey (imgDigest f) (bytesAt f (64 + imgBody f) 384) &&
  Config.slhVerifies Config.romSlhKey (imgDigest f) (f.drop (64 + imgBody f + 384))
/-- Run an image: M0 is extended first. -/
def State.runImage (s : State) (f : List Byte) : State :=
  { s.updPf (fun p => { p with m0 := extend p.m0 (digestBytes (imgDigest f)), mbstat := 0 }) with running := true, svn := imgSvn f, rev := imgRev f }
def hostBase : Nat := 0x800000000000
/-- MODULE_RESET: the boot ROM reads the flash. The flash and the host's own memory keep their contents (DEDUCED, log 82). -/
def State.boot (s : State) : State :=
  let t := { State.reset with flash := s.flash, mem := Tab.filter s.mem fun a _ => hostBase ≤ a, fresh := s.fresh, ids := s.ids }
  if imgOk t.flash then t.runImage t.flash else t
def execModuleReset (s : State) : Out := .next s.boot

/-! ## The mailbox -/

def State.mbStatus (s : State) (v : DWord) : State := s.updPf fun p => { p with mbstat := v }
def State.mbBusy (s : State) : Bool := s.pf.mbstat = 1
/-- The command buffer: host physical memory lies above 2^47 of the device's addresses (R342). -/
def State.mbAt (s : State) : Nat := hostBase + s.pf.mbaddr.toNat
def State.mbLen (s : State) : Nat := s.pf.mblen.toNat
def State.mbFits (s : State) : Bool := s.pf.mbaddr.toNat + s.mbLen ≤ hostBase

/-- The IMAGE command, as the host writes it: the buffer is read once (DEDUCED, log 81). -/
def State.imageStart (s : State) : State :=
  if !s.mbFits || s.mbLen < 64 || 64 + 0x4000000 + 384 + 16224 < s.mbLen then s.mbStatus 2
  else (s.updPf fun p => { p with mbstat := 1, mbimage := some (s.peekN s.mbAt s.mbLen) }).pushOnce .mailboxImage { on := true }
/-- The IMAGE command, as it ends: the image stands in flash, and runs at once where the ROM waited for it. -/
def State.imageEnd (s : State) (f : List Byte) : State :=
  let s := s.updPf fun p => { p with mbimage := none }
  if !imgOk f then s.mbStatus 3
  else
    let s := { s with flash := f }
    if s.running then s.mbStatus 0 else s.runImage f
/-- POWER_FAIL: a flash write in progress leaves a bad image. Only an image that passed its checks is written, and whether its write had begun is a free
value (DEDUCED, log 81). -/
def execPowerFail (s : State) : Out :=
  let writes := match s.pf.mbimage with | some f => imgOk f | none => false
  let (v, t) := s.free 1
  .next (if writes then ({ t with flash := if v = 1 then [] else t.flash } : State).powerDown else s.powerDown)
/-- MAILBOX_IMAGE: the host's write, or (on) the end of the command. -/
def execMailboxImage (s : State) : Out :=
  .next (if s.args.on then (match s.pf.mbimage with | some f => s.imageEnd f | none => s)
    else if s.reached && !s.mbBusy then s.imageStart else s)
/-- What a quote says: the nonce, REV, SVN, M0, M1, LM and LOADS. -/
def State.quoteFields (s : State) (vfn : Nat) (nonce : List Byte) : List Byte :=
  nonce ++ bytesLE 4 s.rev ++ bytesLE 4 s.svn ++ digestBytes s.pf.m0 ++ digestBytes s.pf.m1 ++ digestBytes (s.vf vfn).lm ++ bytesLE 8 (s.vf vfn).loads.toNat
/-- A quote: 192 bytes of fields, an RSA-3072 signature of 384 bytes and an SLH-DSA one of 16,224 (R367, R370). -/
def State.quoteBytes (s : State) (vfn : Nat) (nonce : List Byte) : List Byte :=
  let fs := s.quoteFields vfn nonce
  let d := Config.sha384 fs
  fs ++ (List.range 384).map (Config.quoteRsa d) ++ (List.range 16224).map (Config.quoteSlh d)
def State.quote (s : State) : State :=
  let vfn := natOfBytes (s.peekN s.mbAt 4)
  let out := s.quoteBytes vfn (s.peekN (s.mbAt + 4) 32)
  if !s.mbFits || s.mbLen < 36 || s.mbLen < out.length || 512 ≤ vfn then s.mbStatus 2
  else ({ s with mem := Memory.writeN s.mem s.mbAt out }).mbStatus 0
/-- MAILBOX_QUOTE: the firmware answers. -/
def execMailboxQuote (s : State) : Out := .next (if s.answers && !s.mbBusy then s.quote else s)
/-- The rules of a KEYSET buffer (R371). -/
def keysetOk (b : List Byte) : Bool :=
  natAt b 0 4 < 512 && natAt b 4 4 < 16 && natAt b 8 4 < 2 && natAt b 12 4 = 0 && natAt b 0x1C0 64 = 0 &&
  (if natAt b 8 4 = 0 then (nth 0 b 0x10).getLsbD 7 else natAt b 0x10 (384 + 48) = 0)
def State.keyInUse (s : State) (vfn key : Nat) : Bool := (s.vf vfn).objects.any fun (o : Object) => o.keys.contains key
def State.keyset (s : State) : State :=
  let b := s.peekN s.mbAt 512
  let vfn := natAt b 0 4
  let key := natAt b 4 4
  let empty := natAt b 8 4 = 1
  let rsan := bytesAt b 0x10 384
  let slhpk := bytesAt b 0x190 48
  if s.mbLen ≠ 512 || !s.mbFits || !keysetOk b || s.keyInUse vfn key then s.mbStatus 2
  else
    let d := if empty then List.replicate 48 0 else digestBytes (Config.sha384 (rsan ++ slhpk))
    let s := s.updVf vfn fun v => { v with keys := if empty then Tab.erase v.keys key else Tab.put v.keys key ⟨rsan, slhpk⟩ }
    s.updPf fun p => { p with m1 := extend p.m1 (bytesLE 4 key ++ bytesLE 4 vfn ++ d), mbstat := 0 }
def execMailboxKeyset (s : State) : Out := .next (if s.answers && !s.mbBusy then s.keyset else s)
def execMailboxUnknownCommand (s : State) : Out := .next (if s.reached && !s.mbBusy then s.mbStatus 2 else s)

/-! ## The container (R323 to R326) -/

structure Section where
  (ix : Nat) (type : Nat) (load exec write bind ro pers : Bool) (rest image align off len voff : Nat)
  deriving DecidableEq, Repr
def sectionAt (o : List Byte) (at' ix : Nat) : Section :=
  let e := bytesAt o (at' + 32 * ix) 32
  let f := natAt e 2 2
  { ix := ix, type := natAt e 0 2, load := f.testBit 0, exec := f.testBit 1, write := f.testBit 2, bind := f.testBit 3, ro := f.testBit 4
    pers := f.testBit 5, rest := f / 64 + natAt e 6 2, image := natAt e 4 1, align := natAt e 5 1, off := natAt e 8 8, len := natAt e 16 8, voff := natAt e 24 8 }
def objFat (o : List Byte) : Bool := (natAt o 6 2).testBit 0
def objSize (o : List Byte) : Nat := natAt o 0x18 8
def objSections (o : List Byte) : List Section := (List.range (natAt o 8 4)).map (sectionAt o (natAt o 0x10 8))
/-- The header checks; an object of which SIZE bytes are not there fails them. -/
def objHeaderOk (o : List Byte) : Bool :=
  natAt o 0 4 = 0x4158424D && natAt o 4 2 = 1 && natAt o 6 2 / 2 = 0 && 1 ≤ natAt o 8 4 && natAt o 8 4 ≤ 4096 && natAt o 12 4 = 0 &&
  natAt o 0x10 8 % 8 = 0 && natAt o 0x20 32 = 0 && 64 ≤ objSize o && objSize o ≤ o.length
def imageOk (fat : Bool) (n : Nat) : Bool := n ≤ 15 && (fat || n ≤ 1)
/-- The bytes of the object that a section takes: none for ZERO, whose OFF is ignored. -/
def Section.stored (x : Section) : Nat := if x.type = 3 then 0 else x.len
/-- The flags that a type requires (R325). -/
def Section.flagsOk (x : Section) : Bool :=
  match x.type with
  | 1 => x.load && x.exec
  | 2 | 3 => x.load
  | 7 => x.load && x.ro
  | _ => true
/-- The fields of a section of a known type (R324, R325); one of another type is skipped, its fields unchecked (R326). -/
def Section.ok (x : Section) (fat : Bool) : Bool :=
  x.rest = 0 && 3 ≤ x.align && x.align ≤ 30 && imageOk fat x.image && (x.type = 3 || x.off % 8 = 0) && x.voff % 2 ^ x.align = 0 && (!x.pers || x.ro) &&
  !(x.ro && x.write) && (!x.bind || x.load) && !(x.write && x.exec) && (!x.exec || x.type = 1) && x.flagsOk
def Section.known (x : Section) : Bool := 1 ≤ x.type && x.type ≤ 9
def Section.apart (x y : Section) : Bool := x.stored = 0 || y.stored = 0 || x.off + x.len ≤ y.off || y.off + y.len ≤ x.off
def allApart : List Section → Bool
  | [] => true
  | x :: t => t.all x.apart && allApart t
def objTableOk (o : List Byte) : Bool :=
  natAt o 0x10 8 + 32 * natAt o 8 4 ≤ objSize o && ((objSections o).all fun x => (x.type = 3 || x.off + x.len ≤ objSize o) && (!x.known || x.ok (objFat o))) &&
  allApart (objSections o)
/-- What a section contributes to a digest, and what is placed. -/
def Section.contents (x : Section) (o : List Byte) : List Byte := if x.type = 3 then List.replicate x.len 0 else bytesAt o x.off x.len

/-! ## Notes (R327 to R329) -/

structure Note where
  (type : Nat) (mand : Bool) (image : Nat) (body : List Byte)
  deriving DecidableEq, Repr
/-- The notes of a section; none where their layout breaks R327. -/
def notesOf (fat : Bool) : Nat → List Byte → Option (List Note)
  | 0, _ => none
  | fuel + 1, bs =>
    if bs.isEmpty then some []
    else
      let len := natAt bs 8 4
      let whole := roundUp len 8
      if bs.length < 16 + whole || natAt bs 2 2 / 2 ≠ 0 || natAt bs 5 3 ≠ 0 || natAt bs 12 4 ≠ 0 || !imageOk fat (natAt bs 4 1)
        || natAt bs (16 + len) (whole - len) ≠ 0 then none
      else (notesOf fat fuel (bs.drop (16 + whole))).map fun l =>
        { type := natAt bs 0 2, mand := (natAt bs 2 2).testBit 0, image := natAt bs 4 1, body := bytesAt bs 16 len } :: l
/-- Each known note has its length; an unknown one is not mandatory. -/
def Note.ok (n : Note) : Bool :=
  match n.type with
  | 1 => n.body.length = 8 && natAt n.body 4 4 = 0
  | 2 => n.body.length = 48
  | 3 => n.body.length = 24
  | 4 => 8 ≤ n.body.length && n.body.length ≤ 256
  | _ => !n.mand
def objNotes (o : List Byte) : Option (List Note) :=
  ((objSections o).filter fun x => x.type = 4).foldl (fun acc x =>
    match acc, notesOf (objFat o) (x.len / 16 + 2) (x.contents o) with
    | some l, some l' => if l'.all Note.ok then some (l ++ l') else none
    | _, _ => none) (some [])
def Note.governs (n : Note) (image : Nat) : Bool := n.image = 0 || n.image = image

/-- An image (R330): its number, whether it is a Nimbel one, and what its VERSION note says. -/
structure Image where
  (num : Nat) (nimbel : Bool) (major minor : Nat) (mand : Bool)
  deriving DecidableEq, Repr
/-- The numbers of the object's images: the one image of an object with FAT = 0 is 1, also where its sections say 0. -/
def objImageNums (o : List Byte) : List Nat :=
  (List.range 16).filter fun n => n ≠ 0 && (objSections o).any fun x => (x.type = 1 || x.type = 6) && (x.image = n || (!objFat o && n = 1))
def Section.ofImage (x : Section) (n : Nat) : Bool := x.image = 0 || x.image = n
def versions (ns : List Note) (n : Nat) : List Note := ns.filter fun x => x.type = 1 && x.governs n
def objImages (o : List Byte) (ns : List Note) : List Image :=
  (objImageNums o).filterMap fun n =>
    match versions ns n with
    | [v] => some { num := n, nimbel := (objSections o).any fun x => x.type = 6 && (x.image = n || !objFat o), major := natAt v.body 0 2, minor := natAt v.body 2 2, mand := v.mand }
    | _ => none
/-- The first image with the largest, or the smallest, minor revision. -/
def bestBy (better : Nat → Nat → Bool) (l : List Image) : Option Image :=
  l.foldl (fun m x => match m with | some y => if better x.minor y.minor then some x else m | none => some x) none
/-- The choice of R330, on a device of revision 3.0. -/
def choose (images : List Image) : Option Image :=
  let cands := images.filter fun x => !x.nimbel && x.major = 3
  (cands.find? fun x => x.minor = 0).or
    ((bestBy (fun a b => b < a) (cands.filter fun x => x.minor < 0)).or
      ((images.find? fun x => x.nimbel && Config.nimbtAccepts x.major x.minor).or (bestBy (fun a b => a < b) (cands.filter fun x => !x.mand))))

/-- The fields of a KERNEL note (R329). -/
structure KernelNote where
  (entry head level groups regs pmin pmax pad frame cist spad zero : Nat)
  deriving DecidableEq, Repr
def kernelNote (b : List Byte) : KernelNote :=
  { entry := natAt b 0 4, head := natAt b 4 4, level := natAt b 8 1, groups := natAt b 9 1, regs := natAt b 10 1, pmin := natAt b 11 1, pmax := natAt b 12 1
    pad := natAt b 13 3, frame := natAt b 0x10 4, cist := natAt b 0x14 4, spad := natAt b 0x18 4, zero := natAt b 0x1C 4 }
/-- The limits of R263 and R329; an entry of a Nimbel image is a function's number. -/
def KernelNote.ok (k : KernelNote) (native : Bool) (ss : List Section) : Bool :=
  (!native || k.entry % 8 = 0) && (!native || k.head = 0xFFFFFFFF || k.head % 8 = 0) && k.level ≤ 7 && 1 ≤ k.groups && k.groups ≤ 16 &&
  8 ≤ k.regs && k.regs ≤ 192 && k.regs % 8 = 0 && k.pmin ≤ k.pmax && k.pmax ≤ 12 && k.pad = 0 && k.zero = 0 && k.frame ≤ 0x1000000 && k.cist ≤ 262144 &&
  (k.spad = 0xFFFFFFFF || ss.any fun x => x.ix = k.spad && x.type = 7 && x.len ≤ k.cist)

/-! ## Relocation (R297, R325) -/

structure Reloc where
  (at' : Nat) (value : Nat)
  deriving DecidableEq, Repr
def codeOf (ss : List Section) (n : Nat) : Option Section := ss.find? fun x => x.type = 1 && x.ofImage n
/-- The records of the chosen image: where each stands, as an offset from the load base, and what it stores. A section that is not there counts as
one out of reach (DEDUCED, log 84). -/
def relocs (o : List Byte) (n base : Nat) : List Reloc :=
  let ss := objSections o
  let code := ((codeOf ss n).map (·.voff)).getD 0
  (ss.filter fun x => x.type = 5 && x.ofImage n).flatMap fun x =>
    (List.range (x.len / 16)).filterMap fun k =>
      let r := bytesAt o (x.off + 16 * k) 16
      if natAt r 12 4 ≠ 1 then none
      else some { at' := code + natAt r 0 4 + 8, value := match ss.find? (fun y => y.ix = natAt r 4 4) with | some y => base + y.voff + natAt r 8 4 | none => 2 ^ 32 }

/-! ## Signatures (R332, R372) -/

/-- Sections that need a record, of the chosen image and of image 0 only (R330); R372's table of tripscore lists the unchosen Nimbel section among those that it
verifies (DEDUCED, log 131). -/
def Section.checked (x : Section) (n : Nat) : Bool := x.ofImage n && x.known && ((x.load && x.type ≠ 4) || x.type = 6)
def sigRecords (o : List Byte) : List (List Byte) :=
  ((objSections o).filter fun x => x.type = 8).flatMap fun x => (List.range (x.len / 16664)).map fun k => bytesAt o (x.off + 16664 * k) 16664
def sigFor (o : List Byte) (ix : Nat) : Option (List Byte) := (sigRecords o).find? fun r => natAt r 0 4 = ix
def sectionDigest (o : List Byte) (x : Section) : BitVec 384 := Config.sha384 (bytesAt o (natAt o 0x10 8 + 32 * x.ix) 32 ++ x.contents o)
/-- Whether a section's record verifies against its entry of the key table. -/
def sigOk (o : List Byte) (keys : Tab Key) (x : Section) : Bool :=
  match sigFor o x.ix with
  | none => false
  | some r =>
    match Tab.find? keys (natAt r 4 4) with
    | none => false
    | some k =>
      let d := sectionDigest o x
      bytesAt r 8 48 = digestBytes d && Config.rsaVerifies k.rsan d (bytesAt r 56 384) && Config.slhVerifies k.slhpk d (bytesAt r 440 16224)
def objMeasure (o : List Byte) : BitVec 384 :=
  Config.sha384 (o.take 64 ++ bytesAt o (natAt o 0x10 8) (32 * natAt o 8 4) ++ ((objSections o).filter fun x => x.type ≠ 8 && x.type ≠ 9).flatMap (·.contents o))
def measOk (o : List Byte) : Bool :=
  (objSections o).any fun x => x.type = 9 && x.contents o = digestBytes (objMeasure o)

/-! ## Refusals (R331) -/

/-- The first reason to refuse an object, in the order of R331, or its notes and the chosen image. host: what the host found in steps 1 and 2,
where the signatures are its to check (DEDUCED, log 83). -/
def examine (o : List Byte) (keys : Tab Key) (base : Nat) (host : Option Nat) : Except Nat (List Note × Image) :=
  if !objHeaderOk o then .error 1
  else if !objTableOk o then .error 2
  else if (objSections o).any fun x => !x.known && (x.load || x.exec) then .error 3
  else match objNotes o with
    | none => .error 4
    | some ns =>
      if (objImageNums o).any fun n => (versions ns n).length ≠ 1 then .error 5
      else match choose (objImages o ns) with
        | none => .error 6
        | some im =>
          let native (n : Note) : Bool := !((objImages o ns).any fun (x : Image) => x.nimbel && n.governs x.num)
          if ns.any fun n => n.type = 2 && !(kernelNote n.body).ok (native n) (objSections o) then .error 7
          else if (relocs o im.num base).any fun r => 2 ^ 32 ≤ r.value then .error 8
          else match host with
            | some 9 => .error 9
            | some 10 => .error 10
            | some _ => .ok (ns, im)
            | none =>
              if ((objSections o).filter fun x => x.checked im.num).any fun x => !sigOk o keys x then .error 9
              else if !measOk o then .error 10
              else .ok (ns, im)

/-! ## Placement and admission -/

def va (base off : Nat) : DWord := BitVec.ofNat 64 (base + off)
/-- LOAD places a section, a NOTES one apart (R324, R325). -/
def Section.placed (x : Section) (n : Nat) : Bool := x.load && x.ofImage n && x.type ≠ 4
/-- The code of the object: where it stands and how long it is. That of a Nimbel image is what nimbt makes of it, placed where it chooses (DESIGN CHOICE, log 14). -/
def codeSpans (o : List Byte) (im : Image) (base : Nat) : List (Nat × List Byte) :=
  if im.nimbel then
    ((objSections o).filter fun x => x.type = 6 && x.ofImage im.num).map fun x =>
      ((Config.nimbtBase (x.contents o) (va base 0)).toNat, Config.nimbtCode (x.contents o) (va base 0))
  else ((objSections o).filter fun x => x.type = 1 && x.placed im.num).map fun x => (base + x.voff, x.contents o)
/-- The code's spans; after nimbt's code comes the region that it reserves for later translations (R320). -/
def codeRoom (o : List Byte) (im : Image) (base : Nat) : List (Nat × Nat) :=
  let room (x : Section) : Nat := Config.nimbtRoom (x.contents o) (va base 0)
  let extra := if im.nimbel then (((objSections o).filter fun x => x.type = 6 && x.ofImage im.num).map room).foldl max 0 else 0
  (codeSpans o im base).map fun (a, bs) => (a, bs.length + extra)
/-- Store the sections of the chosen image and of image 0, the words that relocations name, an empty function table, and TQBASE after it (R317,
R353) (DESIGN CHOICE, log 85; DEDUCED, log 86). -/
def State.placeObject (s : State) (vfn : Nat) (o : List Byte) (ns : List Note) (im : Image) (base : Nat) : State :=
  let put (t : State) (a : Nat) (bs : List Byte) : State := t.devWrite vfn (va a 0) bs
  let s := ((objSections o).filter fun x => x.placed im.num).foldl (fun t x => put t (base + x.voff) (x.contents o)) s
  let s := if im.nimbel then (codeSpans o im base).foldl (fun t (a, bs) => put t a bs) s else s
  let s := (relocs o im.num base).foldl (fun t r => put t (base + r.at') (bytesLE 4 r.value)) s
  let tq : DWord := if (s.vf vfn).tqEn then (s.vf vfn).tqbase else 0
  (ns.filter fun n => n.type = 3 && n.governs im.num).foldl (fun t n =>
    put t (base + natAt n.body 0 8) (List.replicate (8 * natAt n.body 16 4) 0 ++ bytesLE 8 tq.toNat)) s
/-- Set X in the attribute word of a page, and in what TLBs hold of it. -/
def State.admitPage (s : State) (vfn a : Nat) : State :=
  match s.leafAt vfn a with
  | none => s
  | some (leaf, bits) =>
    let s := s.homeWrite 0 (leaf + 8) (bytesLE 8 ((s.peekDWord (leaf + 8)) ||| 2).toNat)
    let upd (t : Tlb) : Tlb := if t.vfn = vfn && t.va = a / 2 ^ bits * 2 ^ bits then { t with x := true } else t
    { s with cores := Tab.mapVals s.cores fun _ (c : Core) => { c with tlb := c.tlb.map upd }
             dies := Tab.mapVals s.dies fun _ (d : Die) => { d with tlb := d.tlb.map upd } }
def pagesOf (a n : Nat) : List Nat := (iota (a / 0x10000) ((a + n + 0xFFFF) / 0x10000 - a / 0x10000)).map (· * 0x10000)
/-- The kernels of the chosen image. -/
def kernelsOf (o : List Byte) (ns : List Note) (im : Image) (base : Nat) : List Kernel :=
  let ss := objSections o
  let code := ((codeOf ss im.num).map (·.voff)).getD 0
  (ns.filter fun n => n.type = 2 && n.governs im.num).map fun n =>
    let k := kernelNote n.body
    let entry := if im.nimbel then
        (match ss.find? (fun x => x.type = 6 && x.ofImage im.num) with | some x => Config.nimbtEntry (x.contents o) (va base 0) k.entry | none => 0)
      else va base (code + k.entry)
    { entry := entry, pmin := k.pmin, pmax := k.pmax, spad := match ss.find? (fun x => x.ix = k.spad) with | some x => x.contents o | none => [] }
/-- The bytes of device memory that an object takes: its placed sections, the code that nimbt makes, with the region that it reserves for later translations
(R320), and the tables of its binding notes. -/
def objectSpans (o : List Byte) (ns : List Note) (im : Image) (base : Nat) : List (Nat × Nat) :=
  (((objSections o).filter fun x => x.placed im.num).map fun x => (base + x.voff, x.len)) ++ codeRoom o im base ++
  (ns.filter fun n => n.type = 3 && n.governs im.num).map fun n => (base + natAt n.body 0 8, 8 * natAt n.body 16 4 + 8)
/-- The first page of an object that does not translate, if one does not. -/
def State.missingPage (s : State) (vfn : Nat) (spans : List (Nat × Nat)) : Option Nat :=
  (spans.flatMap fun (a, n) => if n = 0 then [] else pagesOf a n).find? fun a => (s.devPhys vfn (va a 0)).isNone
/-- The flags of a section reach the pages that it lies on (R324): W, PERS and BIND are set, and a page of an RO section becomes read-only class, its words
without copies. What the driver's entries say beyond that stays (DEDUCED, log 127). -/
def State.dressPage (s : State) (vfn : Nat) (x : Section) (a : Nat) : State :=
  match s.leafAt vfn a with
  | none => s
  | some (leaf, bits) =>
    let attr : Nat := (if x.write then 1 else 0) + (if x.pers then 4 else 0) + if x.bind then 8 else 0
    let e := s.peekDWord leaf
    let s := if x.ro && e.extractLsb' 2 2 = 0 then
        (s.clearRange (leafPa e) (2 ^ bits) true).homeWrite 0 leaf (bytesLE 8 (e ||| 4).toNat)
      else s
    let s := if attr = 0 then s else s.homeWrite 0 (leaf + 8) (bytesLE 8 ((s.peekDWord (leaf + 8)) ||| BitVec.ofNat 64 attr).toNat)
    if attr = 0 && !x.ro then s else s.dropTlb (fun _ => true) (fun _ => true) fun t => t.covers vfn a
/-- Load an object at a base: place it, and admit it as one action. Where a page of it does not translate, the engine waits, and nothing of it is placed
(R331) (DESIGN CHOICE, log 85). -/
def State.load (s : State) (vfn : Nat) (o : List Byte) (base : Nat) (host : Option Nat) : State :=
  match examine o (s.vf vfn).keys base host with
  | .error c => { s with answer := bytesLE 1 c }
  | .ok (ns, im) =>
    match s.missingPage vfn (objectSpans o ns im base) with
    | some a => (s.pushOnce .notPresentFault { id := vfn, num := 1, v := va a 0 }).push .objectLoad s.args
    | none =>
    let s := ((objSections o).filter fun x => x.placed im.num).foldl (fun t x => (if x.len = 0 then [] else pagesOf (base + x.voff) x.len).foldl (fun u a => u.dressPage vfn x a) t) s
    let s := s.placeObject vfn o ns im base
    let spans := codeRoom o im base
    let (id, s) := s.newId
    let keys := (((objSections o).filter fun x => x.checked im.num).filterMap fun x => (sigFor o x.ix).map fun r => natAt r 4 4).eraseDups
    let obj : Object := { id := id, base := va base 0, size := objSize o, kernels := kernelsOf o ns im base, keys := keys, code := spans }
    let s := s.updVf vfn fun v => { v with lm := extend v.lm ((if host.isSome then 1 else 0) :: digestBytes (objMeasure o)), loads := v.loads + 1, objects := v.objects ++ [obj] }
    let s := (spans.flatMap fun (a, n) => pagesOf a n).foldl (fun t a => t.admitPage vfn a) s
    { s with answer := [0] }
/-- OBJECT_LOAD of args.bytes at base v into virtual function id; where the host checks signatures, num is what it found (0, 9 or 10). -/
def execObjectLoad (s : State) : Out :=
  .next (if s.answers && s.args.id < 512 then s.load s.args.id s.args.bytes s.args.v.toNat (if (s.vf s.args.id).dutysel.getLsbD 3 then some s.args.num else none) else s)
/-- Whether a grid of an object's kernels lives. -/
def State.objectLives (s : State) (vfn : Nat) (o : Object) : Bool :=
  (Tab.vals s.grids).any fun (g : Grid) => g.vfn = vfn && o.kernels.any fun (k : Kernel) => k.entry = g.entry
/-- OBJECT_UNLOAD of the object at base v. -/
def execObjectUnload (s : State) : Out :=
  let gone (o : Object) : Bool := o.base = s.args.v && !s.objectLives s.args.id o
  .next (if s.answers then s.updVf s.args.id fun v => { v with objects := v.objects.filter fun o => !gone o } else s)

end Sys2Proof.Machine
end

