-- ==== Sys2Proof/Machine/Pair.lean ====
section
/-! DEFINITION. The pair format (R155 to R158): its checks, its two slots, and one meaning for each operation that slot 0 can hold. -/
namespace Sys2Proof.Machine

/-- Whether a slot reads its destination as its first source (R156). -/
def pairReadsD : PairOp → Bool
  | .nop | .mov | .f2i | .i2f => false
  | _ => true
/-- What a slot computes from D and S (R156): the full-format operation with MOD = 0. -/
def pairValue (op : PairOp) (c : FpCtl) (a b : Nat) : Nat × Fl :=
  match op with
  | .nop => (0, 0)
  | .iadd => ((a + b) % 2 ^ 32, 0)
  | .isub => ((a + 2 ^ 32 - b) % 2 ^ 32, 0)
  | .imul => (a * b % 2 ^ 32, 0)
  | .imin => (lesser false 32 a b, 0)
  | .imax => (greater false 32 a b, 0)
  | .and => (a &&& b, 0)
  | .or => (a ||| b, 0)
  | .xor => (a ^^^ b, 0)
  | .andn => (andNot 32 a b, 0)
  | .shl => (shiftLeft 32 a b, 0)
  | .shr => (shiftRight 32 a b, 0)
  | .sar => (shiftArith 32 a b, 0)
  | .fadd => fp32.add c a b
  | .fsub => fp32.sub c a b
  | .fmul => fp32.mul c a b
  | .fmin => fp32.minMax false c.ftz a b
  | .fmax => fp32.minMax true c.ftz a b
  | .hadd2 => halfAdd fp16 c a b
  | .hmul2 => halfMul fp16 c a b
  | .badd2 => halfAdd bf16 c a b
  | .bmul2 => halfMul bf16 c a b
  | .mov => (b, 0)
  | .f2i => f2i c b
  | .i2f => i2f c.rm b

/-- The slots that are no NOP. -/
def pairSlots (op : PairOp) (x : PairW) : List PairSlot := ([⟨op, x.d, x.s⟩, x.other] : List PairSlot).filter fun p => p.op ≠ .nop
/-- Sources in the order D0, S0, D1, S1, and destinations. -/
def pairPlan (op : PairOp) (x : PairW) : Plan :=
  { srcs := (pairSlots op x).flatMap fun p => (if pairReadsD p.op then [(p.d, 1)] else []) ++ [(p.s, 1)]
    dsts := (pairSlots op x).map fun p => (p.d, 1)
    order := (pairSlots op x).flatMap fun p => [(p.d, 1), (p.s, 1)] }
def isLatch : Reg → Bool
  | .l _ => true
  | _ => false
def sameBank (a b : Reg) : Bool :=
  match a, b with
  | .v m, .v n => m.val % 4 = n.val % 4
  | _, _ => false
/-- The pairing rules of R157 in their order: the row of the first that is broken. -/
def pairRule (op : PairOp) (x : PairW) : Option Nat :=
  let p := op ≠ .nop
  let q := x.other.op ≠ .nop
  if p && q && sameBank x.d x.other.d then some 0
  else if p && q && sameBank x.s x.other.s then some 1
  else if (p && isLatch x.d) || (q && isLatch x.other.d) then some 2
  else if p && q && x.other.s = x.d && (match x.d with | .v _ | .s _ => true | _ => false) then some 3
  else none
/-- Checks 3 to 6 of R160 for a pair: a latch destination breaks a pairing rule, any other destination of the wrong kind R153. -/
def pairCheck (op : PairOp) (x : PairW) (s : State) (i : Issue) : Check :=
  let head := i.ctx % 32 == 16
  let plan := pairPlan op x
  let legal := plan.srcs.all (fun (r, n) => srcOk head (s.wgOf i.ctx).regs n r) && plan.dsts.all (fun (r, n) => isLatch r || dstOk head (s.wgOf i.ctx).regs n r)
  (if legal then none else some (2, 0)).or <|
  ((pairRule op x).map fun n => (4, n)).or <|
  ((plan.latchVoid (s.front i.ctx i.level)).map fun n => (7, n)).or <|
  (plan.busy s i 7).map fun n => (5, n)
/-- The results of the slots, each computed from the state before the issue. -/
def pairResults (op : PairOp) (x : PairW) (i : Issue) (s : State) : List (PairSlot × List (Nat × Nat × Fl)) :=
  let c := fpSel .dyn (s.ctx i.ctx).fpctl
  (pairSlots op x).map fun p => (p, (lanesOf i.exec).map fun l =>
    let r := pairValue p.op c (src32 s i l p.d).toNat (src32 s i l p.s).toNat
    (l, r.1, r.2))
/-- A pair acts in every executing lane (R156). Where both slots write one S register, its value is stated by no rule: a free value (DESIGN CHOICE, log 17). -/
def pairEff (op : PairOp) (x : PairW) (i : Issue) (s : State) : Eff :=
  let rs := pairResults op x i s
  let head := i.ctx % 32 == 16
  let now := (s.core (s.coreOf i.ctx)).time
  let clash := rs.length = 2 && x.d = x.other.d && (match x.d with | .s _ => true | _ => false)
  let (v, t) := s.free 32
  { st := if clash then t else s
    latch := rs.map fun (_, vs) => { vals := vs.map fun (l, v, _) => (l, BitVec.ofNat 64 (v % 2 ^ 32)), wide := false, due := now + 4 }
    noShift := rs.isEmpty
    wr := if clash then destWr head 0 false x.d (v.setWidth 64) else rs.flatMap fun (p, vs) => vs.flatMap fun (l, v, _) => destWr head l false p.d (BitVec.ofNat 64 (v % 2 ^ 32))
    fl := rs.foldl (fun m (_, vs) => vs.foldl (fun m (_, _, f) => m ||| f) m) 0 }
/-- Issue a pair word. -/
def issuePair (op : PairOp) (x : PairW) (s : State) : Out :=
  match s.issuing with
  | none => .refused .noIssuer
  | some i =>
    match pairCheck op x s i with
    | some (cause, detail) => .next (rejectWord s i cause detail)
    | none => .next (finish i x.c none (pairPlan op x) i.exec true (pairEff op x i s))

def execNopPair (x : PairW) (s : State) : Out := issuePair .nop x s
def execIaddPair (x : PairW) (s : State) : Out := issuePair .iadd x s
def execIsubPair (x : PairW) (s : State) : Out := issuePair .isub x s
def execImulPair (x : PairW) (s : State) : Out := issuePair .imul x s
def execIminPair (x : PairW) (s : State) : Out := issuePair .imin x s
def execImaxPair (x : PairW) (s : State) : Out := issuePair .imax x s
def execAndPair (x : PairW) (s : State) : Out := issuePair .and x s
def execOrPair (x : PairW) (s : State) : Out := issuePair .or x s
def execXorPair (x : PairW) (s : State) : Out := issuePair .xor x s
def execAndnPair (x : PairW) (s : State) : Out := issuePair .andn x s
def execShlPair (x : PairW) (s : State) : Out := issuePair .shl x s
def execShrPair (x : PairW) (s : State) : Out := issuePair .shr x s
def execSarPair (x : PairW) (s : State) : Out := issuePair .sar x s
def execFaddPair (x : PairW) (s : State) : Out := issuePair .fadd x s
def execFsubPair (x : PairW) (s : State) : Out := issuePair .fsub x s
def execFmulPair (x : PairW) (s : State) : Out := issuePair .fmul x s
def execFminPair (x : PairW) (s : State) : Out := issuePair .fmin x s
def execFmaxPair (x : PairW) (s : State) : Out := issuePair .fmax x s
def execHadd2Pair (x : PairW) (s : State) : Out := issuePair .hadd2 x s
def execHmul2Pair (x : PairW) (s : State) : Out := issuePair .hmul2 x s
def execBadd2Pair (x : PairW) (s : State) : Out := issuePair .badd2 x s
def execBmul2Pair (x : PairW) (s : State) : Out := issuePair .bmul2 x s
def execMovPair (x : PairW) (s : State) : Out := issuePair .mov x s
def execF2iPair (x : PairW) (s : State) : Out := issuePair .f2i x s
def execI2fPair (x : PairW) (s : State) : Out := issuePair .i2f x s

end Sys2Proof.Machine
end

