-- ==== Sys2Proof/Machine/Dispatch.lean ====
section
/-! DEFINITION. One arm per constructor of Instr: the one direct call of its meaning. -/
namespace Sys2Proof.Machine

def exec (i : Instr) (s : State) : Host.Outcome State Fault Refusal :=
  match i with
  | .iadd x => Sys2Proof.Machine.execIadd x s
  | .iaddX x => Sys2Proof.Machine.execIaddX x s
  | .isub x => Sys2Proof.Machine.execIsub x s
  | .isubX x => Sys2Proof.Machine.execIsubX x s
  | .imul x => Sys2Proof.Machine.execImul x s
  | .imulX x => Sys2Proof.Machine.execImulX x s
  | .imulh x => Sys2Proof.Machine.execImulh x s
  | .imulhX x => Sys2Proof.Machine.execImulhX x s
  | .imad x => Sys2Proof.Machine.execImad x s
  | .imin x => Sys2Proof.Machine.execImin x s
  | .iminX x => Sys2Proof.Machine.execIminX x s
  | .imax x => Sys2Proof.Machine.execImax x s
  | .imaxX x => Sys2Proof.Machine.execImaxX x s
  | .iabs x => Sys2Proof.Machine.execIabs x s
  | .and x => Sys2Proof.Machine.execAnd x s
  | .andX x => Sys2Proof.Machine.execAndX x s
  | .or x => Sys2Proof.Machine.execOr x s
  | .orX x => Sys2Proof.Machine.execOrX x s
  | .xor x => Sys2Proof.Machine.execXor x s
  | .xorX x => Sys2Proof.Machine.execXorX x s
  | .andn x => Sys2Proof.Machine.execAndn x s
  | .andnX x => Sys2Proof.Machine.execAndnX x s
  | .shl x => Sys2Proof.Machine.execShl x s
  | .shlX x => Sys2Proof.Machine.execShlX x s
  | .shr x => Sys2Proof.Machine.execShr x s
  | .shrX x => Sys2Proof.Machine.execShrX x s
  | .sar x => Sys2Proof.Machine.execSar x s
  | .sarX x => Sys2Proof.Machine.execSarX x s
  | .popc x => Sys2Proof.Machine.execPopc x s
  | .clz x => Sys2Proof.Machine.execClz x s
  | .brev x => Sys2Proof.Machine.execBrev x s
  | .bfx x => Sys2Proof.Machine.execBfx x s
  | .bfxX x => Sys2Proof.Machine.execBfxX x s
  | .bfi x => Sys2Proof.Machine.execBfi x s
  | .bfiX x => Sys2Proof.Machine.execBfiX x s
  | .lea x => Sys2Proof.Machine.execLea x s
  | .icmp x => Sys2Proof.Machine.execIcmp x s
  | .icmpX x => Sys2Proof.Machine.execIcmpX x s
  | .sel x => Sys2Proof.Machine.execSel x s
  | .movi x => Sys2Proof.Machine.execMovi x s
  | .moviX x => Sys2Proof.Machine.execMoviX x s
  | .fadd x => Sys2Proof.Machine.execFadd x s
  | .faddX x => Sys2Proof.Machine.execFaddX x s
  | .fsub x => Sys2Proof.Machine.execFsub x s
  | .fsubX x => Sys2Proof.Machine.execFsubX x s
  | .fmul x => Sys2Proof.Machine.execFmul x s
  | .fmulX x => Sys2Proof.Machine.execFmulX x s
  | .ffma x => Sys2Proof.Machine.execFfma x s
  | .fmin x => Sys2Proof.Machine.execFmin x s
  | .fmax x => Sys2Proof.Machine.execFmax x s
  | .fcmp x => Sys2Proof.Machine.execFcmp x s
  | .frcp x => Sys2Proof.Machine.execFrcp x s
  | .frsq x => Sys2Proof.Machine.execFrsq x s
  | .fsqrt x => Sys2Proof.Machine.execFsqrt x s
  | .fexp2 x => Sys2Proof.Machine.execFexp2 x s
  | .flog2 x => Sys2Proof.Machine.execFlog2 x s
  | .fsin x => Sys2Proof.Machine.execFsin x s
  | .fcos x => Sys2Proof.Machine.execFcos x s
  | .frnd x => Sys2Proof.Machine.execFrnd x s
  | .fclass x => Sys2Proof.Machine.execFclass x s
  | .hadd2 x => Sys2Proof.Machine.execHadd2 x s
  | .hmul2 x => Sys2Proof.Machine.execHmul2 x s
  | .hfma2 x => Sys2Proof.Machine.execHfma2 x s
  | .badd2 x => Sys2Proof.Machine.execBadd2 x s
  | .bmul2 x => Sys2Proof.Machine.execBmul2 x s
  | .bfma2 x => Sys2Proof.Machine.execBfma2 x s
  | .mov x => Sys2Proof.Machine.execMov x s
  | .movs x => Sys2Proof.Machine.execMovs x s
  | .f2i x => Sys2Proof.Machine.execF2i x s
  | .i2f x => Sys2Proof.Machine.execI2f x s
  | .fcvt x => Sys2Proof.Machine.execFcvt x s
  | .qpack x => Sys2Proof.Machine.execQpack x s
  | .qunpk x => Sys2Proof.Machine.execQunpk x s
  | .shfl x => Sys2Proof.Machine.execShfl x s
  | .vote x => Sys2Proof.Machine.execVote x s
  | .redg x => Sys2Proof.Machine.execRedg x s
  | .scang x => Sys2Proof.Machine.execScang x s
  | .rdsr x => Sys2Proof.Machine.execRdsr x s
  | .wrsr x => Sys2Proof.Machine.execWrsr x s
  | .movts x => Sys2Proof.Machine.execMovts x s
  | .nop x => Sys2Proof.Machine.execNop x s
  | .bra x => Sys2Proof.Machine.execBra x s
  | .braX x => Sys2Proof.Machine.execBraX x s
  | .brx x => Sys2Proof.Machine.execBrx x s
  | .call x => Sys2Proof.Machine.execCall x s
  | .callX x => Sys2Proof.Machine.execCallX x s
  | .callx x => Sys2Proof.Machine.execCallx x s
  | .ret x => Sys2Proof.Machine.execRet x s
  | .land x => Sys2Proof.Machine.execLand x s
  | .exit x => Sys2Proof.Machine.execExit x s
  | .yield x => Sys2Proof.Machine.execYield x s
  | .dqpush x => Sys2Proof.Machine.execDqpush x s
  | .dqpop x => Sys2Proof.Machine.execDqpop x s
  | .tfence x => Sys2Proof.Machine.execTfence x s
  | .ld8 x => Sys2Proof.Machine.execLd8 x s
  | .ld8X x => Sys2Proof.Machine.execLd8X x s
  | .ld16 x => Sys2Proof.Machine.execLd16 x s
  | .ld16X x => Sys2Proof.Machine.execLd16X x s
  | .ld32 x => Sys2Proof.Machine.execLd32 x s
  | .ld32X x => Sys2Proof.Machine.execLd32X x s
  | .ld64 x => Sys2Proof.Machine.execLd64 x s
  | .ld64X x => Sys2Proof.Machine.execLd64X x s
  | .ld128 x => Sys2Proof.Machine.execLd128 x s
  | .ld128X x => Sys2Proof.Machine.execLd128X x s
  | .st8 x => Sys2Proof.Machine.execSt8 x s
  | .st8X x => Sys2Proof.Machine.execSt8X x s
  | .st16 x => Sys2Proof.Machine.execSt16 x s
  | .st16X x => Sys2Proof.Machine.execSt16X x s
  | .st32 x => Sys2Proof.Machine.execSt32 x s
  | .st32X x => Sys2Proof.Machine.execSt32X x s
  | .st64 x => Sys2Proof.Machine.execSt64 x s
  | .st64X x => Sys2Proof.Machine.execSt64X x s
  | .st128 x => Sys2Proof.Machine.execSt128 x s
  | .st128X x => Sys2Proof.Machine.execSt128X x s
  | .lds x => Sys2Proof.Machine.execLds x s
  | .ldsX x => Sys2Proof.Machine.execLdsX x s
  | .sts x => Sys2Proof.Machine.execSts x s
  | .stsX x => Sys2Proof.Machine.execStsX x s
  | .ldlv x => Sys2Proof.Machine.execLdlv x s
  | .stlv x => Sys2Proof.Machine.execStlv x s
  | .ldp x => Sys2Proof.Machine.execLdp x s
  | .ldpX x => Sys2Proof.Machine.execLdpX x s
  | .gath x => Sys2Proof.Machine.execGath x s
  | .gathX x => Sys2Proof.Machine.execGathX x s
  | .scat x => Sys2Proof.Machine.execScat x s
  | .scatX x => Sys2Proof.Machine.execScatX x s
  | .cinv x => Sys2Proof.Machine.execCinv x s
  | .cflush x => Sys2Proof.Machine.execCflush x s
  | .fence x => Sys2Proof.Machine.execFence x s
  | .ldfe x => Sys2Proof.Machine.execLdfe x s
  | .ldfeX x => Sys2Proof.Machine.execLdfeX x s
  | .stef x => Sys2Proof.Machine.execStef x s
  | .stefX x => Sys2Proof.Machine.execStefX x s
  | .feset x => Sys2Proof.Machine.execFeset x s
  | .atom x => Sys2Proof.Machine.execAtom x s
  | .atcas x => Sys2Proof.Machine.execAtcas x s
  | .red x => Sys2Proof.Machine.execRed x s
  | .lr x => Sys2Proof.Machine.execLr x s
  | .lrX x => Sys2Proof.Machine.execLrX x s
  | .sc x => Sys2Proof.Machine.execSc x s
  | .bari x => Sys2Proof.Machine.execBari x s
  | .bariX x => Sys2Proof.Machine.execBariX x s
  | .bara x => Sys2Proof.Machine.execBara x s
  | .barad x => Sys2Proof.Machine.execBarad x s
  | .barw x => Sys2Proof.Machine.execBarw x s
  | .bart x => Sys2Proof.Machine.execBart x s
  | .sync x => Sys2Proof.Machine.execSync x s
  | .tld x => Sys2Proof.Machine.execTld x s
  | .tst x => Sys2Proof.Machine.execTst x s
  | .tzero x => Sys2Proof.Machine.execTzero x s
  | .tmma x => Sys2Proof.Machine.execTmma x s
  | .tmms x => Sys2Proof.Machine.execTmms x s
  | .tmmq x => Sys2Proof.Machine.execTmmq x s
  | .trdy x => Sys2Proof.Machine.execTrdy x s
  | .twait x => Sys2Proof.Machine.execTwait x s
  | .tacc x => Sys2Proof.Machine.execTacc x s
  | .taccXp x => Sys2Proof.Machine.execTaccXp x s
  | .taccScl x => Sys2Proof.Machine.execTaccScl x s
  | .taccWr x => Sys2Proof.Machine.execTaccWr x s
  | .tgemm x => Sys2Proof.Machine.execTgemm x s
  | .cpy x => Sys2Proof.Machine.execCpy x s
  | .cpym x => Sys2Proof.Machine.execCpym x s
  | .cpycv x => Sys2Proof.Machine.execCpycv x s
  | .cpylb x => Sys2Proof.Machine.execCpylb x s
  | .fbopen x => Sys2Proof.Machine.execFbopen x s
  | .fbnext x => Sys2Proof.Machine.execFbnext x s
  | .fbmeet x => Sys2Proof.Machine.execFbmeet x s
  | .fbjoin x => Sys2Proof.Machine.execFbjoin x s
  | .fbskip x => Sys2Proof.Machine.execFbskip x s
  | .fbsave x => Sys2Proof.Machine.execFbsave x s
  | .fbsaveX x => Sys2Proof.Machine.execFbsaveX x s
  | .fbrest x => Sys2Proof.Machine.execFbrest x s
  | .fbrestX x => Sys2Proof.Machine.execFbrestX x s
  | .coll x => Sys2Proof.Machine.execColl x s
  | .collw x => Sys2Proof.Machine.execCollw x s
  | .launch x => Sys2Proof.Machine.execLaunch x s
  | .join x => Sys2Proof.Machine.execJoin x s
  | .trap x => Sys2Proof.Machine.execTrap x s
  | .tret x => Sys2Proof.Machine.execTret x s
  | .tretSkip x => Sys2Proof.Machine.execTretSkip x s
  | .tretTo x => Sys2Proof.Machine.execTretTo x s
  | .tkill x => Sys2Proof.Machine.execTkill x s
  | .tlbinvPage x => Sys2Proof.Machine.execTlbinvPage x s
  | .tlbinvRange x => Sys2Proof.Machine.execTlbinvRange x s
  | .tlbinvVf x => Sys2Proof.Machine.execTlbinvVf x s
  | .icinv x => Sys2Proof.Machine.execIcinv x s
  | .icinvAll x => Sys2Proof.Machine.execIcinvAll x s
  | .reclaim x => Sys2Proof.Machine.execReclaim x s
  | .pwrhint x => Sys2Proof.Machine.execPwrhint x s
  | .brstk x => Sys2Proof.Machine.execBrstk x s
  | .rcvpt x => Sys2Proof.Machine.execRcvpt x s
  | .rcvj x => Sys2Proof.Machine.execRcvj x s
  | .scbwait x => Sys2Proof.Machine.execScbwait x s
  | .ldcoh x => Sys2Proof.Machine.execLdcoh x s
  | .stcoh x => Sys2Proof.Machine.execStcoh x s
  | .mma8 x => Sys2Proof.Machine.execMma8 x s
  | .bymix x => Sys2Proof.Machine.execBymix x s
  | .nopPair x => Sys2Proof.Machine.execNopPair x s
  | .iaddPair x => Sys2Proof.Machine.execIaddPair x s
  | .isubPair x => Sys2Proof.Machine.execIsubPair x s
  | .imulPair x => Sys2Proof.Machine.execImulPair x s
  | .iminPair x => Sys2Proof.Machine.execIminPair x s
  | .imaxPair x => Sys2Proof.Machine.execImaxPair x s
  | .andPair x => Sys2Proof.Machine.execAndPair x s
  | .orPair x => Sys2Proof.Machine.execOrPair x s
  | .xorPair x => Sys2Proof.Machine.execXorPair x s
  | .andnPair x => Sys2Proof.Machine.execAndnPair x s
  | .shlPair x => Sys2Proof.Machine.execShlPair x s
  | .shrPair x => Sys2Proof.Machine.execShrPair x s
  | .sarPair x => Sys2Proof.Machine.execSarPair x s
  | .faddPair x => Sys2Proof.Machine.execFaddPair x s
  | .fsubPair x => Sys2Proof.Machine.execFsubPair x s
  | .fmulPair x => Sys2Proof.Machine.execFmulPair x s
  | .fminPair x => Sys2Proof.Machine.execFminPair x s
  | .fmaxPair x => Sys2Proof.Machine.execFmaxPair x s
  | .hadd2Pair x => Sys2Proof.Machine.execHadd2Pair x s
  | .hmul2Pair x => Sys2Proof.Machine.execHmul2Pair x s
  | .badd2Pair x => Sys2Proof.Machine.execBadd2Pair x s
  | .bmul2Pair x => Sys2Proof.Machine.execBmul2Pair x s
  | .movPair x => Sys2Proof.Machine.execMovPair x s
  | .f2iPair x => Sys2Proof.Machine.execF2iPair x s
  | .i2fPair x => Sys2Proof.Machine.execI2fPair x s
  | .issueCycle => Sys2Proof.Machine.execIssueCycle s
  | .instructionFetchFill => Sys2Proof.Machine.execInstructionFetchFill s
  | .fixedLatencyWriteback => Sys2Proof.Machine.execFixedLatencyWriteback s
  | .flagCountDown => Sys2Proof.Machine.execFlagCountDown s
  | .fairnessTurn => Sys2Proof.Machine.execFairnessTurn s
  | .trapEntryDeferred => Sys2Proof.Machine.execTrapEntryDeferred s
  | .trapLevelTimeout => Sys2Proof.Machine.execTrapLevelTimeout s
  | .standpipeAnnounce => Sys2Proof.Machine.execStandpipeAnnounce s
  | .homeRdu => Sys2Proof.Machine.execHomeRdu s
  | .homeRdt => Sys2Proof.Machine.execHomeRdt s
  | .homeRdo => Sys2Proof.Machine.execHomeRdo s
  | .homeWrw => Sys2Proof.Machine.execHomeWrw s
  | .homeAth => Sys2Proof.Machine.execHomeAth s
  | .homeWb => Sys2Proof.Machine.execHomeWb s
  | .homeDrop => Sys2Proof.Machine.execHomeDrop s
  | .homeReclaim => Sys2Proof.Machine.execHomeReclaim s
  | .holderRecall => Sys2Proof.Machine.execHolderRecall s
  | .recallRefusalExpiry => Sys2Proof.Machine.execRecallRefusalExpiry s
  | .holderFail => Sys2Proof.Machine.execHolderFail s
  | .reclassification => Sys2Proof.Machine.execReclassification s
  | .hostCxlMemRead => Sys2Proof.Machine.execHostCxlMemRead s
  | .hostCxlMemWrite => Sys2Proof.Machine.execHostCxlMemWrite s
  | .sumpWindowClose => Sys2Proof.Machine.execSumpWindowClose s
  | .copyChannelStart => Sys2Proof.Machine.execCopyChannelStart s
  | .copyArrival => Sys2Proof.Machine.execCopyArrival s
  | .channelWptrUpdate => Sys2Proof.Machine.execChannelWptrUpdate s
  | .copyFault => Sys2Proof.Machine.execCopyFault s
  | .matrixOpStart => Sys2Proof.Machine.execMatrixOpStart s
  | .matrixOpComplete => Sys2Proof.Machine.execMatrixOpComplete s
  | .pumpStep => Sys2Proof.Machine.execPumpStep s
  | .selfTest => Sys2Proof.Machine.execSelfTest s
  | .tokenRefill => Sys2Proof.Machine.execTokenRefill s
  | .tokenGrant => Sys2Proof.Machine.execTokenGrant s
  | .powerMeasure => Sys2Proof.Machine.execPowerMeasure s
  | .persistBoundaryInterval => Sys2Proof.Machine.execPersistBoundaryInterval s
  | .workgroupPlace => Sys2Proof.Machine.execWorkgroupPlace s
  | .coresidentPlace => Sys2Proof.Machine.execCoresidentPlace s
  | .priorityAging => Sys2Proof.Machine.execPriorityAging s
  | .coresidentWithhold => Sys2Proof.Machine.execCoresidentWithhold s
  | .wayDrain => Sys2Proof.Machine.execWayDrain s
  | .workgroupRetire => Sys2Proof.Machine.execWorkgroupRetire s
  | .gridRetire => Sys2Proof.Machine.execGridRetire s
  | .collectiveComplete => Sys2Proof.Machine.execCollectiveComplete s
  | .collectiveFault => Sys2Proof.Machine.execCollectiveFault s
  | .streamElementFault => Sys2Proof.Machine.execStreamElementFault s
  | .notPresentFault => Sys2Proof.Machine.execNotPresentFault s
  | .walkMissRecord => Sys2Proof.Machine.execWalkMissRecord s
  | .quiesce => Sys2Proof.Machine.execQuiesce s
  | .trapQueueLogCopy => Sys2Proof.Machine.execTrapQueueLogCopy s
  | .framePoolRefill => Sys2Proof.Machine.execFramePoolRefill s
  | .workgroupEvict => Sys2Proof.Machine.execWorkgroupEvict s
  | .groupEvict => Sys2Proof.Machine.execGroupEvict s
  | .contextRestore => Sys2Proof.Machine.execContextRestore s
  | .rootlaunch => Sys2Proof.Machine.execRootlaunch s
  | .rootlaunchProcess => Sys2Proof.Machine.execRootlaunchProcess s
  | .rootctlClearDrop => Sys2Proof.Machine.execRootctlClearDrop s
  | .dutyselWrite => Sys2Proof.Machine.execDutyselWrite s
  | .invctlPage => Sys2Proof.Machine.execInvctlPage s
  | .invctlRange => Sys2Proof.Machine.execInvctlRange s
  | .invctlVf => Sys2Proof.Machine.execInvctlVf s
  | .invctlComplete => Sys2Proof.Machine.execInvctlComplete s
  | .fwctlWrite => Sys2Proof.Machine.execFwctlWrite s
  | .formatWindowChangeDone => Sys2Proof.Machine.execFormatWindowChangeDone s
  | .tqresp => Sys2Proof.Machine.execTqresp s
  | .fpgrow => Sys2Proof.Machine.execFpgrow s
  | .pwrctlWrite => Sys2Proof.Machine.execPwrctlWrite s
  | .tokcapWrite => Sys2Proof.Machine.execTokcapWrite s
  | .tokrateWrite => Sys2Proof.Machine.execTokrateWrite s
  | .registerWrite => Sys2Proof.Machine.execRegisterWrite s
  | .mailboxImage => Sys2Proof.Machine.execMailboxImage s
  | .mailboxQuote => Sys2Proof.Machine.execMailboxQuote s
  | .mailboxKeyset => Sys2Proof.Machine.execMailboxKeyset s
  | .mailboxUnknownCommand => Sys2Proof.Machine.execMailboxUnknownCommand s
  | .moduleReset => Sys2Proof.Machine.execModuleReset s
  | .functionLevelReset => Sys2Proof.Machine.execFunctionLevelReset s
  | .objectLoad => Sys2Proof.Machine.execObjectLoad s
  | .thermalThrottle => Sys2Proof.Machine.execThermalThrottle s
  | .thermalShutdown => Sys2Proof.Machine.execThermalShutdown s
  | .linkDown => Sys2Proof.Machine.execLinkDown s
  | .registerParityError => Sys2Proof.Machine.execRegisterParityError s
  | .hostCxlCacheSnoop => Sys2Proof.Machine.execHostCxlCacheSnoop s
  | .thermalThrottleEnd => Sys2Proof.Machine.execThermalThrottleEnd s
  | .powerFail => Sys2Proof.Machine.execPowerFail s
  | .objectUnload => Sys2Proof.Machine.execObjectUnload s

end Sys2Proof.Machine
end

