-- ==== Sys2Proof/Machine/Fetch.lean ====
section
/-! DEFINITION. The word that a slot has picked: what its buffered words decode to, and the traps of words that are no instruction (checks 1
to 3 of R160). And a machine that is about to issue one given instruction. -/
namespace Sys2Proof.Machine

/-- What the words of the issue under way decode to. -/
def State.issuedWords (s : State) (i : Issue) : Option Decoded :=
  match s.words? i.ctx i.pc with
  | .inr (w0, w1) => some (decode w0 w1)
  | .inl _ => none
/-- Opcodes of one kind of context (R162). -/
def restricted (opc : Nat) : Issuer :=
  if opc = 0x69 || opc = 0xD5 || opc = 0xD6 then .heads
  else if opc = 0x41 || (0x45 ≤ opc && opc ≤ 0x4A) || opc = 0x6A || opc = 0xAD then .groups
  else .both
/-- Check 2 for a word with a bad field: the issuing context, or the rung of a Damain 2 cell (R163). -/
def check2 (i : Issue) (opc : Nat) : Check :=
  (issuerCheck i (restricted opc) opc).or
    (if opc = 0xF8 || opc = 0xFF then some (1, opc) else if 0xFC ≤ opc && opc ≤ 0xFE then some (0x51, opc) else none)
/-- DETAIL of a word without a cell: its opcode, or the first pair slot code without one. -/
def unassignedDetail (w0 : DWord) : Nat :=
  if w0.extractLsb' 62 2 = 1 then
    256 + (if (PairOp.ofCode (w0.extractLsb' 38 6)).isNone then (w0.extractLsb' 38 6).toNat else (w0.extractLsb' 16 6).toNat)
  else (w0.extractLsb' 33 8).toNat
/-- The trap of a word that is no instruction; an instruction traps by its own meaning. -/
def State.badWord (s : State) (i : Issue) (d : Decoded) : State :=
  match d with
  | .notInstr => rejectWord s i 3 0
  | .unassigned => rejectWord s i 1 (unassignedDetail ((s.word? i.ctx i.pc).getD 0))
  | .badField opc =>
    let n := opc.toNat
    let s := if 0xF8 ≤ n then s.countD2 (n - 0xF8) else s
    match check2 i n with
    | some (cause, detail) => rejectWord s i cause detail
    | none => rejectWord s i 2 0
  | .ok _ => s
/-- Whether a happening may wait no longer (R302, R385). -/
def Happening.overdue (h : Happening) (clock : Nat) : Bool := match h.due with | some d => decide (d ≤ clock) | none => false
/-- The first happening that may wait no longer; else the one at the head of the agenda, or the one that the picks name; none where the machine
issues instead (DESIGN CHOICE, log 4). -/
def State.takeHappening (s : State) : Option (Happening × State) :=
  match s.agenda.findIdx? (·.overdue s.clock) with
  | some k => match s.agenda[k]? with
    | some h => some (h, { s with agenda := s.agenda.eraseIdx k, args := h.args })
    | none => none
  | none =>
    let k := s.picks.headD 0
    match s.agenda[k]? with
    | some h => some (h, { s with agenda := s.agenda.eraseIdx k, picks := s.picks.drop 1, args := h.args })
    | none => none
/-- A happening while the module stands in standby: only a module reset takes effect. -/
def State.standing (s : State) (h : Happening) : Bool := s.powered || h.what = .moduleReset

/-! ## A machine about to issue given words -/

/-- Where the words stand: an address of virtual function 0, and the physical page that its core's TLB gives it. -/
def fetchVa : DWord := 0x100000
def fetchPa : Nat := 0x200000
/-- A workgroup of one group with 32 active lanes at fetchVa, on core 0, with a handler address and one entry in its trough; the words are in
memory and in the group's buffer, on a page of a loaded object's code (DESIGN CHOICE, log 13). -/
def State.placeWords (s : State) (w0 w1 : DWord) : State :=
  let wg : Wg := { id := 1, grid := 1, ngroups := 1, regs := 192, trough := [0], bars := List.replicate 16 0, d := List.replicate 8 0, cways := 1
                   ch := List.replicate 4 0, wptr := List.replicate 4 0, tshape := List.replicate 8 0, xpValid := List.replicate 4 false
                   trapbase := fetchVa + 0x1000, token := true }
  let c := freshCtx 1 0 fetchVa (BitVec.allOnes 32)
  let c := { c with ibuf := [(fetchVa.toNat, w0), (fetchVa.toNat + 8, w1)] }
  let t : Tlb := { vfn := 0, va := fetchVa.toNat, bits := 16, pa := fetchPa, cls := 0, own := 0, w := true, x := true, bind := false, pers := false }
  let core : Core := { ways := .reserved 1 :: List.replicate 7 .lent, tlb := [t] }
  let grid : Grid := { id := 1, entry := fetchVa, placed := 1 }
  let obj : Object := { id := 1, base := fetchVa, size := 65536, kernels := [], keys := [], code := [(fetchVa.toNat, 65536)] }
  { s with powered := true, running := true, agenda := [], picks := [], issue := none, args := {}, cores := [(0, core)], wgs := [(1, wg)], grids := [(1, grid)], vfs := Tab.put s.vfs 0 { Tab.get {} s.vfs 0 with objects := [obj] }
           ctxs := [(c.key, c)], mem := Memory.writeN s.mem fetchPa (bytesLE 8 w0.toNat ++ bytesLE 8 w1.toNat), ids := max s.ids 2 }

end Sys2Proof.Machine
end

