-- ==== Sys2Proof/Machine/Step.lean ====
section
/-! DEFINITION. One step: the next happening of the agenda, or one issue slot. -/
namespace Sys2Proof.Machine

/-- A step of the machine (R1, R33). Where something is on the agenda, and the picks name it, it happens; otherwise an issue slot of a core
picks a word, which is decoded and executed, or raises the trap of a word that is no instruction. In standby nothing happens but a module
reset. -/
def step (s : State) : Host.Outcome State Fault Refusal :=
  match s.takeHappening with
  | some (h, t) => if t.standing h then exec h.what t else .next t
  | none =>
    if !s.powered then .fault .standby
    else
      match exec .issueCycle s with
      | .next t =>
        match t.issue with
        | none => .next t
        | some i =>
          match t.issuedWords i with
          | some (.ok x) => exec x t
          | some d => .next (t.badWord i d)
          | none => .next t
      | o => o

/-- s with an instruction's words where the next step fetches and issues them. -/
def State.withFetchWord (s : State) (nbits w : Nat) : State :=
  let v := w % 2 ^ nbits
  s.placeWords (BitVec.ofNat 64 v) (BitVec.ofNat 64 (v / 2 ^ 64))

end Sys2Proof.Machine
end

