-- ==== Sys2Proof/Safety.lean ====
section
/-! DEFINITION. What claims are stated in: an issue that can run, what a word leaves alone, and where its result goes. -/
namespace Sys2Proof.Machine

/-! ## A word that can run -/

/-- An issue is under way: its context exists, a handler's word has its handler, and the front has its 32 lanes. -/
structure Issuing (s : State) (i : Issue) : Prop where
  issue : s.issue = some i
  has : (Tab.find? s.ctxs i.ctx).isSome = true
  level : i.level = true → (s.ctx i.ctx).trap.isSome = true
  lanes : ((s.ctx i.ctx).frontAt i.level).lanes.length = 32

/-- Checks 2 to 7 of R160 pass for a form with this header, this kind of issuer, this operand plan and this queue. -/
def Passes (s : State) (i : Issue) (h : Hdr) (who : Issuer) (plan : Plan) (queue : Check := none) : Prop :=
  Form.check { h := h, opc := 0, who := who, plan := plan, queue := queue } s i = none

/-- Time at the issuing core. -/
def State.nowAt (s : State) (i : Issue) : Nat := (s.core (s.coreOf i.ctx)).time

/-! ## What a word leaves alone -/

/-- The registers of a context other than its PCs, latches, flags, FPSTAT and what is in flight. -/
structure Ctx.Keeps (a b : Ctx) : Prop where
  v : b.v = a.v
  p : b.p = a.p
  fpctl : b.fpctl = a.fpctl
  limit : b.limit = a.limit
  resv : b.resv = a.resv
  scFails : b.scFails = a.scFails
  streams : b.streams = a.streams
  waiting : b.waiting = a.waiting
  fences : b.fences = a.fences
  syncs : b.syncs = a.syncs
  ibuf : b.ibuf = a.ibuf
  copies : b.copies = a.copies
  collsCovered : b.collsCovered = a.collsCovered
  known : b.known = a.known
  told : b.told = a.told
  heard : b.heard = a.heard
  evicted : b.evicted = a.evicted
  trapRegs : b.trap.map (fun t => (t.regs, t.sibs, t.entered, t.demoted, t.dead)) = a.trap.map fun t => (t.regs, t.sibs, t.entered, t.demoted, t.dead)

/-- t is s but for the pipeline of the context k: every register, memory byte, scratchpad byte, cache word, queue, engine and function, and
every other context, is as in s; of k itself the registers of Ctx.Keeps; of the cores everything but their slot counts and the stall cycles of their issues. -/
structure Untouched (s t : State) (k : Nat) : Prop where
  clock : t.clock = s.clock
  powered : t.powered = s.powered
  running : t.running = s.running
  dies : t.dies = s.dies
  wgs : t.wgs = s.wgs
  grids : t.grids = s.grids
  coresident : t.coresident = s.coresident
  vfs : t.vfs = s.vfs
  pf : t.pf = s.pf
  mem : t.mem = s.mem
  cist : t.cist = s.cist
  fe : t.fe = s.fe
  cistBad : t.cistBad = s.cistBad
  views : t.views = s.views
  l1 : t.l1 = s.l1
  dir : t.dir = s.dir
  reqs : t.reqs = s.reqs
  accs : t.accs = s.accs
  jobs : t.jobs = s.jobs
  copies : t.copies = s.copies
  colls : t.colls = s.colls
  tokenq : t.tokenq = s.tokenq
  flash : t.flash = s.flash
  linkUp : t.linkUp = s.linkUp
  llc : t.llc = s.llc
  fresh : t.fresh = s.fresh
  svn : t.svn = s.svn
  rev : t.rev = s.rev
  picks : t.picks = s.picks
  answer : t.answer = s.answer
  agenda : ∀ h ∈ t.agenda, h ∈ s.agenda ∨ h.what = .fairnessTurn
  cores : ∀ c, ∃ n m, t.core c = { s.core c with slots := n, late := m }
  others : ∀ j, j ≠ k → t.ctx j = s.ctx j
  own : (s.ctx k).Keeps (t.ctx k)
  outstanding : (t.ctx k).outstanding = (s.ctx k).outstanding

/-- What a walk leaves of what it reads (R65, R346): an owner has written back and keeps its word as O, the word was read untracked, and nothing else
has changed: no byte has a value but the one it had, or that of its owner. -/
structure TablesRead (s t : State) : Prop where
  l1 : ∀ c w, w < 2 ^ 46 → t.l1w c w = s.l1w c w ∨ (((s.l1w c w).st = .m ∨ (s.l1w c w).st = .o) ∧ t.l1w c w = { s.l1w c w with st := .o, dirty := 0 })
  dir : ∀ w, t.dirWord w = s.dirWord w ∨ t.dirWord w = { s.dirWord w with u := true }
  mem : ∀ a, Memory.read t.mem a = Memory.read s.mem a ∨
    ∃ c, (s.l1w c (a / 4)).st = .m ∧ (s.l1w c (a / 4)).dirty.getLsbD (a % 4) = true ∧ Memory.read t.mem a = (s.l1w c (a / 4)).data.extractLsb' (8 * (a % 4)) 8

/-- The core or its die holds the translation that an access of a lane uses: it reads no table. -/
def Hits (s : State) (k : Nat) (va : DWord) : Prop :=
  match windowOf va with
  | .global => (s.tlbAt (s.coreOf k) (s.wgOf k).vfn va.toNat).isSome = true
  | .frame n o => ∀ g, s.chkLex k n o 1 false = .inl g → (s.tlbAt (s.coreOf k) (s.wgOf k).vfn g).isSome = true
  | _ => True

/-- An access of the context k has started, and no datum has been read, written or announced yet: t is s but for the pipeline of k, the access itself,
the translations that its core and die now hold, and, where one had to be found, what the walk left of the tables. -/
structure Pending (hit : Prop) (s t : State) (k : Nat) : Prop where
  clock : t.clock = s.clock
  powered : t.powered = s.powered
  running : t.running = s.running
  wgs : t.wgs = s.wgs
  grids : t.grids = s.grids
  vfs : t.vfs = s.vfs
  pf : t.pf = s.pf
  cist : t.cist = s.cist
  fe : t.fe = s.fe
  cistBad : t.cistBad = s.cistBad
  views : t.views = s.views
  llc : t.llc = s.llc
  reqs : t.reqs = s.reqs
  jobs : t.jobs = s.jobs
  copies : t.copies = s.copies
  colls : t.colls = s.colls
  cores : ∀ c, ∃ n m tlb sump, t.core c = { s.core c with slots := n, late := m, tlb := tlb, sump := sump }
  dies : ∀ d, ∃ tlb, Tab.get {} t.dies d = { Tab.get {} s.dies d with tlb := tlb }
  others : ∀ j, j ≠ k → ∃ r, t.ctx j = { s.ctx j with resv := r }
  own : ∃ r, ({ s.ctx k with resv := r } : Ctx).Keeps (t.ctx k)
  hits : hit → t.mem = s.mem ∧ t.l1 = s.l1 ∧ t.dir = s.dir ∧ (∀ j, j ≠ k → t.ctx j = s.ctx j) ∧ (s.ctx k).Keeps (t.ctx k)
  reads : Tab.wf {} s.l1 = true → Tab.wf {} s.dir = true → Memory.wf s.mem = true → TablesRead s t

/-- Nothing that a program can load has changed: memory, the scratchpads, every copy and the directory. -/
structure DataKept (s t : State) : Prop where
  mem : t.mem = s.mem
  cist : t.cist = s.cist
  l1 : t.l1 = s.l1
  dir : t.dir = s.dir
/-- No general register has changed, of any context or workgroup, nor any FPCTL. -/
structure RegsKept (s t : State) : Prop where
  v : ∀ k, (t.ctx k).v = (s.ctx k).v
  p : ∀ k, (t.ctx k).p = (s.ctx k).p
  fpctl : ∀ k, (t.ctx k).fpctl = (s.ctx k).fpctl
  sregs : ∀ w, (t.wg w).s = (s.wg w).s
/-- No register of a function has changed, and no grid. -/
structure FuncsKept (s t : State) : Prop where
  vfs : t.vfs = s.vfs
  pf : t.pf = s.pf
  grids : t.grids = s.grids

/-! ## Where the lanes go -/

/-- Every lane of the executing fragment becomes what g says; every other lane stays as it is. -/
def LanesBecome (s t : State) (i : Issue) (g : Nat → Lane → Lane) : Prop :=
  ∀ l, l < 32 → (t.front i.ctx i.level).lane l =
    if hasLane i.exec l then g l ((s.front i.ctx i.level).lane l) else (s.front i.ctx i.level).lane l
/-- The address after the word. -/
def Issue.after (i : Issue) : DWord := i.pc + BitVec.ofNat 64 i.size
def Lane.goto (x : Lane) (pc : DWord) : Lane := { x with pc := pc }
/-- Every executing lane goes to the next word. -/
def Advances (s t : State) (i : Issue) : Prop := LanesBecome s t i fun _ x => x.goto i.after

/-! ## Where a result goes -/

/-- A result of one or two registers in each acting lane (R153, R302): it stands in L0, and what the destination takes of it is in flight,
to be written after lat cycles; nothing else comes into flight; FPSTAT takes the flags at issue (DEDUCED, log 8). -/
structure Delivers (s t : State) (i : Issue) (act : Lanes) (wbs : Bool) (d : Reg) (wide : Bool) (lat : Nat) (val : Nat → DWord) (fl : Nat → Fl) : Prop where
  latch : ∀ l, hasLane act l = true → Tab.get 0 (nth {} (t.front i.ctx i.level).latches 0).vals l = if wide then val l else ((val l).setWidth 32).setWidth 64
  latchDue : (nth {} (t.front i.ctx i.level).latches 0).due = s.nowAt i + lat
  written : ∀ l, hasLane act l = true → ∀ w ∈ destWr (i.ctx % 32 == 16) l wide d (val l), wbs = false →
    ∃ p ∈ (t.ctx i.ctx).pends, p.due = some (s.nowAt i + lat) ∧ w ∈ p.wr
  only : ∀ p ∈ (t.ctx i.ctx).pends, p ∉ (s.ctx i.ctx).pends → ∀ w ∈ p.wr, wbs = false ∧ ∃ l, hasLane act l = true ∧ w ∈ destWr (i.ctx % 32 == 16) l wide d (val l)
  flags : (t.ctx i.ctx).fpstat = (s.ctx i.ctx).fpstat ||| ((lanesOf act).foldl (fun m l => m ||| fl l) 0).setWidth 32

/-- A predicate in each acting lane, likewise: L0 takes 1 or 0, and FPSTAT the flags (DEDUCED, log 8). -/
structure DeliversP (s t : State) (i : Issue) (act : Lanes) (n : Nat) (lat : Nat) (val : Nat → Bool) (fl : Nat → Fl) : Prop where
  latch : ∀ l, hasLane act l = true → Tab.get 0 (nth {} (t.front i.ctx i.level).latches 0).vals l = if val l then 1 else 0
  written : ∀ l, hasLane act l = true → ∃ p ∈ (t.ctx i.ctx).pends, p.due = some (s.nowAt i + lat) ∧ (⟨.p n l, if val l then 1 else 0⟩ : Wr) ∈ p.wr
  only : ∀ p ∈ (t.ctx i.ctx).pends, p ∉ (s.ctx i.ctx).pends → ∀ w ∈ p.wr, ∃ l, hasLane act l = true ∧ w = ⟨.p n l, if val l then 1 else 0⟩
  flags : (t.ctx i.ctx).fpstat = (s.ctx i.ctx).fpstat ||| ((lanesOf act).foldl (fun m l => m ||| fl l) 0).setWidth 32

/-- A form completes with a result: its lanes go on, its result is delivered, and nothing else changes. -/
def Computes (o : Out) (s : State) (i : Issue) (h : Hdr) (d : Reg) (wide : Bool) (lat : Nat) (val : Nat → DWord) (fl : Nat → Fl := fun _ => 0) : Prop :=
  ∃ t, o = .next t ∧ Untouched s t i.ctx ∧ Advances s t i ∧ Delivers s t i (guardMask s i h) h.wbs d wide lat val fl

/-- A form completes without a result: what base says happens, and nothing else; its lanes become what g says, L0 takes zeros (R153), and nothing that
writes a register comes into flight. -/
structure Leaves (s base t : State) (i : Issue) (g : Nat → Lane → Lane) : Prop where
  frame : Untouched base t i.ctx
  lanes : LanesBecome s t i g
  latch : ∀ l, Tab.get 0 (nth {} (t.front i.ctx i.level).latches 0).vals l = 0
  flight : ∀ p ∈ (t.ctx i.ctx).pends, p ∈ (base.ctx i.ctx).pends ∨ p.wr = [] ∧ p.elems = []
  fpstat : (t.ctx i.ctx).fpstat = (base.ctx i.ctx).fpstat
def Does (o : Out) (s base : State) (i : Issue) (g : Nat → Lane → Lane := fun _ x => x.goto i.after) : Prop := ∃ t, o = .next t ∧ Leaves s base t i g

end Sys2Proof.Machine
end

