-- ==== Sys2Proof/Certificates/Slice0/Obligations.lean ====
section
/-! DEFINITION. The statements for the provers, with the tables of rules that they quantify over. -/
open Sys2Proof Sys2Proof.Machine

/-! ## Integer rules (R168, R169) on bit vectors of the operand width -/
namespace Sys2Proof.Rules

def clampInt (lo hi x : Int) : Int := max lo (min hi x)
/-- .SAT: the exact result x, clamped to the signed or unsigned range of w bits. -/
def saturate (us : Bool) (w : Nat) (x : Int) : BitVec w :=
  if us then BitVec.ofInt w (clampInt 0 (2 ^ w - 1) x) else BitVec.ofInt w (clampInt (-(2 ^ (w - 1))) (2 ^ (w - 1) - 1) x)
def valueOf (us : Bool) {w : Nat} (a : BitVec w) : Int := if us then a.toNat else a.toInt

/-- One instruction of two sources, in its register form and its immediate form: whether .64 widens source B, whether it reads its
destination, and its value for sources A, B and D of w bits. -/
structure IntRule where
  form : IntR → Instr
  imm : Option (IntX → Instr)
  wideB : Bool
  readD : Bool
  value : (w : Nat) → IntMod → BitVec w → BitVec w → BitVec w → BitVec w

def intRules : List IntRule := [
  ⟨.iadd, some .iaddX, true, false, fun w m a b _ => if m.sat then saturate m.us w (valueOf m.us a + valueOf m.us b) else a + b⟩,
  ⟨.isub, some .isubX, true, false, fun w m a b _ => if m.sat then saturate m.us w (valueOf m.us a - valueOf m.us b) else a - b⟩,
  ⟨.imul, some .imulX, true, false, fun _ _ a b _ => a * b⟩,
  ⟨.imulh, some .imulhX, true, false, fun w m a b _ => BitVec.ofInt w (valueOf m.us a * valueOf m.us b / 2 ^ w)⟩,
  ⟨.imad, none, true, true, fun _ _ a b d => a * b + d⟩,
  ⟨.imin, some .iminX, true, false, fun _ m a b _ => if valueOf m.us b < valueOf m.us a then b else a⟩,
  ⟨.imax, some .imaxX, true, false, fun _ m a b _ => if valueOf m.us a < valueOf m.us b then b else a⟩,
  ⟨.and, some .andX, true, false, fun _ _ a b _ => a &&& b⟩,
  ⟨.or, some .orX, true, false, fun _ _ a b _ => a ||| b⟩,
  ⟨.xor, some .xorX, true, false, fun _ _ a b _ => a ^^^ b⟩,
  ⟨.andn, some .andnX, true, false, fun _ _ a b _ => a &&& ~~~b⟩,
  ⟨.shl, some .shlX, false, false, fun w _ a b _ => a <<< (b.toNat % w)⟩,
  ⟨.shr, some .shrX, false, false, fun w _ a b _ => a >>> (b.toNat % w)⟩,
  ⟨.sar, some .sarX, false, false, fun w _ a b _ => a.sshiftRight (b.toNat % w)⟩]

/-- BFX and BFI: START is B[4:0], LEN is B[13:8], at most 32. -/
def bitField (len : Nat) (st : Nat) : Word := ((BitVec.allOnes (min len (32 - st))).setWidth 32) <<< st
def fieldRules : List IntRule := [
  ⟨.bfx, some .bfxX, false, false, fun w m a b _ =>
    let f := a.extractLsb' (b.toNat % 32) (min (b.toNat / 256 % 64) 32)
    if m.us then f.signExtend w else f.setWidth w⟩,
  ⟨.bfi, some .bfiX, false, true, fun w _ a b d =>
    let m := (bitField (min (b.toNat / 256 % 64) 32) (b.toNat % 32)).setWidth w
    a <<< (b.toNat % 32) &&& m ||| d &&& ~~~m⟩]

/-- A value of the form's width, zero-extended into 64 bits. -/
def atWidth (w64 : Bool) (f : (w : Nat) → BitVec w → BitVec w → BitVec w → BitVec w) (a b d : DWord) : DWord :=
  if w64 then f 64 a b d else (f 32 (a.setWidth 32) (b.setWidth 32) (d.setWidth 32)).setWidth 64
/-- The operands of an integer form (R153, R168). -/
def intPlan (x : IntR) (r : IntRule) : Plan :=
  { srcs := [(x.a, if x.m.w64 then 2 else 1), (x.b, if r.wideB && x.m.w64 then 2 else 1)] ++ (if r.readD then [(x.d, if x.m.w64 then 2 else 1)] else [])
    dsts := [(x.d, if x.m.w64 then 2 else 1)], wbs := x.h.wbs }
def intPlanX (x : IntX) (r : IntRule) : Plan :=
  { srcs := [(x.a, if x.m.w64 then 2 else 1)] ++ (if r.readD then [(x.d, if x.m.w64 then 2 else 1)] else [])
    dsts := [(x.d, if x.m.w64 then 2 else 1)], wbs := x.h.wbs }

/-- Instructions of one source: whether .64 widens the result. -/
structure OneRule where
  form : IntU → Instr
  wideD : Bool
  value : (w : Nat) → IntMod → BitVec w → BitVec w
def oneRules : List OneRule := [
  ⟨.iabs, true, fun w m a => if m.sat && a == BitVec.intMin w then BitVec.intMax w else if a.msb then -a else a⟩,
  ⟨.popc, false, fun w _ a => BitVec.ofNat w ((List.range w).countP a.getLsbD)⟩,
  ⟨.clz, false, fun _ _ a => a.clz⟩,
  ⟨.brev, true, fun _ _ a => a.reverse⟩]

end Sys2Proof.Rules
open Sys2Proof.Rules

/-- R168: every integer instruction of two sources, in each acting lane, for .32 and .64, wrapping, saturating and unsigned; four cycles. -/
def Sys2Proof.Rules.IntegerRegisters : Prop :=
  ∀ r ∈ intRules, ∀ (x : IntR) (s : State) (i : Issue), Issuing s i → Passes s i x.h .both (intPlan x r) →
    Computes (exec (r.form x) s) s i x.h x.d x.m.w64 4 fun l =>
      atWidth x.m.w64 (fun w => r.value w x.m) (readReg s i l x.m.w64 x.a) (readReg s i l (r.wideB && x.m.w64) x.b) (readReg s i l x.m.w64 x.d)

/-- R159: the same with an immediate, sign-extended to the width of source B. -/
def Sys2Proof.Rules.IntegerImmediates : Prop :=
  ∀ r ∈ intRules, ∀ f, r.imm = some f → ∀ (x : IntX) (s : State) (i : Issue), Issuing s i → Passes s i x.h .both (intPlanX x r) →
    Computes (exec (f x) s) s i x.h x.d x.m.w64 4 fun l =>
      atWidth x.m.w64 (fun w => r.value w x.m) (readReg s i l x.m.w64 x.a) (if r.wideB then x.imm.signExtend 64 else x.imm.setWidth 64) (readReg s i l x.m.w64 x.d)

/-- R159, R168: the integer instructions of two sources, with a register and with an immediate. -/
def Obligations.IntegerTwoSources : Prop := Rules.IntegerRegisters ∧ Rules.IntegerImmediates

/-- R169: the bit-field instructions, of 32 bits. -/
def Sys2Proof.Rules.BitFields : Prop :=
  ∀ r ∈ fieldRules,
    (∀ (x : IntR) (s : State) (i : Issue), x.m.w64 = false → Issuing s i → Passes s i x.h .both (intPlan x r) →
      Computes (exec (r.form x) s) s i x.h x.d false 4 fun l =>
        atWidth false (fun w => r.value w x.m) (readReg s i l false x.a) (readReg s i l false x.b) (readReg s i l false x.d)) ∧
    ∀ f, r.imm = some f → ∀ (x : IntX) (s : State) (i : Issue), x.m.w64 = false → Issuing s i → Passes s i x.h .both (intPlanX x r) →
      Computes (exec (f x) s) s i x.h x.d false 4 fun l =>
        atWidth false (fun w => r.value w x.m) (readReg s i l false x.a) (x.imm.setWidth 64) (readReg s i l false x.d)

/-- R168: IABS, POPC, CLZ and BREV. -/
def Sys2Proof.Rules.IntegerOneSource : Prop :=
  ∀ r ∈ oneRules, ∀ (x : IntU) (s : State) (i : Issue), Issuing s i →
    Passes s i x.h .both { srcs := [(x.a, if x.m.w64 then 2 else 1)], dsts := [(x.d, if r.wideD && x.m.w64 then 2 else 1)], wbs := x.h.wbs } →
      Computes (exec (r.form x) s) s i x.h x.d (r.wideD && x.m.w64) 4 fun l =>
        atWidth x.m.w64 (fun w a _ _ => r.value w x.m a) (readReg s i l x.m.w64 x.a) 0 0

/-- R168, R169: the bit-field instructions and the integer instructions of one source. -/
def Obligations.BitFieldsAndOneSource : Prop := Rules.BitFields ∧ Rules.IntegerOneSource

/-- R170: LEA adds the shifted index, sign- or zero-extended, to a 64-bit base; to ZERO it completes and writes no register (DEDUCED, log 59). -/
def Obligations.LoadEffectiveAddress : Prop :=
  ∀ (x : LeaF) (s : State) (i : Issue), Issuing s i → Passes s i x.h .both { srcs := [(x.a, 2), (x.b, 1)], dsts := [(x.d, 2)], wbs := x.h.wbs } →
    Computes (exec (.lea x) s) s i x.h x.d true 4 fun l =>
      src64 s i l x.a + (if x.sx then (src32 s i l x.b).signExtend 64 else (src32 s i l x.b).setWidth 64) <<< x.sh.toNat

/-! ## Predicates -/
namespace Sys2Proof.Rules
/-- A form completes with a predicate: its lanes go on, the predicate is delivered, and nothing else changes. -/
def ComputesP (o : Out) (s : State) (i : Issue) (h : Hdr) (n : Nat) (val : Nat → Bool) (fl : Nat → Fl := fun _ => 0) : Prop :=
  ∃ t, o = .next t ∧ Untouched s t i.ctx ∧ Advances s t i ∧ DeliversP s t i (guardMask s i h) n 4 val fl
/-- R171: whether a condition compares 64-bit sources, and whether it holds. -/
def condWide (c : ICond) : Bool := match c with | .eq64 | .ne64 | .lt64 | .ge64 | .ltu64 | .geu64 => true | _ => false
def condHolds (c : ICond) (a b : DWord) : Bool :=
  let p : Word := a.setWidth 32
  let q : Word := b.setWidth 32
  match c with
  | .eq => p == q
  | .ne => p != q
  | .lt => p.slt q
  | .le => !q.slt p
  | .gt => q.slt p
  | .ge => !p.slt q
  | .ltu => p.ult q
  | .leu => !q.ult p
  | .gtu => q.ult p
  | .geu => !p.ult q
  | .eq64 => a == b
  | .ne64 => a != b
  | .lt64 => a.slt b
  | .ge64 => !a.slt b
  | .ltu64 => a.ult b
  | .geu64 => !a.ult b
end Sys2Proof.Rules

/-- R171: ICMP writes a predicate in each acting lane, and L0 takes 1 or 0; with an immediate, sign-extended for a 64-bit condition. -/
def Sys2Proof.Rules.IntegerCompare : Prop :=
  (∀ (x : IcmpF) (s : State) (i : Issue), Issuing s i →
    Passes s i x.h .both { srcs := [(x.a, if condWide x.cond then 2 else 1), (x.b, if condWide x.cond then 2 else 1)], pdst := [x.p.toNat] } →
      ComputesP (exec (.icmp x) s) s i x.h x.p.toNat fun l => condHolds x.cond (readReg s i l (condWide x.cond) x.a) (readReg s i l (condWide x.cond) x.b)) ∧
  ∀ (x : IcmpX) (s : State) (i : Issue), Issuing s i → Passes s i x.h .both { srcs := [(x.a, if condWide x.cond then 2 else 1)], pdst := [x.p.toNat] } →
      ComputesP (exec (.icmpX x) s) s i x.h x.p.toNat fun l => condHolds x.cond (readReg s i l (condWide x.cond) x.a) (x.imm.signExtend 64)

/-- R173, R180: MOVI, MOV and MOVS. -/
def Sys2Proof.Rules.Moves : Prop :=
  (∀ (x : MoviF) (s : State) (i : Issue), Issuing s i → Passes s i x.h .both { dsts := [(x.d, if x.w64 then 2 else 1)], wbs := x.h.wbs } →
      Computes (exec (.movi x) s) s i x.h x.d x.w64 4 fun _ => x.imm.signExtend 64) ∧
  (∀ (x : MoviX) (s : State) (i : Issue), Issuing s i → Passes s i x.h .both { dsts := [(x.d, if x.w64 then 2 else 1)], wbs := x.h.wbs } →
      Computes (exec (.moviX x) s) s i x.h x.d x.w64 4 fun _ => x.imm.signExtend 64) ∧
  (∀ (x : MovF) (s : State) (i : Issue), Issuing s i → Passes s i x.h .both { srcs := [(x.a, if x.w64 then 2 else 1)], dsts := [(x.d, if x.w64 then 2 else 1)], wbs := x.h.wbs } →
      Computes (exec (.mov x) s) s i x.h x.d x.w64 4 fun l => readReg s i l x.w64 x.a) ∧
  ∀ (x : MovF) (s : State) (i : Issue), Issuing s i → Passes s i x.h .groups { srcs := [(x.a, if x.w64 then 2 else 1)], dsts := [(x.d, if x.w64 then 2 else 1)], wbs := x.h.wbs } →
      Computes (exec (.movs x) s) s i x.h x.d x.w64 6 fun _ => readReg s i (lowestLane (guardMask s i x.h)) x.w64 x.a

/-- R171, R173, R180: ICMP, MOVI, MOV and MOVS. -/
def Obligations.CompareAndMove : Prop := Rules.IntegerCompare ∧ Rules.Moves

/-! ## Floating-point rules -/
namespace Sys2Proof.Rules

/-- One instruction of two sources, or three with its destination, on 32-bit registers. -/
structure FpRule where
  form : FpR → Instr
  readD : Bool
  value : FpCtl → Nat → Nat → Nat → Nat × Fl
/-- R174, R179: one exact operation and one rounding, in FP32 or in each half. -/
def fpRules : List FpRule := [
  ⟨.fadd, false, fun c a b _ => fp32.add c a b⟩,
  ⟨.fsub, false, fun c a b _ => fp32.sub c a b⟩,
  ⟨.fmul, false, fun c a b _ => fp32.mul c a b⟩,
  ⟨.ffma, true, fun c a b d => fp32.fma c a b d⟩,
  ⟨.hadd2, false, fun c a b _ => halves (fun p q _ => fp16.add c p q) a b 0⟩,
  ⟨.hmul2, false, fun c a b _ => halves (fun p q _ => fp16.mul c p q) a b 0⟩,
  ⟨.hfma2, true, fun c a b d => halves (fun p q r => fp16.fma c p q r) a b d⟩,
  ⟨.badd2, false, fun c a b _ => halves (fun p q _ => bf16.add c p q) a b 0⟩,
  ⟨.bmul2, false, fun c a b _ => halves (fun p q _ => bf16.mul c p q) a b 0⟩,
  ⟨.bfma2, true, fun c a b d => halves (fun p q r => bf16.fma c p q r) a b d⟩]
/-- One instruction of one source: its rounding, its latency and its value. -/
structure FpOneRule where
  form : Instr
  h : Hdr
  rm : RmSel
  d : Reg
  a : Reg
  lat : Nat
  value : FpCtl → Nat → Nat × Fl
/-- R177, R178, R181, R182. -/
def fpOneRules (x : FpV) (y : FpU) (z : FcvtF) : List FpOneRule := [
  ⟨.frcp x, x.h, .dyn, x.d, x.a, 8, fun c a => frcp c.ftz a⟩,
  ⟨.frsq x, x.h, .dyn, x.d, x.a, 8, fun c a => frsq c.ftz a⟩,
  ⟨.fsqrt y, y.h, y.rm, y.d, y.a, 8, fsqrt⟩,
  ⟨.fexp2 x, x.h, .dyn, x.d, x.a, 8, fun c a => fexp2 c.ftz a⟩,
  ⟨.flog2 x, x.h, .dyn, x.d, x.a, 8, fun c a => flog2 c.ftz a⟩,
  ⟨.fsin x, x.h, .dyn, x.d, x.a, 8, fun c a => fsin c.ftz a⟩,
  ⟨.fcos x, x.h, .dyn, x.d, x.a, 8, fun c a => fcos c.ftz a⟩,
  ⟨.frnd y, y.h, y.rm, y.d, y.a, 4, frnd⟩,
  ⟨.fclass x, x.h, .dyn, x.d, x.a, 4, fun _ a => (fclass a, 0)⟩,
  ⟨.f2i y, y.h, y.rm, y.d, y.a, 4, f2i⟩,
  ⟨.i2f y, y.h, y.rm, y.d, y.a, 4, fun c a => i2f c.rm a⟩,
  ⟨.fcvt z, z.h, z.rm, z.d, z.a, 4, fun c a => fcvt z.conv c z.nsat a⟩]
/-- The rounding and flush a word takes from its MOD bits and FPCTL (R132). -/
def roundingOf (s : State) (i : Issue) (rm : RmSel) : FpCtl :=
  let c := (s.ctx i.ctx).fpctl
  { rm := match rm with | .rne => .rne | .rz => .rz | .ru => .ru | .rd => .rd | .dyn => Rm.ofCode (c.toNat % 4), ftz := c.getLsbD 2 }
end Sys2Proof.Rules

/-- R174, R179: FP32 arithmetic and the packed halves, with the rounding of R132 and the flags of R134. -/
def Sys2Proof.Rules.FloatingTwoAndThreeSources : Prop :=
  ∀ r ∈ fpRules, ∀ (x : FpR) (s : State) (i : Issue), Issuing s i →
    Passes s i x.h .both { srcs := [(x.a, 1), (x.b, 1)] ++ (if r.readD then [(x.d, 1)] else []), dsts := [(x.d, 1)], wbs := x.h.wbs } →
      Computes (exec (r.form x) s) s i x.h x.d false 4
        (fun l => BitVec.ofNat 64 (r.value (roundingOf s i x.rm) (src32 s i l x.a).toNat (src32 s i l x.b).toNat (src32 s i l x.d).toNat).1)
        (fun l => (r.value (roundingOf s i x.rm) (src32 s i l x.a).toNat (src32 s i l x.b).toNat (src32 s i l x.d).toNat).2)

/-- R159, R174: an immediate is an FP32 bit pattern. -/
def Sys2Proof.Rules.FloatingImmediates : Prop :=
  ∀ r ∈ [(Instr.faddX, fp32.add), (Instr.fsubX, fp32.sub), (Instr.fmulX, fp32.mul)], ∀ (x : FpX) (s : State) (i : Issue), Issuing s i →
    Passes s i x.h .both { srcs := [(x.a, 1)], dsts := [(x.d, 1)], wbs := x.h.wbs } →
      Computes (exec (r.1 x) s) s i x.h x.d false 4
        (fun l => BitVec.ofNat 64 (r.2 (roundingOf s i x.rm) (src32 s i l x.a).toNat x.imm.toNat).1)
        (fun l => (r.2 (roundingOf s i x.rm) (src32 s i l x.a).toNat x.imm.toNat).2)

/-- R159, R174, R179: FP32 arithmetic and the packed halves, and their immediate forms. -/
def Obligations.FloatingArithmetic : Prop := Rules.FloatingTwoAndThreeSources ∧ Rules.FloatingImmediates

/-- R175, R176: FMIN, FMAX and FCMP. -/
def Obligations.FloatingOrder : Prop :=
  (∀ (isMax : Bool) (x : FpM) (s : State) (i : Issue), Issuing s i → Passes s i x.h .both { srcs := [(x.a, 1), (x.b, 1)], dsts := [(x.d, 1)], wbs := x.h.wbs } →
    Computes (exec (if isMax then .fmax x else .fmin x) s) s i x.h x.d false 4
      (fun l => BitVec.ofNat 64 (fp32.minMax isMax ((s.ctx i.ctx).fpctl.getLsbD 2) (src32 s i l x.a).toNat (src32 s i l x.b).toNat).1)
      (fun l => (fp32.minMax isMax ((s.ctx i.ctx).fpctl.getLsbD 2) (src32 s i l x.a).toNat (src32 s i l x.b).toNat).2)) ∧
  ∀ (x : FcmpF) (s : State) (i : Issue), Issuing s i → Passes s i x.h .both { srcs := [(x.a, 1), (x.b, 1)], pdst := [x.p.toNat] } →
    ComputesP (exec (.fcmp x) s) s i x.h x.p.toNat
      (fun l => (Machine.fcmp x.cond ((s.ctx i.ctx).fpctl.getLsbD 2) (src32 s i l x.a).toNat (src32 s i l x.b).toNat).1)
      (fun l => (Machine.fcmp x.cond ((s.ctx i.ctx).fpctl.getLsbD 2) (src32 s i l x.a).toNat (src32 s i l x.b).toNat).2)

/-- R177, R178, R181, R182: the transcendentals in eight cycles, FRND, FCLASS and the conversions in four. -/
def Obligations.FloatingOneSource : Prop :=
  ∀ (x : FpV) (y : FpU) (z : FcvtF), ∀ r ∈ fpOneRules x y z, ∀ (s : State) (i : Issue), Issuing s i →
    Passes s i r.h .both { srcs := [(r.a, 1)], dsts := [(r.d, 1)], wbs := r.h.wbs } →
      Computes (exec r.form s) s i r.h r.d false r.lat
        (fun l => BitVec.ofNat 64 (r.value (roundingOf s i r.rm) (src32 s i l r.a).toNat).1)
        (fun l => (r.value (roundingOf s i r.rm) (src32 s i l r.a).toNat).2)

namespace Sys2Proof.Rules
/-- R175: ∞ × 0, a subnormal source counting as zero under FTZ (R132). -/
def infTimesZero (c : FpCtl) (a b : Nat) : Bool :=
  match fp32.src c.ftz a, fp32.src c.ftz b with
  | .inf _, y => y.isZero
  | x, .inf _ => x.isZero
  | _, _ => false
end Sys2Proof.Rules

/-- R129, R175: a NaN operand of FADD, FSUB, FMUL or FFMA, D of FFMA among them, gives the canonical NaN 0x7FC00000, and sets IV exactly for a signalling
one, or where FFMA multiplies infinity by zero; and none of them ever gives another NaN. -/
def Obligations.CanonicalNan : Prop :=
  ∀ r ∈ fpRules.take 4, ∀ (c : FpCtl) (a b d : Nat),
    ((fp32.val a).isNan = true ∨ (fp32.val b).isNan = true ∨ (r.readD = true ∧ (fp32.val d).isNan = true) →
      r.value c a b d = (0x7FC00000,
        if (fp32.val a).isSNan || (fp32.val b).isSNan || (r.readD && ((fp32.val d).isSNan || infTimesZero c a b)) then fIV else 0)) ∧
    ((fp32.val (r.value c a b d).1).isNan = true → (r.value c a b d).1 = 0x7FC00000)

/-- R132, R174: rounding to nearest. A magnitude m, cut at sh bits, becomes the nearest multiple, the even one at a tie; it is inexact exactly
when bits are lost. -/
def Obligations.RoundsToNearestEven : Prop :=
  ∀ (neg : Bool) (m sh : Nat) (e : Int), 0 < sh →
    let r := roundTo .rne neg m e false (e + sh)
    2 * r.1 * 2 ^ sh ≤ 2 * m + 2 ^ sh ∧ 2 * m ≤ 2 * r.1 * 2 ^ sh + 2 ^ sh ∧
    (2 * r.1 * 2 ^ sh = 2 * m + 2 ^ sh ∨ 2 * m = 2 * r.1 * 2 ^ sh + 2 ^ sh → r.1 % 2 = 0) ∧ (r.2 = true ↔ m % 2 ^ sh ≠ 0)

/-! ## Lane exchange, reductions, blocks -/
namespace Sys2Proof.Rules

/-- R186: the lane that SHFL reads for lane l with source B = b; none where it lies outside 0 to 31. -/
def shuffleFrom (m : ShflMode) (l : Nat) (b : Word) : Option Nat :=
  match m with
  | .idx => some (b.toNat % 32)
  | .up => if b.toNat ≤ l then some (l - b.toNat) else none
  | .dn => if l + b.toNat ≤ 31 then some (l + b.toNat) else none
  | .xor => some (Nat.xor l (b.toNat % 32))
/-- R188: the lane at which the segment of a contributing lane begins: the last marked lane up to it, else the lowest contributing lane. -/
def segmentOf (act : Lanes) (marked : Nat → Bool) (l : Nat) : Nat :=
  match ((lanesOf act).filter fun k => k ≤ l && marked k).getLast? with
  | some k => k
  | none => lowestLane act
/-- The contributing lanes of lane l's segment. -/
def segment (act : Lanes) (marked : Nat → Bool) (l : Nat) : List Nat := (lanesOf act).filter fun k => segmentOf act marked k = segmentOf act marked l
/-- The integer combinations whose result does not depend on order (R137, R188), from their identity. -/
def reduceInt (op : RedOp) : Option ((DWord → DWord → DWord) × DWord) :=
  match op with
  | .addI32 => some (fun a b => ((a + b).setWidth 32).setWidth 64, 0)
  | .addI64 => some (fun a b => a + b, 0)
  | .and => some (fun a b => a &&& b, 0xFFFFFFFF)
  | .or => some (fun a b => a ||| b, 0)
  | .xor => some (fun a b => a ^^^ b, 0)
  | _ => none
def redPlan (x : RedF) : Plan :=
  let n := if x.op = .addI64 then 2 else 1
  { srcs := [(x.a, n), (x.b, n)], dsts := [(x.d, n)], wbs := x.h.wbs }
end Sys2Proof.Rules

/-- R186: SHFL. A lane whose source lane is outside 0 to 31, or does not contribute, receives its own value; six cycles. That source B of .UP and .DN is
an unsigned offset is the model's reading (DEDUCED, log 62). -/
def Sys2Proof.Rules.Shuffle : Prop :=
  ∀ (x : ShflF) (s : State) (i : Issue), Issuing s i →
    Passes s i x.h .groups { srcs := [(x.a, if x.w64 then 2 else 1), (x.b, 1)], dsts := [(x.d, if x.w64 then 2 else 1)], wbs := x.h.wbs } →
      Computes (exec (.shfl x) s) s i x.h x.d x.w64 6 fun l =>
        readReg s i (match shuffleFrom x.mode l (src32 s i l x.b) with
          | some k => if hasLane (guardMask s i x.h) k then k else l
          | none => l) x.w64 x.a

/-- R187: VOTE gives every contributing lane one result; six cycles. -/
def Sys2Proof.Rules.Vote : Prop :=
  ∀ (x : VoteF) (s : State) (i : Issue), Issuing s i → Passes s i x.h .groups { srcs := [(x.a, 1)], dsts := [(x.d, 1)], wbs := x.h.wbs } →
    let act := guardMask s i x.h
    ∃ v : Word, Computes (exec (.vote x) s) s i x.h x.d false 6 (fun _ => v.setWidth 64) ∧
      match x.mode with
      | .ballot => ∀ l, l < 32 → (v.getLsbD l = true ↔ hasLane act l = true ∧ src32 s i l x.a ≠ 0)
      | .any => v.toNat ≤ 1 ∧ (v = 1 ↔ ∃ l, hasLane act l = true ∧ src32 s i l x.a ≠ 0)
      | .all => v.toNat ≤ 1 ∧ (v = 1 ↔ ∀ l, hasLane act l = true → src32 s i l x.a ≠ 0)
      | .uni => v.toNat ≤ 1 ∧ (v = 1 ↔ ∀ l k, hasLane act l = true → hasLane act k = true → src32 s i l x.a = src32 s i k x.a)

/-- R186, R187: SHFL and VOTE. -/
def Obligations.LaneExchange : Prop := Rules.Shuffle ∧ Rules.Vote

/-- R137, R188: REDG and SCANG of every operation: the fixed tree, over the lane's segment, and its prefix; ten cycles. -/
def Obligations.Reductions : Prop :=
  ∀ (x : RedF) (s : State) (i : Issue), Issuing s i → Passes s i x.h .groups (redPlan x) →
    let act := guardMask s i x.h
    let w := decide (x.op = .addI64)
    let f := redCombine x.op (s.ctx i.ctx).fpctl
    let v (l k : Nat) : Option Nat := if k ∈ segment act (fun j => readReg s i j w x.b ≠ 0) l then some (readReg s i k w x.a).toNat else none
    Computes (exec (.redg x) s) s i x.h x.d w 10 (fun l => BitVec.ofNat 64 ((sumNode f (v l) 0 5).1.getD 0)) (fun l => (sumNode f (v l) 0 5).2) ∧
    Computes (exec (.scang x) s) s i x.h x.d w 10 (fun l => BitVec.ofNat 64 ((sumPrefix f (v l) (l + 1)).1.getD 0)) (fun l => (sumPrefix f (v l) (l + 1)).2)

/-- R137, R188: integer sums and bitwise combinations do not depend on the tree: REDG gives the combination of the lane's segment, and SCANG
that of the segment's lanes up to the lane. -/
def Obligations.IntegerReductionsIgnoreOrder : Prop :=
  ∀ (x : RedF) (f : (DWord → DWord → DWord)) (z : DWord), reduceInt x.op = some (f, z) →
    ∀ (s : State) (i : Issue), Issuing s i → Passes s i x.h .groups (redPlan x) →
      let act := guardMask s i x.h
      let w := decide (x.op = .addI64)
      let seg (l : Nat) := segment act (fun j => readReg s i j w x.b ≠ 0) l
      Computes (exec (.redg x) s) s i x.h x.d w 10 (fun l => (seg l).foldl (fun m k => f m (readReg s i k w x.a)) z) ∧
      Computes (exec (.scang x) s) s i x.h x.d w 10 (fun l => ((seg l).filter (· ≤ l)).foldl (fun m k => f m (readReg s i k w x.a)) z)

namespace Sys2Proof.Rules
/-- The 128 source slots of a half-group (R183): eight in each lane; a lane that does not contribute holds zeros. -/
def halfSlots (act : Lanes) (half : Nat) (slot : Nat → Nat → Nat) (j : Nat) : Nat :=
  let l := 16 * half + j / 8
  if hasLane act l then slot l (j % 8) else 0
def contributes (act : Lanes) (half : Nat) : Bool := (lanesOf act).any fun l => l / 16 = half
end Sys2Proof.Rules

/-- R183, R184: QPACK makes a block of each half-group's FP32 values, eight slots in each lane's result, and QUNPK its values, in eight registers
of each lane; ten cycles. That L0 after QUNPK holds the lane's eight values, the first in the lowest bits, is the model's reading (DEDUCED, log 32). -/
def Obligations.BlockConversions : Prop :=
  ∀ (x : FpR) (s : State) (i : Issue), Issuing s i →
    let act := guardMask s i x.h
    let c := roundingOf s i x.rm
    (Passes s i x.h .groups { srcs := [(x.a, 8), (x.b, 1)], dsts := [(x.d, 1)], wbs := x.h.wbs } →
      let half (k : Nat) := if contributes act k then packHalf c (halfScale s i act x.b k) (halfSlots act k fun l j => (src32 s i l (regPlus x.a j)).toNat) else ([], 0)
      Computes (exec (.qpack x) s) s i x.h x.d false 10
        (fun l => BitVec.ofNat 64 ((List.range 8).foldl (fun m k => m + nth 0 (half (l / 16)).1 (8 * (l % 16) + k) * 16 ^ k) 0))
        (fun l => (half (l / 16)).2)) ∧
    (Passes s i x.h .groups { srcs := [(x.a, 1), (x.b, 1)], dsts := [(x.d, 8)], wbs := x.h.wbs } →
      let half (k : Nat) := if contributes act k then unpackHalf c (halfScale s i act x.b k) (halfSlots act k fun l j => (src32 s i l x.a).toNat / 16 ^ j % 16) else ([], 0)
      let val (l k : Nat) : Nat × Fl := nth (0, 0) (half (l / 16)).1 (8 * (l % 16) + k)
      let w (l k : Nat) : Word := BitVec.ofNat 32 (val l k).1
      ∃ t, exec (.qunpk x) s = .next t ∧ Untouched s t i.ctx ∧ Advances s t i ∧
        (∀ l, hasLane act l = true → Tab.get 0 (nth {} (t.front i.ctx i.level).latches 0).vals l = w l 1 ++ w l 0 ∧
          Tab.get 0 (nth {} (t.front i.ctx i.level).latches 0).high l = w l 7 ++ w l 6 ++ w l 5 ++ w l 4 ++ w l 3 ++ w l 2) ∧
        (t.ctx i.ctx).fpstat = (s.ctx i.ctx).fpstat |||
          ((lanesOf act).foldl (fun m l => (List.range 8).foldl (fun m k => m ||| (val l k).2) (m ||| (half (l / 16)).2)) 0).setWidth 32 ∧
        ∀ l, hasLane act l = true → ∀ n, x.d = .v n → ∀ k, k < 8 → x.h.wbs = false →
          ∃ p ∈ (t.ctx i.ctx).pends, p.due = some (s.nowAt i + 10) ∧ (⟨.v l (n.val + k), BitVec.ofNat 64 (val l k).1⟩ : Wr) ∈ p.wr)

/-! ## Taking an exception -/
namespace Sys2Proof.Rules
/-- R284: TCAUSE: the cause, the chain offset of the word, and DETAIL. -/
def tcause (cause detail off : Nat) : Word := BitVec.ofNat 32 (detail * 1024 + off * 256 + cause)
/-- A precise trap of lanes of the executing fragment of a context outside trap level (R284, R286, R290, R307): the lanes are parked at TPC, the word or
the head of its chain; a lane outside the fragment stays as it is, unless it stands inside an open chain, whose head it may go back to; the handler runs for them from TRAPBASE, with flags and latches zero; TSIBS names the group's other live lanes; and no
general register, memory byte or function register changes. -/
structure Enters (s t : State) (i : Issue) (lanes : Lanes) (cause : Word) (addr : DWord) : Prop where
  regs : RegsKept s t
  data : DataKept s t
  fe : t.fe = s.fe
  parked : ∀ l, l < 32 → hasLane lanes l = true → ((t.ctx i.ctx).front.lane l).st = .parked none ∧ ((t.ctx i.ctx).front.lane l).pc = i.head
  others : ∀ l, l < 32 → hasLane i.exec l = false → (t.ctx i.ctx).front.lane l = (s.ctx i.ctx).front.lane l ∨
    ∃ ch, (s.ctx i.ctx).front.chain = some ch ∧ ch.open' = true ∧ hasLane ch.lanes l = true ∧
      (t.ctx i.ctx).front.lane l = { (s.ctx i.ctx).front.lane l with pc := ch.head }
  handler : ∃ h, (t.ctx i.ctx).trap = some h ∧ h.regs.cause = cause ∧ h.regs.addr = addr ∧ h.regs.pc = i.head ∧ h.regs.lanes = lanes ∧
    h.dead = false ∧ h.entered = s.clock ∧
    (∀ l, l < 32 → h.front.lane l = if hasLane lanes l then { pc := (s.wgOf i.ctx).trapbase, st := .active } else {}) ∧
    h.front.flags = List.replicate 12 0 ∧ h.front.latches = List.replicate 4 {} ∧
    ∀ l, l < 32 → (hasLane h.sibs l = true ↔ i.ctx % 32 ≠ 16 ∧ hasLane lanes l = false ∧ ((s.ctx i.ctx).front.lane l).st ≠ .exited)
/-- An issue outside trap level in a context whose trap level is free, with no trapped fragment that waits for it, and whose workgroup has a handler; the
head context is numbered 16. -/
structure CanTrap (s : State) (i : Issue) : Prop where
  level : i.level = false
  free : (s.ctx i.ctx).trap = none
  first : (s.ctx i.ctx).waiting = []
  base : (s.wgOf i.ctx).trapbase ≠ 0
  num : (s.ctx i.ctx).num = i.ctx % 32
/-- A form takes a trap of its acting lanes instead of its effect. -/
def Traps (o : Out) (s : State) (i : Issue) (act : Lanes) (cause detail : Nat) (addr : DWord) : Prop :=
  ∃ t, o = .next t ∧ Enters s t i act (tcause cause detail i.off) addr
end Sys2Proof.Rules

/-! ## System registers and tile shapes -/
namespace Sys2Proof.Rules
/-- R190: the 64-bit registers. -/
def regWide (r : SysReg) : Bool := match r with | .taddr | .tpc | .trapbase | .retcnt _ | .d _ | .pumpst | .wptr _ => true | _ => false
def trapOnly (r : SysReg) : Bool := match r with | .tcause | .taddr | .tpc | .tlanes | .tparent | .tsibs => true | _ => false
/-- The value of a system register for a context of a workgroup; a trap register belongs to the fragment at trap level. -/
def regValue (s : State) (k : Nat) (r : SysReg) : DWord :=
  let c := s.ctx k
  let g := s.wgOf k
  match r with
  | .fpctl => c.fpctl.setWidth 64
  | .fpstat => c.fpstat.setWidth 64
  | .faircnt => BitVec.ofNat 64 (c.issued % 2 ^ 13 * 2 ^ 16 + c.limit % 2 ^ 13)
  | .tcause => match c.trap with | some t => t.regs.cause.setWidth 64 | none => 0
  | .taddr => match c.trap with | some t => t.regs.addr | none => 0
  | .tpc => match c.trap with | some t => t.regs.pc | none => 0
  | .tlanes => match c.trap with | some t => t.regs.lanes.setWidth 64 | none => 0
  | .tparent => match c.trap with | some _ => BitVec.ofNat 64 (k % 32) | none => 0
  | .tsibs => match c.trap with | some t => t.sibs.setWidth 64 | none => 0
  | .trapbase => g.trapbase
  | .dutysel => (((s.vf g.vfn).dutysel &&& 0x7F) ||| (s.pf.dutysel &&& 0x80)).setWidth 64
  | .retcnt n => nth 0 (s.vf g.vfn).retcnt n.val
  | .d n => nth 0 g.d n.val
  | .cways => g.cways.setWidth 64
  | .pumpst => g.pump.bits
  | .wptr n => nth 0 g.wptr n.val
/-- Registers that WRSR names (R190): the others trap. -/
def written (r : SysReg) : Bool := match r with | .fpctl | .fpstat | .faircnt | .trapbase => true | _ => false
/-- R17, R131, R190, R284: the values that a write accepts. -/
def accepts (r : SysReg) (v : DWord) : Bool :=
  match r with
  | .fpctl => v.toNat / 2 ^ 15 % 2 ^ 17 = 0 && v.toNat / 2 ^ 3 % 2 ^ 6 = 0
  | .fpstat => v.toNat / 2 ^ 6 % 2 ^ 26 = 0
  | .faircnt => v.toNat / 2 ^ 13 % 8 = 0 && v.toNat / 2 ^ 29 % 8 = 0 && 64 ≤ v.toNat % 2 ^ 13 && v.toNat % 2 ^ 13 ≤ 4096 && v.toNat % 8 = 0
  | .trapbase => v.toNat % 8 = 0 && windowOf v = .global
  | _ => false
/-- The state with a system register written. -/
def writeReg (s : State) (k : Nat) (r : SysReg) (v : DWord) : State :=
  match r with
  | .fpctl => s.updCtx k fun c => { c with fpctl := v.setWidth 32 }
  | .fpstat => s.updCtx k fun c => { c with fpstat := v.setWidth 32 }
  | .faircnt => s.updCtx k fun c => { c with limit := v.toNat % 2 ^ 13 }
  | .trapbase => s.updWg (k / 32) fun g => { g with trapbase := v }
  | _ => s
/-- MOVTS (R231, R232): the shapes it accepts. Types 0 and 1 have two bytes an element, 4 half a byte, 2, 3 and 5 one. -/
def shapeFits (w : Word) : Bool :=
  let ty := w.toNat / 2 ^ 28
  let rows := w.toNat / 2 ^ 22 % 2 ^ 6
  let cols := w.toNat / 2 ^ 8 % 2 ^ 14
  let rb := if ty ≤ 1 then 2 * cols else if ty = 4 then cols / 2 else cols
  ty ≤ 5 && 1 ≤ rows && rows ≤ 32 && 1 ≤ cols && cols ≤ 8192 && w.toNat % 2 ^ 8 = 0 && rb % 8 = 0 && (ty ≠ 4 || cols % 128 = 0) && rows * rb ≤ 4096
end Sys2Proof.Rules

/-- R189, R190: RDSR. Every acting lane receives the register; a trap register only at trap level, and elsewhere the acting lanes trap with 0x11. RDSR of
WPTR acquires, which changes what the context knows and nothing else that it can read. -/
def Sys2Proof.Rules.ReadSystemRegister : Prop :=
  ∀ (x : RdsrF) (s : State) (i : Issue), Issuing s i →
    Passes s i x.h .both { dsts := [(x.d, if regWide x.sr then 2 else 1)], wbs := x.h.wbs, ok := !(x.sr = .faircnt && i.ctx % 32 = 16) && !(regWide x.sr && x.d = .sp .zero) } →
      (trapOnly x.sr = true → CanTrap s i → guardMask s i x.h ≠ 0 → Traps (exec (.rdsr x) s) s i (guardMask s i x.h) 0x11 0 i.pc) ∧
      ((trapOnly x.sr = true → i.level = true) → ∃ base t, exec (.rdsr x) s = .next t ∧ (base = if (∃ n, x.sr = .wptr n) ∧ guardMask s i x.h ≠ 0 then s.learn i.ctx else s) ∧ Untouched base t i.ctx ∧ Advances s t i ∧
        Delivers s t i (guardMask s i x.h) x.h.wbs x.d (regWide x.sr) 6 (fun _ => regValue s i.ctx x.sr) fun _ => 0)

/-- R131, R189, R190: WRSR writes the lowest acting lane's value into a register that may be written there, if the value is one it accepts;
with no acting lane it writes nothing. Its acting lanes trap with 0x11 for a register that is not written there, and with 0x02 for a value that the
register does not accept. -/
def Sys2Proof.Rules.WriteSystemRegister : Prop :=
  ∀ (x : WrsrF) (s : State) (i : Issue), Issuing s i → (∀ n, x.sr ≠ .d n) → (∀ n, x.sr ≠ .wptr n) → x.sr ≠ .cways → x.sr ≠ .pumpst →
    Passes s i x.h .both { srcs := [(x.a, if regWide x.sr then 2 else 1)], ok := !(x.sr = .faircnt && i.ctx % 32 = 16) } →
      let act := guardMask s i x.h
      let v := readReg s i (lowestLane act) (regWide x.sr) x.a
      let may := written x.sr = true ∧ (x.sr = .trapbase → i.level = true)
      (act ≠ 0 → may → accepts x.sr v = true → Does (exec (.wrsr x) s) s (writeReg s i.ctx x.sr v) i) ∧ (act = 0 → Does (exec (.wrsr x) s) s s i) ∧
      (act ≠ 0 → CanTrap s i → (¬ may → Traps (exec (.wrsr x) s) s i act 0x11 0 i.pc) ∧ (may → accepts x.sr v = false → Traps (exec (.wrsr x) s) s i act 0x02 0 i.pc))

/-- R131, R189, R190: RDSR and WRSR. -/
def Obligations.SystemRegisters : Prop := Rules.ReadSystemRegister ∧ Rules.WriteSystemRegister

/-- R231 to R233: MOVTS writes a legal shape into TSHAPE of its tile register; with no acting lane it writes nothing. -/
def Sys2Proof.Rules.MoveTileShape : Prop :=
  ∀ (x : MovtsF) (s : State) (i : Issue), Issuing s i → Passes s i x.h .both { srcs := [(x.a, 1)] } →
    let act := guardMask s i x.h
    let w := src32 s i (lowestLane act) x.a
    (act ≠ 0 → shapeFits w = true → Does (exec (.movts x) s) s (s.updWg (i.ctx / 32) fun g => { g with tshape := setNth g.tshape x.t.val w }) i) ∧
    (act = 0 → Does (exec (.movts x) s) s s i)

/-! ## Control flow -/
namespace Sys2Proof.Rules
/-- A lane after a branch: an acting lane at its target, any other executing lane at the next word (R192). -/
def branching (i : Issue) (act : Lanes) (target : Nat → DWord) (l : Nat) (x : Lane) : Lane := x.goto (if hasLane act l then target l else i.after)
/-- The same with the landing bit of every acting lane set (R193). -/
def landing (i : Issue) (act : Lanes) (target : Nat → DWord) (l : Nat) (x : Lane) : Lane :=
  if hasLane act l then { x with pc := target l, landing := true } else x.goto i.after
/-- A call: the link is delivered, the acting lanes go to the target, and nothing else changes. -/
def Calls (o : Out) (s : State) (i : Issue) (h : Hdr) (d : Reg) (g : Nat → Lane → Lane) : Prop :=
  ∃ t, o = .next t ∧ Untouched s t i.ctx ∧ LanesBecome s t i g ∧ Delivers s t i (guardMask s i h) h.wbs d true 4 (fun _ => i.after) fun _ => 0
end Sys2Proof.Rules

/-- R191 to R193, R195: NOP changes nothing but the PC; BRA goes to PC + 8 × offset; BRX and RET to each lane's own source; BRX sets landing
bits and LAND clears those of every executing lane. -/
def Sys2Proof.Rules.Branches : Prop :=
  ∀ (s : State) (i : Issue), Issuing s i →
    (∀ x : Plain, Passes s i x.h .both {} → Does (exec (.nop x) s) s s i) ∧
    (∀ x : BraF, Passes s i x.h .both {} →
      Does (exec (.bra x) s) s s i (branching i (guardMask s i x.h) fun _ => i.pc + x.off.signExtend 64 * 8)) ∧
    (∀ x : BraX, Passes s i x.h .both {} →
      Does (exec (.braX x) s) s s i (branching i (guardMask s i x.h) fun _ => i.pc + x.off.signExtend 64 * 8)) ∧
    (∀ x : JumpF, Passes s i x.h .both { srcs := [(x.a, 2)] } →
      Does (exec (.brx x) s) s s i (landing i (guardMask s i x.h) fun l => src64 s i l x.a) ∧
      Does (exec (.ret x) s) s s i (branching i (guardMask s i x.h) fun l => src64 s i l x.a)) ∧
    ∀ x : Plain, Passes s i x.h .both {} → Does (exec (.land x) s) s s i fun _ y => { y with pc := i.after, landing := false }

/-- R191 to R193: the calls write their link, the address of the next word, and go to their target; CALLX sets landing bits. -/
def Sys2Proof.Rules.CallsAndLinks : Prop :=
  ∀ (s : State) (i : Issue), Issuing s i →
    (∀ x : BraF, let d : Reg := if i.ctx % 32 = 16 then .s 31 else .v 0
      Passes s i x.h .both { dsts := [(d, 2)], wbs := x.h.wbs } →
        Calls (exec (.call x) s) s i x.h d (branching i (guardMask s i x.h) fun _ => i.pc + x.off.signExtend 64 * 8)) ∧
    (∀ x : CallX, Passes s i x.h .both { dsts := [(x.d, 2)], ok := linkOk x.d, wbs := x.h.wbs } →
        Calls (exec (.callX x) s) s i x.h x.d (branching i (guardMask s i x.h) fun _ => i.pc + x.off.signExtend 64 * 8)) ∧
    ∀ x : CallxF, Passes s i x.h .both { srcs := [(x.a, 2)], dsts := [(x.d, 2)], ok := linkOk x.d, wbs := x.h.wbs } →
        Calls (exec (.callx x) s) s i x.h x.d (landing i (guardMask s i x.h) fun l => src64 s i l x.a)

/-- R191 to R193, R195: branches, calls, returns, NOP and LAND. -/
def Obligations.ControlFlow : Prop := Rules.Branches ∧ Rules.CallsAndLinks

/-- R10, R85, R195: EXIT retires the acting lanes, for which it releases; in a head context outside trap level it ends the context. Without an acting
lane it only goes on. A waiting SYNC may complete, which changes no register and no data; where none waits, nothing else changes. That a handler's lane
leaves its handler, and no more, is the model's reading (DEDUCED, log 45). -/
def Sys2Proof.Rules.ExitRetiresLanes : Prop :=
  ∀ (x : Plain) (s : State) (i : Issue), Issuing s i → Passes s i x.h .both {} →
    let act := guardMask s i x.h
    let g (l : Nat) (y : Lane) : Lane := if hasLane act l then { y with st := .exited } else y.goto i.after
    let pub := if act = 0 then s else s.publish i.ctx
    let base := if i.ctx % 32 = 16 ∧ i.level = false ∧ act ≠ 0 then pub.updWg (i.ctx / 32) fun w => { w with headExited := true } else pub
    (∃ t, exec (.exit x) s = .next t ∧ RegsKept s t ∧ FuncsKept s t ∧ t.mem = s.mem ∧ t.cist = s.cist ∧ t.fe = s.fe ∧
      ∀ l, l < 32 → hasLane i.exec l = true → if hasLane act l then ((t.front i.ctx i.level).lane l).st = .exited else ((t.front i.ctx i.level).lane l).pc = i.after) ∧
    ((∀ k, (s.ctx k).syncs = []) → Does (exec (.exit x) s) s base i g)

/-- R19, R195: YIELD advances the PC; with an acting lane it ends a running turn. -/
def Sys2Proof.Rules.YieldEndsTurn : Prop :=
  ∀ (x : Plain) (s : State) (i : Issue), Issuing s i → Passes s i x.h .both {} →
    ∃ t, exec (.yield x) s = .next t ∧ Leaves s s t i (fun _ y => y.goto i.after) ∧
      (i.level = false → i.ctx % 32 ≠ 16 → guardMask s i x.h ≠ 0 → (s.ctx i.ctx).turn.isSome = true → (t.ctx i.ctx).turn = none)

/-- R23, R196: DQPUSH appends the head context's value to a trough with room; DQPOP delivers the oldest entry to every acting lane after three cycles and
removes it, and all ones at once from an empty trough whose head context has ended, or where no lane acts. Neither acts without an acting lane; that
DQPOP to ZERO completes is the model's reading (DEDUCED, log 59). -/
def Obligations.Trough : Prop :=
  ∀ (s : State) (i : Issue), Issuing s i →
    (∀ x : JumpF, Passes s i x.h .heads { srcs := [(x.a, 2)] } → (guardMask s i x.h ≠ 0 → (s.wgOf i.ctx).trough.length < 64) →
      Does (exec (.dqpush x) s) s (if guardMask s i x.h = 0 then s else
        (s.updWg (i.ctx / 32) fun g => { g with trough := g.trough ++ [src64 s i 0 x.a] }).publishAt i.ctx (troughKey (i.ctx / 32))) i) ∧
    ∀ x : DestF, Passes s i x.h .groups { dsts := [(x.d, 2)], wbs := x.h.wbs } →
      ((s.wgOf i.ctx).trough = [] → (s.wgOf i.ctx).headExited = true ∨ guardMask s i x.h = 0 → Computes (exec (.dqpop x) s) s i x.h x.d true 0 fun _ => BitVec.allOnes 64) ∧
      ∀ v rest, (s.wgOf i.ctx).trough = v :: rest →
        ∃ t, exec (.dqpop x) s = .next t ∧
          Untouched (if guardMask s i x.h = 0 then s else (s.updWg (i.ctx / 32) fun g => { g with trough := rest }).learnAt (troughKey (i.ctx / 32)) i.ctx) t i.ctx ∧ Advances s t i ∧
          Delivers s t i (guardMask s i x.h) x.h.wbs x.d true 3 (fun _ => v) fun _ => 0

/-- R135: TFENCE goes on where no enabled flag of FPSTAT is set, or no lane acts; else its acting lanes (DEDUCED, log 123) trap, with 0x21 where QFMT is among the
enabled flags that are set and with 0x20 otherwise, DETAIL naming those flags. -/
def Sys2Proof.Rules.TfencePasses : Prop :=
  ∀ (x : Plain) (s : State) (i : Issue), Issuing s i → Passes s i x.h .both {} →
    ((guardMask s i x.h = 0 ∨ ∀ j, j < 6 → (s.ctx i.ctx).fpstat.getLsbD j = true → (s.ctx i.ctx).fpctl.getLsbD (9 + j) = false) →
      Does (exec (.tfence x) s) s s i) ∧
    let f : BitVec 6 := (s.ctx i.ctx).fpstat.setWidth 6 &&& (s.ctx i.ctx).fpctl.extractLsb' 9 6
    (guardMask s i x.h ≠ 0 → f ≠ 0 → CanTrap s i → Traps (exec (.tfence x) s) s i (guardMask s i x.h) (if f.getLsbD 5 then 0x21 else 0x20) f.toNat i.pc)

/-- R10, R19, R85, R135, R195: EXIT, YIELD and TFENCE. -/
def Obligations.LanesAndTurnsEnd : Prop := Rules.ExitRetiresLanes ∧ Rules.YieldEndsTurn ∧ Rules.TfencePasses

/-! ## Memory accesses -/
namespace Sys2Proof.Rules

/-- R39, R198: a lane's access of w at va passes every check, and its parts land at place 0, and place 1 for the upper half of a .128. -/
def AccessOk (s : State) (k : Nat) (w : Width) (write : Bool) (va : DWord) (place : Nat → Place) : Prop :=
  chkSpan va (widthBytes w) (min (widthBytes w) 8) = none ∧
  ∀ j, j < (if w = .w128 then 2 else 1) → s.chkWindow k (va + BitVec.ofNat 64 (8 * j)) (min (widthBytes w) 8) write = .ok (place j)
/-- The accesses of the acting lanes in ascending order, a .128 as two of eight bytes (R198). -/
def elemsOf (act : Lanes) (w : Width) (va : Nat → DWord) (place : Nat → Nat → Place) (d : Reg) (op : Nat → Nat → ElemOp) : List Elem :=
  (lanesOf act).flatMap fun l => (List.range (if w = .w128 then 2 else 1)).map fun k =>
    { lane := l, va := va l + BitVec.ofNat 64 (8 * k), place := place l k, n := min (widthBytes w) 8, dst := regPlus d (2 * k), op := op l k }
/-- The form completes with an access in flight (R199): its lanes go on; the access holds these parts, its destinations are in flight until it
is complete, and its next step is on the agenda, or its parts are in windows of the core's sump. Without an acting lane there is none. -/
def Accesses (o : Out) (s : State) (i : Issue) (h : Hdr) (pol : Policy) (scope : Scope) (isLoad sump : Bool) (codes : List (BitVec 8)) (elems : List Elem) : Prop :=
  let act := guardMask s i h
  ∃ t, o = .next t ∧ Pending (∀ e ∈ elems, Hits s i.ctx e.va) s t i.ctx ∧ Advances s t i ∧ (t.ctx i.ctx).fpstat = (s.ctx i.ctx).fpstat ∧
    (act = 0 → t.accs = s.accs ∧ (t.ctx i.ctx).pends = (s.ctx i.ctx).pends) ∧
    (act ≠ 0 →
      (∃ a, Tab.find? t.accs s.ids = some a ∧ a.id = s.ids ∧ a.ctx = i.ctx ∧ a.core = s.coreOf i.ctx ∧ a.level = i.level ∧ a.pol = pol ∧ a.scope = scope ∧
        a.isLoad = isLoad ∧ a.entry = sump ∧ a.flagged = false ∧ a.elems = elems.map fun e => { e with sump := sump }) ∧
      (∀ j, j ≠ s.ids → Tab.find? t.accs j = Tab.find? s.accs j) ∧
      (∃ p ∈ (t.ctx i.ctx).pends, p.id = s.ids ∧ p.due = none ∧ p.lanes = act ∧ p.codes = codes ∧ p.flag = (hdrFlag h).map fun n => (i.level, n)) ∧
      (sump = false → t.awaits .flagCountDown { id := s.ids } = true ∧ (t.ctx i.ctx).outstanding = (s.ctx i.ctx).outstanding) ∧
      (sump = true → (t.ctx i.ctx).outstanding = (s.ctx i.ctx).outstanding + 1 ∧
        ∀ k, k < elems.length → ∃ w ∈ (t.core (s.coreOf i.ctx)).sump, (s.ids, k) ∈ w.2))
/-- The codes of n registers from a destination (R304). -/
def codes (d : Reg) (n : Nat) : List (BitVec 8) :=
  match d with
  | .v k => (List.range n).map fun j => BitVec.ofNat 8 (k.val + j)
  | .s k => [BitVec.ofNat 8 (192 + k.val)]
  | _ => []
/-- The data of a store (R198). -/
def storeOf (s : State) (i : Issue) (w : Width) (d : Reg) (l k : Nat) : ElemOp :=
  .store (readReg s i l (w = .w64 || w = .w128) (regPlus d (2 * k)))

def loads : List ((PolMem → Instr) × (PolMemX → Instr) × Width) :=
  [(.ld8, .ld8X, .w8), (.ld16, .ld16X, .w16), (.ld32, .ld32X, .w32), (.ld64, .ld64X, .w64), (.ld128, .ld128X, .w128)]
def stores : List ((PolMem → Instr) × (PolMemX → Instr) × Width) :=
  [(.st8, .st8X, .w8), (.st16, .st16X, .w16), (.st32, .st32X, .w32), (.st64, .st64X, .w64), (.st128, .st128X, .w128)]
/-- R197: base + offset; a full form's offset counts in accesses, an extended form's is a signed byte offset. -/
def ea (s : State) (i : Issue) (base : Reg) (off : DWord) (l : Nat) : DWord := src64 s i l base + off
end Sys2Proof.Rules

/-- R197 to R199, R203: a load whose every acting lane passes its checks. -/
def Sys2Proof.Rules.LoadsIssue : Prop :=
  ∀ r ∈ loads, ∀ (s : State) (i : Issue), Issuing s i →
    (∀ x : PolMem, Passes s i x.h .both { srcs := [(x.addr, 2)], dsts := [(x.data, widthRegs r.2.2)], ok := addrOk x.addr } →
      let va := ea s i x.addr (BitVec.ofNat 64 (x.off.toNat * widthBytes r.2.2))
      ∀ place, (∀ l, hasLane (guardMask s i x.h) l = true → AccessOk s i.ctx r.2.2 false (va l) (place l)) →
        Accesses (exec (r.1 x) s) s i x.h x.pol x.scope true false (codes x.data (widthRegs r.2.2)) (elemsOf (guardMask s i x.h) r.2.2 va place x.data fun _ _ => .load)) ∧
    ∀ x : PolMemX, Passes s i x.h .both { srcs := [(x.addr, 2)], dsts := [(x.data, widthRegs r.2.2)], ok := addrOk x.addr } →
      let va := ea s i x.addr (x.off.signExtend 64)
      ∀ place, (∀ l, hasLane (guardMask s i x.h) l = true → AccessOk s i.ctx r.2.2 false (va l) (place l)) →
        Accesses (exec (r.2.1 x) s) s i x.h x.pol x.scope true false (codes x.data (widthRegs r.2.2)) (elemsOf (guardMask s i x.h) r.2.2 va place x.data fun _ _ => .load)

/-- R197 to R199, R203: a store whose every acting lane passes its checks: the address and the data that are on their way. -/
def Sys2Proof.Rules.StoresIssue : Prop :=
  ∀ r ∈ stores, ∀ (s : State) (i : Issue), Issuing s i →
    (∀ x : PolMem, Passes s i x.h .both { srcs := [(x.addr, 2), (x.data, widthRegs r.2.2)], ok := addrOk x.addr } →
      let va := ea s i x.addr (BitVec.ofNat 64 (x.off.toNat * widthBytes r.2.2))
      ∀ place, (∀ l, hasLane (guardMask s i x.h) l = true → AccessOk s i.ctx r.2.2 true (va l) (place l)) →
        Accesses (exec (r.1 x) s) s i x.h x.pol x.scope false false [] (elemsOf (guardMask s i x.h) r.2.2 va place (.sp .zero) (storeOf s i r.2.2 x.data))) ∧
    ∀ x : PolMemX, Passes s i x.h .both { srcs := [(x.addr, 2), (x.data, widthRegs r.2.2)], ok := addrOk x.addr } →
      let va := ea s i x.addr (x.off.signExtend 64)
      ∀ place, (∀ l, hasLane (guardMask s i x.h) l = true → AccessOk s i.ctx r.2.2 true (va l) (place l)) →
        Accesses (exec (r.2.1 x) s) s i x.h x.pol x.scope false false [] (elemsOf (guardMask s i x.h) r.2.2 va place (.sp .zero) (storeOf s i r.2.2 x.data))

namespace Sys2Proof.Rules
/-- R306, queue 1: room among the context's outstanding gathers, scatters and stream instructions, whatever the guards (R160). -/
def sumpRoom (s : State) (i : Issue) : Check := if (s.ctx i.ctx).outstanding ≥ 64 then some (6, 1) else none
end Sys2Proof.Rules

/-- R108, R109, R207: GATH and SCAT collect their accesses in the core's sump, and each counts as outstanding. -/
def Obligations.GatherScatterIssue : Prop :=
  ∀ (s : State) (i : Issue), Issuing s i →
    (∀ (x : GathF) (place : Nat → Nat → Place),
      (Passes s i x.h .both { srcs := [(x.addr, 2)], dsts := [(x.data, widthRegs x.w)], ok := addrOk x.addr } (sumpRoom s i) →
        (∀ l, hasLane (guardMask s i x.h) l = true → AccessOk s i.ctx x.w false (ea s i x.addr 0 l) (place l)) →
          Accesses (exec (.gath x) s) s i x.h x.pol x.scope true true (codes x.data (widthRegs x.w))
            (elemsOf (guardMask s i x.h) x.w (ea s i x.addr 0) place x.data fun _ _ => .load)) ∧
      (Passes s i x.h .both { srcs := [(x.addr, 2), (x.data, widthRegs x.w)], ok := addrOk x.addr } (sumpRoom s i) →
        (∀ l, hasLane (guardMask s i x.h) l = true → AccessOk s i.ctx x.w true (ea s i x.addr 0 l) (place l)) →
          Accesses (exec (.scat x) s) s i x.h x.pol x.scope false true []
            (elemsOf (guardMask s i x.h) x.w (ea s i x.addr 0) place (.sp .zero) (storeOf s i x.w x.data)))) ∧
    ∀ (x : GathX) (place : Nat → Nat → Place),
      (Passes s i x.h .both { srcs := [(x.addr, 2)], dsts := [(x.data, widthRegs x.w)], ok := addrOk x.addr } (sumpRoom s i) →
        (∀ l, hasLane (guardMask s i x.h) l = true → AccessOk s i.ctx x.w false (ea s i x.addr (x.off.signExtend 64) l) (place l)) →
          Accesses (exec (.gathX x) s) s i x.h x.pol x.scope true true (codes x.data (widthRegs x.w))
            (elemsOf (guardMask s i x.h) x.w (ea s i x.addr (x.off.signExtend 64)) place x.data fun _ _ => .load)) ∧
      (Passes s i x.h .both { srcs := [(x.addr, 2), (x.data, widthRegs x.w)], ok := addrOk x.addr } (sumpRoom s i) →
        (∀ l, hasLane (guardMask s i x.h) l = true → AccessOk s i.ctx x.w true (ea s i x.addr (x.off.signExtend 64) l) (place l)) →
          Accesses (exec (.scatX x) s) s i x.h x.pol x.scope false true []
            (elemsOf (guardMask s i x.h) x.w (ea s i x.addr (x.off.signExtend 64)) place (.sp .zero) (storeOf s i x.w x.data)))

namespace Sys2Proof.Rules
/-- R46: a lexical access of w at offset off of the frame at display level k passes its checks: its parts have the global addresses g + 8j. -/
def LexOk (s : State) (ck : Nat) (k off : Nat) (w : Width) (write : Bool) (g : Nat) (place : Nat → Place) : Prop :=
  off % min (widthBytes w) 8 = 0 ∧ s.chkLex ck k off (widthBytes w) write = .inl g ∧
  ∀ j, j < (if w = .w128 then 2 else 1) → s.chkGlobal ck (g + 8 * j) write = .ok (place j)
def lexElems (act : Lanes) (w : Width) (g : Nat → Nat) (place : Nat → Nat → Place) (d : Reg) (op : Nat → Nat → ElemOp) : List Elem :=
  (lanesOf act).flatMap fun l => (List.range (if w = .w128 then 2 else 1)).map fun k =>
    { lane := l, va := BitVec.ofNat 64 (g l + 8 * k), place := place l k, n := min (widthBytes w) 8, dst := regPlus d (2 * k), op := op l k }
end Sys2Proof.Rules

/-- R46, R205: LDLV and STLV reach the frame that the display names at the level, offset + index bytes in. -/
def Sys2Proof.Rules.LexicalAccessesIssue : Prop :=
  ∀ (x : LexMem) (s : State) (i : Issue), Issuing s i →
    let off (l : Nat) : Nat := x.off.toNat + (src32 s i l x.idx).toNat
    ∀ (g : Nat → Nat) (place : Nat → Nat → Place),
      (Passes s i x.h .both { srcs := [(x.idx, 1)], dsts := [(x.data, widthRegs x.w)], ok := addrOk x.idx } →
        (∀ l, hasLane (guardMask s i x.h) l = true → LexOk s i.ctx x.level.toNat (off l) x.w false (g l) (place l)) →
          Accesses (exec (.ldlv x) s) s i x.h x.pol x.scope true false (codes x.data (widthRegs x.w)) (lexElems (guardMask s i x.h) x.w g place x.data fun _ _ => .load)) ∧
      (Passes s i x.h .both { srcs := [(x.idx, 1), (x.data, widthRegs x.w)], ok := addrOk x.idx } →
        (∀ l, hasLane (guardMask s i x.h) l = true → LexOk s i.ctx x.level.toNat (off l) x.w true (g l) (place l)) →
          Accesses (exec (.stlv x) s) s i x.h x.pol x.scope false false [] (lexElems (guardMask s i x.h) x.w g place (.sp .zero) (storeOf s i x.w x.data)))

/-- R46, R197 to R199, R203, R205: loads and stores, by address and by display level. -/
def Obligations.LoadsAndStoresIssue : Prop := Rules.LoadsIssue ∧ Rules.StoresIssue ∧ Rules.LexicalAccessesIssue

namespace Sys2Proof.Rules
/-- R41, R204, R365: an own-cistern offset whose bytes are aligned and reserved, in words without an uncorrectable error. -/
def CistOk (s : State) (i : Issue) (w : Width) (o : Nat) : Prop := o % min (widthBytes w) 8 = 0 ∧ o + widthBytes w ≤ (s.wgOf i.ctx).reserved ∧
  ∀ j, j < (if w = .w128 then 2 else 1) → s.cistLost (s.coreOf i.ctx) ((s.wgOf i.ctx).cistPhys (o + 8 * j)) (min (widthBytes w) 8) = none
def cistElems (s : State) (i : Issue) (act : Lanes) (w : Width) (o : Nat → Nat) (d : Reg) (op : Nat → Nat → ElemOp) : List Elem :=
  (lanesOf act).flatMap fun l => (List.range (if w = .w128 then 2 else 1)).map fun k =>
    { lane := l, va := BitVec.ofNat 64 (0xFF00000000000000 + (o l + 8 * k)), place := .cist (s.coreOf i.ctx) ((s.wgOf i.ctx).cistPhys (o l + 8 * k))
      n := min (widthBytes w) 8, dst := regPlus d (2 * k), op := op l k }
/-- R204: the offset of a lane, modulo 2^32. -/
def cistAt (s : State) (i : Issue) (base : Reg) (off : Nat) (l : Nat) : Nat := ((src32 s i l base).toNat + off) % 2 ^ 32
/-- A scratchpad access completes its issue: it will be performed twelve cycles from now, and nothing else changes; a load fills L0 then. -/
def Scratch (o : Out) (s : State) (i : Issue) (h : Hdr) (elems : List Elem) : Prop :=
  ∃ t, o = .next t ∧ Untouched s t i.ctx ∧ Advances s t i ∧ (t.ctx i.ctx).fpstat = (s.ctx i.ctx).fpstat ∧
    (guardMask s i h ≠ 0 → ∃ p ∈ (t.ctx i.ctx).pends, p.due = some (s.nowAt i + 12) ∧ p.elems = elems ∧ p.wr = [] ∧
      ((∃ e ∈ elems, e.op = .load) → (nth {} (t.front i.ctx i.level).latches 0).src = p.id))
end Sys2Proof.Rules

/-- R42, R204: LDS and STS are performed in the own cistern after twelve cycles. -/
def Obligations.ScratchpadAccesses : Prop :=
  ∀ (s : State) (i : Issue), Issuing s i →
    (∀ x : CistMem, let o := cistAt s i x.base (x.off.toNat * widthBytes x.w)
      (∀ l, hasLane (guardMask s i x.h) l = true → CistOk s i x.w (o l)) →
        (Passes s i x.h .both { srcs := [(x.base, 1)], dsts := [(x.data, widthRegs x.w)], wbs := x.h.wbs, ok := addrOk x.base } →
          Scratch (exec (.lds x) s) s i x.h (cistElems s i (guardMask s i x.h) x.w o (if x.h.wbs then .sp .zero else x.data) fun _ _ => .load)) ∧
        (Passes s i x.h .both { srcs := [(x.base, 1), (x.data, widthRegs x.w)], ok := addrOk x.base } →
          Scratch (exec (.sts x) s) s i x.h (cistElems s i (guardMask s i x.h) x.w o (.sp .zero) (storeOf s i x.w x.data)))) ∧
    ∀ x : CistMemX, let o := cistAt s i x.base (x.off.signExtend 64).toNat
      (∀ l, hasLane (guardMask s i x.h) l = true → CistOk s i x.w (o l)) →
        (Passes s i x.h .both { srcs := [(x.base, 1)], dsts := [(x.data, widthRegs x.w)], wbs := x.h.wbs, ok := addrOk x.base } →
          Scratch (exec (.ldsX x) s) s i x.h (cistElems s i (guardMask s i x.h) x.w o (if x.h.wbs then .sp .zero else x.data) fun _ _ => .load)) ∧
        (Passes s i x.h .both { srcs := [(x.base, 1), (x.data, widthRegs x.w)], ok := addrOk x.base } →
          Scratch (exec (.stsX x) s) s i x.h (cistElems s i (guardMask s i x.h) x.w o (.sp .zero) (storeOf s i x.w x.data)))

namespace Sys2Proof.Rules
/-- A lane of a prefetch waits for a reclassification (R73, R206). -/
def PrefWaits (s : State) (i : Issue) (va : DWord) : Prop := ∃ a n w y, s.chkAccess i.ctx va 1 1 false = .wait (.waitClass a n) w y
/-- A prefetch issues: it raises no fault in any state and changes no register; a lane waits only for a reclassification, with its PC at the head of the
word's chain; where none waits all lanes go on, and at .grp or .core nothing has been read or written at issue. -/
def Prefetches (o : Out) (s : State) (i : Issue) (h : Hdr) (scope : Scope) (va : Nat → DWord) : Prop :=
  ∃ t, o = .next t ∧ RegsKept s t ∧ FuncsKept s t ∧ t.cist = s.cist ∧ (t.ctx i.ctx).waiting = (s.ctx i.ctx).waiting ∧
    (t.ctx i.ctx).trap.map (·.regs) = (s.ctx i.ctx).trap.map (·.regs) ∧
    ((∀ l, hasLane (guardMask s i h) l = true → ¬ PrefWaits s i (va l)) → Advances s t i ∧ (scope = .grp ∨ scope = .core → Pending (∀ l, hasLane (guardMask s i h) l = true → Hits s i.ctx (va l)) s t i.ctx)) ∧
    ∀ l a n w y, l < 32 → hasLane (guardMask s i h) l = true → hasLane i.exec l = true → s.chkAccess i.ctx (va l) 1 1 false = .wait (.waitClass a n) w y →
      ((t.front i.ctx i.level).lane l).st = .waitClass a n ∧ ((t.front i.ctx i.level).lane l).pc = i.head
end Sys2Proof.Rules

/-- R73, R206: LDP. -/
def Sys2Proof.Rules.PrefetchNeverFaults : Prop :=
  ∀ (s : State) (i : Issue), Issuing s i →
    (∀ x : LdpF, Passes s i x.h .both { srcs := [(x.addr, 2)], ok := addrOk x.addr } →
      Prefetches (exec (.ldp x) s) s i x.h x.scope (ea s i x.addr (BitVec.ofNat 64 (128 * x.off.toNat)))) ∧
    ∀ x : LdpX, Passes s i x.h .both { srcs := [(x.addr, 2)], ok := addrOk x.addr } →
      Prefetches (exec (.ldpX x) s) s i x.h x.scope (ea s i x.addr (x.off.signExtend 64))

namespace Sys2Proof.Rules
def rangePlan (x : RangeF) : Plan := match x.sel with | .all => {} | .range a n => { srcs := [(a, 2), (n, 1)], ok := addrOk a }
/-- The words of the issuing core's L1 that a CINV or CFLUSH covers (R208). -/
def Covers (s : State) (i : Issue) (x : RangeF) (w : Nat) : Prop :=
  match x.sel with
  | .all => guardMask s i x.h ≠ 0
  | .range a n => ∃ l, hasLane (guardMask s i x.h) l = true ∧ inSegs (s.physSegs i.ctx (src64 s i l a).toNat (src32 s i l n).toNat) w = true
/-- No acting lane of a range form has length 0, or a page of its range that does not translate. -/
def RangesOk (s : State) (i : Issue) (x : RangeF) : Prop :=
  match x.sel with
  | .all => True
  | .range a n => ∀ l, hasLane (guardMask s i x.h) l = true → src32 s i l n ≠ 0 ∧ ∀ p ∈ s.rangePieces i.ctx (src64 s i l a).toNat (src32 s i l n).toNat, p.chk.isOk = true
end Sys2Proof.Rules

/-- R208: CINV discards exactly the Us and Uw words in range of the issuing core's L1. -/
def Sys2Proof.Rules.CacheInvalidate : Prop :=
  ∀ (x : RangeF) (s : State) (i : Issue), Issuing s i → Tab.wf ({} : L1Word) s.l1 = true → Passes s i x.h .both (rangePlan x) → RangesOk s i x →
    ∃ l1, Does (exec (.cinv x) s) s { s with l1 := l1 } i ∧ ∀ c w, w < 2 ^ 46 →
      (c = s.coreOf i.ctx → Covers s i x w → ((s.l1w c w).st = .us ∨ (s.l1w c w).st = .uw) → ({ s with l1 := l1 } : State).l1w c w = {}) ∧
      (c ≠ s.coreOf i.ctx ∨ ¬ Covers s i x w ∨ ((s.l1w c w).st ≠ .us ∧ (s.l1w c w).st ≠ .uw) → ({ s with l1 := l1 } : State).l1w c w = s.l1w c w)

/-- R209: CFLUSH leaves no copy in range but read-only ones; the dirty bytes of M words are in memory, and no other byte of memory changes. -/
def Sys2Proof.Rules.CacheFlush : Prop :=
  ∀ (x : RangeF) (s : State) (i : Issue), Issuing s i → Tab.wf ({} : L1Word) s.l1 = true → Memory.wf s.mem = true → Passes s i x.h .both (rangePlan x) → RangesOk s i x →
    ∃ base, Does (exec (.cflush x) s) s base i ∧ (∀ k, ∃ r, base.ctx k = { s.ctx k with resv := r }) ∧
      base.wgs = s.wgs ∧ base.cist = s.cist ∧ base.fe = s.fe ∧ FuncsKept s base ∧
      (∀ w, w < 2 ^ 46 → Covers s i x w → (s.l1w (s.coreOf i.ctx) w).st ≠ .ro → (base.l1w (s.coreOf i.ctx) w).st = .i) ∧
      (∀ a, a / 4 < 2 ^ 46 → let y := s.l1w (s.coreOf i.ctx) (a / 4)
        (Covers s i x (a / 4) → y.st = .m → y.dirty.getLsbD (a % 4) = true → Memory.read base.mem a = y.data.extractLsb' (8 * (a % 4)) 8) ∧
        (¬ Covers s i x (a / 4) ∨ y.st ≠ .m ∨ y.dirty.getLsbD (a % 4) = false → Memory.read base.mem a = Memory.read s.mem a))

/-- R80, R210: FENCE of an acting lane begins to hold the later accesses of its lanes; what it orders, and what it makes known, it does as it completes. -/
def Sys2Proof.Rules.FenceBegins : Prop :=
  ∀ (x : FenceF) (s : State) (i : Issue), Issuing s i → Passes s i x.h .both {} →
    let act := guardMask s i x.h
    (act = 0 → Does (exec (.fence x) s) s s i) ∧
    (act ≠ 0 → Does (exec (.fence x) s) s (({ s with ids := s.ids + 1 } : State).updCtx i.ctx fun c => { c with fences := c.fences ++ [{ lanes := act, kind := x.kind, scope := x.scope, id := s.ids }] }) i)

/-- R80, R206, R208 to R210: LDP, CINV, CFLUSH and FENCE. -/
def Obligations.CacheControl : Prop := Rules.PrefetchNeverFaults ∧ Rules.CacheInvalidate ∧ Rules.CacheFlush ∧ Rules.FenceBegins

/-! ## Full/empty words -/
namespace Sys2Proof.Rules
/-- Lane l's word is a scratchpad word that it may reach (R41, R211). -/
def WordOk (s : State) (k : Nat) (write : Bool) (va : DWord) (core byte : Nat) : Prop :=
  chkSpan va 4 4 = none ∧ (∀ n o, windowOf va ≠ .frame n o) ∧ windowOf va ≠ .global ∧ s.chkWindow k va 4 write = .ok (.cist core byte)
/-- Nothing of the context is in flight that could touch a scratchpad word first. -/
def NothingOlder (s : State) (k : Nat) : Prop := (∀ e ∈ s.accs, e.2.ctx ≠ k) ∧ (∀ e ∈ s.jobs, e.2.ctx ≠ k) ∧ ∀ p ∈ (s.ctx k).pends, p.elems = []
/-- Every executing lane is active. -/
def AllActive (s : State) (i : Issue) : Prop := ∀ l, hasLane i.exec l = true → ((s.front i.ctx i.level).lane l).st = .active
/-- The acting lanes name distinct words. -/
def Distinct (act : Lanes) (byte : Nat → Nat × Nat) : Prop :=
  ∀ l k, hasLane act l = true → hasLane act k = true → l ≠ k → ((byte l).1, (byte l).2 / 4) ≠ ((byte k).1, (byte k).2 / 4)
structure FeRule where
  form : PolMem → Instr
  formX : PolMemX → Instr
  store : Bool
def feRules : List FeRule := [⟨.ldfe, .ldfeX, false⟩, ⟨.stef, .stefX, true⟩]
def fePlan (store : Bool) (a d : Reg) : Plan := if store then { srcs := [(a, 2), (d, 1)], ok := addrOk a } else { srcs := [(a, 2)], dsts := [(d, 1)], ok := addrOk a }
/-- Every acting lane's word is in the right state: LDFE takes and empties it, STEF writes and fills it; the lanes go on; no other word, byte or
register changes. -/
def FeTakes (o : Out) (s : State) (i : Issue) (act : Lanes) (store : Bool) (data : Nat → Word) (byte : Nat → Nat × Nat) : Prop :=
  ∃ t, o = .next t ∧ (∀ l, hasLane i.exec l = true → (t.front i.ctx i.level).lane l = ((s.front i.ctx i.level).lane l).goto i.after) ∧
    RegsKept s t ∧ FuncsKept s t ∧ t.mem = s.mem ∧
    (∀ l, hasLane act l = true → t.feBit (byte l).1 ((byte l).2 / 4) = store) ∧
    (∀ c w, w < 0x10000 → (∀ l, hasLane act l = true → (c, w) ≠ ((byte l).1, (byte l).2 / 4)) → t.feBit c w = s.feBit c w) ∧
    (∀ l, hasLane act l = true → t.cistBytes (byte l).1 (byte l).2 4 = if store then bytesLE 4 (data l).toNat else s.cistBytes (byte l).1 (byte l).2 4) ∧
    (store = false → t.cist = s.cist) ∧
    (∀ c o, o < 0x40000 → (∀ l, hasLane act l = true → (byte l).1 ≠ c ∨ o < (byte l).2 ∨ (byte l).2 + 4 ≤ o) → t.cistByte c o = s.cistByte c o) ∧
    (act ≠ 0 → ∃ a, Tab.find? t.accs s.ids = some a ∧ a.isLoad = !store ∧ a.elems.map (fun e => (e.lane, e.done, e.got)) =
      (lanesOf act).map fun l => (l, true, if store then [] else s.cistBytes (byte l).1 (byte l).2 4))
end Sys2Proof.Rules

/-- R24, R211: LDFE and STEF of lanes that name distinct words in the right state. -/
def Sys2Proof.Rules.FullEmptyTakes : Prop :=
  ∀ r ∈ feRules, ∀ (s : State) (i : Issue), Issuing s i → NothingOlder s i.ctx → AllActive s i → Tab.wf 0 s.cist = true → Tab.wf false s.fe = true →
    ∀ byte : Nat → Nat × Nat,
      (∀ x : PolMem, let va := ea s i x.addr (BitVec.ofNat 64 (x.off.toNat * 4))
        Passes s i x.h .both (fePlan r.store x.addr x.data) → Distinct (guardMask s i x.h) byte →
          (∀ l, hasLane (guardMask s i x.h) l = true → WordOk s i.ctx r.store (va l) (byte l).1 (byte l).2 ∧ s.feBit (byte l).1 ((byte l).2 / 4) = !r.store) →
            FeTakes (exec (r.form x) s) s i (guardMask s i x.h) r.store (fun l => src32 s i l x.data) byte) ∧
      ∀ x : PolMemX, let va := ea s i x.addr (x.off.signExtend 64)
        Passes s i x.h .both (fePlan r.store x.addr x.data) → Distinct (guardMask s i x.h) byte →
          (∀ l, hasLane (guardMask s i x.h) l = true → WordOk s i.ctx r.store (va l) (byte l).1 (byte l).2 ∧ s.feBit (byte l).1 ((byte l).2 / 4) = !r.store) →
            FeTakes (exec (r.formX x) s) s i (guardMask s i x.h) r.store (fun l => src32 s i l x.data) byte

namespace Sys2Proof.Rules
/-- What a blocked lane waits for (R24, R25): a word of its workgroup's own window, wherever its ways lie, or a word of a core's cistern. -/
def feKey (s : State) (k : Nat) (va : DWord) (core word : Nat) : Nat :=
  match windowOf va with
  | .own _ => ownFeKey (k / 32) ((s.wgOf k).ownWord word)
  | _ => core * 0x10000 + word
end Sys2Proof.Rules

/-- R13, R24: lanes whose words are in the other state become blocked, with their PCs at the instruction, and nothing changes. -/
def Sys2Proof.Rules.FullEmptyBlocks : Prop :=
  ∀ r ∈ feRules, ∀ (s : State) (i : Issue) (byte : Nat → Nat × Nat), Issuing s i →
    let blocks (o : Out) (act : Lanes) (va : Nat → DWord) : Prop := Does o s s i fun l y =>
      if hasLane act l then { y with st := .blockedFE (feKey s i.ctx (va l) (byte l).1 ((byte l).2 / 4)) } else y.goto i.after
    (∀ x : PolMem, let va := ea s i x.addr (BitVec.ofNat 64 (x.off.toNat * 4))
      let act := guardMask s i x.h
      Passes s i x.h .both (fePlan r.store x.addr x.data) →
        (∀ l, hasLane act l = true → WordOk s i.ctx r.store (va l) (byte l).1 (byte l).2 ∧ s.feBit (byte l).1 ((byte l).2 / 4) = r.store) →
          blocks (exec (r.form x) s) act va) ∧
    ∀ x : PolMemX, let va := ea s i x.addr (x.off.signExtend 64)
      let act := guardMask s i x.h
      Passes s i x.h .both (fePlan r.store x.addr x.data) →
        (∀ l, hasLane act l = true → WordOk s i.ctx r.store (va l) (byte l).1 (byte l).2 ∧ s.feBit (byte l).1 ((byte l).2 / 4) = r.store) →
          blocks (exec (r.formX x) s) act va

/-- R212: FESET sets the bits of every word in the acting lanes' ranges, and of no other, and touches no data. -/
def Sys2Proof.Rules.FullEmptySet : Prop :=
  ∀ (x : FesetF) (s : State) (i : Issue) (ws : Nat → List (Nat × Nat)), Issuing s i → Tab.wf false s.fe = true → AllActive s i →
    Passes s i x.h .both { srcs := [(x.a, 2), (x.n, 1)], ok := addrOk x.a } →
      (∀ l, hasLane (guardMask s i x.h) l = true → s.fesetWords i (src64 s i l x.a) (src32 s i l x.n).toNat = .inl (ws l)) →
        ∃ t, exec (.feset x) s = .next t ∧ (∀ l, hasLane i.exec l = true → (t.front i.ctx i.level).lane l = ((s.front i.ctx i.level).lane l).goto i.after) ∧
          RegsKept s t ∧ FuncsKept s t ∧ DataKept s t ∧
          ∀ c w, w < 0x10000 →
            ((∃ l, hasLane (guardMask s i x.h) l = true ∧ (c, w) ∈ ws l) → t.feBit c w = x.toFull) ∧
            ((∀ l, hasLane (guardMask s i x.h) l = true → (c, w) ∉ ws l) → t.feBit c w = s.feBit c w)

/-- R13, R24, R211, R212: LDFE, STEF and FESET. -/
def Obligations.FullEmptyWords : Prop := Rules.FullEmptyTakes ∧ Rules.FullEmptyBlocks ∧ Rules.FullEmptySet

/-! ## Atomics and reservations -/
namespace Sys2Proof.Rules
/-- R218: an HGATH has at most eight acting lanes, all in lines of shared pages, not of the host, that one slice homes. -/
def HgathOk (act : Lanes) (op : AtomOp) (place : Nat → Nat → Place) : Prop :=
  op = .hgath → (lanesOf act).length ≤ 8 ∧ ∃ slice, ∀ l, hasLane act l = true → ∃ pa own, place l 0 = .mem pa 0 own ∧ hostLine (pa / 128) = false ∧ Config.homeHash (pa / 128) % 192 = slice
def widthReg (s : State) (i : Issue) (w : Width) (r : Reg) (l : Nat) : DWord := readReg s i l (w = .w64) r
end Sys2Proof.Rules

/-- R213 to R218: ATOM, RED and ATCAS put their operation in flight, with the lane's operands. Widths are .16, .32 and .64. -/
def Sys2Proof.Rules.AtomicsIssue : Prop :=
  ∀ (s : State) (i : Issue) (place : Nat → Nat → Place), Issuing s i →
    (∀ x : AtomX, x.w ≠ .w128 → let act := guardMask s i x.h
      Passes s i x.h .both { srcs := [(x.addr, 2), (x.b, widthRegs x.w)], dsts := [(x.data, widthRegs x.w)], ok := addrOk x.addr } → HgathOk act x.op place →
        (∀ l, hasLane act l = true → AccessOk s i.ctx x.w (x.op ≠ .hgath) (ea s i x.addr (x.off.signExtend 64) l) (place l)) →
          Accesses (exec (.atom x) s) s i x.h x.pol x.scope true false (codes x.data (widthRegs x.w))
            (elemsOf act x.w (ea s i x.addr (x.off.signExtend 64)) place x.data fun l _ => .atomic x.op (widthReg s i x.w x.b l))) ∧
    (∀ x : RedX, x.w ≠ .w128 → x.op ≠ .hgath → let act := guardMask s i x.h
      Passes s i x.h .both { srcs := [(x.addr, 2), (x.b, widthRegs x.w)], ok := addrOk x.addr } →
        (∀ l, hasLane act l = true → AccessOk s i.ctx x.w true (ea s i x.addr (x.off.signExtend 64) l) (place l)) →
          Accesses (exec (.red x) s) s i x.h x.pol x.scope false false []
            (elemsOf act x.w (ea s i x.addr (x.off.signExtend 64)) place (.sp .zero) fun l _ => .atomic x.op (widthReg s i x.w x.b l))) ∧
    ∀ x : AtcasX, x.w ≠ .w128 → let act := guardMask s i x.h
      Passes s i x.h .both { srcs := [(x.addr, 2), (x.b, widthRegs x.w), (x.c, widthRegs x.w)], dsts := [(x.data, widthRegs x.w)], ok := addrOk x.addr } →
        (∀ l, hasLane act l = true → AccessOk s i.ctx x.w true (ea s i x.addr (x.off.signExtend 64) l) (place l)) →
          Accesses (exec (.atcas x) s) s i x.h x.pol x.scope true false (codes x.data (widthRegs x.w))
            (elemsOf act x.w (ea s i x.addr (x.off.signExtend 64)) place x.data fun l _ => .cas (widthReg s i x.w x.b l) (widthReg s i x.w x.c l))

/-- R50, R214, R217: what an atomic writes, and that it returns the old value: sums wrap, minima and maxima are signed, XCHG replaces, HGATH
leaves the word, and compare-and-swap writes only where the old value is the expected one. -/
def Obligations.AtomicValues : Prop :=
  ∀ (e : Elem) (w : Nat) (x b : BitVec (8 * w)), e.n = w → (w = 4 ∨ w = 8) → ∀ (v : DWord), v.setWidth (8 * w) = b →
    let old := bytesLE w x.toNat
    let new (op : AtomOp) : Option (List Byte) := (Elem.apply { e with op := .atomic op v } old).2
    (∀ op, (Elem.apply { e with op := .atomic op v } old).1 = old) ∧
    new .add = some (bytesLE w (x + b).toNat) ∧ new .and = some (bytesLE w (x &&& b).toNat) ∧ new .or = some (bytesLE w (x ||| b).toNat) ∧
    new .xor = some (bytesLE w (x ^^^ b).toNat) ∧ new .xchg = some (bytesLE w b.toNat) ∧ new .hgath = none ∧
    new .min = some (bytesLE w (if b.slt x then b else x).toNat) ∧ new .max = some (bytesLE w (if x.slt b then b else x).toNat) ∧
    ∀ u : DWord, Elem.apply { e with op := .cas v u } old = (old, if x = b then some (bytesLE w u.toNat) else none)

/-- R219, R221: LR and SC of global addresses put the load that reserves, or the conditional store, in flight. -/
def Sys2Proof.Rules.ReservationsIssue : Prop :=
  ∀ (s : State) (i : Issue) (place : Nat → Nat → Place), Issuing s i →
    (∀ x : PolMem, let act := guardMask s i x.h
      let va := ea s i x.addr (BitVec.ofNat 64 (x.off.toNat * 4))
      Passes s i x.h .both { srcs := [(x.addr, 2)], dsts := [(x.data, 1)], ok := addrOk x.addr } → (∀ l, hasLane act l = true → windowOf (va l) = .global ∧ AccessOk s i.ctx .w32 false (va l) (place l)) →
        Accesses (exec (.lr x) s) s i x.h x.pol x.scope true false (codes x.data 1) (elemsOf act .w32 va place x.data fun _ _ => .lr)) ∧
    (∀ x : LrX, x.w ≠ .w128 → let act := guardMask s i x.h
      let va := ea s i x.addr (x.off.signExtend 64)
      Passes s i x.h .both { srcs := [(x.addr, 2)], dsts := [(x.data, widthRegs x.w)], ok := addrOk x.addr } → (∀ l, hasLane act l = true → windowOf (va l) = .global ∧ AccessOk s i.ctx x.w false (va l) (place l)) →
        Accesses (exec (.lrX x) s) s i x.h x.pol x.scope true false (codes x.data (widthRegs x.w)) (elemsOf act x.w va place x.data fun _ _ => .lr)) ∧
    ∀ x : ScX, x.w ≠ .w128 → let act := guardMask s i x.h
      let va := ea s i x.addr (x.off.signExtend 64)
      Passes s i x.h .both { srcs := [(x.addr, 2), (x.b, widthRegs x.w)], dsts := [(x.data, 1)], ok := addrOk x.addr } →
        (∀ l, hasLane act l = true → windowOf (va l) = .global ∧ AccessOk s i.ctx x.w true (va l) (place l)) →
          Accesses (exec (.sc x) s) s i x.h x.pol x.scope true false (codes x.data 1) (elemsOf act x.w va place x.data fun l _ => .sc (widthReg s i x.w x.b l))

/-- R213 to R219, R221: ATOM, RED, ATCAS, LR and SC. -/
def Obligations.AtomicsAndReservationsIssue : Prop := Rules.AtomicsIssue ∧ Rules.ReservationsIssue

namespace Sys2Proof.Rules
/-- A store of bytes at pa has reached the core's copies, and nothing else has changed of what any core or the memory holds. -/
structure StoredAtCore (s t : State) (core pa : Nat) (bs : List Byte) : Prop where
  bytes : (List.range bs.length).map (fun j => t.coreByte core (pa + j)) = bs
  others : ∀ c a, a < 2 ^ 48 → c ≠ core ∨ a < pa ∨ pa + bs.length ≤ a → t.coreByte c a = s.coreByte c a
  mem : t.mem = s.mem
end Sys2Proof.Rules

/-- R220 to R222: an SC in the core's own copies succeeds exactly where its lane holds a reservation on the line under the same policy: it writes
0 and the bytes, in the copies that the core owns, or 1 and nothing; either way the lane's reservation is gone. At home it needs its die among the
sharers of every word too, and writes the bytes in memory. -/
def Obligations.StoreConditionalPerforms : Prop :=
  ∀ (s : State) (a : Acc) (e : Elem) (v : DWord) (pa cls own : Nat), e.place = .mem pa cls own → e.op = .sc v → (Tab.find? s.ctxs a.ctx).isSome = true →
    Tab.wfFrom (⟨0, .si⟩ : Resv) none (s.ctx a.ctx).resv = true →
      let held := (s.ctx a.ctx).reserved e.lane (pa / 128) a.pol
      let r := s.perform a e false
      let shared := ∀ w ∈ e.memWords, ∃ l, (s.dirWord w).mode = .t l ∧ coreDie a.core ∈ l
      let h := s.perform a e true e.memWords
      let bs := bytesLE e.n v.toNat
      (r.2.got = bytesLE 4 (if held then 0 else 1) ∧ r.2.done = true ∧ (held = false → r.1.mem = s.mem ∧ r.1.l1 = s.l1) ∧
        Tab.find? (r.1.ctx a.ctx).resv e.lane = none) ∧
      (held = true → Tab.wf ({} : L1Word) s.l1 = true → pa + e.n ≤ 2 ^ 48 → (∀ w ∈ e.memWords, (s.l1w a.core w).st = .o ∨ (s.l1w a.core w).st = .m) →
        StoredAtCore s r.1 a.core pa bs) ∧
      (h.2.done = true ∧ Tab.find? (h.1.ctx a.ctx).resv e.lane = none ∧
        (held = true ∧ shared → Memory.wf s.mem = true → h.2.got = bytesLE 4 0 ∧ Memory.readN h.1.mem pa e.n = bs ∧
          ∀ b, b < pa ∨ pa + e.n ≤ b → Memory.read h.1.mem b = Memory.read s.mem b) ∧
        (¬ (held = true ∧ shared) → h.2.got = bytesLE 4 1 ∧ h.1.mem = s.mem ∧ h.1.l1 = s.l1))

/-! ## Barriers -/
namespace Sys2Proof.Rules
/-- The issuer has arrived in the current phase (R223). -/
def arrived (b : Bar) (k : Nat) : Bool := if k % 32 = 16 then b.harr else b.garr.getLsbD (k % 32)
/-- The register after an arrival that does not complete the phase, and after one that does (R225). -/
def arriving (b : Bar) (k : Nat) (drop : Bool) : Bar :=
  { b with garr := if k % 32 = 16 then b.garr else b.garr ||| (1#16 <<< (k % 32)), harr := b.harr || k % 32 = 16
           drops := (b.drops + (if drop then 1 else 0)) % 256, arrived := (b.arrived + 1) % 256 }
def completing (b : Bar) (drop : Bool) : Bar :=
  { garr := 0, harr := false, phase := (b.phase + 1) % 256, drops := 0, expect := b.expect - (b.drops + (if drop then 1 else 0)) % 256, arrived := 0 }
def barOf (s : State) (k : Nat) (n : Fin 16) : Bar := (s.wgOf k).bar n.val
end Sys2Proof.Rules

/-- R224: BARI sets the members of a barrier without arrivals that no copy names; with no acting lane it does nothing. -/
def Sys2Proof.Rules.BarrierInit : Prop :=
  ∀ (s : State) (i : Issue), Issuing s i →
    let set (n : Fin 16) (c : Nat) : State := s.updWg (i.ctx / 32) fun g => g.setBar n.val { garr := 0, harr := false, phase := 0, drops := 0, expect := c, arrived := 0 }
    let free (n : Fin 16) : Prop := (barOf s i.ctx n).arrived = 0 ∧ ∀ c ∈ s.copies, c.2.wk = i.ctx / 32 → c.2.form.bar ≠ n
    (∀ x : BariF, Passes s i x.h .both { srcs := [(x.a, 1)] } → let c := (src32 s i (lowestLane (guardMask s i x.h)) x.a).toNat
      (guardMask s i x.h = 0 → Does (exec (.bari x) s) s s i) ∧ (guardMask s i x.h ≠ 0 → 1 ≤ c → c ≤ 255 → free x.b → Does (exec (.bari x) s) s (set x.b c) i)) ∧
    ∀ x : BariX, Passes s i x.h .both {} →
      (guardMask s i x.h = 0 → Does (exec (.bariX x) s) s s i) ∧
      (guardMask s i x.h ≠ 0 → 1 ≤ x.count.toNat → x.count.toNat ≤ 255 → free x.b → Does (exec (.bariX x) s) s (set x.b x.count.toNat) i)

/-- R225: BARA and BARAD. An arrival on an initialised barrier, by an issuer that has not arrived, is counted, and releases; the last one completes the phase
and wakes every lane of the workgroup that is blocked on the barrier. -/
def Sys2Proof.Rules.BarrierArrive : Prop :=
  ∀ (drop : Bool) (x : BarF) (s : State) (i : Issue), Issuing s i → (Tab.find? s.wgs (i.ctx / 32)).isSome = true → (s.wgOf i.ctx).bars.length = 16 →
    Passes s i x.h .both {} →
      let b := barOf s i.ctx x.b
      let o := exec (if drop then .barad x else .bara x) s
      let next (c : Bar) : State := (s.updWg (i.ctx / 32) fun g => g.setBar x.b.val c).publishAt i.ctx (barKey (i.ctx / 32) x.b.val)
      (guardMask s i x.h = 0 → Does o s s i) ∧
      (guardMask s i x.h ≠ 0 → b.expect ≠ 0 → arrived b i.ctx = false →
        ((b.arrived + 1) % 256 ≠ b.expect → Does o s (next (arriving b i.ctx drop)) i) ∧
        ((b.arrived + 1) % 256 = b.expect → ∃ t, o = .next t ∧ barOf t i.ctx x.b = completing b drop ∧ RegsKept s t ∧ DataKept s t ∧ FuncsKept s t ∧
          (∀ l, l < 32 → hasLane i.exec l = true → ((t.front i.ctx i.level).lane l).pc = i.after) ∧
          (∀ n, n ≠ x.b → barOf t i.ctx n = barOf s i.ctx n) ∧
          ∀ k l, k / 32 = i.ctx / 32 → ((t.ctx k).front.lane l).st ≠ .blockedBar (.bar x.b)))

/-- R226: BARW blocks every acting lane while its issuer has arrived, with its PC past the BARW (DEDUCED, log 23), and else goes on, which acquires; BART writes whether
it would go on, at once, and 0 on an uninitialised barrier. -/
def Sys2Proof.Rules.BarrierWaitAndTest : Prop :=
  ∀ (s : State) (i : Issue), Issuing s i →
    (∀ x : BarF, Passes s i x.h .both {} → let b := barOf s i.ctx x.b
      let act := guardMask s i x.h
      (act = 0 → Does (exec (.barw x) s) s s i) ∧
      (act ≠ 0 → b.expect ≠ 0 → arrived b i.ctx = false → Does (exec (.barw x) s) s (s.learnAt (barKey (i.ctx / 32) x.b.val) i.ctx) i) ∧
      (act ≠ 0 → b.expect ≠ 0 → arrived b i.ctx = true → Does (exec (.barw x) s) s s i fun l y =>
        if hasLane act l then { y with st := .blockedBar (.bar x.b), pc := i.after } else y.goto i.after)) ∧
    ∀ x : BartF, Passes s i x.h .both { pdst := [x.p.toNat] } → let b := barOf s i.ctx x.b
      let go := decide (b.expect ≠ 0) && !arrived b i.ctx
      ∃ t, exec (.bart x) s = .next t ∧ Untouched (if go ∧ guardMask s i x.h ≠ 0 then s.learnAt (barKey (i.ctx / 32) x.b.val) i.ctx else s) t i.ctx ∧ Advances s t i ∧
        ∀ l, hasLane (guardMask s i x.h) l = true → ∃ p ∈ (t.ctx i.ctx).pends, p.due = some (s.nowAt i) ∧ (⟨.p x.p.toNat l, if go then 1 else 0⟩ : Wr) ∈ p.wr

namespace Sys2Proof.Rules
/-- With this arrival every member of the issuer's instance of the scope has arrived (R227): every live lane of the group at .grp, else every
unretired group of the grid there. -/
def AllIn (s : State) (i : Issue) (scope : Scope) (act : Lanes) : Prop :=
  if scope = .grp then ∀ l, l < 32 → ((s.ctx i.ctx).front.lane l).st ≠ .exited → hasLane act l = true ∨ hasLane ((s.ctx i.ctx).arrived .grp) l = true
  else ∀ k ∈ s.syncMembers i.ctx scope, k ≠ i.ctx → (s.ctx k).arrived scope ≠ 0
end Sys2Proof.Rules

/-- R29, R227: SYNC, whose lanes' PCs stand past it (DEDUCED, log 23). An arrival that is not the last is recorded and blocks its lanes, and no lane blocked on the scope
wakes; the last member's arrival completes the phase: no lane of any member stays blocked on it, and no arrival stays recorded. Without an acting lane it
only goes on. -/
def Sys2Proof.Rules.SyncArrives : Prop :=
  ∀ (x : SyncF) (s : State) (i : Issue), Issuing s i → AllActive s i → Passes s i x.h .groups {} → i.level = false →
    let act := guardMask s i x.h
    x.scope ≠ .pod → x.scope ≠ .sys → (x.scope = .quad ∨ x.scope = .die ∨ x.scope = .pkg → (s.gridOf i.ctx).coresident = true) →
      (x.scope = .grp ∨ ∀ e ∈ (s.ctx i.ctx).syncs, e.1 ≠ x.scope ∨ e.2 = 0) →
        ∃ t, exec (.sync x) s = .next t ∧ RegsKept s t ∧ t.mem = s.mem ∧ t.cist = s.cist ∧ FuncsKept s t ∧
          (∀ l, l < 32 → hasLane i.exec l = true → ((t.front i.ctx false).lane l).pc = i.after) ∧
          (act ≠ 0 → ¬ AllIn s i x.scope act → (x.scope, act) ∈ (t.ctx i.ctx).syncs ∧
            (∀ l, l < 32 → hasLane act l = true → ((t.front i.ctx false).lane l).st = .blockedBar (.sync x.scope)) ∧
            ∀ k l, ((s.ctx k).front.lane l).st = .blockedBar (.sync x.scope) → ((t.ctx k).front.lane l).st = .blockedBar (.sync x.scope)) ∧
          (act ≠ 0 → AllIn s i x.scope act → (∀ l, l < 32 → hasLane act l = true → ((t.front i.ctx false).lane l).st = .active) ∧
            ∀ k, k = i.ctx ∨ (x.scope ≠ .grp ∧ k ∈ s.syncMembers i.ctx x.scope) →
              (∀ e ∈ (t.ctx k).syncs, e.1 ≠ x.scope) ∧ ∀ l, ((t.ctx k).front.lane l).st ≠ .blockedBar (.sync x.scope))

/-- R29, R224 to R227: BARI, BARA, BARAD, BARW, BART and SYNC. -/
def Obligations.Barriers : Prop := Rules.BarrierInit ∧ Rules.BarrierArrive ∧ Rules.BarrierWaitAndTest ∧ Rules.SyncArrives

/-! ## Instructions that hand work to an engine -/
namespace Sys2Proof.Rules

/-- What a workgroup's program can see of it beside its tile file, accumulators and queues. -/
def seen (g : Wg) := (g.s, g.trough, g.bars, g.d, g.cways, g.ch, g.wptr, g.pump, g.tshape, g.trapbase, g.pwrhint)
/-- No register, memory byte, scratchpad byte or word, copy, function or grid has changed; of workgroups, only tile files, accumulators and queues. -/
structure Quiet (s t : State) : Prop where
  regs : RegsKept s t
  data : DataKept s t
  fe : t.fe = s.fe
  vfs : t.vfs = s.vfs
  grids : t.grids = s.grids
  wgs : ∀ w, seen (t.wg w) = seen (s.wg w)
  fpstat : ∀ k, (t.ctx k).fpstat = (s.ctx k).fpstat
/-- The tile file and the accumulators of every workgroup are as they were. -/
def TilesKept (s t : State) : Prop := ∀ w, (t.wg w).tiles = (s.wg w).tiles ∧ (t.wg w).tscl = (s.wg w).tscl ∧ (t.wg w).acc = (s.wg w).acc ∧ (t.wg w).xp = (s.wg w).xp ∧ (t.wg w).xpValid = (s.wg w).xpValid
/-- base with a job under way, numbered with the next number, and its next step on the agenda. -/
def jobRec (base : State) (i : Issue) (act : Lanes) (job : Job) : JobRec :=
  { id := base.ids, ctx := i.ctx, level := i.level, lanes := act, pc := i.pc, head := i.head, off := i.off
    seqs := (lanesOf act).map fun l => (l, Tab.get 0 (base.ctx i.ctx).seq l + 1), job := job }
def withJob (base : State) (i : Issue) (act : Lanes) (job : Job) : State :=
  { base with ids := base.ids + 1, jobs := Tab.put base.jobs base.ids (jobRec base i act job)
              agenda := base.agenda ++ [{ what := .flagCountDown, args := { id := base.ids } }] }
/-- The word completes its issue with a job under way, for which its flag counts (R150): nothing else changes beyond base. -/
def Starts (o : Out) (s base : State) (i : Issue) (h : Hdr) (act : Lanes) (job : Job) : Prop :=
  ∃ t, o = .next t ∧ Leaves s (withJob base i act job) t i (fun _ x => x.goto i.after) ∧
    ∃ p ∈ (t.ctx i.ctx).pends, p.id = base.ids ∧ p.due = none ∧ p.lanes = act ∧ p.flag = (hdrFlag h).map fun n => (i.level, n)

/-- What a TST names: whether its shape fits, its rows and their bytes, and the alignment of a row. -/
def tstShape (s : State) (k : Nat) (src : TstSrc) : Bool × Nat × Nat × Nat :=
  match src with
  | .tile t ty => let w := nth 0 (s.wgOf k).tshape t.val; (w ≠ 0 && shapeType w = ty.code.toNat, shapeRows w, shapeRb w, tileAlign ty)
  | .acc _ => (true, 32, 128, 8)
/-- Nothing in flight for the context touches the source of a TST. -/
def tstCalm (s : State) (k : Nat) (src : TstSrc) : Prop :=
  match src with
  | .tile t _ => s.tileBusy k t.val = false ∧ ∀ j ∈ s.jobs, j.2.ctx / 32 = k / 32 → ∀ u a b c d e f g, j.2.job = .tld u a b c d e f g → u ≠ t
  | .acc ac => s.accBusy k ac.val = false
def tstData (s : State) (k : Nat) (src : TstSrc) (n : Nat) : List Byte :=
  match src with
  | .tile t _ => (List.range n).map fun j => (s.wgOf k).tile t.val j
  | .acc ac => (List.range (n / 4)).flatMap fun j => bytesLE 4 ((s.wgOf k).accAt ac.val j).toNat
end Sys2Proof.Rules

/-- R235 to R237: TLD and TST whose rows all pass their checks: the tile load, or the store, is under way; that a TST stores the bytes that its tile or
accumulator holds at issue is the model's reading (DEDUCED, log 29). -/
def Obligations.TileAccesses : Prop :=
  ∀ (s : State) (i : Issue), Issuing s i →
    (∀ x : TldX, Passes s i x.h .both { srcs := [(x.addr, 2)], ok := baseOk x.addr } →
      let act := guardMask s i x.h
      let w := nth 0 (s.wgOf i.ctx).tshape x.t.val
      let base := src64 s i (lowestLane act) x.addr + x.off.signExtend 64
      let stride := if x.stride = 0 then shapeRb w else x.stride.toNat
      (act = 0 → Does (exec (.tld x) s) s s i) ∧
      (act ≠ 0 → w ≠ 0 → shapeType w = x.ty.code.toNat → rowsCheck s i.ctx base stride (shapeRows w) (shapeRb w) (tileAlign x.ty) false = none →
        Starts (exec (.tld x) s) s s i x.h act (.tld x.t base stride (shapeRows w) (shapeRb w) 0 false x.pol))) ∧
    ∀ x : TstX, Passes s i x.h .both { srcs := [(x.addr, 2)], ok := baseOk x.addr } →
      let act := guardMask s i x.h
      let (ok, rows, rb, align) := tstShape s i.ctx x.src
      let base := src64 s i (lowestLane act) x.addr + x.off.signExtend 64
      let stride := if x.stride = 0 then rb else x.stride.toNat
      (act = 0 → Does (exec (.tst x) s) s s i) ∧
      (act ≠ 0 → ok = true → rb ≤ stride → rowsCheck s i.ctx base stride rows rb align true = none →
        ∃ data fresh, Starts (exec (.tst x) s) s { s with fresh := fresh } i x.h act (.tst data base stride rows rb 0 x.pol) ∧
          (tstCalm s i.ctx x.src → data = tstData s i.ctx x.src (rows * rb)))

/-- R234, R244, R245: TZERO clears a tile and its scales, or an accumulator; TRDY waits for the context's tile loads, and TWAIT for the operations on
its accumulator. -/
def Sys2Proof.Rules.TileZeroAndWaits : Prop :=
  ∀ (s : State) (i : Issue), Issuing s i →
    (∀ x : TzeroF, Passes s i x.h .both {} →
      (guardMask s i x.h = 0 → Does (exec (.tzero x) s) s s i) ∧
      ∃ base, Does (exec (.tzero x) s) s base i ∧ Quiet s base ∧ base.ctxs = s.ctxs ∧
        (guardMask s i x.h ≠ 0 → (Tab.find? s.wgs (i.ctx / 32)).isSome = true → Tab.wf 0 (s.wgOf i.ctx).tiles = true → Tab.wf 0x7F (s.wgOf i.ctx).tscl = true →
          Tab.wf 0 (s.wgOf i.ctx).acc = true → match x.u with
          | .tile t => s.tileBusy i.ctx t.val = false → (∀ j, j < 4096 → (base.wgOf i.ctx).tile t.val j = 0) ∧ (∀ j, j < 64 → (base.wgOf i.ctx).scl t.val j = 0x7F) ∧
              (∀ u j, u ≠ t.val → j < 4096 → (base.wgOf i.ctx).tile u j = (s.wgOf i.ctx).tile u j) ∧ (base.wgOf i.ctx).acc = (s.wgOf i.ctx).acc
          | .acc ac => s.accBusy i.ctx ac.val = false → (∀ j, j < 1024 → (base.wgOf i.ctx).accAt ac.val j = 0) ∧ nth false (base.wgOf i.ctx).xpValid ac.val = false ∧
              (∀ b j, b ≠ ac.val → j < 1024 → (base.wgOf i.ctx).accAt b j = (s.wgOf i.ctx).accAt b j) ∧ (base.wgOf i.ctx).tiles = (s.wgOf i.ctx).tiles)) ∧
    (∀ x : Plain, Passes s i x.h .both {} → let act := guardMask s i x.h
      (act = 0 → Does (exec (.trdy x) s) s s i) ∧
      (act ≠ 0 → ∃ waits, Starts (exec (.trdy x) s) s s i x.h act (.trdy waits) ∧
        ∀ k j, (k, j) ∈ s.jobs → (k ∈ waits ∨ j.ctx ≠ i.ctx ∨ ∀ u a b c d e f g, j.job ≠ .tld u a b c d e f g))) ∧
    ∀ x : TwaitF, Passes s i x.h .both {} → let act := guardMask s i x.h
      (act = 0 → Does (exec (.twait x) s) s s i) ∧
      (act ≠ 0 → ∃ waits, Starts (exec (.twait x) s) s s i x.h act (.twait x.ac.val waits) ∧ ∀ q ∈ (s.wgOf i.ctx).mq, q.cmd.ac = x.ac → q.id ∈ waits)

/-- R231 to R234, R244, R245: MOVTS, TZERO, TRDY and TWAIT. -/
def Obligations.TileRegisters : Prop := Rules.MoveTileShape ∧ Rules.TileZeroAndWaits

/-! ## The matrix engine -/
namespace Sys2Proof.Rules
/-- R306, queue 3: room for a matrix entry, where a lane acts. -/
def matRoom (s : State) (i : Issue) (h : Hdr) : Check := if guardMask s i h ≠ 0 && (s.wgOf i.ctx).mq.length ≥ 8 then some (6, 3) else none
/-- The three operations with their commands (R92, R243). -/
def matRules (x : TmmX) (y : TmmsX) : List (Instr × Hdr × MatCmd) :=
  [(.tmma x, x.h, { mop := .tmma, ty := x.ty, ac := x.ac, ta := x.ta, tb := x.tb, tm := 0, pat := .p24, kb := x.kb }),
   (.tmms y, y.h, { mop := .tmms, ty := y.ty, ac := y.ac, ta := y.ta, tb := y.tb, tm := y.tm, pat := y.pat, kb := y.kb }),
   (.tmmq x, x.h, { mop := .tmmq, ty := x.ty, ac := x.ac, ta := x.ta, tb := x.tb, tm := 0, pat := .p24, kb := x.kb })]
/-- R248, R249: the panels of a TGEMM: where each begins, how many bytes it has. -/
def panels (a b c : Nat) (x : TgemmX) : List (Nat × Nat) :=
  let e := if x.ty.code.toNat ≤ 1 then 2 else 1
  let k := 128 * x.ks.toNat
  [(a, 32 * (x.mt.toNat + 1) * k * e), (b, 32 * (x.nt.toNat + 1) * k * e), (c, 32 * (x.mt.toNat + 1) * 32 * (x.nt.toNat + 1) * 4)]
end Sys2Proof.Rules

/-- R92, R96, R243, R248: a matrix operation whose shapes fit joins its workgroup's queue with the operand bytes that its tiles hold at issue, and
a TGEMM whose panels are aligned and reserved joins it with its operands; nothing that a program can load changes. -/
def Obligations.MatrixOperationsQueue : Prop :=
  ∀ (s : State) (i : Issue), Issuing s i →
    (∀ x y, ∀ r ∈ matRules x y, Passes s i r.2.1 .both {} (matRoom s i r.2.1) →
      let c := r.2.2
      let act := guardMask s i r.2.1
      (act = 0 → Does (exec r.1 s) s s i) ∧
      (act ≠ 0 → ∀ shapes snap u, (s.wgOf i.ctx).matShapes c = some shapes → s.snapshot (i.ctx / 32) c = (snap, u) → snapMetaOk c shapes snap = true →
        (∃ base, Does (exec r.1 s) s base i ∧ Quiet s base ∧ TilesKept s base ∧ base.ctxs = s.ctxs ∧
          ((Tab.find? s.wgs (i.ctx / 32)).isSome = true → (base.wgOf i.ctx).mq = (s.wgOf i.ctx).mq ++ [{ id := s.ids, ctx := i.ctx, cmd := c, shapes := shapes, snap := snap, armed := true, granted := s.grantTime (i.ctx / 32) }])) ∧
        ((s.wgOf i.ctx).told = [] → Tab.wf 0 (s.wgOf i.ctx).tiles = true → ∀ j, j < 4096 →
          Tab.get 0 snap j = (s.wgOf i.ctx).tile c.ta.val j ∧ Tab.get 0 snap (4096 + j) = (s.wgOf i.ctx).tile c.tb.val j))) ∧
    ∀ x : TgemmX, Passes s i x.h .both { srcs := [(x.ab, 2), (x.c, 1)] } (matRoom s i x.h) →
      let act := guardMask s i x.h
      let ab := src64 s i (lowestLane act) x.ab
      let c := src32 s i (lowestLane act) x.c
      (act = 0 → Does (exec (.tgemm x) s) s s i) ∧
      (act ≠ 0 → (∀ p ∈ panels (ab.toNat % 2 ^ 32) (ab.toNat / 2 ^ 32) c.toNat x, p.1 % 64 = 0 ∧ p.1 + p.2 ≤ (s.wgOf i.ctx).reserved) →
        ∃ base, Does (exec (.tgemm x) s) s base i ∧ base.ctxs = s.ctxs ∧ TilesKept s base ∧
          (let calm := base.updWg (i.ctx / 32) fun g => { g with pump := (s.wgOf i.ctx).pump }
           Quiet s calm) ∧
          ((∃ q rest, (s.wgOf i.ctx).mq = q :: rest ∧ q.gemm = none) ∨ (s.wgOf i.ctx).pump.act = true → Quiet s base) ∧
          ((s.wgOf i.ctx).mq = [] → (s.wgOf i.ctx).pump.act = false → (Tab.find? s.wgs (i.ctx / 32)).isSome = true →
            (base.wgOf i.ctx).pump = { act := true, acn := x.ac.val, since := s.clock }) ∧
          ((Tab.find? s.wgs (i.ctx / 32)).isSome = true → ∃ q, (base.wgOf i.ctx).mq = (s.wgOf i.ctx).mq ++ [q] ∧ q.id = s.ids ∧ q.cmd.ac = x.ac ∧
            q.gemm = some { ty := x.ty, a := ab.setWidth 32, b := ab.extractLsb' 32 32, c := c, mt := x.mt.toNat, nt := x.nt.toNat, ks := x.ks.toNat }))

namespace Sys2Proof.Rules
/-- R130: a scale byte as an FP32 value. -/
def scaleValue (e : Nat) : Nat := if e = 0 then 0x00400000 else if e = 255 then 0x7FC00000 else e * 2 ^ 23
end Sys2Proof.Rules

/-- R247: TACC delivers FP32 elements or valid XP forms of an accumulator that no operation in flight touches, and TACC.SCL a converted scale, after
six cycles; TACC.WR writes elements in ascending lane order and makes the XP forms invalid. -/
def Obligations.Accumulators : Prop :=
  ∀ (s : State) (i : Issue), Issuing s i →
    (∀ x : TaccF, let act := guardMask s i x.h
      let idx (l : Nat) : Nat := (src32 s i l x.idx).toNat
      (∀ l, hasLane act l = true → idx l ≤ 1023) → s.accBusy i.ctx x.ac.val = false →
        (Passes s i x.h .both { srcs := [(x.idx, 1)], dsts := [(x.data, 1)], wbs := x.h.wbs } →
          Computes (exec (.tacc x) s) s i x.h x.data false 6 fun l => ((s.wgOf i.ctx).accAt x.ac.val (idx l)).setWidth 64) ∧
        (Passes s i x.h .both { srcs := [(x.idx, 1)], dsts := [(x.data, 2)], wbs := x.h.wbs } → nth false (s.wgOf i.ctx).xpValid x.ac.val = true →
          Computes (exec (.taccXp x) s) s i x.h x.data true 6 fun l => Tab.get 0 (s.wgOf i.ctx).xp (x.ac.val * 1024 + idx l)) ∧
        (Passes s i x.h .both { srcs := [(x.idx, 1), (x.data, 1)] } →
          (act = 0 → Does (exec (.taccWr x) s) s s i) ∧
          (act ≠ 0 → ∃ base, Does (exec (.taccWr x) s) s base i ∧ Quiet s base ∧ base.ctxs = s.ctxs ∧
            ((Tab.find? s.wgs (i.ctx / 32)).isSome = true → Tab.wf 0 (s.wgOf i.ctx).acc = true →
              nth false (base.wgOf i.ctx).xpValid x.ac.val = false ∧ (base.wgOf i.ctx).tiles = (s.wgOf i.ctx).tiles ∧
              (∀ l, hasLane act l = true → (∀ k, l < k → hasLane act k = true → idx k ≠ idx l) → (base.wgOf i.ctx).accAt x.ac.val (idx l) = src32 s i l x.data) ∧
              ∀ b j, b < 4 → j < 1024 → (b ≠ x.ac.val ∨ ∀ l, hasLane act l = true → idx l ≠ j) → (base.wgOf i.ctx).accAt b j = (s.wgOf i.ctx).accAt b j)))) ∧
    ∀ x : TaccScl, Passes s i x.h .both { dsts := [(x.d, 1)], wbs := x.h.wbs } →
      Computes (exec (.taccScl x) s) s i x.h x.d false 6 fun _ => BitVec.ofNat 64 (scaleValue ((s.wgOf i.ctx).scl x.t.val x.j.toNat).toNat)

/-! ## Copies -/
namespace Sys2Proof.Rules
/-- One copy instruction: its header, the fields on which its slices agree, and its operands (R251). -/
structure CopyRule where
  form : Instr
  h : Hdr
  f : CopyForm
  dst : Reg
  src : Reg
  len : Reg
  pub : Reg
def pubOf (c : Option Chan) : Reg := match c with | some c => c.pub | none => .sp .zero
def copyRules (x : CpyX) (y : CpymX) (z : CpycvX) (w : CpylbX) : List CopyRule := [
  ⟨.cpy x, x.h, { opc := 0xCA, bar := x.b, pol := x.pol, chan := x.chan.map fun c => (c.ch, c.scope), flag := false, td := x.td, form := 0, cmd := none }, x.dst, x.src, x.len, pubOf x.chan⟩,
  ⟨.cpym y, y.h, { opc := 0xCB, bar := y.b, pol := y.pol, chan := none, flag := false, td := y.td, form := 0, cmd := some y.cmd }, y.dst, y.src, y.len, .sp .zero⟩,
  ⟨.cpycv z, z.h, { opc := 0xCC, bar := z.b, pol := z.pol, chan := z.chan.map fun c => (c.ch, c.scope), flag := z.nsat, td := false, form := z.form, cmd := none }, z.dst, z.src, z.len, pubOf z.chan⟩,
  ⟨.cpylb w, w.h, { opc := 0xCD, bar := w.b, pol := w.pol, chan := some (w.chan.ch, w.chan.scope), flag := w.fresh, td := false, form := w.rowb ++ w.sstr, cmd := none }, w.dst, w.src, w.len, w.chan.pub⟩]
/-- The slice that a fragment supplies: the operands of its lowest acting lane, and a length of 0 with none (R251). -/
def sliceOf (s : State) (i : Issue) (r : CopyRule) : Slice :=
  let act := guardMask s i r.h
  let l := lowestLane act
  { ctx := i.ctx, level := i.level, lanes := if act = 0 then i.exec else act, pc := i.pc, progress := 0
    dst := if act = 0 then 0 else src64 s i l r.dst, src := if act = 0 then 0 else src64 s i l r.src
    len := if act = 0 then 0 else (src32 s i l r.len).toNat
    pub := if act = 0 ∨ r.pub = .sp .zero then none else some (src64 s i l r.pub), ended := false }
/-- The slice keeps the rules of its form, and its record theirs; its publication address is aligned, unless a lower group's slice is the one that names it. -/
def SliceOk (s : State) (i : Issue) (r : CopyRule) : Prop :=
  let x := sliceOf s i r
  sliceOk r.f x.dst x.len = true ∧ s.recordBad i.ctx r.f x.src x.len = false ∧
  ∀ y, x.pub = some y → y.toNat % 8 = 0 ∨ s.lowestSlice i.ctx ((s.target i.ctx).map (·.2)) = false
end Sys2Proof.Rules

/-- R102, R250, R251: the first slice of a copy on an initialised barrier opens the copy, which takes its place in the core's copy queue; a slice of
another context joins the copy that its context has come to. No byte moves at issue. -/
def Obligations.CopySlices : Prop :=
  ∀ (x : CpyX) (y : CpymX) (z : CpycvX) (w : CpylbX), ∀ r ∈ copyRules x y z w, ∀ (s : State) (i : Issue), Issuing s i →
    Passes s i r.h .both { srcs := [(r.dst, 2), (r.src, 2), (r.len, 1), (r.pub, 2)] } (copyFull s i r.f) → SliceOk s i r →
      let mine (base : State) : Prop := i.ctx % 32 ≠ 16 → (base.ctx i.ctx).copies = (s.ctx i.ctx).copies + 1
      (s.target i.ctx = none → ((s.wgOf i.ctx).bar r.f.bar.val).expect ≠ 0 → (∀ c, r.f.cmd = some c → (s.wgOf i.ctx).matShapes c ≠ none) →
        ∃ base, Does (exec r.form s) s base i ∧ Quiet s base ∧ TilesKept s base ∧ mine base ∧
          (base.core (s.coreOf i.ctx)).copyq = (s.core (s.coreOf i.ctx)).copyq ++ [s.ids] ∧
          ∃ c b, Tab.find? base.copies s.ids = some c ∧ c.form = r.f ∧ c.wk = i.ctx / 32 ∧ c.slices = [{ sliceOf s i r with birth := b }] ∧
            c.number = if i.ctx % 32 = 16 then none else some (s.ctx i.ctx).copies) ∧
      ∀ id c, s.target i.ctx = some (id, c) → c.form = r.f → Tab.find? s.copies id = some c →
        ∃ base, Does (exec r.form s) s base i ∧ Quiet s base ∧ TilesKept s base ∧ mine base ∧
          (∃ b, Tab.find? base.copies id = some { c with slices := c.slices ++ [{ sliceOf s i r with birth := b }] }) ∧ ∀ j, j ≠ id → Tab.find? base.copies j = Tab.find? s.copies j

/-! ## Fibre streams -/
namespace Sys2Proof.Rules
/-- A form of a stream instruction that works at once: its header, its sources with the kind of its address register, its register, and what its
engine does. -/
structure StreamRule where
  form : Instr
  h : Hdr
  srcs : List (Reg × Nat)
  ok : Bool
  q : Fin 16
  run : State → Nat → Nat → EngM Unit
def streamRules (i : Issue) (x : FbopenX) (y : FbskipF) (z : FbstF) (w : FbstX) : List StreamRule := [
  ⟨.fbopen x, x.h, [(x.a, 2), (x.b, 1)], pairOk x.a, x.q, fun s k l => openStream k x.q.val (src64 s i l x.a) (src32 s i l x.b).toNat x.lev.toNat x.pol x.scope⟩,
  ⟨.fbskip y, y.h, [(y.k, 1)], true, y.q, fun s k l => skipStream k y.q.val (src32 s i l y.k).toNat⟩,
  ⟨.fbsave z, z.h, [(z.addr, 2)], baseOk z.addr, z.q, fun s k l => saveStream k z.q.val z.pol (src64 s i l z.addr + BitVec.ofNat 64 (64 * z.off.toNat))⟩,
  ⟨.fbsaveX w, w.h, [(w.addr, 2)], baseOk w.addr, w.q, fun s k l => saveStream k w.q.val w.pol (src64 s i l w.addr + w.off.signExtend 64)⟩,
  ⟨.fbrest z, z.h, [(z.addr, 2)], baseOk z.addr, z.q, fun s k l => restStream k z.q.val z.pol (src64 s i l z.addr + BitVec.ofNat 64 (64 * z.off.toNat))⟩,
  ⟨.fbrestX w, w.h, [(w.addr, 2)], baseOk w.addr, w.q, fun s k l => restStream k w.q.val w.pol (src64 s i l w.addr + w.off.signExtend 64)⟩]
end Sys2Proof.Rules

namespace Sys2Proof.Rules
/-- What the reads of a stream instruction leave: the stream register and the reservations of lines whose words owners gave up have changed, and what the
memory system holds where; no register, and no queue or work of any other kind. -/
structure StreamFrame (s u : State) (k q : Nat) : Prop where
  regs : RegsKept s u
  funcs : FuncsKept s u
  wgs : u.wgs = s.wgs
  fe : u.fe = s.fe
  accs : u.accs = s.accs
  jobs : u.jobs = s.jobs
  copies : u.copies = s.copies
  colls : u.colls = s.colls
  reqs : u.reqs = s.reqs
  others : ∀ j, j ≠ k → ∃ r, u.ctx j = { s.ctx j with resv := r }
  own : ∃ r st, u.ctx k = { s.ctx k with resv := r, streams := st }
  streams : ∀ n, n ≠ q → u.stream k n = s.stream k n
/-- The fields of R124 that an FBSKIP leaves: both descriptors, ends and parents, LASTC, DMASK and bits 507 to 448, and KIND. -/
def skipKeeps : List (Nat × Nat) := [(0, 64), (64, 64), (160, 32), (224, 32), (256, 32), (288, 32), (320, 32), (416, 32), (448, 60), (509, 3)]
/-- R118, R123: what an FBSKIP to coordinate k has made of a stream: no cursor has moved back, EXH is not taken away, and of a single stream only fibre A has moved. -/
structure Skipped (x y : Stream) : Prop where
  fields : ∀ f ∈ skipKeeps, stGet y.st f.1 f.2 = stGet x.st f.1 f.2
  a : y.a = { x.a with prev := y.a.prev }
  b : y.b = { x.b with prev := y.b.prev }
  curA : x.get32 128 ≤ y.get32 128
  curB : x.get32 192 ≤ y.get32 192
  exh : x.exh = true → y.exh = true
  single : x.pair = false → y.b = x.b ∧ y.get32 192 = x.get32 192 ∧ y.get32 384 = x.get32 384
/-- A dense fibre's cursor after FBSKIP to k, and the stream with its cursor there, exhausted where no element is left. -/
def denseCursor (x : Stream) (b : Bool) (k : Nat) : Nat := max (x.get32 (if b then 192 else 128)) (min k (x.fibre b).size)
def denseSkip (x : Stream) (k : Nat) : Stream :=
  let a := x.set 128 32 (denseCursor x false k)
  let y := if x.pair then a.set 192 32 (denseCursor x true k) else a
  let endA : Bool := x.a.size ≤ denseCursor x false k
  let endB : Bool := x.b.size ≤ denseCursor x true k
  if (match x.kind with | 2 => endA || endB | 3 => endA && endB | _ => endA) then y.set 508 1 1 else y
/-- The stream's own state, and the group's outstanding requests. -/
def streamSet (s : State) (k q : Nat) (x : Stream) : State := (s.setStream k q x).updCtx k fun c => { c with outstanding := c.outstanding + 1 }
/-- The registers of the context hold sixteen streams. -/
def HasStreams (s : State) (k : Nat) : Prop := (s.ctx k).streams.length = 16 ∧ (Tab.find? s.ctxs k).isSome = true
/-- A range of the issuer's scratchpad, aligned to its length. -/
def InScratch (s : State) (k : Nat) (va : DWord) (n : Nat) (write : Bool) (c b : Nat) : Prop := chkSpan va n n = none ∧ s.chkWindow k va n write = .ok (.cist c b)
end Sys2Proof.Rules

/-- R120, R123 to R125: a stream instruction whose accesses and checks succeed does what they say, and is among the group's outstanding requests until its
flag counts down; without an acting lane it does nothing. No other stream changes, and no register; a scratchpad byte only by FBSAVE. Opened, a stream is
single, not exhausted, and has its level and descriptor; FBSKIP moves cursors forward alone and leaves the other fields. -/
def Sys2Proof.Rules.StreamInstructions : Prop :=
  ∀ (x : FbopenX) (y : FbskipF) (z : FbstF) (w : FbstX) (s : State) (i : Issue), Issuing s i → ∀ r ∈ streamRules i x y z w,
    Passes s i r.h .both { srcs := r.srcs, ok := r.ok && i.ctx % 32 ≠ 16 } (sumpRoom s i) →
      (guardMask s i r.h = 0 → Does (exec r.form s) s s i) ∧
      (guardMask s i r.h ≠ 0 → ∀ u, r.run s i.ctx (lowestLane (guardMask s i r.h)) s = .ok ((), u) →
        Starts (exec r.form s) s (u.updCtx i.ctx fun k => { k with outstanding := k.outstanding + 1 }) i r.h (guardMask s i r.h) (.streamOp r.q.val) ∧
        (HasStreams s i.ctx → StreamFrame s u i.ctx r.q.val ∧
          (r.form = .fbopen x ∨ r.form = .fbskip y ∨ r.form = .fbrest z ∨ r.form = .fbrestX w → u.cist = s.cist) ∧
          (r.form = .fbsave z ∨ r.form = .fbsaveX w → u.stream i.ctx r.q.val = s.stream i.ctx r.q.val) ∧
          let st := u.stream i.ctx r.q.val
          (r.form = .fbopen x → st.kind = 1 ∧ st.exh = false ∧ st.dmask = 0 ∧ st.lev false = x.lev.toNat ∧ st.desc false = src64 s i (lowestLane (guardMask s i x.h)) x.a) ∧
          (r.form = .fbskip y → Skipped (s.stream i.ctx y.q.val) st) ∧
          (r.form = .fbrest z ∨ r.form = .fbrestX w → st.kind ≤ 3 ∧ stGet st.st 507 1 = 0 ∧ stGet st.st 448 27 = 0 ∧ stGet st.st 498 3 ≠ 7 ∧
            (st.kind ≠ 0 → st.get32 128 ≤ st.get32 160) ∧ (st.pair = true → st.get32 192 ≤ st.get32 224))))

namespace Sys2Proof.Rules
/-- A stream instruction completes its issue with the stream register set, and no more. -/
def SetsStream (s : State) (i : Issue) (form : Instr) (h : Hdr) (q : Nat) (y : Stream) : Prop :=
  Starts (exec form s) s (streamSet s i.ctx q y) i h (guardMask s i h) (.streamOp q)
end Sys2Proof.Rules

/-- R115, R116, R120, R123, R124, in a group's own scratchpad: FBOPEN of a dense level begins at coordinate 0 with its SIZE as end; FBSKIP puts a dense
fibre's cursor at the larger of where it stands and k, no further than SIZE, and a compressed fibre's at its first coordinate not below k; EXH is set where no
element is left (of a meet in either fibre, of a join in both); FBSAVE writes the 64 bytes of the state and no other byte; FBREST loads the 64 bytes. -/
def Sys2Proof.Rules.StreamsInScratchpad : Prop :=
  ∀ (s : State) (i : Issue), Issuing s i → HasStreams s i.ctx →
    (∀ x : FbopenX, Passes s i x.h .both { srcs := [(x.a, 2), (x.b, 1)], ok := pairOk x.a && i.ctx % 32 ≠ 16 } (sumpRoom s i) → guardMask s i x.h ≠ 0 →
      let va := src64 s i (lowestLane (guardMask s i x.h)) x.a
      let par := (src32 s i (lowestLane (guardMask s i x.h)) x.b).toNat
      ∀ c b, InScratch s i.ctx va 128 false c b →
        let d : Desc := ⟨va, s.cistBytes c b 128⟩
        let spec := d.dword (0x10 + 24 * x.lev.toNat)
        let size := spec.toNat % 2 ^ 32
        d.ok = true → x.lev.toNat < d.rank → spec.toNat / 2 ^ 34 % 4 = 0 → par * size + size ≤ 0xFFFFFFFF →
          ∃ y, SetsStream s i (.fbopen x) x.h x.q.val y ∧ y.kind = 1 ∧ y.exh = false ∧ y.dmask = 0 ∧ y.lev false = x.lev.toNat ∧ y.desc false = va ∧
            y.get32 128 = 0 ∧ y.get32 160 = size ∧ y.get32 288 = par ∧ y.get32 256 = 0xFFFFFFFF ∧ y.pol = x.pol ∧ stGet y.st 498 3 = x.scope.code.toNat ∧
            y.a.spec = spec ∧ y.a.prev = none) ∧
    (∀ x : FbskipF, Passes s i x.h .both { srcs := [(x.k, 1)], ok := i.ctx % 32 ≠ 16 } (sumpRoom s i) → guardMask s i x.h ≠ 0 →
      let st := s.stream i.ctx x.q.val
      let k := (src32 s i (lowestLane (guardMask s i x.h)) x.k).toNat
      (1 ≤ st.kind → st.kind ≤ 3 → (st.pair = false → st.a.o = true) → st.a.kind = .dense → (st.pair = true → st.b.kind = .dense) →
        SetsStream s i (.fbskip x) x.h x.q.val (denseSkip st k)) ∧
      ∀ (byte : Nat → Nat × Nat), st.kind = 1 → st.a.o = true → st.a.kind = .compressed → st.get32 128 ≤ st.get32 160 →
        (∀ p, st.get32 128 ≤ p → p < st.get32 160 → InScratch s i.ctx (st.a.crd + BitVec.ofNat 64 (4 * p)) 4 false (byte p).1 (byte p).2) →
          let crd (p : Nat) : Nat := ofBytesLE (s.cistBytes (byte p).1 (byte p).2 4)
          (∀ p, st.get32 128 ≤ p → p < st.get32 160 → crd p < st.a.size ∧ (∀ w, p = st.get32 128 → st.a.prev = some w → w.toNat < crd p) ∧
            ∀ q, st.get32 128 ≤ q → q < p → crd q < crd p) →
            ∃ y, SetsStream s i (.fbskip x) x.h x.q.val y ∧ Skipped st y ∧
              let cur := y.get32 128
              cur ≤ st.get32 160 ∧ (∀ p, st.get32 128 ≤ p → p < cur → crd p < k) ∧ (cur < st.get32 160 → k ≤ crd cur) ∧
                y.exh = (st.exh || decide (cur = st.get32 160))) ∧
    ∀ (z : FbstF) (w : FbstX),
      ∀ r ∈ [((Instr.fbsave z, Instr.fbrest z), z.h, z.addr, BitVec.ofNat 64 (64 * z.off.toNat), z.q, z.pol), ((.fbsaveX w, .fbrestX w), w.h, w.addr, w.off.signExtend 64, w.q, w.pol)],
      let (forms, h, addr, off, q, pol) := r
      Passes s i h .both { srcs := [(addr, 2)], ok := baseOk addr && i.ctx % 32 ≠ 16 } (sumpRoom s i) → guardMask s i h ≠ 0 →
        let va := src64 s i (lowestLane (guardMask s i h)) addr + off
        ∀ c b, (InScratch s i.ctx va 64 true c b → Tab.wf 0 s.cist = true →
            ∃ u : State, u = { s with cist := u.cist } ∧ u.cistBytes c b 64 = bytesLE 64 (s.stream i.ctx q.val).st.toNat ∧
              (∀ d o, o < 0x40000 → d ≠ c ∨ o < b ∨ b + 64 ≤ o → u.cistByte d o = s.cistByte d o) ∧
              Starts (exec forms.1 s) s (u.updCtx i.ctx fun k => { k with outstanding := k.outstanding + 1 }) i h (guardMask s i h) (.streamOp q.val)) ∧
          (InScratch s i.ctx va 64 false c b →
            let st : Stream := { st := BitVec.ofNat 512 (ofBytesLE (s.cistBytes c b 64)) }
            (st.kind = 0 → stGet st.st 507 1 = 0 → stGet st.st 448 27 = 0 → stGet st.st 498 3 ≠ 7 → stGet st.st 479 3 ≠ 7 → (stGet st.st 475 4 < 12 ∨ stGet st.st 475 4 = 15) →
              SetsStream s i forms.2 h q.val st) ∧
            ∀ u, restStream i.ctx q.val pol va s = .ok ((), u) → (u.stream i.ctx q.val).st = st.st)

/-- R120 to R122: FBMEET and FBJOIN of two single, ordered and unique streams bind a pair and free both sources; FBNEXT starts, and counts among
the group's outstanding requests. -/
def Sys2Proof.Rules.StreamPairsAndNext : Prop :=
  ∀ (s : State) (i : Issue), Issuing s i →
    (∀ (join : Bool) (x : FbpairF), Passes s i x.h .both { ok := i.ctx % 32 ≠ 16 && x.a ≠ x.b } →
      let o := exec (if join then .fbjoin x else .fbmeet x) s
      let a := s.stream i.ctx x.a.val
      let b := s.stream i.ctx x.b.val
      (guardMask s i x.h = 0 → Does o s s i) ∧
      (guardMask s i x.h ≠ 0 → a.plain = true → b.plain = true →
        ∃ base, Does o s base i ∧ Quiet s base ∧ TilesKept s base ∧ base.wgs = s.wgs ∧ (∀ k, k ≠ i.ctx → base.ctx k = s.ctx k) ∧
          ((s.ctx i.ctx).streams.length = 16 →
            let d := base.stream i.ctx x.d.val
            d.kind = (if join then 3 else 2) ∧ d.a = a.a ∧ d.b = b.a ∧ d.desc false = a.desc false ∧ d.desc true = b.desc false ∧
            ∀ k, k < 16 → k ≠ x.d.val → base.stream i.ctx k = if k = x.a.val ∨ k = x.b.val then {} else s.stream i.ctx k))) ∧
    ∀ x : FbnextF, let pair := (s.stream i.ctx x.q.val).pair
      let act := guardMask s i x.h
      ∀ c p : Fin 192, x.c = .v c → x.p = .v p → c ≠ p → x.pm ≠ 7 → i.ctx % 32 ≠ 16 → (s.stream i.ctx x.q.val).kind ≠ 0 →
        (pair = true → p.val + 1 < (s.wgOf i.ctx).regs ∧ c.val ≠ p.val + 1) →
        Passes s i x.h .both { dsts := [(.v c, 1), (.v p, 1)] ++ (if pair then [(regPlus (.v p) 1, 1)] else []), pdst := [x.pm.toNat] } (sumpRoom s i) →
          (act = 0 → Does (exec (.fbnext x) s) s s i) ∧
          (act ≠ 0 → Starts (exec (.fbnext x) s) s (s.updCtx i.ctx fun k => { k with outstanding := k.outstanding + 1 }) i x.h act
            (.stream x.q.val i.exec c.val p.val x.pm.toNat false))

/-- R120 to R125: the stream instructions. -/
def Obligations.Streams : Prop := Rules.StreamInstructions ∧ Rules.StreamsInScratchpad ∧ Rules.StreamPairsAndNext

/-! ## Collectives, launches and joins -/
namespace Sys2Proof.Rules
/-- R306, queue 4: room among the workgroup's collective entries. -/
def collRoom (s : State) (i : Issue) : Check := if (s.wgOf i.ctx).collq.length ≥ 4 then some (6, 4) else none
end Sys2Proof.Rules

/-- R271, R273, R274: COLL of a .CORESIDENT grid, whose descriptor can be read and which the network does not refuse, arrives at the operation of
its ID that wants arrivals, or begins one, and holds one of its workgroup's entries; COLLW covers the oldest entry that none has covered. That the descriptor
is read, and the arrival made, at issue is the model's reading (DEDUCED, log 68). -/
def Obligations.Collectives : Prop :=
  ∀ (s : State) (i : Issue), Issuing s i →
    (∀ x : CollX, Passes s i x.h .heads { srcs := [(x.a, 2)] } (collRoom s i) →
      let act := guardMask s i x.h
      (act = 0 → Does (exec (.coll x) s) s s i) ∧
      (act ≠ 0 → (s.gridOf i.ctx).coresident = true → ∀ d counts t, readColl i.ctx (src64 s i (lowestLane act) x.a) x.op (collBytes x.ty) s = .ok ((d, counts), t) →
        let waits := t.collOpen (t.wgOf i.ctx).vfn (collInst x.scope (t.wgOf i.ctx).core) x.id.toNat x.scope
        (∀ c, waits = some c → c.refuses x.op x.ty d = false) →
          ∃ base, Does (exec (.coll x) s) s base i ∧ base.ctxs = t.ctxs ∧ base.mem = t.mem ∧ base.cist = t.cist ∧ base.l1 = t.l1 ∧
            let id := match waits with | some c => c.id | none => t.ids
            ((Tab.find? t.wgs (i.ctx / 32)).isSome = true → (base.wgOf i.ctx).collq = (t.wgOf i.ctx).collq ++ [(id, d.rank)]) ∧
            ∃ c ∈ base.colls, c.id = id ∧ ∃ m ∈ c.members, m.ctx = i.ctx ∧ m.rank = d.rank ∧ m.src = d.src ∧ m.dst = d.dst ∧ m.counts = counts)) ∧
    ∀ x : DestF, Passes s i x.h .heads { dsts := [(x.d, 2)] } →
      let act := guardMask s i x.h
      (act = 0 → Does (exec (.collw x) s) s s i) ∧
      (act ≠ 0 → ∀ op rank, (s.wgOf i.ctx).collq[(s.ctx i.ctx).collsCovered]? = some (op, rank) →
        ∃ base, Does (exec (.collw x) s) s base i ∧ Quiet s base ∧ TilesKept s base ∧ (base.ctx i.ctx).collsCovered = (s.ctx i.ctx).collsCovered + 1 ∧
          Tab.find? base.jobs s.ids = some (jobRec s i act (.collw op rank x.d)))

namespace Sys2Proof.Rules
/-- The sources of LAUNCH: the eight registers of its record, and its argument (R265). -/
def launchPlan (x : LaunchF) : Plan :=
  { srcs := ((List.finRange 8).map fun k => (Reg.s ⟨8 * x.recd.val + k.val, by omega⟩, 2)) ++ [(x.arg, 2)], dsts := [(x.d, 2)] }
def launchRecord (s : State) (i : Issue) (x : LaunchF) (k : Nat) : DWord := (s.wgOf i.ctx).sreg (8 * x.recd.val + k)
/-- R264: the handle of a grid, and one that says why there is none. -/
def handleBits (vfn gen slot : Nat) : DWord := BitVec.ofNat 64 (vfn * 2 ^ 54 + gen * 2 ^ 32 + slot)
def failureBits (reason : Nat) : DWord := BitVec.ofNat 64 (2 ^ 63 + reason)
/-- Every acting lane's destination holds a handle. -/
def handles (i : Issue) (act : Lanes) (d : Reg) (h : Nat → DWord) : List Wr := (lanesOf act).flatMap fun l => destWr (i.ctx % 32 == 16) l true d (h l)
end Sys2Proof.Rules

/-- R90, R263 to R267: LAUNCH of a well-formed record completes, and releases; at a level that is not its own plus one every acting lane receives failure 1,
and nothing else changes; a lane whose record needs nothing but a frame, and gets one, receives the handle of a new grid, live, with the record's
fields, a child of the launcher's. That LAUNCH to ZERO completes is the model's reading (DEDUCED, log 59). -/
def Sys2Proof.Rules.LaunchMakesGrids : Prop :=
  ∀ (x : LaunchF) (s : State) (i : Issue), Issuing s i → Passes s i x.h .both (launchPlan x) →
    let act := guardMask s i x.h
    let r := Record.of (launchRecord s i x)
    let gr := s.gridOf i.ctx
    (act = 0 → Does (exec (.launch x) s) s s i) ∧
    (act ≠ 0 → gr.level < 7 → recordFault (launchRecord s i x) 8 = none → (x.arg ≠ .sp .zero → 8 ≤ r.frame) →
      (∃ base, Does (exec (.launch x) s) s base i) ∧
      (r.level ≠ gr.level + 1 → Does (exec (.launch x) s) s ((s.publish i.ctx).writeAll i.ctx (handles i act x.d fun _ => failureBits 1)) i) ∧
      ∀ l f u, lanesOf act = [l] → r.level = gr.level + 1 → r.after = false → r.coresident = false → (s.publish i.ctx).takeFrame (s.wgOf i.ctx).vfn r.frame = (some f, u) →
        ∃ base g, Does (exec (.launch x) s) s base i ∧ Tab.find? base.grids s.ids = some g ∧ g.entry = r.entry ∧ g.head = r.head ∧
          g.wgcnt = r.wgcnt ∧ g.groups = r.groups ∧ g.regs = r.regs ∧ g.cist = r.cist ∧ g.prio = r.prio ∧ g.level = r.level ∧ g.frame = f ∧
          g.parent = some (s.wgOf i.ctx).grid ∧ g.placed = 0 ∧ g.retired = 0 ∧ g.dead = false ∧
          ∃ before : State, base = before.writeAll i.ctx (handles i act x.d fun _ => handleBits g.vfn g.gen g.slot))

/-- R268: JOIN goes on in lanes whose handle is a failure or whose grid's tree has retired, which acquires; a lane whose grid is live, and not among
its own ancestors, is blocked with its PC past the JOIN (DEDUCED, log 23). -/
def Sys2Proof.Rules.JoinWaits : Prop :=
  ∀ (x : JumpF) (s : State) (i : Issue), Issuing s i → Passes s i x.h .both { srcs := [(x.a, 2)] } →
    let act := guardMask s i x.h
    let names (l : Nat) : Named := s.named (s.wgOf i.ctx).vfn (src64 s i l x.a)
    let live (l : Nat) : Bool := match names l with | .live _ => true | _ => false
    (∀ l, hasLane act l = true → names l ≠ .other ∧ names l ≠ .never ∧ ∀ g, names l = .live g → g ∉ s.lineage (s.wgOf i.ctx).grid 8) →
      Does (exec (.join x) s) s (if (lanesOf act).any (fun l => names l = .retired) then (s.acquire (s.coreOf i.ctx) .pkg).learn i.ctx else s) i fun l y =>
        if hasLane act l && live l then { y with st := .blockedBar (.join (src64 s i l x.a)), pc := i.after } else y.goto i.after

/-- R31, R263 to R268: LAUNCH and JOIN. -/
def Obligations.LaunchAndJoin : Prop := Rules.LaunchMakesGrids ∧ Rules.JoinWaits

/-! ## Taking an exception and returning from one -/

/-- R276, R284, R286: TRAP with an acting lane takes the trap 0x60 with its code in TADDR; the fragment's other lanes run on, from the head of the
word's chain where it has further words. Without one it does nothing. -/
def Obligations.TrapTakesTheException : Prop :=
  ∀ (x : TrapF) (s : State) (i : Issue), Issuing s i → CanTrap s i → Passes s i x.h .both {} →
    let act := guardMask s i x.h
    (act = 0 → Does (exec (.trap x) s) s s i) ∧
    (act ≠ 0 → ∃ t, exec (.trap x) s = .next t ∧ Enters s t i act (tcause 0x60 0 i.off) (x.code.setWidth 64) ∧
      ∀ l, l < 32 → hasLane i.exec l = true → hasLane act l = false → (t.ctx i.ctx).front.lane l = ((s.ctx i.ctx).front.lane l).goto (if i.last then i.after else i.head))

namespace Sys2Proof.Rules
/-- A lane with another trap that waits stays parked (R287). -/
def stays (c : Ctx) (l : Nat) (y : Lane) : Lane :=
  if c.waiting.any fun r => hasLane r.lanes l then
    match y.st with
    | .exited | .parked _ => y
    | .blockedBar w => { y with st := .parked (some w) }
    | _ => { y with st := .parked none }
  else y
/-- Trap level has ended: the lanes of TLANES are what g makes of them, the others as they were, but for those with another trap that waits; no general
register, memory byte or function register has changed; and a trapped fragment that waits is to enter. -/
structure Returns (s t : State) (i : Issue) (tl : Lanes) (g : Lane → Lane) : Prop where
  level : (t.ctx i.ctx).trap = none
  lanes : ∀ l, l < 32 → (t.ctx i.ctx).front.lane l =
    stays (s.ctx i.ctx) l (if hasLane tl l then g ((s.ctx i.ctx).front.lane l) else (s.ctx i.ctx).front.lane l)
  regs : RegsKept s t
  data : DataKept s t
  fe : t.fe = s.fe
  next : (s.ctx i.ctx).waiting ≠ [] → t.awaits .trapEntryDeferred { id := i.ctx } = true
/-- A parked lane goes on as it was: active, or still blocked on its barrier. -/
def unpark (y : Lane) : Lane := { y with st := match y.st with | .parked (some w) => .blockedBar w | .parked none => .active | z => z }
end Sys2Proof.Rules

/-- R277: at trap level, TRET makes every lane of TLANES active where it stands, TRET.SKIP at the word after TPC and TRET.TO at the operand's
address, with landing bits cleared; TKILL makes them exit. After a copy, collective or FBNEXT fault a plain TRET ends trap level too. -/
def Obligations.LeavingTrapLevel : Prop :=
  ∀ (s : State) (i : Issue) (h : TrapCtx), Issuing s i → i.level = true → (s.ctx i.ctx).trap = some h → (s.ctx i.ctx).front.lanes.length = 32 →
    let precise := h.regs.kind = .precise
    (∀ x : Plain, Passes s i x.h .both {} → guardMask s i x.h ≠ 0 →
      (∃ t, exec (.tret x) s = .next t ∧ (t.ctx i.ctx).trap = none ∧ (precise → Returns s t i h.regs.lanes unpark)) ∧
      (precise → ∃ t, exec (.tretSkip x) s = .next t ∧
        Returns s t i h.regs.lanes fun _ => { pc := h.regs.pc + BitVec.ofNat 64 (s.sizeAt i.ctx h.regs.pc), landing := false, st := .active }) ∧
      ((∀ k, (s.ctx k).syncs = []) → precise → ∃ t, exec (.tkill x) s = .next t ∧ Returns s t i h.regs.lanes fun y => { y with landing := false, st := .exited })) ∧
    ∀ x : JumpF, Passes s i x.h .both { srcs := [(x.a, 2)] } → guardMask s i x.h ≠ 0 → precise →
      ∃ t, exec (.tretTo x) s = .next t ∧ Returns s t i h.regs.lanes fun _ => { pc := src64 s i (lowestLane (guardMask s i x.h)) x.a, landing := false, st := .active }

namespace Sys2Proof.Rules
/-- R278: the cores of an instance of a scope, as seen from a core. -/
def instanceOf (sc : InvScope) (here core : Nat) : Bool := match sc with | .core => core = here | .die => core / 256 = here / 256 | .pkg => true
/-- R348: a translation that an invalidation removes: of the virtual function, and of a page that meets the range, or any. -/
def removes (vfn : Nat) (range : Option (Nat × Nat)) (t : Tlb) : Bool :=
  t.vfn = vfn && (match range with | some (a, n) => t.va < a + n && a < t.va + 2 ^ t.bits | none => true)
/-- A translation that the invalidation takes out of a TLB of the scope's instance. -/
def Gone (s : State) (i : Issue) (sc : InvScope) (range : Option (Nat × Nat)) (t : Tlb) : Prop :=
  removes (s.wgOf i.ctx).vfn range t = true ∧
  ((∃ e ∈ s.cores, instanceOf sc (s.coreOf i.ctx) e.1 = true ∧ t ∈ e.2.tlb) ∨
    sc ≠ .core ∧ ∃ e ∈ s.dies, (sc = .die → e.1 = s.coreOf i.ctx / 256) ∧ t ∈ e.2.tlb)
/-- Physical bytes that such a translation names. -/
def NamedByGone (s : State) (i : Issue) (sc : InvScope) (range : Option (Nat × Nat)) (pa n : Nat) : Prop :=
  ∃ t, Gone s i sc range t ∧ pa < t.pa + 2 ^ t.bits ∧ t.pa < pa + n
/-- What a TLBINV waits for, by number (R279; DEDUCED, log 69): in the scope's instance, an access with a part that is not performed, a tile load or store with rows to
go, a reclaim on its way, and a copy under way, that used a translation now gone. -/
def WaitsFor (s : State) (i : Issue) (sc : InvScope) (range : Option (Nat × Nat)) (k : Nat) : Prop :=
  let inst (c : Nat) : Prop := instanceOf sc (s.coreOf i.ctx) c = true
  let used := NamedByGone s i sc range
  let segs (ck a n : Nat) : Prop := ∃ y ∈ s.physSegs ck a n, used y.1 y.2
  (∃ a, (k, a) ∈ s.accs ∧ inst a.core ∧ ∃ e ∈ a.elems, e.done = false ∧ ∃ pa cls own, e.place = .mem pa cls own ∧ used pa e.n) ∨
  (∃ j, (k, j) ∈ s.jobs ∧ inst (s.coreOf j.ctx) ∧ ((∃ x ∈ j.job.spans, segs j.ctx x.1 x.2) ∨
    ∃ l, j.job = .reqs l ∧ ∃ n ∈ l, ∃ r, s.req n = some r ∧ ∃ w ∈ r.words, used (4 * w) 4)) ∨
  ∃ c, (k, c) ∈ s.copies ∧ inst (s.wg c.wk).core ∧ c.begun = true ∧ c.stopped = false ∧
    ∃ x ∈ c.slices, isLayout c.form = true ∨ segs x.ctx x.src.toNat x.len ∨ segs x.ctx x.dst.toNat x.len
/-- The translations are gone from the TLBs of the scope's instance, and no others; the job waits for exactly what used them. -/
def Invalidates (o : Out) (s : State) (i : Issue) (act : Lanes) (sc : InvScope) (range : Option (Nat × Nat)) : Prop :=
  ∃ base waits, Does o s base i ∧ Quiet s base ∧ TilesKept s base ∧ base.ctxs = s.ctxs ∧ Tab.find? base.jobs s.ids = some (jobRec s i act (.tlbinv waits)) ∧
    (∀ k, k ∈ waits ↔ WaitsFor s i sc range k) ∧
    (∀ c, (base.core c).tlb = if instanceOf sc (s.coreOf i.ctx) c then (s.core c).tlb.filter (fun t => !removes (s.wgOf i.ctx).vfn range t) else (s.core c).tlb) ∧
    ∀ d, (base.die d).tlb = if sc ≠ .core ∧ (sc = .die → d = s.coreOf i.ctx / 256) then (s.die d).tlb.filter (fun t => !removes (s.wgOf i.ctx).vfn range t) else (s.die d).tlb
/-- The discard of an ICINV is under way for the whole fragment; it waits for the fragment's earlier stores. -/
def Discards (o : Out) (s : State) (i : Issue) (sc : InvScope) (a n : Nat) (all : Bool) : Prop :=
  ∃ base, Does o s base i ∧ Quiet s base ∧ TilesKept s base ∧ base.ctxs = s.ctxs ∧ base.cores = s.cores ∧
    Tab.find? base.jobs s.ids = some (jobRec s i i.exec (.icinv sc a n all))
end Sys2Proof.Rules

/-- R278 to R280: TLBINV at trap level removes translations at once, and completes when nothing uses them: it waits for every access, tile job, reclaim and
copy of the instance that used one (DEDUCED, log 69). Elsewhere its acting lanes trap with 0x11. ICINV, of a range whose pages translate, starts its discard. Without
an acting lane neither does anything. -/
def Sys2Proof.Rules.Invalidations : Prop :=
  ∀ (s : State) (i : Issue), Issuing s i →
    (∀ x : TlbPageF, Passes s i x.h .both { srcs := [(x.a, 2)] } → let act := guardMask s i x.h
      (act = 0 → Does (exec (.tlbinvPage x) s) s s i) ∧ (act ≠ 0 → CanTrap s i → Traps (exec (.tlbinvPage x) s) s i act 0x11 0 i.pc) ∧
      (act ≠ 0 → i.level = true → Invalidates (exec (.tlbinvPage x) s) s i act x.scope (some ((src64 s i (lowestLane act) x.a).toNat, 1)))) ∧
    (∀ x : TlbRangeF, Passes s i x.h .both { srcs := [(x.a, 2), (x.n, 1)] } → let act := guardMask s i x.h
      let a := (src64 s i (lowestLane act) x.a).toNat
      let n := (src32 s i (lowestLane act) x.n).toNat
      (act = 0 → Does (exec (.tlbinvRange x) s) s s i ∧ Does (exec (.icinv x) s) s s i) ∧
      (act ≠ 0 → CanTrap s i → Traps (exec (.tlbinvRange x) s) s i act 0x11 0 i.pc) ∧
      (act ≠ 0 → n ≠ 0 → (i.level = true → Invalidates (exec (.tlbinvRange x) s) s i act x.scope (some (a, n))) ∧
        ((∀ p ∈ s.rangePieces i.ctx a n, p.chk.isOk = true) → Discards (exec (.icinv x) s) s i x.scope a n false))) ∧
    ∀ x : TlbVfF, Passes s i x.h .both {} → let act := guardMask s i x.h
      (act = 0 → Does (exec (.tlbinvVf x) s) s s i ∧ Does (exec (.icinvAll x) s) s s i) ∧
      (act ≠ 0 → CanTrap s i → Traps (exec (.tlbinvVf x) s) s i act 0x11 0 i.pc) ∧
      (act ≠ 0 → (i.level = true → Invalidates (exec (.tlbinvVf x) s) s i act x.scope none) ∧ Discards (exec (.icinvAll x) s) s i x.scope 0 0 true)

/-- R281, R282: RECLAIM at trap level, of a span of a line in a shared page of a tier, sends the span's replacement words to their home; elsewhere its
acting lanes trap with 0x11. PWRHINT writes the workgroup's level. Without an acting lane neither does anything. -/
def Sys2Proof.Rules.ReclaimAndPowerHint : Prop :=
  ∀ (s : State) (i : Issue), Issuing s i →
    (∀ x : ReclaimF, Passes s i x.h .both { srcs := [(x.addr, 2), (x.data, 1)] } →
      let act := guardMask s i x.h
      let va := src64 s i (lowestLane act) x.addr
      let vfn := (s.wgOf i.ctx).vfn
      (act = 0 → Does (exec (.reclaim x) s) s s i) ∧ (act ≠ 0 → CanTrap s i → Traps (exec (.reclaim x) s) s i act 0x11 0 i.pc) ∧
      (act ≠ 0 → i.level = true → va.toNat % 128 = 0 → act = wordMask (lowestLane act) (lanesOf act).length → windowOf va = .global →
        ∀ p, s.xlat (s.coreOf i.ctx) vfn va.toNat = .ok p → p.cls = 0 → physRange (p.phys va.toNat) = .tier → p.va ∉ (s.vf vfn).busyPages →
          let w := p.phys va.toNat / 4
          ∃ base, Does (exec (.reclaim x) s) s base i ∧ Quiet s base ∧ TilesKept s base ∧ base.ctxs = s.ctxs ∧
            (∃ r, Tab.find? base.reqs s.ids = some r ∧ r.kind = .reclaim ∧ r.atHome = true ∧ r.data = (lanesOf act).map fun l => (w + l, src32 s i l x.data)) ∧
            base.awaits .homeReclaim { id := s.ids } = true ∧
            ∃ j, Tab.find? base.jobs (s.ids + 1) = some j ∧ j.ctx = i.ctx ∧ j.job = .reqs [s.ids])) ∧
    ∀ x : PwrhintF, Passes s i x.h .both {} →
      Does (exec (.pwrhint x) s) s (if guardMask s i x.h = 0 then s else s.updWg (i.ctx / 32) fun g => { g with pwrhint := x.level }) i

/-- R278 to R282: TLBINV, ICINV, RECLAIM and PWRHINT. -/
def Obligations.InvalidateReclaimHint : Prop := Rules.Invalidations ∧ Rules.ReclaimAndPowerHint

/-! ## The Damain 2 cells -/
namespace Sys2Proof.Rules
/-- R335, R336: RETCNTn of the issuing context's virtual function counts one more. -/
def counted (s : State) (k n : Nat) : State :=
  s.updVf (s.wgOf k).vfn fun v => { v with retcnt := (List.range 8).map fun j => nth 0 v.retcnt j + (if j = n then 1 else 0) }
end Sys2Proof.Rules

/-- R163, R335, R336: every Damain 2 cell counts its issue. The removed cells take the trap 0x01 and the trapped ones 0x51, each with its opcode, for
the whole fragment; RCVPT, RCVJ and SCBWAIT then act as NOP. -/
def Obligations.DamainTwoCells : Prop :=
  ∀ (x : D2F) (s : State) (i : Issue), Issuing s i →
    (∀ r ∈ [(Instr.brstk x, 0, 0x01), (.ldcoh x, 4, 0x51), (.stcoh x, 5, 0x51), (.mma8 x, 6, 0x51), (.bymix x, 7, 0x01)], CanTrap s i →
      ∃ t, exec r.1 s = .next t ∧ Enters s t i i.exec (tcause r.2.2 (0xF8 + r.2.1) i.off) i.pc ∧ t.vfs = (counted s i.ctx r.2.1).vfs) ∧
    ∀ r ∈ [(Instr.rcvpt x, 1), (.rcvj x, 2), (.scbwait x, 3)], Passes s i x.h .both {} → Does (exec r.1 s) s (counted s i.ctx r.2) i

/-! ## Pairs -/
namespace Sys2Proof.Rules
def pairForms : List ((PairW → Instr) × PairOp) := [
  (.nopPair, .nop), (.iaddPair, .iadd), (.isubPair, .isub), (.imulPair, .imul), (.iminPair, .imin), (.imaxPair, .imax), (.andPair, .and), (.orPair, .or),
  (.xorPair, .xor), (.andnPair, .andn), (.shlPair, .shl), (.shrPair, .shr), (.sarPair, .sar), (.faddPair, .fadd), (.fsubPair, .fsub), (.fmulPair, .fmul),
  (.fminPair, .fmin), (.fmaxPair, .fmax), (.hadd2Pair, .hadd2), (.hmul2Pair, .hmul2), (.badd2Pair, .badd2), (.bmul2Pair, .bmul2), (.movPair, .mov),
  (.f2iPair, .f2i), (.i2fPair, .i2f)]
/-- What a slot computes of its D and S: the full-format instruction with MOD = 0 (R156, R158, R168, R174 to R179). -/
def slotValue (op : PairOp) (c : FpCtl) (d s : Word) : Word × Fl :=
  let fp (r : Nat × Fl) : Word × Fl := (BitVec.ofNat 32 r.1, r.2)
  match op with
  | .nop => (0, 0)
  | .iadd => (d + s, 0)
  | .isub => (d - s, 0)
  | .imul => (d * s, 0)
  | .imin => (if s.slt d then s else d, 0)
  | .imax => (if d.slt s then s else d, 0)
  | .and => (d &&& s, 0)
  | .or => (d ||| s, 0)
  | .xor => (d ^^^ s, 0)
  | .andn => (d &&& ~~~s, 0)
  | .shl => (d <<< (s.toNat % 32), 0)
  | .shr => (d >>> (s.toNat % 32), 0)
  | .sar => (d.sshiftRight (s.toNat % 32), 0)
  | .mov => (s, 0)
  | .fadd => fp (fp32.add c d.toNat s.toNat)
  | .fsub => fp (fp32.sub c d.toNat s.toNat)
  | .fmul => fp (fp32.mul c d.toNat s.toNat)
  | .fmin => fp (fp32.minMax false c.ftz d.toNat s.toNat)
  | .fmax => fp (fp32.minMax true c.ftz d.toNat s.toNat)
  | .hadd2 => fp (halves (fun p q _ => fp16.add c p q) d.toNat s.toNat 0)
  | .hmul2 => fp (halves (fun p q _ => fp16.mul c p q) d.toNat s.toNat 0)
  | .badd2 => fp (halves (fun p q _ => bf16.add c p q) d.toNat s.toNat 0)
  | .bmul2 => fp (halves (fun p q _ => bf16.mul c p q) d.toNat s.toNat 0)
  | .f2i => fp (f2i c s.toNat)
  | .i2f => fp (i2f c.rm s.toNat)
end Sys2Proof.Rules

/-- R155 to R158: a pair that passes its checks acts in every executing lane. Each slot that is no NOP reads the registers as they were and delivers
after four cycles; the later slot's result stands in L0, the earlier's in L1; FPSTAT takes the flags of both. Where both slots write one S register
its value is free (DESIGN CHOICE, log 17). -/
def Obligations.PairWords : Prop :=
  ∀ r ∈ pairForms, ∀ (x : PairW) (s : State) (i : Issue), Issuing s i → pairCheck r.2 x s i = none →
    let slots := ([⟨r.2, x.d, x.s⟩, x.other] : List PairSlot).filter fun p => p.op ≠ .nop
    let val (p : PairSlot) (l : Nat) : Word × Fl := slotValue p.op (roundingOf s i .dyn) (src32 s i l p.d) (src32 s i l p.s)
    let front (t : State) : Front := t.front i.ctx i.level
    let inLatch (t : State) (k : Nat) (p : PairSlot) : Prop := ∀ l, hasLane i.exec l = true → Tab.get 0 (nth {} (front t).latches k).vals l = (val p l).1.setWidth 64
    ∃ t, exec (r.1 x) s = .next t ∧ Untouched { s with fresh := t.fresh } t i.ctx ∧ Advances s t i ∧
      (∀ p ∈ slots, ∀ l, hasLane i.exec l = true → (slots.length < 2 ∨ x.d ≠ x.other.d ∨ ∀ n, x.d ≠ .s n) →
        ∀ w ∈ destWr (i.ctx % 32 == 16) l false p.d ((val p l).1.setWidth 64), ∃ q ∈ (t.ctx i.ctx).pends, q.due = some (s.nowAt i + 4) ∧ w ∈ q.wr) ∧
      (t.ctx i.ctx).fpstat = (s.ctx i.ctx).fpstat ||| (slots.foldl (fun m p => (lanesOf i.exec).foldl (fun m l => m ||| (val p l).2) m) 0).setWidth 32 ∧
      (∀ q ∈ (t.ctx i.ctx).pends, q ∉ (s.ctx i.ctx).pends → ∀ w ∈ q.wr, ∃ p ∈ slots, ∃ l v, hasLane i.exec l = true ∧ w ∈ destWr (i.ctx % 32 == 16) l false p.d v) ∧
      match slots with
      | [] => (front t).latches = (s.front i.ctx i.level).latches
      | [p] => inLatch t 0 p
      | p :: q :: _ => inLatch t 0 q ∧ inLatch t 1 p

/-! ## Happenings of the issue logic -/
namespace Sys2Proof.Rules
/-- The happening takes place, with its operands, and leaves t. -/
def Happens (e : Instr) (s : State) (p : State → Prop) : Prop := ∃ t, exec e s = .next t ∧ p t
/-- No lane of the context stands in a state. -/
def Awake (t : State) (k : Nat) (p : LaneSt → Prop) : Prop := ∀ l, l < 32 → ¬ p ((t.ctx k).front.lane l).st
/-- A fragment of a context outside trap level has entered it with these trap registers (R284, R286): its lanes stand parked, but for one that had exited
before, and its handler's begin at TRAPBASE. -/
def AtTrap (s t : State) (k : Nat) (r : TrapRec) : Prop :=
  (∃ h, (t.ctx k).trap = some h ∧ h.regs = r ∧ h.dead = false ∧ h.entered = s.clock ∧
    ∀ l, l < 32 → h.front.lane l = if hasLane r.lanes l then { pc := (s.wgOf k).trapbase, st := .active } else {}) ∧
  ∀ l, l < 32 → hasLane r.lanes l = true → (∃ w, ((t.ctx k).front.lane l).st = .parked w) ∨ ((s.ctx k).front.lane l).st = .exited
/-- The context's trap level is free, and its workgroup has a handler. -/
def TrapFree (s : State) (k : Nat) : Prop := (s.ctx k).trap = none ∧ (s.wgOf k).trapbase ≠ 0
/-- And no trapped fragment waits for it (R287). -/
def TrapNow (s : State) (k : Nat) : Prop := TrapFree s k ∧ (s.ctx k).waiting = []
/-- A register, or two of them for 64 bits, holds a value in a lane (R198). -/
def HoldsV (t : State) (k lane n : Nat) (bs : List Byte) : Prop :=
  (t.ctx k).vreg lane n = BitVec.ofNat 32 (ofBytesLE bs) ∧ (bs.length = 8 → (t.ctx k).vreg lane (n + 1) = BitVec.ofNat 32 (ofBytesLE bs / 2 ^ 32))
/-- The only producer in flight for a context, which the happening names. -/
structure OnlyPend (s : State) (k : Nat) (p : Pend) : Prop where
  has : (Tab.find? s.ctxs k).isSome = true
  pends : (s.ctx k).pends = [p]
  regs : Tab.wf 0 (s.ctx k).v = true
/-- It has ended, and the flag that it names has counted down. -/
def Ended (s t : State) (k : Nat) (p : Pend) : Prop :=
  (t.ctx k).pends = [] ∧ ∀ n, p.flag = some (false, n) → n < (s.ctx k).front.flags.length → nth 0 (t.ctx k).front.flags n = nth 0 (s.ctx k).front.flags n - 1
/-- The only job of the module, which the happening moves on, with nothing older in flight and no fence before it. -/
structure OnlyJob (s : State) (j : JobRec) (p : Pend) : Prop where
  acc : s.accs = []
  jobs : s.jobs = [(s.args.id, j)]
  id : j.id = s.args.id
  pend : OnlyPend s j.ctx p
  number : p.id = s.args.id
  elems : p.elems = []
  fences : (s.ctx j.ctx).fences = []
end Sys2Proof.Rules

/-- R18, R20, R33, R34, R42, R204, R286 to R288, R302: an idle cycle advances the clock; a fetch slot fills the buffer of its context from the instruction
cache; a result that is due is written, a predicate too, and an LDS or STS that is due is performed in the cistern; a turn begins where ISSUED brought one; the
oldest waiting fragment enters trap level; after 65,536 cycles the fragment there loses its first place. -/
def Sys2Proof.Rules.IssueCycleAndWriteback : Prop :=
  ∀ s : State,
    (s.powered = true → s.cores = [] → s.ctxs = [] → Happens .issueCycle s fun t => t.clock = s.clock + 1 ∧ t.mem = s.mem ∧ t.issue = none) ∧
    (let k := s.args.id
     let va := s.args.v
     ∀ pa cls own w, (Tab.find? s.ctxs k).isSome = true → windowOf va = .global → va.toNat % 8 = 0 → pa % 8 = 0 →
       s.chkFetch (s.wgOf k).vfn (s.wgOf k).core va = .ok (.mem pa cls own) → Tab.find? (s.core (s.coreOf k)).icache pa = some w →
         Happens .instructionFetchFill s fun t => Tab.find? (t.ctx k).ibuf va.toNat = some w ∧ RegsKept s t ∧ t.cist = s.cist) ∧
    (let k := s.args.id
     ∀ p d x, (Tab.find? s.ctxs k).isSome = true → (s.ctx k).pends = [p] → p.due = some d → d ≤ (s.core (s.coreOf k)).time → p.elems = [] → p.flag = none →
       (∀ l n, Tab.wf 0 (s.ctx k).v = true → p.wr = [⟨.v l n, x⟩] → Happens .fixedLatencyWriteback s fun t => (t.ctx k).pends = [] ∧ (t.ctx k).vreg l n = x.setWidth 32 ∧ DataKept s t ∧ FuncsKept s t) ∧
       (∀ n, (Tab.find? s.wgs (k / 32)).isSome = true → Tab.wf 0 (s.wgOf k).s = true → p.wr = [⟨.s n, x⟩] →
         Happens .fixedLatencyWriteback s fun t => (t.ctx k).pends = [] ∧ (t.wgOf k).sreg n = x ∧ DataKept s t ∧ FuncsKept s t) ∧
       ∀ n l, n < 7 → n < (s.ctx k).p.length → l < 32 → p.wr = [⟨.p n l, x⟩] → Happens .fixedLatencyWriteback s fun t => (t.ctx k).pends = [] ∧
         (hasLane ((t.ctx k).pred n) l = true ↔ x ≠ 0) ∧ (∀ m j, j < 32 → m ≠ n ∨ j ≠ l → hasLane ((t.ctx k).pred m) j = hasLane ((s.ctx k).pred m) j) ∧ DataKept s t ∧ FuncsKept s t) ∧
    (let k := s.args.id
     ∀ p d e c b, OnlyPend s k p → p.due = some d → d ≤ (s.core (s.coreOf k)).time → p.wr = [] → p.elems = [e] → e.place = .cist c b → e.done = false → e.failed = false →
       (e.n = 1 ∨ e.n = 2 ∨ e.n = 4 ∨ e.n = 8) → b + e.n ≤ 0x40000 → s.accs = [] → s.jobs = [] →
       (∀ n, e.op = .load → e.dst = .v n → Happens .fixedLatencyWriteback s fun t => Ended s t k p ∧ HoldsV t k e.lane n.val (s.cistBytes c b e.n) ∧ DataKept s t ∧ FuncsKept s t) ∧
       ∀ v, e.op = .store v → Tab.wf 0 s.cist = true → Happens .fixedLatencyWriteback s fun t => Ended s t k p ∧ t.cistBytes c b e.n = bytesLE e.n v.toNat ∧
         (∀ d o, o < 0x40000 → d ≠ c ∨ o < b ∨ b + e.n ≤ o → t.cistByte d o = s.cistByte d o) ∧ RegsKept s t ∧ t.mem = s.mem ∧ FuncsKept s t) ∧
    (let k := s.args.id
     (Tab.find? s.ctxs k).isSome = true → (s.ctx k).deferred = true →
       ((s.ctx k).lrWin = none → Happens .fairnessTurn s fun t => (t.ctx k).deferred = false ∧ RegsKept s t ∧ DataKept s t ∧
         ((∃ a ∈ (s.ctx k).front.pcs, ∃ b ∈ (s.ctx k).front.pcs, a.toNat < b.toNat) → (t.ctx k).turn.isSome = true)) ∧
       ((s.ctx k).lrWin ≠ none → exec .fairnessTurn s = .next s)) ∧
    (let k := s.args.id
     ∀ r rest, (Tab.find? s.ctxs k).isSome = true → TrapFree s k → (s.ctx k).waiting = r :: rest →
       Happens .trapEntryDeferred s fun t => AtTrap s t k r ∧ (t.ctx k).waiting = rest ∧ RegsKept s t ∧ DataKept s t) ∧
    ∀ h, (s.ctx s.args.id).trap = some h → 65536 ≤ s.clock - h.entered →
      Happens .trapLevelTimeout s fun t => (t.ctx s.args.id).trap = some { h with demoted := true } ∧ RegsKept s t ∧ DataKept s t

/-- R98, R121, R122, R198, R199, R236, R244, R274, R279, R305: an access whose parts are all performed writes what they got into its destination registers, zero-extended
below 64 bits, and ends (loads of every kind, LR, SC and atomics are such accesses); a TRDY or a TLBINV with nothing to wait for ends; the last row of a TLD
fills its bytes of the tile, and the TSCL bytes of the blocks that begin in it; an FBNEXT of a dense stream gives the next lane the cursor's coordinate, its position
and a predicate of 1, or at the fibre's end every lane that it has not served a predicate of 0; a COLLW's register takes the status. An end counts the flag down. -/
def Sys2Proof.Rules.WorkCompletes : Prop :=
  ∀ s : State,
    (∀ a p, s.accs = [(s.args.id, a)] → a.id = s.args.id → a.isLoad = true → a.flagged = false → OnlyPend s a.ctx p → p.id = s.args.id →
       (∀ e ∈ a.elems, e.done = true ∧ e.failed = false ∧ (e.got.length = 8 ∨ 1 ≤ e.got.length ∧ e.got.length ≤ 4) ∧ ∃ n, e.dst = .v n) →
       a.elems.Pairwise (fun e f => e.lane ≠ f.lane ∨ ∀ n m, e.dst = .v n → f.dst = .v m → n.val + 1 < m.val ∨ m.val + 1 < n.val) →
         Happens .flagCountDown s fun t => t.accs = [] ∧ Ended s t a.ctx p ∧ DataKept s t ∧ FuncsKept s t ∧
           (t.ctx a.ctx).outstanding = (s.ctx a.ctx).outstanding - (if a.entry then 1 else 0) ∧
           (∀ e ∈ a.elems, ∀ n, e.dst = .v n → HoldsV t a.ctx e.lane n.val e.got) ∧
           ∀ l r, l < 32 → r < 256 → (∀ e ∈ a.elems, e.lane = l → ∀ n, e.dst = .v n → r ≠ n.val ∧ (e.got.length = 8 → r ≠ n.val + 1)) →
             (t.ctx a.ctx).vreg l r = (s.ctx a.ctx).vreg l r) ∧
    (∀ j p, OnlyJob s j p → j.job = .trdy [] ∨ j.job = .tlbinv [] → Happens .flagCountDown s fun t => t.jobs = [] ∧ Ended s t j.ctx p ∧ RegsKept s t ∧ DataKept s t) ∧
    (∀ j p (u : Fin 8) base stride rows rb row pol bs v, OnlyJob s j p → j.job = .tld u base stride rows rb row false pol → row + 1 = rows → rows * rb ≤ 4096 → rb % 8 = 0 →
       let wk := j.ctx / 32
       let ps := s.pieces j.ctx (base + BitVec.ofNat 64 (row * stride)) rb false
       s.stopOf ps true = .go → (ps.foldl (fun t x => t.touchVa j.ctx x.va) s).readPieces (s.coreOf j.ctx) pol ps = some (bs, v) → bs.length = rb →
       s.tileBusy j.ctx u.val = false → (Tab.find? s.wgs wk).isSome = true → Tab.wf 0 (s.wg wk).tiles = true → Tab.wf 0x7F (s.wg wk).tscl = true →
         Happens .flagCountDown s fun t => t.jobs = [] ∧ Ended s t j.ctx p ∧ t.mem = v.mem ∧ t.cist = v.cist ∧ RegsKept s t ∧
           (∀ o, o < 4096 → (t.wg wk).tile u.val o = if row * rb ≤ o ∧ o < (row + 1) * rb then nth 0 bs (o - row * rb) else (s.wg wk).tile u.val o) ∧
           (∀ m o, m ≠ u.val → o < 4096 → (t.wg wk).tile m o = (s.wg wk).tile m o) ∧
           ∀ b, b < 64 → (row * rb ≤ 64 * b ∧ 64 * b < (row + 1) * rb → ∀ x ∈ ps, x.off ≤ 64 * b - row * rb → 64 * b - row * rb < x.off + x.n →
               (t.wg wk).scl u.val b = State.scaleAt v x.place (64 * b - row * rb - x.off)) ∧
             (64 * b < row * rb ∨ (row + 1) * rb ≤ 64 * b → (t.wg wk).scl u.val b = (s.wg wk).scl u.val b)) ∧
    (∀ j p q frag c d pm, OnlyJob s j p → j.job = .stream q frag c d pm false → (s.ctx j.ctx).evicted = false → (s.ctx j.ctx).streams.length = 16 → q < 16 →
       let x := s.stream j.ctx q
       let cur := x.get32 128
       let at' := x.get32 288 * x.a.size + cur
       x.kind = 1 → x.exh = false → x.a.kind = .dense → c ≠ d → c < 192 → d < 192 → pm < 7 → pm < (s.ctx j.ctx).p.length →
         (∀ l rest, lanesOf (j.lanes &&& ~~~x.dmask) = l :: rest → cur < x.a.size → at' % 2 ^ 32 ≠ 0xFFFFFFFF →
           Happens .flagCountDown s fun t => (t.ctx j.ctx).vreg l c = BitVec.ofNat 32 cur ∧ (t.ctx j.ctx).vreg l d = BitVec.ofNat 32 at' ∧
             hasLane ((t.ctx j.ctx).pred pm) l = true ∧ (t.stream j.ctx q).get32 128 = cur + 1 ∧ (t.stream j.ctx q).get32 256 = cur ∧
             (t.stream j.ctx q).dmask = x.dmask ||| (1#32 <<< l) ∧ t.jobs = s.jobs ∧ t.awaits .flagCountDown { id := s.args.id } = true ∧ DataKept s t ∧ FuncsKept s t) ∧
         (lanesOf (j.lanes &&& ~~~x.dmask) ≠ [] → x.a.size ≤ cur →
           Happens .flagCountDown s fun t => t.jobs = [] ∧ Ended s t j.ctx p ∧ (t.stream j.ctx q).exh = true ∧ (t.stream j.ctx q).dmask = 0 ∧
             (∀ l, l < 32 → hasLane ((t.ctx j.ctx).pred pm) l = (hasLane ((s.ctx j.ctx).pred pm) l && !(hasLane j.lanes l && !hasLane x.dmask l))) ∧
             (∀ l r, (t.ctx j.ctx).vreg l r = (s.ctx j.ctx).vreg l r) ∧ (t.ctx j.ctx).outstanding = (s.ctx j.ctx).outstanding - 1 ∧ DataKept s t)) ∧
    ∀ j p op rank n c st, OnlyJob s j p → j.job = .collw op rank (.s n) → s.colls = [c] → c.id = op → c.status = some st → (Tab.find? s.wgs (j.ctx / 32)).isSome = true →
      Tab.wf 0 (s.wgOf j.ctx).s = true → Happens .flagCountDown s fun t => t.jobs = [] ∧ Ended s t j.ctx p ∧ (t.wgOf j.ctx).sreg n.val = BitVec.ofNat 64 st ∧
        (t.wgOf j.ctx).collq = (s.wgOf j.ctx).collq.filter (· ≠ (op, rank)) ∧ (t.ctx j.ctx).collsCovered = (s.ctx j.ctx).collsCovered - 1 ∧ DataKept s t ∧ FuncsKept s t

/-- R18, R20, R33, R34, R42, R98, R121, R122, R198, R199, R204, R236, R244, R274, R279, R286 to R288, R302, R305: the issue logic, and work that completes. -/
def Obligations.IssueLogicHappenings : Prop := Rules.IssueCycleAndWriteback ∧ Rules.WorkCompletes

/-! ## Happenings of coherence -/
namespace Sys2Proof.Rules
/-- Nothing holds a copy of any word, and the directory lists nothing. -/
def Uncached (s : State) : Prop := s.l1 = [] ∧ s.dir = [] ∧ Memory.wf s.mem = true
/-- The happening's request, one word at home of a shared page, as nobody else's (R65). -/
structure AtHome (s : State) (kind : ReqKind) (r : Req) (w : Nat) : Prop where
  req : s.reqs = [(s.args.id, r)]
  id : r.id = s.args.id
  kind : r.kind = kind
  home : r.atHome = true
  words : r.words = [w]
  need : r.need = [w]
  shared : r.cls = 0
  room : (s.fillWay r.core).isSome = true
  small : w < 2 ^ 44
  plain : s.inScale (4 * w) = false
end Sys2Proof.Rules

/-- R57, R60, R63 to R65, R67, R281: an announced request that no copy of its die can settle goes home; a read of a word that nobody holds installs memory's
word, in the state and with the directory mode of its kind; a write or an atomic is performed in memory; an evicted owner's dirty bytes reach memory; a
RECLAIM writes its words; a recalled owner writes back and gives its copy up. -/
def Obligations.CoherenceHappenings : Prop :=
  ∀ s : State,
    (∀ r, Uncached s → s.reqs = [(s.args.id, r)] → r.id = s.args.id → r.announced = false → r.atHome = false → r.cls = 0 → r.words ≠ [] → r.at' < s.clock →
      (∀ x ∈ s.accs, ∀ e ∈ x.2.elems, e.memWords ≠ []) →
        Happens .standpipeAnnounce s fun t => t.req s.args.id = some { r with fell := true, announced := true, atHome := true, need := r.words } ∧
          t.awaits r.kind.home { id := s.args.id } = true ∧ RegsKept s t ∧ DataKept s t) ∧
    (∀ r w, Uncached s → s.accs = [] →
      (∀ e ∈ [(Instr.homeRdu, ReqKind.rdU, if r.pol = .si then L1St.us else .uw, ({ u := true } : DirWord)), (.homeRdt, .rdT, .s, { mode := .t [coreDie r.core] }), (.homeRdo, .rdO, .o, { mode := .x (coreDie r.core) })],
        AtHome s e.2.1 r w → Happens e.1 s fun t => t.reqs = [] ∧ t.dirWord w = e.2.2.2 ∧ (t.l1w r.core w).st = e.2.2.1 ∧ (t.l1w r.core w).data = Memory.word s.mem (4 * w) ∧
          t.mem = s.mem ∧ RegsKept s t ∧ t.cist = s.cist)) ∧
    (∀ r w a e v own, Uncached s → s.accs = [(r.acc, a)] → a.id = r.acc → a.elems = [e] → e.req = r.id → e.done = false → e.place = .mem (4 * w) 0 own → e.n = 4 →
      (e.op = .store v → AtHome s .wrW r w → Happens .homeWrw s fun t => t.reqs = [] ∧ Memory.word t.mem (4 * w) = v.setWidth 32 ∧ t.dirWord w = {} ∧ RegsKept s t ∧ t.l1 = []) ∧
      (e.op = .atomic .add v → AtHome s .atH r w → Happens .homeAth s fun t => t.reqs = [] ∧ Memory.word t.mem (4 * w) = Memory.word s.mem (4 * w) + v.setWidth 32 ∧
        t.dirWord w = {} ∧ RegsKept s t ∧ t.l1 = [] ∧ ∃ b, Tab.find? t.accs r.acc = some b ∧ b.elems = [{ e with done := true, req := 0, got := bytesLE 4 (Memory.word s.mem (4 * w)).toNat }])) ∧
    (let c := s.args.id
     let w := s.args.num
     Tab.wf ({} : L1Word) s.l1 = true → Memory.wf s.mem = true → w < 2 ^ 44 →
       ((s.l1w c w).st = .m → (s.l1w c w).dirty = 0xF → Happens .homeWb s fun t => Memory.word t.mem (4 * w) = (s.l1w c w).data ∧ (t.l1w c w).st = .i ∧ RegsKept s t) ∧
       ((s.l1w c w).st ≠ .o → (s.l1w c w).st ≠ .m → Happens .homeDrop s fun t => (t.l1w c w).st = .i ∧ t.mem = s.mem ∧ RegsKept s t)) ∧
    (∀ r w x, Uncached s → AtHome s .reclaim r w → r.data = [(w, x)] →
      Happens .homeReclaim s fun t => t.reqs = [] ∧ Memory.word t.mem (4 * w) = x ∧ t.dirWord w = {} ∧ RegsKept s t ∧ t.cist = s.cist) ∧
    (∀ r w c x, s.reqs = [(s.args.id, r)] → r.id = s.args.id → r.kind = .rdO → r.need = [w] → r.asked = [s.args.num] → r.answered = [] → s.args.num < 12 → coreDie c = s.args.num →
      s.ctxs = [] → s.l1 = [(l1Key c w, x)] → x.st = .m → x.dirty = 0xF → w < 2 ^ 44 → s.dir = [(w, { mode := .x s.args.num, busy := some s.args.id })] → Memory.wf s.mem = true →
        Happens .holderRecall s fun t => t.l1 = [] ∧ Memory.word t.mem (4 * w) = x.data ∧ t.awaits .homeRdo { id := s.args.id } = true ∧
          t.req s.args.id = some { r with answered := [s.args.num] }) ∧
    ((s.req s.args.id).isSome = true → Happens .recallRefusalExpiry s fun t => t.awaits .holderRecall { id := s.args.id, num := s.args.num } = true ∧
      RegsKept s t ∧ DataKept s t)

/-- R73, R74, R108, R365: a core whose L1 fails holds no copy any more, and the words that it held in M are orphaned; a die whose agent fails, by itself or with
its link, is down, and the words that its cores held in M are orphaned; a lost host link
orphans the words that the host had written, and a store those that it loses; lost cistern words are marked, and a corrected error is counted; a reclassified page is shared, and no TLB holds its old translation; the oldest window of a sump closes after 32 cycles, and what
misses in it leaves in one request for its line. -/
def Sys2Proof.Rules.FailuresAndReclassification : Prop :=
  ∀ s : State,
    (s.vfs = [] →
      (∀ c, s.args.who = .l1 c → Tab.wf ({} : DirWord) s.dir = true → Tab.wf ({} : L1Word) s.l1 = true → Happens .holderFail s fun t => RegsKept s t ∧
        ∀ w, w < 2 ^ 44 → (t.l1w c w).st = .i ∧ ((s.l1w c w).st = .m → (t.dirWord w).mode = .z)) ∧
      (∀ d, s.args.who = .dieAgent d → (s.die d).agentDown = false → Tab.wf ({} : DirWord) s.dir = true → Tab.wf ({} : L1Word) s.l1 = true → Happens .holderFail s fun t => (t.die d).agentDown = true ∧ RegsKept s t ∧ t.mem = s.mem ∧
        ∀ c w, coreDie c = d → w < 2 ^ 44 → (s.l1w c w).st = .m → (t.l1w c w).st = .i ∧ (t.dirWord w).mode = .z) ∧
      (s.args.who = .hostLink → s.linkUp = true → Tab.wf ({} : DirWord) s.dir = true → Happens .holderFail s fun t => t.linkUp = false ∧ RegsKept s t ∧ t.mem = s.mem ∧
        ∀ w ∈ s.args.list, (s.dirWord w).mode = .x 12 → (t.dirWord w).mode = .z) ∧
      (∀ h, s.args.who = .store h → h ≤ 3 → Tab.wf ({} : DirWord) s.dir = true → Happens .holderFail s fun t => RegsKept s t ∧ t.mem = s.mem ∧
        ∀ w ∈ s.args.list, physRange (4 * w) = .tier → (s.dirWord w).mode = .n → (t.dirWord w).mode = .z) ∧
      (∀ c, s.args.who = .cistern c → Happens .holderFail s fun t => RegsKept s t ∧ DataKept s t ∧ ∀ w ∈ s.args.list, w < 0x10000 → t.cistLost c (4 * w) 4 = some 0) ∧
      (s.args.who = .standpipe → Happens .holderFail s fun t => RegsKept s t ∧ DataKept s t) ∧
      (∀ h, s.args.who = .corrected h → h < 6 → s.pf.errcorr.length = 8 → Happens .holderFail s fun t => nth 0 t.pf.errcorr h = nth 0 s.pf.errcorr h + 1 ∧ RegsKept s t ∧ DataKept s t) ∧
      Happens .linkDown s fun t => (t.die s.args.id).agentDown = true ∧ RegsKept s t) ∧
    (∀ p leaf bits, s.walk s.args.id s.args.v.toNat = .ok p → p.cls ≠ 0 → s.leafAt s.args.id s.args.v.toNat = some (leaf, bits) → s.accs = [] → s.jobs = [] → s.copies = [] → Uncached s → (s.vf s.args.id).late = [] →
      (∀ x ∈ s.vfs, ∀ b ∈ x.2.busyPages, x.1 = s.args.id ∧ b = p.va) →
      Happens .reclassification s fun t => t.peekDWord leaf = s.peekDWord leaf &&& ~~~0xC ∧ RegsKept s t ∧ t.cist = s.cist ∧
        (∀ c, ∀ x ∈ (t.core c).tlb, x.covers s.args.id s.args.v.toNat = false) ∧ (∀ d, ∀ x ∈ (t.die d).tlb, x.covers s.args.id s.args.v.toNat = false) ∧
        p.va ∉ (t.vf s.args.id).busyPages) ∧
    ∀ opened l rest, (s.core s.args.id).sump = (opened, l) :: rest → 32 ≤ s.clock - opened →
      (Happens .sumpWindowClose s fun t => (t.core s.args.id).sump = rest ∧ RegsKept s t ∧
        ∀ x ∈ l, t.awaits .flagCountDown { id := x.1 } = true ∧ ∀ y, t.sumpElem x = some y → y.2.sump = false) ∧
      ∀ k a e pa own, l = [(k, 0)] → s.accs = [(k, a)] → a.id = k → a.elems = [e] → a.pol = .si → a.core = s.args.id → e.op = .load → e.done = false → e.req = 0 →
        e.place = .mem pa 0 own → pa % 4 = 0 → e.n = 4 → physRange pa = .tier → s.inScale pa = false → s.jobs = [] → (s.ctx a.ctx).fences = [] → (s.ctx a.ctx).pends = [] →
          s.l1 = [] → s.reqs = [] →
            Happens .sumpWindowClose s fun t => DataKept s t ∧ (∃ r, t.req s.ids = some r ∧ r.kind = .rdU ∧ r.words = [pa / 4] ∧ r.atHome = true) ∧
              t.sumpElem (k, 0) = some ({ a with elems := [{ e with sump := false, req := s.ids }] }, { e with sump := false, req := s.ids })

/-- R71, R345, R384: where no copy of it is held and nothing came to home before, a host read of a half line answers its bytes from memory, unpoisoned; a host write
changes exactly its bytes, and clears the reservations on the line; a snoop of a host line that a core holds modified writes it back and invalidates it, and then the
host's own bytes, if it has any, are stored. -/
def Sys2Proof.Rules.HostMemoryHappenings : Prop :=
  ∀ s : State, s.reached = true → s.vfs = [] → (∀ x ∈ s.reqs, x.2.arrived = none) → (∀ h ∈ s.agenda, h.args.num = 0) →
    let a := s.args.v.toNat
    (Uncached s → physRange (a / 64 * 64) = .tier → Happens .hostCxlMemRead s fun t => t.answer = 0 :: Memory.readN s.mem (a / 64 * 64) 64 ∧ t.mem = s.mem ∧ RegsKept s t) ∧
    (Uncached s → physRange a = .tier → s.args.bytes ≠ [] → s.args.bytes.length ≤ 64 - a % 64 →
      Happens .hostCxlMemWrite s fun t => (∀ j, j < s.args.bytes.length → Memory.read t.mem (a + j) = nth 0 s.args.bytes j) ∧
        (∀ b, b < a ∨ a + s.args.bytes.length ≤ b → Memory.read t.mem b = Memory.read s.mem b) ∧ RegsKept s t ∧
        ∀ k l r, Tab.find? (t.ctx k).resv l = some r → r.line ≠ a / 128) ∧
    ∀ w c h x, s.args.on = true → physRange a = .host → a / 64 * 16 ≤ w → w < a / 64 * 16 + 16 → h < 12 → coreDie c = h → s.l1 = [(l1Key c w, x)] → x.st = .m → x.dirty = 0xF →
      s.dir = [(w, { mode := .x h })] → Memory.wf s.mem = true →
        let bs := s.args.bytes.take (64 - a % 64)
        Happens .hostCxlCacheSnoop s fun t => t.l1 = [] ∧ (t.dirWord w).mode = .n ∧ RegsKept s t ∧ (bs = [] → Memory.word t.mem (4 * w) = x.data) ∧
          (∀ j, j < bs.length → Memory.read t.mem (a + j) = nth 0 bs j) ∧
          ∀ b, (b < a ∨ a + bs.length ≤ b) → (b < 4 * w ∨ 4 * w + 4 ≤ b) → Memory.read t.mem b = Memory.read s.mem b

/-- R71, R73, R74, R108, R365, R384: failures, reclassification, and the host's reads, writes and snoops. -/
def Obligations.HostMemoryAndFailures : Prop := Rules.FailuresAndReclassification ∧ Rules.HostMemoryHappenings

/-! ## Happenings of the engines -/
namespace Sys2Proof.Rules
/-- R92, R96, R101: the cycles for which an operation holds the array. -/
def arrayCycles (fenced : Bool) (m : MatOp) : Nat := if fenced then 128 else match m with | .tmma => 64 | _ => 32
end Sys2Proof.Rules

/-- R86, R102, R104, R225, R252, R254: a channel's copy begins when the channel is free and every group has supplied, in a function that does not quiesce; a copy
moves its slice's next bytes, here a run of a line of the scratchpad, and no other byte changes; one with no byte left arrives, frees its entry and counts on
its barrier; WPTR counts the bytes that have been written; the first piece that cannot be moved parks its slice's lanes and stops the copy. -/
def Obligations.CopyHappenings : Prop :=
  ∀ (s : State) (c : Copy), s.copies = [(s.args.id, c)] → c.id = s.args.id →
    (∀ ch sc, c.form.chan = some (ch, sc) → c.begun = false → s.supplied c = true → (s.vf (s.wg c.wk).vfn).quiescing = false →
      Happens .copyChannelStart s fun t => (∃ d, t.copies = [(s.args.id, d)] ∧ d.begun = true ∧ d.slices = c.slices) ∧ t.awaits .copyArrival { id := s.args.id } = true ∧
        RegsKept s t ∧ DataKept s t ∧ ∀ x, c.slices = [x] → x.isOpen c.form = true → (Tab.find? s.wgs c.wk).isSome = true → (s.wg c.wk).wptr.length = 4 →
          nth 0 (t.wg c.wk).wptr ch.val = if nth 0 (s.wg c.wk).ch ch.val = x.dst then nth 0 (s.wg c.wk).wptr ch.val else 0) ∧
    (c.form.chan = none → c.stopped = false → c.started = true → c.begun = true → c.matId = none → c.qfmt = [] → (∀ x ∈ c.slices, x.isOpen c.form = false) →
      (Tab.find? s.wgs c.wk).isSome = true → (s.wg c.wk).bars.length = 16 →
        let b := (s.wg c.wk).bar c.form.bar.val
        b.expect ≠ 0 → (b.arrived + 1) % 256 ≠ b.expect →
          Happens .copyArrival s fun t => t.copies = [] ∧ s.args.id ∉ (t.core (s.wg c.wk).core).copyq ∧ RegsKept s t ∧ DataKept s t ∧
            (t.wg c.wk).bar c.form.bar.val = { b with arrived := (b.arrived + 1) % 256 }) ∧
    (∀ x k a b, c.form.opc = 0xCA → c.form.td = false → c.form.chan = none → c.stopped = false → c.started = true → c.begun = true → s.args.pick = none → c.slices = [x] →
      x.progress = 0 → x.ended = false → 0 < x.len → x.len ≤ 128 → x.src.toNat % 128 = 0 → x.dst.toNat % 128 = 0 → chkSpan x.src x.len 1 = none → chkSpan x.dst x.len 1 = none →
      s.chkWindow x.ctx x.src x.len false = .ok (.cist k a) → s.chkWindow x.ctx x.dst x.len true = .ok (.cist k b) → (a + x.len ≤ b ∨ b + x.len ≤ a) →
      b + x.len ≤ 0x40000 → Tab.wf 0 s.cist = true →
        Happens .copyArrival s fun t => t.cistBytes k b x.len = s.cistBytes k a x.len ∧ (∀ d o, o < 0x40000 → d ≠ k ∨ o < b ∨ b + x.len ≤ o → t.cistByte d o = s.cistByte d o) ∧
          t.copies = [(s.args.id, { c with slices := [{ x with progress := x.len }] })] ∧ t.awaits .copyArrival { id := s.args.id } = true ∧ RegsKept s t ∧ t.mem = s.mem ∧
          t.l1 = s.l1) ∧
    (∀ ch sc, c.form.chan = some (ch, sc) → c.done ≠ c.counted → (∀ x ∈ c.slices, x.pub = none) → (Tab.find? s.wgs c.wk).isSome = true → (s.wg c.wk).wptr.length = 4 →
      Happens .channelWptrUpdate s fun t => nth 0 (t.wg c.wk).wptr ch.val = nth 0 (s.wg c.wk).wptr ch.val + BitVec.ofNat 64 (c.done - c.counted) ∧
        t.copies = [(s.args.id, { c with counted := c.done })] ∧ RegsKept s t ∧ DataKept s t) ∧
    ∀ x cz d a, c.form.chan = none → c.begun = true → c.stopped = false → s.args.pick = none → c.slices = [x] → x.isOpen c.form = true → copyStep c x s = .error (.fault cz d a) →
      (Tab.find? s.ctxs x.ctx).isSome = true → x.level = false → TrapNow s x.ctx → s.sliceLive x ≠ 0 →
        Happens .copyFault s fun t => t.copies = [(s.args.id, { c with stopped := true })] ∧ RegsKept s t ∧ DataKept s t ∧
          AtTrap s t x.ctx { cause := causeWord cz d 0, addr := a, pc := x.pc, lanes := s.sliceLive x, kind := .copy s.args.id }

/-- R92, R96 to R101: the oldest operation of a workgroup takes the free array for its time, and at its end leaves the accumulator as matOut gives it, zero
outside the shapes; a TGEMM starts the pump, whose steps take the array likewise, and at its end each has added its products to the tile's sums and KB counts it; a self-test that is due takes the array for two
cycles, and at its end the sub-arrays that fail it are fenced and counted. -/
def Obligations.MatrixHappenings : Prop :=
  ∀ s : State, let core := s.args.id
    (∀ wk g q rest, s.wgs = [(wk, g)] → g.core = core → g.evicted = false → g.leaving = false → g.mq = q :: rest → q.armed = true → (s.core core).mat = none →
      (s.core core).testDue = false →
        (q.gemm = none → Happens .matrixOpStart s fun t => (t.core core).mat = some (wk, q.id, s.clock + arrayCycles (!(s.core core).fenced.isEmpty) q.cmd.mop) ∧
          RegsKept s t ∧ DataKept s t ∧ TilesKept s t) ∧
        ∀ m, q.gemm = some m →
          (g.pump.act = false → Happens .pumpStep s fun t => (t.wg wk).pump = { act := true, acn := q.cmd.ac.val, since := s.clock } ∧ RegsKept s t ∧ DataKept s t ∧ TilesKept s t) ∧
          (g.pump.act = true → (s.vf g.vfn).quiescing = false → s.capped = false → g.pump.kb < m.ks → Happens .matrixOpStart s fun t => (t.wg wk).pump = g.pump ∧
            (t.core core).mat = some (wk, q.id, s.clock + (if m.ty.code.toNat ≤ 1 then 128 else 64) * (if (s.core core).fenced = [] then 1 else 2)) ∧
            RegsKept s t ∧ DataKept s t ∧ TilesKept s t)) ∧
    (∀ wk g q m done, s.wgs = [(wk, g)] → g.core = core → (s.core core).mat = some (wk, q.id, done) → done ≤ s.clock → q.id ≠ 0 → g.mq = [q] → q.gemm = some m → g.pump.act = true →
      (s.core core).suspect = false → Happens .matrixOpComplete s fun t =>
        (t.wg wk).pump = { g.pump with kb := g.pump.kb + 1, since := s.clock } ∧ RegsKept s t ∧ DataKept s t ∧ TilesKept s t ∧
        ∃ fl, (t.wg wk).mq = [{ q with sums := (pumpTile s g m g.pump.mt g.pump.nt g.pump.kb q.sums).map (·.1), fl := fl }]) ∧
    (∀ wk g q done, s.wgs = [(wk, g)] → g.core = core → (s.core core).mat = some (wk, q.id, done) → done ≤ s.clock → q.id ≠ 0 → g.mq = [q] → q.gemm = none → q.tainted = false →
      q.spoiled = false → (s.core core).suspect = false → (s.core core).testDue = false → snapMetaOk q.cmd q.shapes q.snap = true → Tab.wf 0 g.acc = true →
        Happens .matrixOpComplete s fun t => (t.core core).mat = none ∧ (t.wg wk).mq = [] ∧ RegsKept s t ∧ DataKept s t ∧
          (∀ j, j < 1024 → (t.wg wk).accAt q.cmd.ac.val j = nth 0 (matOut q (g.accAt q.cmd.ac.val)).acc j) ∧
          (∀ m n, m < 32 → n < 32 → (shapeRows (nth 0 q.shapes 0) ≤ m ∨ shapeRows (nth 0 q.shapes 1) ≤ n) → (t.wg wk).accAt q.cmd.ac.val (32 * m + n) = 0) ∧
          ∀ a j, a ≠ q.cmd.ac.val → j < 1024 → (t.wg wk).accAt a j = g.accAt a j) ∧
    ((s.core core).mat = none → (s.core core).testDue = true → Happens .matrixOpStart s fun t => (t.core core).mat = some (0, 0, s.clock + 2) ∧ (t.core core).testDue = false ∧
      t.wgs = s.wgs ∧ RegsKept s t ∧ DataKept s t) ∧
    ∀ wk done, (s.core core).mat = some (wk, 0, done) → done ≤ s.clock → s.args.list = [] →
      let bad := (s.core core).faulty.eraseDups.filter fun b => !(s.core core).fenced.contains b
      Happens .selfTest s fun t => (t.core core).fenced = (s.core core).fenced ++ bad ∧ t.pf.fencecnt = s.pf.fencecnt + BitVec.ofNat 64 bad.length ∧ RegsKept s t ∧ DataKept s t ∧
        ∀ l b, bad = l ++ [b] → t.pf.fencelast = BitVec.ofNat 64 (core / 256 * 65536 + core % 256 * 256 + b)

namespace Sys2Proof.Rules
/-- n bytes of a participant's area, in one page that its core's TLB maps to memory, as a shared page (R273). -/
structure Area (s : State) (m : Part) (va : DWord) (n pa : Nat) : Prop where
  window : windowOf va = .global
  span : chkSpan va n 1 = none
  page : va.toNat % 65536 + n ≤ 65536
  known : (s.tlbAt (s.coreOf m.ctx) (s.wgOf m.ctx).vfn va.toNat).isSome = true
  ok : ∀ w, ∃ own, s.chkGlobal m.ctx va.toNat w = .ok (.mem pa 0 own)
/-- The only operation: two ranks and one 32-bit element, with every area in reach, no SRC met by a DST, and no copy of any word anywhere. -/
structure TwoRanks (s : State) (c : Coll) (m : Nat → Part) (src dst : Nat → Nat) : Prop where
  colls : s.colls = [c]
  id : c.id = s.args.id
  status : c.status = none
  parts : c.parts = 2
  count : c.count = 1
  ty : c.ty = .i32
  members : c.members = [m 0, m 1]
  ranks : ∀ q, q < 2 → (m q).rank = q ∧ (m q).held = false ∧ (m q).killed = false ∧ dstOverlaps c (m q) = false
  calm : Uncached s
  srcs : ∀ q, q < 2 → Area s (m q) (m q).src (4 * srcElems c.op 1 2) (src q)
  dsts : ∀ q, q < 2 → Area s (m q) (m q).dst (4 * dstElems c.op 1 2 c.rcap) (dst q)
/-- Two ranges of n bytes share none. -/
def Apart (a m b n : Nat) : Prop := a + m ≤ b ∨ b + n ≤ a
end Sys2Proof.Rules

/-- R127, R271 to R273, R275: an operation with every arrival in and no fault leaves its status; of two ranks with one element, ALLRED gives both the sum of
their words, REDSC gives each rank the sum of its own words, ALLGA gives both all words in rank order, and ALLTOALL gives each rank the words that are meant for it, in
rank order, with none missing and one received from each in its STAT; no other byte changes; a fault of a participant's area that its COLLW waits on is
reported to that COLLW's lanes; a fault of an FBNEXT's element parks its fragment's lanes and stops it. -/
def Obligations.CollectiveAndStreamHappenings : Prop :=
  ∀ s : State,
    (∀ c, s.colls = [c] → c.id = s.args.id → c.full = true → c.status = none → (∀ m ∈ c.members, m.held = false) →
      (∀ st u, collRun c s = .ok (st, u) → u.colls = s.colls → Happens .collectiveComplete s fun t => t.colls = [{ c with status := some st }] ∧ t.mem = u.mem ∧ t.cist = u.cist ∧ t.ctxs = u.ctxs) ∧
      (∀ m src dst, TwoRanks s c m src dst →
        let n := dstElems c.op 1 2 c.rcap
        let w := fun q k => Memory.word s.mem (src q + 4 * k)
        Apart (dst 0) (4 * n) (dst 1) (4 * n) →
          (c.op ≠ .alltoall → Happens .collectiveComplete s fun t => t.colls = [{ c with status := some 0 }] ∧ RegsKept s t ∧ t.cist = s.cist ∧
            (∀ q k, q < 2 → k < n → Memory.word t.mem (dst q + 4 * k) = match c.op with | .allred => w 0 0 + w 1 0 | .redsc => w 0 q + w 1 q | _ => w k 0) ∧
            ∀ b, (∀ q, q < 2 → b < dst q ∨ dst q + 4 * n ≤ b) → Memory.read t.mem b = Memory.read s.mem b) ∧
          ∀ stat : Nat → Nat, c.op = .alltoall → c.rcap = 2 → (∀ q, q < 2 → (m q).counts = [1, 1] ∧ (m q).ovflen = 0 ∧ Area s (m q) (m q).stat 16 (stat q)) →
            Apart (stat 0) 16 (stat 1) 16 → (∀ q r, q < 2 → r < 2 → Apart (dst q) (4 * n) (stat r) 16) →
              Happens .collectiveComplete s fun t => t.colls = [{ c with status := some 0 }] ∧ RegsKept s t ∧ t.cist = s.cist ∧
                (∀ q k, q < 2 → k < 2 → Memory.word t.mem (dst q + 4 * k) = w k q) ∧
                (∀ q k, q < 2 → k < 4 → Memory.word t.mem (stat q + 4 * k) = if k < 2 then 0 else 1) ∧
                ∀ b, (∀ q, q < 2 → (b < dst q ∨ dst q + 4 * n ≤ b) ∧ (b < stat q ∨ stat q + 16 ≤ b)) → Memory.read t.mem b = Memory.read s.mem b) ∧
      ∀ m j cz d a, collRun c s = .error ⟨m.rank, .fault cz d a⟩ → c.members = [m] → s.collWaiter m c.id = some j → j.level = false → TrapNow s m.ctx → (Tab.find? s.ctxs m.ctx).isSome = true →
        let live := maskOf ((lanesOf j.lanes).filter fun l => ((s.ctx m.ctx).front.lane l).st ≠ .exited)
        live ≠ 0 → Happens .collectiveFault s fun t => t.colls = [{ c with members := [{ m with held := true }] }] ∧ RegsKept s t ∧ DataKept s t ∧
          AtTrap s t m.ctx { cause := causeWord cz d 0, addr := a, pc := j.pc, lanes := live, kind := .coll c.id }) ∧
    ∀ j x q frag c p pm cz d a, OnlyJob s j x → j.job = .stream q frag c p pm false → nextStep j q c p pm s = .error (.fault cz d a) → j.level = false → TrapNow s j.ctx →
        let live := maskOf ((lanesOf frag).filter fun l => ((s.ctx j.ctx).front.lane l).st ≠ .exited)
        live ≠ 0 → Happens .streamElementFault s fun t => t.job s.args.id = some { j with job := .stream q frag c p pm true } ∧ RegsKept s t ∧ DataKept s t ∧
          AtTrap s t j.ctx { cause := causeWord cz d 0, addr := a, pc := j.pc, lanes := live, kind := .fbnext s.args.id }

/-! ## Power and persisting boundaries -/

/-- R51, R110, R373 to R376: a refill adds TOKRATE to TOKLEVEL up to TOKCAP, and after a write that set EN in hardware mode it brings the start figures; a grant goes to
the workgroup that asked first and spends a token; without a token it waits. A write of PWRCTL, TOKCAP or TOKRATE that breaks its rule is ignored. A slice's boundary
moves by one toward the half of its sample that hit more often, within its limits, and the counts clear. At 100 °C an island whose clock falls, or is low, is throttled,
below 95 °C it is not any more; at 110 °C, or when power fails, the module stands in standby, and a power failure spoils the flash only where an image that passed its
checks was on its way to it. What an unthrottled island reports below 100 °C, that nothing is under way in standby, and when the flash write begins are the model's
choices (logs 81, 87). -/
def Obligations.PowerHappenings : Prop :=
  ∀ s : State,
    let v := s.args.v
    (s.pf.pwrctl.getLsbD 63 = s.pf.capped → s.pf.capStarts = false → s.pf.tokcapNow = s.pf.tokcap → Happens .tokenRefill s fun t =>
      t.pf.toklevel.toNat = min (s.pf.toklevel.toNat + s.pf.tokrate.toNat) s.pf.tokcap.toNat ∧ t.pf.tokrate = s.pf.tokrate ∧ t.pf.capped = s.pf.capped ∧ RegsKept s t ∧ DataKept s t) ∧
    (s.pf.pwrctl.getLsbD 63 = true → s.pf.capStarts = true → Happens .tokenRefill s fun t => t.pf.capped = true ∧ t.pf.tokcapNow = s.pf.tokcap ∧
      t.pf.toklevel = s.pf.tokcap ∧ t.pf.tokrate = BitVec.ofNat 64 (98304 * (s.pf.pwrctl.toNat / 2 ^ 16 % 2 ^ 12) / 3200)) ∧
    (∀ wk rest, s.tokenq = wk :: rest → s.pf.capped = true →
      (s.pf.toklevel ≠ 0 → (Tab.find? s.wgs wk).isSome = true → Happens .tokenGrant s fun t => (t.wg wk).token = true ∧ t.tokenq = rest ∧ t.pf.toklevel = s.pf.toklevel - 1 ∧
        t.pf.tokgrant = s.pf.tokgrant + 1 ∧ RegsKept s t ∧ DataKept s t) ∧
      (s.pf.toklevel = 0 → exec .tokenGrant s = .next s)) ∧
    ((s.pf.capped = false ∨ s.pf.dutysel.getLsbD 7 = true → exec .powerMeasure s = .next s) ∧
      Happens .powerMeasure s fun t => ∃ r f, t = { s with pf := { s.pf with tokrate := r }, fresh := f }) ∧
    (Tab.wf {} s.llc = true → Happens .persistBoundaryInterval s fun t => RegsKept s t ∧ DataKept s t ∧ ∀ k, k < 192 →
      let x : LlcSlice := Tab.get {} s.llc k
      let y : LlcSlice := Tab.get {} t.llc k
      s.persistMin ≤ y.p ∧ y.p ≤ s.persistMax ∧ y.up = 0 ∧ y.down = 0 ∧ y.lines = x.lines ∧
      (s.persistMin ≤ x.p → x.p ≤ s.persistMax → (x.down < x.up → y.p = min (x.p + 1) s.persistMax) ∧ (x.up < x.down → y.p = max (x.p - 1) s.persistMin) ∧ (x.up = x.down → y.p = x.p))) ∧
    (s.powered = true → s.linkUp = true →
      (let watts := v.toNat / 2 ^ 16 % 2 ^ 12
       exec .pwrctlWrite s = .next (if v.toNat / 2 ^ 28 % 2 ^ 35 = 0 ∧ v.toNat % 2 ^ 16 = 0 ∧ (v.getLsbD 63 = true → 400 ≤ watts ∧ watts ≤ 3200) then
         { s with pf := { s.pf with pwrctl := v, capStarts := s.pf.capStarts || (v.getLsbD 63 && !s.pf.pwrctl.getLsbD 63 && !s.pf.dutysel.getLsbD 7) } } else s)) ∧
      exec .tokcapWrite s = .next (if v.toNat < 2 ^ 20 ∧ v ≠ 0 then { s with pf := { s.pf with tokcap := v } } else s) ∧
      exec .tokrateWrite s = .next (if s.pf.dutysel.getLsbD 7 = true ∧ v.toNat < 2 ^ 17 then { s with pf := { s.pf with tokrate := v } } else s)) ∧
    (let c := v.toNat / 2 ^ 40 % 2 ^ 8
     let freq := v.toNat / 2 ^ 12 % 2 ^ 12
     let was := (nth 0 s.pf.islstat s.args.id).toNat / 2 ^ 12 % 2 ^ 12
     let low := nth false s.pf.throttled s.args.id
     let reports := fun (t : State) (b : Bool) => nth false t.pf.throttled s.args.id = b ∧ nth 0 t.pf.islstat s.args.id = v &&& 0x0000FFFFFFFFF000 ∧ t = { s with pf := t.pf }
     s.args.id < 32 → s.pf.throttled.length = 32 → s.pf.islstat.length = 32 →
      (100 ≤ c → c < 110 → low = true ∨ was = 0 ∨ freq < was → Happens .thermalThrottle s fun t => reports t true) ∧
      (c < 95 ∨ c < 110 ∧ low = false ∧ was ≠ 0 ∧ was ≤ freq → exec .thermalThrottle s = .next s) ∧
      (c < 95 ∨ c < 100 ∧ low = false → Happens .thermalThrottleEnd s fun t => reports t false) ∧
      (95 ≤ c → low = true → exec .thermalThrottleEnd s = .next s) ∧
      (110 ≤ c → Happens .thermalShutdown s (fun t => t.powered = false ∧ step t = .fault .standby) ∧ Happens .thermalThrottle s fun t => t.powered = false ∧ step t = .fault .standby)) ∧
    Happens .powerFail s fun t => t.powered = false ∧ step t = .fault .standby ∧ (t.flash = s.flash ∨ t.flash = [] ∧ ∃ im, s.pf.mbimage = some im ∧ imgOk im = true)

/-! ## Dispatch -/
namespace Sys2Proof.Rules
/-- Workgroup wgid of grid k runs on a core, as workgroup number id: its groups' lanes stand active at the grid's entry, with no register written. -/
def Runs (s t : State) (k id wgid core : Nat) : Prop :=
  let g := s.grid k
  (∃ w, Tab.find? t.wgs id = some w ∧ w.grid = k ∧ w.wgid = wgid ∧ w.core = core ∧ w.ngroups = g.groups ∧ w.regs = g.regs ∧ w.trapbase = (s.vf g.vfn).trapbase ∧ w.s = [] ∧ w.trough = []) ∧
  ∀ n l, n < g.groups → l < 32 → (t.ctx (id * 32 + n)).front.lane l = { pc := g.entry, st := .active } ∧ (t.ctx (id * 32 + n)).v = []
/-- Numbers from the next one on name no workgroup, context or draining way yet. -/
structure Unused (s : State) : Prop where
  wgs : ∀ x ∈ s.wgs, x.1 < s.ids
  ctxs : ∀ x ∈ s.ctxs, x.1 < 32 * s.ids
  ways : ∀ c w k, w < 8 → (s.core c).way w = .draining k → k < s.ids
/-- What a workgroup keeps in the save area, beside its contexts and its scratchpad. -/
def StaysWith (g h : Wg) : Prop :=
  h.s = g.s ∧ h.tiles = g.tiles ∧ h.tscl = g.tscl ∧ h.tshape = g.tshape ∧ h.acc = g.acc ∧ h.xp = g.xp ∧ h.bars = g.bars ∧ h.trough = g.trough
/-- A core has room for a workgroup of a grid that reserves no way, and nothing keeps it from it. -/
def Takes (s : State) (k c : Nat) : Bool := s.room c (s.grid k).groups (s.grid k).regs 0 && !s.owed c (s.grid k).prio && !s.withheldFor c k (s.grid k).prio
end Sys2Proof.Rules

/-- R10, R22, R26 to R31, R40, R43, R48: a dispatcher places the workgroup it serves on a core with room, and its groups start; a .CORESIDENT grid starts as a
whole; entries age; a drained way is empty scratchpad; a workgroup whose contexts and engines are done retires, and its ways are lent; a grid whose tree has retired
frees its frame. -/
def Sys2Proof.Rules.DispatchHappenings : Prop :=
  ∀ s : State,
    (∀ e c rest, (s.die s.args.id).queue = [e] → s.mayPlace e.grid = true → s.roomFor s.args.id e = c :: rest → s.args.pick = none → (Tab.find? s.grids e.grid).isSome = true →
      (s.grid e.grid).cist = 0 → (s.grid e.grid).groups ≤ 16 → Unused s → Happens .workgroupPlace s fun t => Runs s t e.grid s.ids e.next c ∧ (t.grid e.grid).placed = (s.grid e.grid).placed + 1 ∧
        (t.die s.args.id).queue = if e.next + 12 < (s.grid e.grid).wgcnt then [{ e with next := e.next + 12 }] else []) ∧
    (let k := s.args.id
     k ∈ s.coresident → s.mayPlace k = true → (Tab.find? s.grids k).isSome = true → (s.grid k).cist = 0 → (s.grid k).groups ≤ 16 → Unused s →
       let places := fun (t : State) (cs : List Nat) => (∀ j, j < cs.length → Runs s t k (s.ids + j) j (nth 0 cs j)) ∧ (t.grid k).placed = (s.grid k).placed + cs.length ∧ k ∉ t.coresident
       (∀ c, s.args.list = [] → (s.grid k).wgcnt = 1 → (List.range 3072).find? (Takes s k) = some c → Happens .coresidentPlace s fun t => places t [c]) ∧
       (s.args.list.length = (s.grid k).wgcnt → s.args.list.Nodup → (∀ c ∈ s.args.list, c < 3072 ∧ Takes s k c = true) → Happens .coresidentPlace s fun t => places t s.args.list) ∧
       (0 < (s.grid k).wgcnt → (∀ c, c < 3072 → Takes s k c = false) → exec .coresidentPlace s = .next s)) ∧
    (∀ e, (s.die s.args.id).queue = [e] → Happens .priorityAging s fun t => RegsKept s t ∧ DataKept s t ∧
      (t.die s.args.id).queue = if e.prio < 7 ∧ 2 ^ 20 ≤ s.clock - e.since then [{ e with prio := e.prio + 1, since := s.clock }] else [e]) ∧
    (s.args.id ∈ s.coresident → (Tab.find? s.grids s.args.id).isSome = true → 2 ^ 20 ≤ s.clock - (s.grid s.args.id).since → Happens .coresidentWithhold s fun t =>
      (t.grid s.args.id).withhold = true ∧ RegsKept s t ∧ DataKept s t) ∧
    (let c := s.args.id
     let w := s.args.num
     ∀ wk v, w < 8 → v < 8 → v ≠ w → (s.core c).way w = .draining wk → (s.core c).way v = .draining wk → Happens .wayDrain s fun t => (t.core c).way w = .reserved wk ∧ RegsKept s t ∧
       ∀ o, o < 0x8000 → t.cistByte c (w * 0x8000 + o) = 0 ∧ t.feBit c ((w * 0x8000 + o) / 4) = false) ∧
    (∀ g, s.wgs = [(s.args.id, g)] → s.wgDone s.args.id = true → (Tab.find? s.grids g.grid).isSome = true → Happens .workgroupRetire s fun t => t.wgs = [] ∧
      (t.grid g.grid).retired = (s.grid g.grid).retired + 1 ∧ t.awaits .gridRetire { id := g.grid } = true ∧ t.mem = s.mem ∧
      ∀ w, w < 8 → (t.core g.core).way w = if (s.core g.core).way w = .reserved s.args.id then .lent else (s.core g.core).way w) ∧
    ∀ g, s.grids = [(s.args.id, g)] → g.wgcnt ≤ g.retired → g.children = 0 → g.parent = none → g.done = 0 → Happens .gridRetire s fun t => t.grids = [] ∧ RegsKept s t ∧ t.mem = s.mem ∧
      ∀ f ∈ (t.vf g.vfn).frames, f.1 ≠ (g.frame - (s.vf g.vfn).fpbase).toNat

/-- R91, R114, R291, R303, R363: a group whose registers a workgroup of higher priority needs, and that may be evicted, leaves for a save slot with its registers kept and
its latches and reservations lost; a workgroup leaves, where a slot, the tile file or ways are needed, once its engines and its accesses have come to rest, and keeps its
registers, barriers, tiles, accumulators and its scratchpad with its full/empty bits; a group comes back where its core has room, and issues once its
fixed-latency results are written; a workgroup comes back likewise, perhaps on other ways, with all that it kept. -/
def Sys2Proof.Rules.EvictionHappenings : Prop :=
  ∀ s : State,
    (let k := s.args.id
     let g := s.wgOf k
     ∀ e u, s.wanting g.core (s.grid g.grid).prio = some e → s.groupMay k = true → g.evicted = false →
       (s.use g.core).wgs + 1 ≤ 4 → ((s.grid e.grid).cist + 0x7FFF) / 0x8000 ≤ (lentWays (s.core g.core)).length →
       s.firstVictim g.core (k / 32) (fun w => (Tab.keys s.ctxs).any fun x => x / 32 = w && s.groupMay x) = true → s.takeSlots g.vfn k 1 0 = some u →
         Happens .groupEvict s fun t => (t.ctx k).evicted = true ∧ (t.ctx k).v = (s.ctx k).v ∧ (t.ctx k).p = (s.ctx k).p ∧ (t.ctx k).resv = [] ∧ (t.ctx k).front.chain = none ∧
           (t.ctx k).front.latches = List.replicate 4 {}) ∧
    (∀ g e, Tab.find? s.wgs s.args.id = some g → g.evicted = false → g.starting = false → s.wgMay s.args.id = true → s.wanting g.core (s.grid g.grid).prio = some e →
      4 < (s.use g.core).wgs + 1 ∨ (lentWays (s.core g.core)).length < ((s.grid e.grid).cist + 0x7FFF) / 0x8000 →
      s.firstVictim g.core s.args.id s.wgMay = true →
      (∀ u, s.enginesRun s.args.id = false → s.accessesRun s.args.id = false → s.takeSlots g.vfn (2 ^ 60 + s.args.id) 11 (s.unsaved s.args.id) = some u →
        Happens .workgroupEvict s fun t => (t.wg s.args.id).evicted = true ∧ StaysWith g (t.wg s.args.id) ∧ (t.wg s.args.id).buf = [] ∧
          (∀ o, o < g.reserved → Tab.get 0 (t.wg s.args.id).stash o = s.cistByte g.core (g.cistPhys o)) ∧
          (∀ o, o < g.reserved / 4 → Tab.get false (t.wg s.args.id).stashFe o = s.feBit g.core (g.cistPhys (4 * o) / 4)) ∧
          ∀ k, k / 32 = s.args.id → (Tab.find? s.ctxs k).isSome = true → (t.ctx k).evicted = true ∧ (t.ctx k).v = (s.ctx k).v ∧ (t.ctx k).resv = []) ∧
      (s.enginesRun s.args.id = true ∨ s.accessesRun s.args.id = true → Happens .workgroupEvict s fun t =>
        t.wg s.args.id = { g with leaving := true } ∧ t.ctxs = s.ctxs ∧ RegsKept s t ∧ DataKept s t)) ∧
    (∀ g, s.args.num = 1 → Tab.find? s.wgs s.args.id = some g → g.evicted = true → s.room g.core g.ngroups g.regs (waysOf g.cways).length = true → (s.vf g.vfn).quiescing = false →
      Tab.wf 0 s.cist = true → Tab.wf false s.fe = true → Tab.wf 0 g.stash = true → Tab.wf false g.stashFe = true → (∀ x ∈ g.stash, x.1 < g.reserved) → (∀ x ∈ g.stashFe, x.1 < g.reserved / 4) →
        Happens .contextRestore s fun t =>
          let h := t.wg s.args.id
          h.evicted = false ∧ StaysWith g h ∧ h.reserved = g.reserved ∧ (∀ w ∈ waysOf h.cways, (t.core g.core).way w = .reserved s.args.id) ∧
          (∀ o, o < g.reserved → t.cistByte g.core (h.cistPhys o) = Tab.get 0 g.stash o) ∧
          (∀ o, o < g.reserved / 4 → t.feBit g.core (h.cistPhys (4 * o) / 4) = Tab.get false g.stashFe o) ∧
          ∀ k, k / 32 = s.args.id → (Tab.find? s.ctxs k).isSome = true → (t.ctx k).evicted = false ∧ (t.ctx k).v = (s.ctx k).v) ∧
    (let k := s.args.id
     let g := s.wgOf k
     s.args.num = 0 → (Tab.find? s.ctxs k).isSome = true → (s.ctx k).evicted = true → g.evicted = false → (s.use g.core).groups + 1 ≤ 16 → (s.use g.core).regs + g.regs ≤ 2048 →
       (s.vf g.vfn).quiescing = false → Happens .contextRestore s fun t => (t.ctx k).evicted = false ∧ (t.ctx k).turn = none ∧
         (s.markStreams k false |>.ctx k).drained ≤ (t.ctx k).front.notBefore ∧ RegsKept s t ∧ DataKept s t)

/-- R10, R22, R26 to R31, R40, R43, R48, R114, R291, R363: dispatch, placement, retirement and eviction. -/
def Obligations.DispatchAndEviction : Prop := Rules.DispatchHappenings ∧ Rules.EvictionHappenings

/-! ## Services -/

/-- R352, R353 to R362: a page that is there lets its waiting lanes retry; one that is not, or a walk for the host, opens a request while the trap queue is
enabled; an answer lets the page's lanes retry; a function is quiesced when its engines stand; a pool below its mark grows by FPSTEP up to its limit, or by
FPGROW; an enabled queue copies the next finished record that was not reserved for the host to the host's log and moves SEQ on, and a disabled one copies nothing (logs 57, 75, 76, 96, 118). -/
def Obligations.ServiceHappenings : Prop :=
  ∀ s : State, let f := s.args.id
    (∀ lo n, (∃ p, s.walk f s.args.v.toNat = .ok p ∧ lo = p.va ∧ n = 2 ^ p.bits) ∨ (s.walk f s.args.v.toNat = .bad ∨ s.walk f s.args.v.toNat = .lost) ∧ lo = s.args.v.toNat / 65536 * 65536 ∧ n = 65536 →
      Happens .notPresentFault s fun t => RegsKept s t ∧ ((s.vf f).late = [] → DataKept s t) ∧
        ∀ k l va info off, (s.wgOf k).vfn = f → ((s.ctx k).front.lane l).st = .waitPage va info off → lo ≤ va.toNat → va.toNat < lo + n → ((t.ctx k).front.lane l).st = .active) ∧
    (∀ bits, s.walk f s.args.v.toNat = .absent none bits → (s.vf f).tqEn = true → (∀ o ∈ (s.vf f).opens, o.kind ≠ 1) → Happens .notPresentFault s fun t =>
      ∃ o ∈ (t.vf f).opens, o.kind = 1 ∧ o.va = BitVec.ofNat 64 (s.args.v.toNat / 2 ^ bits * 2 ^ bits) ∧ o.info = bits ∧ o.answered = false) ∧
    ((s.vf f).tqEn = true → (∀ o ∈ (s.vf f).opens, o.kind ≠ 2) → Happens .walkMissRecord s fun t => ∃ o ∈ (t.vf f).opens, o.kind = 2 ∧ o.va = s.args.v ∧ o.answered = false) ∧
    ((s.vf f).quiescing = true → (s.engineBusy f = false → Happens .quiesce s fun t => (t.vf f).quiesced = true ∧ RegsKept s t ∧ DataKept s t) ∧
      (s.engineBusy f = true → exec .quiesce s = .next s)) ∧
    ((s.vf f).opens = [] → (s.vf f).hostEntries = [] → ((s.vf f).tqEn = false → Happens .trapQueueLogCopy s fun t => t.vf f = s.vf f ∧ RegsKept s t ∧ DataKept s t) ∧
      let n := max (s.tqSeq f + (s.vf f).passed) (s.tqRd f)
      ((s.vf f).tqEn = true → n < s.tqWr f → nth 0 (s.devRead f (s.tqEntry f n) 8) 7 ≠ 0 →
        let u := s.homeWrite 0 (hostPhys (s.vf f).tqlog + 64 * (s.tqSeq f % (s.vf f).tqN)) (s.devRead f (s.tqEntry f n) 64)
        Happens .trapQueueLogCopy s fun t => t.mem = (u.devWriteDWord f ((s.vf f).tqbase + 16) (BitVec.ofNat 64 (s.tqSeq f + 1))).mem ∧
          t.vf f = { s.vf f with passed := n - s.tqSeq f } ∧ RegsKept s t ∧
          t.awaits .trapQueueLogCopy { id := f } = true)) ∧
    (s.args.on = false → (s.vf f).fpfree < (s.vf f).fplow.toNat → (s.vf f).dutysel.getLsbD 4 = false → (s.vf f).fpact.toNat < (s.vf f).fplimit.toNat →
      Happens .framePoolRefill s fun t => (t.vf f).fpact = (s.vf f).fpact + BitVec.ofNat 64 (min (s.vf f).fpstep.toNat ((s.vf f).fplimit.toNat - (s.vf f).fpact.toNat)) ∧ RegsKept s t ∧ DataKept s t) ∧
    (s.answers = true → s.args.v.toNat / 2 ^ 38 ≠ 0 → exec .tqresp s = .next s) ∧
    (∀ o n, s.answers = true → s.args.v.toNat = n → n < 2 ^ 32 → (s.vf f).opens = [o] → o.kind = 1 → o.index = some n → o.answered = false → s.tqRd f ≤ n →
      Happens .tqresp s fun t => RegsKept s t ∧ ((s.vf f).late = [] → t.mem = s.mem) ∧ ∀ k l va info off, (s.wgOf k).vfn = f → ((s.ctx k).front.lane l).st = .waitPage va info off → o.va.toNat ≤ va.toNat →
        va.toNat < o.va.toNat + 2 ^ o.info → ((t.ctx k).front.lane l).st = .active) ∧
    (s.answers = true → ((s.vf f).dutysel.getLsbD 4 = true ∨ ∃ o ∈ (s.vf f).opens, o.kind = 4) → s.args.v.toNat % 0x10000 = 0 → Happens .fpgrow s fun t =>
      (t.vf f).fpact = (s.vf f).fpact + s.args.v ∧ (t.vf f).fplimit = (s.vf f).fplimit + s.args.v ∧ RegsKept s t ∧ DataKept s t)

/-! ## The host's registers -/
namespace Sys2Proof.Rules
/-- No core's or die's TLB holds a translation of a function that meets a range of it, or any. -/
def Forgotten (t : State) (f : Nat) (range : Option (Nat × Nat)) : Prop := (∀ c, ∀ x ∈ (t.core c).tlb, removes f range x = false) ∧ ∀ d, ∀ x ∈ (t.die d).tlb, removes f range x = false
/-- An invalidation from INVCTL has begun (R348). -/
def Begins (s t : State) (f : Nat) (range : Option (Nat × Nat)) : Prop :=
  Forgotten t f range ∧ (t.vf f).invctl = s.args.v ||| 0x8000000000000000 ∧ (t.vf f).invat = (s.vf f).invaddr ∧ RegsKept s t ∧ DataKept s t
/-- An INVCTL write that is honoured: the function answers, none is under way, no reserved bit is set, and the mode is this. -/
def InvOk (s : State) (mode : Nat) : Prop :=
  s.answers = true ∧ (s.vf s.args.id).invctl.getLsbD 63 = false ∧ s.args.v.toNat / 2 ^ 32 % 4 = mode ∧ s.args.v.toNat / 2 ^ 35 % 2 ^ 28 = 0
/-- What each plain register of a function's page (R342, R352) accepts, at its offset, and where it stands. -/
def plainRegs : List (Nat × (Vf → Bool → DWord → Bool) × (Vf → DWord)) := [
  (0x020, fun _ _ x => x.toNat % 8 = 0, (·.trapbase)),
  (0x028, fun _ _ x => x.toNat % 8192 = 0, (·.ptbase)),
  (0x030, fun _ _ _ => true, (·.invaddr)),
  (0x040, fun v _ x => !v.tqctl.getLsbD 31 && x.toNat % 64 = 0 && windowOf x = .global, (·.tqbase)),
  (0x058, fun _ _ _ => true, (·.tqlog)),
  (0x060, fun _ live x => !live && x.toNat % 65536 = 0 && windowOf x = .global, (·.fpbase)),
  (0x068, fun _ live x => !live && x.toNat % 65536 = 0, (·.fplimit)),
  (0x080, fun _ _ _ => true, (·.fplow)),
  (0x088, fun _ _ x => x.toNat % 65536 = 0, (·.fpstep)),
  (0x098, fun _ _ _ => true, (·.zpbase)),
  (0x0A0, fun _ _ _ => true, (·.zpcnt)),
  (0x0A8, fun _ live x => !live && x.toNat % 65536 = 0, (·.savebase)),
  (0x0B0, fun _ live x => !live && x.toNat % 32768 = 0, (·.savesize))]
/-- What other offsets of the page read: ROOTLAUNCH and TQRESP zero, ROOTSTAT, ROOTCTL, FPACT and VFSTAT (R342, R352). -/
def otherReads (v : Vf) : List (Nat × DWord) := [
  (0x000, 0), (0x050, 0), (0x008, v.rootstat), (0x070, v.fpact),
  (0x010, BitVec.ofNat 64 (v.rootq.length + if v.rootDrop then 256 else 0)),
  (0x0B8, BitVec.ofNat 64 ((if v.quiesced then 1 else 0) + (if v.latched then 2 else 0) + if v.opens.any fun o => o.index.isNone then 4 else 0))]
end Sys2Proof.Rules

/-- R342 to R352: a plain register takes a value that keeps its rule and ignores another; the queue of root records takes sixteen; a record that is not aligned
fails with reason 5, one that cannot be read with reason 6, one whose page is not present waits, and a good one becomes a root grid; DUTYSEL's bit 7 is the physical function's; INVCTL begins an invalidation and shows it until it is done;
a format window's change is in progress until its lines are out of the cache; a host's read answers the register, changing nothing (the form of that read, what breaks a
register's rule, how a record is read and how windows are written: logs 65, 79, 80, 126). -/
def Obligations.HostRegisterHappenings : Prop :=
  ∀ s : State, let f := s.args.id
    let v := s.args.v
    (s.answers = true → s.args.on = false → s.args.list ≠ [] → ∀ r ∈ plainRegs.map (fun x => (x.1, x.2.2 (s.vf f))) ++ otherReads (s.vf f), s.args.num = r.1 →
      exec .registerWrite s = .next { s with answer := bytesLE 8 r.2.toNat }) ∧
    (s.answers = true → s.args.on = false → s.args.list = [] → ∀ r ∈ plainRegs, s.args.num = r.1 → Happens .registerWrite s fun t => RegsKept s t ∧ DataKept s t ∧
      r.2.2 (t.vf f) = if r.2.1 (s.vf f) (s.liveGrids f) v then v else r.2.2 (s.vf f)) ∧
    (s.reached = true → s.args.on = true → s.args.list = [] → s.args.num = 0x800 → Happens .registerWrite s fun t => t.vfs = s.vfs ∧ RegsKept s t ∧ t.pf = if v.toNat % 64 = 0 then { s.pf with mbaddr := v } else s.pf) ∧
    (s.answers = true → Happens .rootlaunch s fun t => RegsKept s t ∧ DataKept s t ∧
      if (s.vf f).rootq.length < 16 then (t.vf f).rootq = (s.vf f).rootq ++ [v] ∧ (t.vf f).rootDrop = (s.vf f).rootDrop else (t.vf f).rootq = (s.vf f).rootq ∧ (t.vf f).rootDrop = true) ∧
    (s.answers = true → Happens .rootctlClearDrop s fun t => (t.vf f).rootDrop = false ∧ (t.vf f).rootq = (s.vf f).rootq ∧ RegsKept s t ∧ DataKept s t) ∧
    (∀ a rest, (s.vf f).rootq = a :: rest → (s.vf f).quiescing = false →
      (a.toNat % 64 ≠ 0 → Happens .rootlaunchProcess s fun t => (t.vf f).rootq = rest ∧ (t.vf f).rootstat = failureBits 5 ∧ RegsKept s t ∧ DataKept s t) ∧
      (windowOf a = .global → a.toNat % 64 = 0 → ∀ leaf bits, s.walk f a.toNat = .absent leaf bits → Happens .rootlaunchProcess s fun t => t.vfs = s.vfs ∧
        t.awaits .notPresentFault { id := f, v := BitVec.ofNat 64 (a.toNat / 65536 * 65536) } = true ∧ RegsKept s t ∧ DataKept s t) ∧
      (a.toNat % 64 = 0 → windowOf a ≠ .global ∨ s.walk f a.toNat = .bad ∨ s.walk f a.toNat = .lost → Happens .rootlaunchProcess s fun t => (t.vf f).rootq = rest ∧ (t.vf f).rootstat = failureBits 6 ∧ RegsKept s t ∧ DataKept s t) ∧
      ∀ w fr u x, a.toNat % 64 = 0 → s.rootRead f a = (.ok w, u) → recordFault w 6 = none → w 7 = 0 → (w 6).toNat % 8 = 0 → (w 6 = 0 ∨ windowOf (w 6) = .global) →
        (Record.of w).level = 0 → (Record.of w).after = false → (Record.of w).coresident = false → u.takeFrame f (Record.of w).frame = (some fr, x) →
          Happens .rootlaunchProcess s fun t => (t.vf f).rootq = rest ∧ ∃ g, Tab.find? t.grids x.ids = some g ∧ g.entry = (Record.of w).entry ∧ g.parent = none ∧ g.frame = fr ∧ g.done = w 6 ∧ g.vfn = f ∧ (t.vf f).rootstat = handleBits f g.gen g.slot) ∧
    (s.answers = true → v.toNat < 256 → (s.args.on = false → Happens .dutyselWrite s fun t => (t.vf f).dutysel = (v.setWidth 32 &&& 0x7F) ||| (s.pf.dutysel &&& 0x80)) ∧
      (s.args.on = true → Happens .dutyselWrite s fun t => t.pf.dutysel = v.setWidth 32 ∧ ∀ k, (Tab.find? s.vfs k).isSome = true →
        (t.vf k).dutysel = ((s.vf k).dutysel &&& 0x7F) ||| (v.setWidth 32 &&& 0x80))) ∧
    (InvOk s 0 → Happens .invctlPage s fun t => Begins s t f (some ((s.vf f).invaddr.toNat, 1))) ∧
    (InvOk s 1 → v.toNat % 2 ^ 32 ≠ 0 → Happens .invctlRange s fun t => Begins s t f (some ((s.vf f).invaddr.toNat, v.toNat % 2 ^ 32))) ∧
    (InvOk s 2 → Happens .invctlVf s fun t => Begins s t f none) ∧
    ((s.vf f).invctl.getLsbD 63 = true → (s.vf f).invctl.getLsbD 34 = false → (s.vf f).invwaits = [] → Happens .invctlComplete s fun t =>
      (t.vf f).invctl = (s.vf f).invctl &&& 0x7FFFFFFFFFFFFFFF ∧ RegsKept s t ∧ DataKept s t) ∧
    (let n := s.args.num
     let w := nth {} s.pf.fw n
     s.answers = true → n < 16 → s.pf.fw.length = 16 → w.ctl.getLsbD 31 = false →
       (v.getLsbD 0 = true → s.fwRefuses n (v.toNat / 2 % 4) = true → Happens .fwctlWrite s fun t => (nth {} t.pf.fw n).ctl = w.ctl ||| 0x40000000) ∧
       (v.getLsbD 0 = true → s.fwRefuses n (v.toNat / 2 % 4) = false → w.ctl &&& 7 ≠ v &&& 7 → Happens .fwctlWrite s fun t => (nth {} t.pf.fw n).ctl.getLsbD 31 = true ∧
         (nth {} t.pf.fw n).next = v &&& 7 ∧ t.awaits .formatWindowChangeDone { id := n } = true)) ∧
    (f < 16 → s.pf.fw.length = 16 → (nth {} s.pf.fw f).ctl.getLsbD 31 = true →
      s.rangeBusy (nth {} s.pf.fw f).data.toNat (nth {} s.pf.fw f).size.toNat = false → Happens .formatWindowChangeDone s fun t =>
      nth {} t.pf.fw f = { nth {} s.pf.fw f with ctl := (nth {} s.pf.fw f).next } ∧ RegsKept s t ∧
        ∀ k x n l u, (k, x) ∈ t.llc → (n, (l, u)) ∈ x.lines → (nth {} s.pf.fw f).data.toNat ≤ l * 128 + 127 → l * 128 < (nth {} s.pf.fw f).data.toNat + (nth {} s.pf.fw f).size.toNat →
          s.llcPinned l = true)

/-! ## The module -/
namespace Sys2Proof.Rules
/-- The module after a reset with no good image in flash (R368, R369): no grid, context or copy; the mailbox waits with 0x10; host memory and the flash keep
their contents. -/
def Waiting (s t : State) : Prop :=
  t.powered = true ∧ t.running = false ∧ t.wgs = [] ∧ t.ctxs = [] ∧ t.grids = [] ∧ t.vfs = [] ∧ t.l1 = [] ∧ t.dir = [] ∧ t.llc = [] ∧ t.agenda = [] ∧ t.pf = Pf.reset ∧ t.pf.mbstat = 0x10 ∧
    t.flash = s.flash ∧ ∀ a, Memory.read t.mem a = if 0x800000000000 ≤ a then Memory.read s.mem a else 0
end Sys2Proof.Rules

/-- R331, R333, R352, R357, R368 to R371, R377: a reset without a good image waits at the mailbox, and with one runs it; a command that is unknown, or whose buffer
breaks its rule, is refused with MBSTAT 2; a quote writes its fields and both signatures into the buffer; an image is written in two parts, and a bad one leaves 3; a refused object answers its reason, and one with a page that does not translate waits; an unloaded object is gone unless a
grid of it lives; a function that is reset first quiesces, and then has no workgroup, grid or object; a register parity error parks its context for good. What memory and
the flash hold after a reset, how an image is taken in, that a load waits, and what a function-level reset leaves are the model's readings (logs 1, 78, 81, 82, 85). -/
def Obligations.ModuleHappenings : Prop :=
  ∀ s : State, let f := s.args.id
    (Memory.wf s.mem = true → Happens .moduleReset s fun t => if imgOk s.flash = true then t.running = true ∧ t.pf.mbstat = 0 ∧ t.svn = imgSvn s.flash ∧ t.rev = imgRev s.flash ∧
      t.grids = [] ∧ t.pf.m0 = extend 0 (digestBytes (imgDigest s.flash)) else Waiting s t) ∧
    (s.reached = true → s.pf.mbstat ≠ 1 →
      (Happens .mailboxUnknownCommand s fun t => t = { s with pf := { s.pf with mbstat := 2 } }) ∧
      (s.args.on = false → s.mbFits = true → 64 ≤ s.mbLen → s.mbLen ≤ 64 + 0x4000000 + 384 + 16224 → Happens .mailboxImage s fun t => t.pf.mbstat = 1 ∧
        t.pf.mbimage = some (s.peekN s.mbAt s.mbLen) ∧ t.flash = s.flash ∧ t.awaits .mailboxImage { on := true } = true) ∧
      (s.args.on = false → s.mbLen < 64 → Happens .mailboxImage s fun t => t.pf.mbstat = 2 ∧ t.flash = s.flash) ∧
      (s.running = true → (s.mbLen < 36 → Happens .mailboxQuote s fun t => t = { s with pf := { s.pf with mbstat := 2 } }) ∧
        (let vfn := natOfBytes (s.peekN s.mbAt 4)
         let out := s.quoteFields vfn (s.peekN (s.mbAt + 4) 32) ++ (List.range 384).map (Config.quoteRsa (Config.sha384 (s.quoteFields vfn (s.peekN (s.mbAt + 4) 32)))) ++
           (List.range 16224).map (Config.quoteSlh (Config.sha384 (s.quoteFields vfn (s.peekN (s.mbAt + 4) 32))))
         Memory.wf s.mem = true → s.mbFits = true → 192 + 384 + 16224 ≤ s.mbLen → vfn < 512 → Happens .mailboxQuote s fun t => t = { s with mem := t.mem, pf := { s.pf with mbstat := 0 } } ∧
           ∀ a, Memory.read t.mem a = if s.mbAt ≤ a ∧ a < s.mbAt + (192 + 384 + 16224) then nth 0 out (a - s.mbAt) else Memory.read s.mem a) ∧
        (s.mbFits = true → s.mbLen = 512 → keysetOk (s.peekN s.mbAt 512) = true → s.keyInUse (natAt (s.peekN s.mbAt 512) 0 4) (natAt (s.peekN s.mbAt 512) 4 4) = false →
          Happens .mailboxKeyset s fun t => t.pf.mbstat = 0 ∧ t.mem = s.mem ∧ RegsKept s t ∧
            (natAt (s.peekN s.mbAt 512) 8 4 = 0 → ∃ key, Tab.find? (t.vf (natAt (s.peekN s.mbAt 512) 0 4)).keys (natAt (s.peekN s.mbAt 512) 4 4) = some key ∧
              key.rsan = bytesAt (s.peekN s.mbAt 512) 0x10 384 ∧ key.slhpk = bytesAt (s.peekN s.mbAt 512) 0x190 48)))) ∧
    (∀ im, s.args.on = true → s.pf.mbimage = some im → Happens .mailboxImage s fun t => t.pf.mbimage = none ∧
      if imgOk im = true then t.pf.mbstat = 0 ∧ t.flash = im ∧ t.running = true else t.pf.mbstat = 3 ∧ t.flash = s.flash) ∧
    (s.answers = true → f < 512 → (s.vf f).dutysel.getLsbD 3 = false →
      Happens .objectLoad s fun t => match examine s.args.bytes (s.vf f).keys s.args.v.toNat none with
        | .error reason => t = { s with answer := bytesLE 1 reason }
        | .ok (ns, im) => match s.missingPage f (objectSpans s.args.bytes ns im s.args.v.toNat) with
          | some a => t.vfs = s.vfs ∧ DataKept s t ∧ t.awaits .notPresentFault { id := f, num := 1, v := BitVec.ofNat 64 a } = true ∧ t.awaits .objectLoad s.args = true
          | none => t.answer = [0] ∧ (t.vf f).loads = (s.vf f).loads + 1 ∧ ∃ o, (t.vf f).objects = (s.vf f).objects ++ [o] ∧ o.kernels = kernelsOf s.args.bytes ns im s.args.v.toNat) ∧
    (s.answers = true → Happens .objectUnload s fun t => RegsKept s t ∧ DataKept s t ∧
      ∀ o, o ∈ (t.vf f).objects ↔ o ∈ (s.vf f).objects ∧ (o.base = s.args.v → s.objectLives f o = true)) ∧
    (s.answers = true → ((s.vf f).quiesced = false → Happens .functionLevelReset s fun t => (t.vf f).quiescing = true ∧ t.awaits .functionLevelReset { id := f } = true ∧ RegsKept s t ∧ DataKept s t) ∧
      ((s.vf f).quiesced = true → Happens .functionLevelReset s fun t => (∀ k g, (k, g) ∈ t.grids → g.vfn ≠ f) ∧ (∀ k g, (k, g) ∈ t.wgs → (s.wg k).vfn ≠ f) ∧
        (t.vf f).tqctl = 0 ∧ (t.vf f).fpact = 0 ∧ (t.vf f).quiesced = false ∧ (t.vf f).frames = [] ∧ (t.vf f).gens = [] ∧ (t.vf f).objects = [] ∧ t.mem = s.mem)) ∧
    ((Tab.find? s.ctxs f).isSome = true → s.pf.errunc.length = 8 → Happens .registerParityError s fun t => nth 0 t.pf.errunc 7 = nth 0 s.pf.errunc 7 + 1 ∧ RegsKept s t ∧
      ∀ l, l < 32 → ((s.ctx f).front.lane l).st ≠ .exited → ((t.ctx f).front.lane l).st = .parked none)

/-! ## Words, decoding and the step -/
namespace Sys2Proof.Rules
def always : Hdr := { c := false, dist := 0, wait := 0, setf := 15, pred := 7, pneg := false, wbs := false }
/-- Words that spec/ prints, with the instructions that it prints for them. -/
def printedWords : List (DWord × DWord × Instr) := [
  (0x00001E2DC01E5005, 0, .icmp { h := always, cond := .ge, p := 1, a := .sp .lane, b := .v 0 }),
  (0x80001E31C3300000, 0xC0000000FF000000, .moviX { h := always, w64 := false, d := .v 51, imm := 0xFF000000 }),
  (0x00001EC240000030, 0, .bra { h := { always with pred := 1 }, off := 3 }),
  (0x00001F17C04011C2, 0, .sts { h := always, w := .w32, data := .v 4, base := .v 1, off := 28 }),
  (0x02000305C0614808, 0, .ld32 { h := { always with dist := 1, setf := 1 }, pol := .si, hint := 0, data := .v 6, addr := .v 20, scope := .pkg, off := 0 }),
  (0x00001F53C0000000, 0, .bara { h := always, b := 0 }),
  (0x80001F51C0000000, 0xC000000000000004, .bariX { h := always, b := 0, count := 4 }),
  (0x80001F8BC0800012, 0xC000000000000000, .tmmq { h := always, ac := 0, ta := 0, tb := 1, ty := .e4m3, kb := 0 }),
  (0x00001FC3C0000001, 0, .tretSkip { h := always }),
  (0x400000410150090A, 0, .iaddPair { c := false, dist := 0, wait := 0, hint := false, d := .v 4, s := .v 5, other := ⟨.fadd, .v 9, .v 10⟩ })]
end Sys2Proof.Rules

/-- R150, R155, R159, R279: the worked encodings of the manual decode to the instructions that it prints beside them. -/
def Obligations.DecodesPrintedWords : Prop := ∀ r ∈ printedWords, decode r.1 r.2.1 = .ok r.2.2

/-- R148 to R162: no bit of an encoding is dropped. Whatever follows it in memory, the encoding of a well-formed instruction that stands in words
decodes to that instruction. -/
def Obligations.DecodeEncode : Prop :=
  ∀ (x : Instr) (rest : List Byte), wellFormed x = true → x.words ≠ [] → decodeBytes (encode x ++ rest) = some (.ok x)

/-- R14, R33, R34: a step. The first happening that may wait no longer takes place, else the one at the head of the agenda, in standby only a module reset. With none, a module in standby stops;
otherwise a slot picks a context, and the word that stands in its instruction buffer at the issue address is decoded, its second word with it, and
executed, or raises the trap of a word that is no instruction; with nothing to issue the step is the cycle's end. The agenda and its order are the model's (logs 4, 7),
and so is that standby stops (DESIGN CHOICE, log 87). -/
def Obligations.StepRunsDecoded : Prop :=
  ∀ s : State,
    (∀ h t, s.takeHappening = some (h, t) → step s = if s.powered = true ∨ h.what = .moduleReset then exec h.what t else .next t) ∧
    (∀ h rest, s.picks = [] → s.agenda = h :: rest → (∀ x ∈ s.agenda, x.overdue s.clock = false) → s.takeHappening = some (h, { s with agenda := rest, args := h.args })) ∧
    (∀ a h b, s.agenda = a ++ h :: b → (∀ x ∈ a, x.overdue s.clock = false) → h.overdue s.clock = true → s.takeHappening = some (h, { s with agenda := a ++ b, args := h.args })) ∧
    (s.picks = [] → s.agenda = [] → s.powered = false → step s = .fault .standby) ∧
    (s.picks = [] → s.agenda = [] → s.powered = true → ∀ t, exec .issueCycle s = .next t →
      (t.issue = none → step s = .next t) ∧
      ∀ i w0, t.issue = some i → t.word? i.ctx i.pc = some w0 →
        (w0.extractLsb' 62 2 ≠ 2 → (∀ x, decode w0 0 = .ok x → step s = exec x t) ∧ ((∀ x, decode w0 0 ≠ .ok x) → step s = .next (t.badWord i (decode w0 0)))) ∧
        ∀ w1, w0.extractLsb' 62 2 = 2 → t.word? i.ctx (i.pc + 8) = some w1 →
          (∀ x, decode w0 w1 = .ok x → step s = exec x t) ∧ ((∀ x, decode w0 w1 ≠ .ok x) → step s = .next (t.badWord i (decode w0 w1))))

/-- R14, R18, R20: the executing fragment is every eligible lane at the issue address; and that is the lowest PC of the eligible lanes at trap level, and
outside it while neither a fairness turn nor a window opened by LR is under way. -/
def Obligations.IssueTakesLowestPc : Prop :=
  ∀ (s t : State) (i : Issue), exec .issueCycle s = .next t → t.issue = some i →
    let lane (l : Nat) : Lane := (s.front i.ctx i.level).lane l
    (∃ l, l < 32 ∧ hasLane i.exec l = true) ∧
    (∀ l, l < 32 → (hasLane i.exec l = true ↔ (lane l).st = .active ∧ (lane l).pc = i.pc)) ∧
    (i.level = true ∨ (s.ctx i.ctx).turn = none ∧ (s.ctx i.ctx).lrWin = none → ∀ l, l < 32 → (lane l).st = .active → i.pc.toNat ≤ (lane l).pc.toNat)

/-- R149, R160 to R163: a word that is no instruction traps for its whole fragment, whatever the guards, and counts for nothing: a word of format 0b11 with
0x03; an opcode or slot code without a cell with 0x01 and the code; a value that a field does not define with 0x02, once the opcode may be issued by its context;
and so a load or store with a latch for its address. -/
def Obligations.BadWordsTrap : Prop :=
  ∀ (s : State) (i : Issue), Issuing s i → CanTrap s i →
    let traps (d : Decoded) (cause detail : Nat) : Prop :=
      Enters s (s.badWord i d) i i.exec (tcause cause detail i.off) i.pc ∧ (s.badWord i d).vfs = s.vfs ∧ ((s.badWord i d).ctx i.ctx).issued = (s.ctx i.ctx).issued
    (∀ w0 w1 : DWord, w0.extractLsb' 62 2 = 3 → decode w0 w1 = .notInstr) ∧ traps .notInstr 0x03 0 ∧
    (∀ w0, s.word? i.ctx i.pc = some w0 →
      (w0.extractLsb' 62 2 ≠ 1 → traps .unassigned 0x01 (w0.extractLsb' 33 8).toNat) ∧
      (w0.extractLsb' 62 2 = 1 → PairOp.ofCode (w0.extractLsb' 38 6) = none → traps .unassigned 0x01 (256 + (w0.extractLsb' 38 6).toNat)) ∧
      (w0.extractLsb' 62 2 = 1 → PairOp.ofCode (w0.extractLsb' 38 6) ≠ none → traps .unassigned 0x01 (256 + (w0.extractLsb' 16 6).toNat))) ∧
    (∀ opc : BitVec 8, opc.toNat < 0xF8 → check2 i opc.toNat = none → traps (.badField opc) 0x02 0) ∧
    ∀ r ∈ loads ++ stores, ∀ n,
      (∀ x : PolMem, x.addr = .l n → ∃ t, exec (r.1 x) s = .next t ∧ Enters s t i i.exec (tcause 0x02 0 i.off) i.pc) ∧
      ∀ x : PolMemX, x.addr = .l n → ∃ t, exec (r.2.1 x) s = .next t ∧ Enters s t i i.exec (tcause 0x02 0 i.off) i.pc

/-- R368, R369, R375: right after module reset the boot ROM waits for an image with MBSTAT 0x10; no grid, workgroup, context or copy of a word exists,
TOKCAP is 0x20000, the error counters are zero, and memory is in its canonical form. -/
def Obligations.ResetState : Prop :=
  State.reset.powered = true ∧ State.reset.running = false ∧ State.reset.pf.mbstat = 0x10 ∧ State.reset.pf.tokcap = 0x20000 ∧
    State.reset.grids = [] ∧ State.reset.wgs = [] ∧ State.reset.ctxs = [] ∧ State.reset.l1 = [] ∧ State.reset.dir = [] ∧ State.reset.llc = [] ∧
    State.reset.pf.errcorr = List.replicate 8 0 ∧ State.reset.pf.errunc = List.replicate 8 0 ∧ Memory.wf State.reset.mem = true

/-- The canonical form of memory (DESIGN CHOICE, log 1): addresses strictly rising, and no listed byte equal to what an unlisted one reads as. No step leaves it. -/
def Obligations.MemoryStaysCanonical : Prop :=
  ∀ s t : State, Memory.wf s.mem = true → step s = .next t → Memory.wf t.mem = true

/-! ## Rules stated whole -/

/-- R172, whole: SEL Vd, Pn, Va, Vb: MOD bits 2:0 hold n and bit 3 is .64; it writes a where predicate Pn of the lane is 1, and b otherwise; P7 always
selects a. -/
def Obligations.SelectByPredicate : Prop :=
  ∀ x : SelF,
    (∃ w, (Instr.sel x).words = [w] ∧ w.extractLsb' 0 3 = x.p ∧ w.getLsbD 3 = x.w64) ∧
    ∀ (s : State) (i : Issue), Issuing s i →
      Passes s i x.h .both { srcs := [(x.a, if x.w64 then 2 else 1), (x.b, if x.w64 then 2 else 1)], psrc := [x.p.toNat], dsts := [(x.d, if x.w64 then 2 else 1)], wbs := x.h.wbs } →
        Computes (exec (.sel x) s) s i x.h x.d x.w64 4 fun l => readReg s i l x.w64 (if x.p = 7 ∨ hasLane (nth 0 (s.ctx i.ctx).p x.p.toNat) l = true then x.a else x.b)

/-- R98, whole: PUMPST reads with ACT in bit 63, ACN in bits 61:60, MT in bits 59:48, NT in bits 47:36, KB in bits 15:0, and zero elsewhere; WRSR to it takes
the trap 0x02, whatever the guards. -/
def Obligations.PumpStatus : Prop :=
  ∀ (s : State) (i : Issue), Issuing s i →
    (∀ x : RdsrF, x.sr = .pumpst → Passes s i x.h .both { dsts := [(x.d, 2)], wbs := x.h.wbs, ok := x.d ≠ .sp .zero } →
      ∃ v : DWord, Computes (exec (.rdsr x) s) s i x.h x.d true 6 (fun _ => v) ∧
        let g := (s.wgOf i.ctx).pump
        v.getLsbD 63 = g.act ∧ v.getLsbD 62 = false ∧ (v.extractLsb' 60 2).toNat = g.acn % 4 ∧ (v.extractLsb' 48 12).toNat = g.mt % 4096 ∧
          (v.extractLsb' 36 12).toNat = g.nt % 4096 ∧ v.extractLsb' 16 20 = 0 ∧ (v.extractLsb' 0 16).toNat = g.kb % 65536) ∧
    (CanTrap s i → ∀ x : WrsrF, x.sr = .pumpst → ∃ t, exec (.wrsr x) s = .next t ∧ Enters s t i i.exec (tcause 0x02 0 i.off) i.pc)

namespace Sys2Proof.Rules
/-- The workgroups that a core holds, with the number of their groups that are there. -/
def onCore (s : State) (core : Nat) : List (Nat × Wg) := List.filter (fun e => e.2.core = core && !e.2.evicted) s.wgs
def groupsThere (s : State) (e : Nat × Wg) : Nat := e.2.ngroups - (List.filter (fun c => c.1 / 32 = e.1 && c.1 % 32 ≠ 16 && c.2.evicted) s.ctxs).length
end Sys2Proof.Rules

/-- R27, whole: a core has room for a workgroup exactly when, after placement, at most 4 workgroups and 16 groups are resident, the registers per lane of
the resident groups sum to at most 2,048, and the reserved ways fit: ways that are lent count as free. -/
def Obligations.CoreRoom : Prop :=
  ∀ (s : State) (core groups regs ways : Nat),
    s.room core groups regs ways = true ↔
      (onCore s core).length + 1 ≤ 4 ∧ ((onCore s core).map (groupsThere s)).sum + groups ≤ 16 ∧
      ((onCore s core).map fun e => groupsThere s e * e.2.regs).sum + groups * regs ≤ 2048 ∧
      ways ≤ ((List.range 8).filter fun w => (s.core core).way w = .lent).length
end

