-- ==== Sys2Proof/Laws/Integer.lean ====
section
/-! SUPPORT. The integer values of R168 and R169, which the model computes on naturals, as operations on bit vectors of the operand width. -/
namespace Sys2Proof.Machine

theorem sgn_toNat {w : Nat} (hw : 0 < w) (a : BitVec w) : sgn w a.toNat = a.toInt := by
  have h2 : 2 ^ w = 2 * 2 ^ (w - 1) := by rw [← Nat.pow_succ']; congr 1; omega
  have hc : ((2 ^ w : Nat) : Int) = (2 : Int) ^ w := by norm_cast
  rw [BitVec.toInt_eq_toNat_cond]
  unfold sgn
  by_cases h : a.toNat < 2 ^ (w - 1)
  · rw [if_pos h, if_pos (by omega)]
  · rw [if_neg h, if_neg (by omega), hc]
theorem unsgn_eq {w : Nat} (x : Int) : unsgn w x = (BitVec.ofInt w x).toNat := by
  rw [BitVec.toNat_ofInt]; simp [unsgn]
theorem unsgn_toInt {w : Nat} (a : BitVec w) : unsgn w a.toInt = a.toNat := by rw [unsgn_eq, BitVec.ofInt_toInt]

section
variable {w : Nat} (hw : 0 < w) (a b : BitVec w)
include hw

theorem addSub_wrap (m : IntMod) (hs : m.sat = false) : addSub m false w a.toNat b.toNat = (a + b).toNat := by
  unfold addSub
  rw [sgn_toNat hw, sgn_toNat hw]
  simp only [hs, Bool.not_false, if_true, Bool.false_eq_true, if_false]
  cases m.us
  · simp only [Bool.false_eq_true, if_false]; rw [unsgn_eq, BitVec.ofInt_add, BitVec.ofInt_toInt, BitVec.ofInt_toInt]
  · simp only [if_true]; rw [unsgn_eq, BitVec.ofInt_add, BitVec.ofInt_natCast, BitVec.ofInt_natCast]; simp
theorem subSub_wrap (m : IntMod) (hs : m.sat = false) : addSub m true w a.toNat b.toNat = (a - b).toNat := by
  unfold addSub
  rw [sgn_toNat hw, sgn_toNat hw]
  simp only [hs, Bool.not_false, if_true]
  have key : ∀ x y : Int, BitVec.ofInt w (x - y) = BitVec.ofInt w x - BitVec.ofInt w y := by
    intro x y; rw [Int.sub_eq_add_neg, BitVec.ofInt_add, BitVec.ofInt_neg, BitVec.sub_eq_add_neg]
  cases m.us
  · simp only [Bool.false_eq_true, if_false]; rw [unsgn_eq, key, BitVec.ofInt_toInt, BitVec.ofInt_toInt]
  · simp only [if_true]; rw [unsgn_eq, key, BitVec.ofInt_natCast, BitVec.ofInt_natCast]; simp
/-- .SAT clamps the exact sum or difference, signed or unsigned. -/
theorem addSub_sat (m : IntMod) (hs : m.sat = true) (sub : Bool) : addSub m sub w a.toNat b.toNat =
    (BitVec.ofInt w (if m.us then clamp 0 (2 ^ w - 1) (if sub then (a.toNat : Int) - b.toNat else a.toNat + b.toNat)
      else clamp (-(2 ^ (w - 1))) (2 ^ (w - 1) - 1) (if sub then a.toInt - b.toInt else a.toInt + b.toInt))).toNat := by
  unfold addSub
  rw [sgn_toNat hw, sgn_toNat hw]
  simp only [hs, Bool.not_true, Bool.false_eq_true, if_false]
  cases m.us <;> simp only [Bool.false_eq_true, if_false, if_true, unsgn_eq]
omit hw in
theorem mul_wrap : a.toNat * b.toNat % 2 ^ w = (a * b).toNat := (BitVec.toNat_mul a b).symm
omit hw in
theorem mad_wrap (d : BitVec w) : (a.toNat * b.toNat + d.toNat) % 2 ^ w = (a * b + d).toNat := by
  rw [BitVec.toNat_add, BitVec.toNat_mul, Nat.mod_add_mod]
theorem mulHigh_eq (us : Bool) : mulHigh us w a.toNat b.toNat = (if us then BitVec.ofNat w (a.toNat * b.toNat / 2 ^ w) else BitVec.ofInt w (a.toInt * b.toInt / 2 ^ w)).toNat := by
  unfold mulHigh
  rw [sgn_toNat hw, sgn_toNat hw]
  cases us
  · simp only [Bool.false_eq_true, if_false, unsgn_eq]
  · have : a.toNat * b.toNat / 2 ^ w < 2 ^ w := Nat.div_lt_of_lt_mul (Nat.mul_lt_mul'' a.isLt b.isLt)
    simp only [if_true, BitVec.toNat_ofNat, Nat.mod_eq_of_lt this]
theorem lesser_eq (us : Bool) : lesser us w a.toNat b.toNat = (if (if us then b.ult a else b.slt a) then b else a).toNat := by
  unfold lesser
  rw [sgn_toNat hw, sgn_toNat hw]
  cases us
  · by_cases h : b.toInt < a.toInt <;> simp [BitVec.slt, h]
  · by_cases h : b.toNat < a.toNat
    · simp [BitVec.ult, h]; omega
    · simp [BitVec.ult, h]; omega
theorem greater_eq (us : Bool) : greater us w a.toNat b.toNat = (if (if us then a.ult b else a.slt b) then b else a).toNat := by
  unfold greater
  rw [sgn_toNat hw, sgn_toNat hw]
  cases us
  · by_cases h : a.toInt < b.toInt <;> simp [BitVec.slt, h]
  · by_cases h : a.toNat < b.toNat
    · simp [BitVec.ult, h]; omega
    · simp [BitVec.ult, h]; omega
omit hw in
theorem andNot_eq : andNot w a.toNat b.toNat = (a &&& ~~~b).toNat := by simp [andNot, BitVec.toNat_and, BitVec.toNat_not]
omit hw in
theorem shiftLeft_eq (n : Nat) : shiftLeft w a.toNat n = (a <<< (n % w)).toNat := by
  simp [shiftLeft, BitVec.toNat_shiftLeft, Nat.shiftLeft_eq]
omit hw in
theorem shiftRight_eq (n : Nat) : shiftRight w a.toNat n = (a >>> (n % w)).toNat := by
  simp [shiftRight, BitVec.toNat_ushiftRight, Nat.shiftRight_eq_div_pow]
theorem shiftArith_eq (n : Nat) : shiftArith w a.toNat n = (a.sshiftRight (n % w)).toNat := by
  unfold shiftArith
  rw [sgn_toNat hw, unsgn_eq]
  have h := @BitVec.toInt_sshiftRight w a (n % w)
  rw [Int.shiftRight_eq_div_pow] at h
  push_cast at h
  rw [← h, BitVec.ofInt_toInt]
/-- IABS: the most negative value stays, or saturates. -/
theorem absVal_eq (sat : Bool) : absVal sat w a.toNat = (if sat && a == BitVec.intMin w then BitVec.intMax w else a.abs).toNat := by
  have h2 : 2 ^ w = 2 * 2 ^ (w - 1) := by rw [← Nat.pow_succ']; congr 1; omega
  have hp : 0 < 2 ^ (w - 1) := Nat.two_pow_pos _
  have hlt := a.isLt
  have hmin : (BitVec.intMin w).toNat = 2 ^ (w - 1) := by rw [BitVec.toNat_intMin_of_pos hw]
  have hmax : (BitVec.intMax w).toNat = 2 ^ (w - 1) - 1 := BitVec.toNat_intMax
  have heq : (a == BitVec.intMin w) = decide (a.toNat = 2 ^ (w - 1)) := by
    rw [Bool.eq_iff_iff, beq_iff_eq, decide_eq_true_iff, ← BitVec.toNat_inj, hmin]
  have hmsb : a.msb = decide (2 ^ (w - 1) ≤ a.toNat) := BitVec.msb_eq_decide a
  unfold absVal
  rw [heq]
  by_cases h : a.toNat < 2 ^ (w - 1)
  · rw [if_pos h, decide_eq_false (by omega), Bool.and_false, if_neg (by simp), BitVec.abs_eq, hmsb, decide_eq_false (by omega)]; rfl
  · rw [if_neg h]
    by_cases h' : a.toNat = 2 ^ (w - 1)
    · rw [if_pos h', decide_eq_true h', Bool.and_true]
      cases sat
      · simp only [Bool.false_eq_true, if_false, BitVec.abs_eq, hmsb]
        rw [decide_eq_true (by omega), if_pos rfl, BitVec.toNat_neg, h', h2]
        have : 2 * 2 ^ (w - 1) - 2 ^ (w - 1) = 2 ^ (w - 1) := by omega
        rw [this, Nat.mod_eq_of_lt (by omega)]
      · simp only [if_true, hmax]
    · rw [if_neg h', decide_eq_false h', Bool.and_false, if_neg (by simp), BitVec.abs_eq, hmsb, decide_eq_true (by omega), if_pos rfl, BitVec.toNat_neg, Nat.mod_eq_of_lt (by omega)]
end

theorem popCount_eq {w : Nat} (a : BitVec w) : popCount w a.toNat = (List.range w).countP a.getLsbD := by
  unfold popCount
  rw [List.countP_eq_length_filter]
  rfl
theorem leadingZeros_eq {w : Nat} (hw : 0 < w) (a : BitVec w) : leadingZeros w a.toNat = a.clz.toNat := by
  unfold leadingZeros
  by_cases h : a = 0#w
  · subst h
    have := (BitVec.clz_eq_iff_eq_zero (x := 0#w)).mpr rfl
    rw [this]
    have : w < 2 ^ w := Nat.lt_two_pow_self
    simp [Nat.mod_eq_of_lt this]
  · have hn : a.toNat ≠ 0 := fun e => h (BitVec.eq_of_toNat_eq (by simpa using e))
    rw [if_neg hn]
    have h1 := BitVec.two_pow_sub_clz_le_toNat_of_ne_zero hw h
    have h2 := BitVec.toNat_lt_two_pow_sub_clz (x := a)
    have h3 : w - 1 - a.clz.toNat ≤ a.toNat.log2 := (Nat.le_log2 hn).mpr h1
    have h4 := (Nat.log2_lt hn).mpr h2
    omega
theorem bitReverse_eq {w : Nat} (a : BitVec w) : bitReverse w a.toNat = a.reverse.toNat := by
  have key : ∀ n, n ≤ w → (∀ j, ((List.range n).foldl (fun m i => if a.toNat.testBit (w - 1 - i) then m + 2 ^ i else m) 0).testBit j = (decide (j < n) && a.toNat.testBit (w - 1 - j))) ∧
      (List.range n).foldl (fun m i => if a.toNat.testBit (w - 1 - i) then m + 2 ^ i else m) 0 < 2 ^ n := by
    intro n
    induction n with
    | zero => intro _; simp
    | succ n ih =>
      intro hn
      obtain ⟨hb, hlt⟩ := ih (by omega)
      rw [List.range_succ, List.foldl_append]
      generalize (List.range n).foldl (fun m i => if a.toNat.testBit (w - 1 - i) then m + 2 ^ i else m) 0 = x at hb hlt
      simp only [List.foldl_cons, List.foldl_nil]
      by_cases ht : a.toNat.testBit (w - 1 - n) = true
      · rw [if_pos ht]
        refine ⟨fun j => ?_, by rw [Nat.pow_succ]; omega⟩
        have := Nat.testBit_two_pow_mul_add 1 hlt j
        rw [Nat.mul_one, Nat.add_comm] at this
        rw [this, hb]
        by_cases hj : j < n
        · simp [hj, Nat.lt_succ_of_lt hj]
        · rw [if_neg hj]
          by_cases hj' : j = n
          · subst hj'; simp [ht]
          · have h1 : j - n ≠ 0 := by omega
            have h2 : ¬ j < n + 1 := by omega
            have : Nat.testBit 1 (j - n) = false := by rw [show (1 : Nat) = 2 ^ 0 from rfl, Nat.testBit_two_pow]; simp; omega
            simp [h2, this]
      · rw [if_neg ht]
        refine ⟨fun j => ?_, by rw [Nat.pow_succ]; omega⟩
        rw [hb]
        by_cases hj' : j = n
        · subst hj'; simp [ht]
        · have : (j < n + 1) = (j < n) := by apply propext; omega
          simp [this]
  unfold bitReverse
  apply Nat.eq_of_testBit_eq
  intro j
  rw [(key w (Nat.le_refl w)).1 j, BitVec.testBit_toNat, BitVec.testBit_toNat, BitVec.getLsbD_reverse, BitVec.getMsbD]

/-- BFX: the field of source A, zero- or sign-extended; a length of 0 gives 0. -/
theorem bitExtract_eq (sx : Bool) (a : Word) (b : Nat) :
    bitExtract sx a.toNat b = (if sx then (a.extractLsb' (fieldStart b) (fieldLen b)).signExtend 32 else (a.extractLsb' (fieldStart b) (fieldLen b)).setWidth 32).toNat := by
  unfold bitExtract
  have he : (a.extractLsb' (fieldStart b) (fieldLen b)).toNat = a.toNat / 2 ^ fieldStart b % 2 ^ fieldLen b := by
    rw [BitVec.extractLsb'_toNat, Nat.shiftRight_eq_div_pow]
  dsimp only
  rw [← he]
  generalize a.extractLsb' (fieldStart b) (fieldLen b) = x
  have hl : fieldLen b ≤ 32 := Nat.min_le_right _ _
  by_cases h0 : fieldLen b = 0
  · rw [if_pos h0]
    have : x.toNat = 0 := by
      have := x.isLt
      have h1 : 2 ^ fieldLen b = 1 := by simp [h0]
      omega
    have hx : x = 0#_ := BitVec.eq_of_toNat_eq (by simpa using this)
    subst hx
    cases sx <;> simp [BitVec.signExtend]
  · rw [if_neg h0]
    cases sx
    · simp only [Bool.false_eq_true, if_false, BitVec.toNat_setWidth]
      have := x.isLt
      rw [Nat.mod_eq_of_lt (Nat.lt_of_lt_of_le this (Nat.pow_le_pow_right (by omega) hl))]
    · simp only [if_true]
      rw [sgn_toNat (by omega), unsgn_eq, BitVec.signExtend]
/-- BFI: the low bits of source A in the field, the rest of the destination. -/
theorem bitInsert_eq (a d : Word) (b : Nat) :
    let m : Word := (BitVec.allOnes (min (fieldLen b) (32 - fieldStart b))).setWidth 32 <<< fieldStart b
    bitInsert a.toNat b d.toNat = ((a <<< fieldStart b) &&& m ||| d &&& ~~~m).toNat := by
  intro m
  unfold bitInsert
  dsimp only
  have hst : fieldStart b < 32 := Nat.mod_lt _ (by omega)
  have hm : ∀ j, m.getLsbD j = (decide (fieldStart b ≤ j) && decide (j < fieldStart b + min (fieldLen b) (32 - fieldStart b))) := by
    intro j
    rw [Bool.eq_iff_iff]
    simp only [m, BitVec.getLsbD_shiftLeft, BitVec.getLsbD_setWidth, BitVec.getLsbD_allOnes, Bool.and_eq_true, decide_eq_true_eq,
      Bool.not_eq_true', decide_eq_false_iff_not]
    omega
  clear_value m
  generalize fieldStart b = st at *
  generalize hlen : min (fieldLen b) (32 - st) = len at *
  have hle : st + len ≤ 32 := by omega
  have h1 : d.toNat % 2 ^ st < 2 ^ st := Nat.mod_lt _ (Nat.two_pow_pos _)
  have h2 : a.toNat % 2 ^ len < 2 ^ len := Nat.mod_lt _ (Nat.two_pow_pos _)
  have hsum : d.toNat % 2 ^ st + a.toNat % 2 ^ len * 2 ^ st + d.toNat / 2 ^ (st + len) * 2 ^ (st + len) =
      2 ^ st * (2 ^ len * (d.toNat / 2 ^ (st + len)) + a.toNat % 2 ^ len) + d.toNat % 2 ^ st := by
    rw [Nat.pow_add, Nat.mul_add]; ac_rfl
  rw [hsum]
  apply Nat.eq_of_testBit_eq
  intro j
  rw [Nat.testBit_two_pow_mul_add _ h1]
  rw [BitVec.testBit_toNat, BitVec.getLsbD_or, BitVec.getLsbD_and, BitVec.getLsbD_and, BitVec.getLsbD_not, hm, BitVec.getLsbD_shiftLeft]
  by_cases hj : j < st
  · rw [if_pos hj, Nat.testBit_mod_two_pow, BitVec.testBit_toNat]
    have : j < 32 := by omega
    have : ¬ st ≤ j := by omega
    simp [*]
  · rw [if_neg hj, Nat.testBit_two_pow_mul_add _ h2]
    have hst' : st ≤ j := by omega
    by_cases hj2 : j < st + len
    · have : j - st < len := by omega
      have : j < 32 := by omega
      simp [*, Nat.testBit_mod_two_pow, BitVec.testBit_toNat]
    · have h5 : ¬ j - st < len := by omega
      rw [if_neg h5, Nat.testBit_div_two_pow, BitVec.testBit_toNat]
      have : j - st - len + (st + len) = j := by omega
      rw [this]
      by_cases h32 : j < 32
      · simp [*]
      · have := BitVec.getLsbD_of_ge d j (by omega)
        simp [*]

end Sys2Proof.Machine
end

