-- ==== Sys2Proof/Laws/Tab.lean ====
section
/-! SUPPORT. Laws of sparse tables and of the byte memory: a read after a write, and the canonical form that every operation keeps. -/
namespace Sys2Proof.Machine

variable {α : Type}

/-! ## Reading a table after a change -/

@[simp] theorem Tab.get_put_same (d : α) (m : Tab α) (k : Nat) (v : α) : Tab.get d (Tab.put m k v) k = v := by
  induction m with
  | nil => simp [Tab.put, Tab.get]
  | cons h t ih =>
    obtain ⟨a, x⟩ := h
    unfold Tab.put
    split
    · simp [Tab.get]
    · split
      · simp [Tab.get]
      · next h1 h2 => simp [Tab.get, h1, h2, ih]

theorem Tab.get_put_ne (d : α) (m : Tab α) {k j : Nat} (v : α) (h : j ≠ k) : Tab.get d (Tab.put m k v) j = Tab.get d m j := by
  induction m with
  | nil => simp [Tab.put, Tab.get, Ne.symm h]
  | cons hd t ih =>
    obtain ⟨a, x⟩ := hd
    unfold Tab.put
    split
    · next e => subst e; simp [Tab.get, Ne.symm h]
    · split
      · next h1 h2 =>
        by_cases hk : j < k
        · have : a ≠ j := by omega
          have h3 : j < a := by omega
          simp [Tab.get, Ne.symm h, hk, this, h3]
        · simp [Tab.get, Ne.symm h, hk]
      · simp only [Tab.get, ih]

@[simp] theorem Tab.find?_put_same (m : Tab α) (k : Nat) (v : α) : Tab.find? (Tab.put m k v) k = some v := by
  induction m with
  | nil => simp [Tab.put, Tab.find?]
  | cons h t ih =>
    obtain ⟨a, x⟩ := h
    unfold Tab.put
    split
    · simp [Tab.find?]
    · split
      · simp [Tab.find?]
      · next h1 h2 => simp [Tab.find?, h1, h2, ih]

theorem Tab.find?_put_ne (m : Tab α) {k j : Nat} (v : α) (h : j ≠ k) : Tab.find? (Tab.put m k v) j = Tab.find? m j := by
  induction m with
  | nil => simp [Tab.put, Tab.find?, Ne.symm h]
  | cons hd t ih =>
    obtain ⟨a, x⟩ := hd
    unfold Tab.put
    split
    · next e => subst e; simp [Tab.find?, Ne.symm h]
    · split
      · next h1 h2 =>
        by_cases hk : j < k
        · have : a ≠ j := by omega
          have h3 : j < a := by omega
          simp [Tab.find?, Ne.symm h, hk, this, h3]
        · simp [Tab.find?, Ne.symm h, hk]
      · simp only [Tab.find?, ih]

/-- A value that a table lists is the one that it reads. -/
theorem Tab.get_eq_find? (d : α) (m : Tab α) (k : Nat) : Tab.get d m k = (Tab.find? m k).getD d := by
  induction m with
  | nil => rfl
  | cons h t ih =>
    obtain ⟨a, x⟩ := h
    unfold Tab.get Tab.find?
    split
    · rfl
    · split
      · rfl
      · exact ih

theorem Tab.get_modify_same (d : α) (m : Tab α) (k : Nat) (f : α → α) (h : (Tab.find? m k).isSome) : Tab.get d (Tab.modify m k f) k = f (Tab.get d m k) := by
  obtain ⟨x, hx⟩ := Option.isSome_iff_exists.mp h
  simp [Tab.modify, hx, Tab.get_eq_find? d m]
theorem Tab.get_modify_ne (d : α) (m : Tab α) {k j : Nat} (f : α → α) (h : j ≠ k) : Tab.get d (Tab.modify m k f) j = Tab.get d m j := by
  unfold Tab.modify
  split
  · exact Tab.get_put_ne d m _ h
  · rfl
@[simp] theorem Tab.find?_modify_isSome (m : Tab α) (k j : Nat) (f : α → α) : (Tab.find? (Tab.modify m k f) j).isSome = (Tab.find? m j).isSome := by
  unfold Tab.modify
  split
  · next x hx =>
    by_cases h : j = k
    · subst h; simp [hx]
    · rw [Tab.find?_put_ne m _ h]
  · rfl

/-! ## The canonical form -/

section wf
variable [DecidableEq α]

theorem Tab.wfFrom_weaken (d : α) {lo hi : Nat} (m : Tab α) (h : Tab.wfFrom d (some hi) m = true) (hl : lo ≤ hi) : Tab.wfFrom d (some lo) m = true := by
  cases m with
  | nil => rfl
  | cons x t =>
    obtain ⟨a, v⟩ := x
    simp only [Tab.wfFrom, Bool.and_eq_true, decide_eq_true_eq] at h ⊢
    exact ⟨⟨by omega, h.1.2⟩, h.2⟩
theorem Tab.wf_of_wfFrom (d : α) {lo : Option Nat} (m : Tab α) (h : Tab.wfFrom d lo m = true) : Tab.wf d m = true := by
  cases m with
  | nil => rfl
  | cons x t =>
    obtain ⟨a, v⟩ := x
    simp only [Tab.wf, Tab.wfFrom, Bool.and_eq_true] at h ⊢
    exact ⟨⟨trivial, h.1.2⟩, h.2⟩
theorem Tab.wfFrom_put (d : α) (lo : Option Nat) (m : Tab α) (k : Nat) (v : α) (h : Tab.wfFrom d lo m = true) (hk : ∀ l, lo = some l → l < k) (hv : v ≠ d) :
    Tab.wfFrom d lo (Tab.put m k v) = true := by
  induction m generalizing lo with
  | nil =>
    cases lo with
    | none => simp [Tab.put, Tab.wfFrom, hv]
    | some l => simp [Tab.put, Tab.wfFrom, hv, hk l rfl]
  | cons x t ih =>
    obtain ⟨a, y⟩ := x
    unfold Tab.put
    simp only [Tab.wfFrom, Bool.and_eq_true] at h
    split
    · next e =>
      subst e
      simp only [Tab.wfFrom, Bool.and_eq_true]
      exact ⟨⟨h.1.1, by simp [hv]⟩, h.2⟩
    · split
      · next h1 h2 =>
        simp only [Tab.wfFrom, Bool.and_eq_true]
        refine ⟨⟨?_, by simp [hv]⟩, ⟨by simpa using h2, h.1.2⟩, h.2⟩
        cases lo with
        | none => rfl
        | some l => simp [hk l rfl]
      · next h1 h2 =>
        simp only [Tab.wfFrom, Bool.and_eq_true]
        exact ⟨h.1, ih (some a) h.2 (by intro l hl; cases hl; omega)⟩
theorem Tab.wfFrom_erase (d : α) (lo : Option Nat) (m : Tab α) (k : Nat) (h : Tab.wfFrom d lo m = true) : Tab.wfFrom d lo (Tab.erase m k) = true := by
  induction m generalizing lo with
  | nil => rfl
  | cons x t ih =>
    obtain ⟨a, y⟩ := x
    unfold Tab.erase
    simp only [Tab.wfFrom, Bool.and_eq_true] at h
    split
    · cases lo with
      | none => exact Tab.wf_of_wfFrom d t h.2
      | some l => exact Tab.wfFrom_weaken d t h.2 (by simpa using Nat.le_of_lt (of_decide_eq_true h.1.1))
    · split
      · simp only [Tab.wfFrom, Bool.and_eq_true]; exact h
      · simp only [Tab.wfFrom, Bool.and_eq_true]; exact ⟨h.1, ih (some a) h.2⟩
/-- A write keeps the canonical form. -/
theorem Tab.wf_set (d : α) (m : Tab α) (k : Nat) (v : α) (h : Tab.wf d m = true) : Tab.wf d (Tab.set d m k v) = true := by
  unfold Tab.set
  split
  · exact Tab.wfFrom_erase d none m k h
  · next hv => exact Tab.wfFrom_put d none m k v h (by simp) hv

theorem Tab.get_below (d : α) {lo : Nat} (m : Tab α) (h : Tab.wfFrom d (some lo) m = true) {k : Nat} (hk : k ≤ lo) : Tab.get d m k = d := by
  cases m with
  | nil => rfl
  | cons x t =>
    obtain ⟨a, y⟩ := x
    simp only [Tab.wfFrom, Bool.and_eq_true, decide_eq_true_eq] at h
    have h1 : a ≠ k := by omega
    have h2 : k < a := by omega
    simp [Tab.get, h1, h2]
theorem Tab.get_erase_same (d : α) (lo : Option Nat) (m : Tab α) (k : Nat) (h : Tab.wfFrom d lo m = true) : Tab.get d (Tab.erase m k) k = d := by
  induction m generalizing lo with
  | nil => rfl
  | cons x t ih =>
    obtain ⟨a, y⟩ := x
    unfold Tab.erase
    simp only [Tab.wfFrom, Bool.and_eq_true] at h
    split
    · next e => subst e; exact Tab.get_below d t h.2 (Nat.le_refl _)
    · split
      · next h1 h2 => simp [Tab.get, h1, h2]
      · next h1 h2 => simp only [Tab.get, h1, h2, if_false]; exact ih (some a) h.2
theorem Tab.get_erase_ne (d : α) (lo : Option Nat) (m : Tab α) {k j : Nat} (h : Tab.wfFrom d lo m = true) (hj : j ≠ k) : Tab.get d (Tab.erase m k) j = Tab.get d m j := by
  induction m generalizing lo with
  | nil => rfl
  | cons x t ih =>
    obtain ⟨a, y⟩ := x
    unfold Tab.erase
    simp only [Tab.wfFrom, Bool.and_eq_true] at h
    split
    · next e =>
      subst e
      by_cases hlt : j < a
      · rw [Tab.get_below d t h.2 (Nat.le_of_lt hlt)]; simp [Tab.get, Ne.symm hj, hlt]
      · simp [Tab.get, Ne.symm hj, hlt]
    · split
      · rfl
      · next h1 h2 => simp only [Tab.get]; rw [ih (some a) h.2]
/-- What was written is read. -/
theorem Tab.get_set_same (d : α) (m : Tab α) (k : Nat) (v : α) (h : Tab.wf d m = true) : Tab.get d (Tab.set d m k v) k = v := by
  unfold Tab.set
  split
  · next e => rw [e]; exact Tab.get_erase_same d none m k h
  · exact Tab.get_put_same d m k v
/-- Everything else reads as before. -/
theorem Tab.get_set_ne (d : α) (m : Tab α) {k j : Nat} (v : α) (h : Tab.wf d m = true) (hj : j ≠ k) : Tab.get d (Tab.set d m k v) j = Tab.get d m j := by
  unfold Tab.set
  split
  · exact Tab.get_erase_ne d none m h hj
  · exact Tab.get_put_ne d m v hj
theorem Tab.wfFrom_filter (d : α) (lo : Option Nat) (m : Tab α) (p : Nat → α → Bool) (h : Tab.wfFrom d lo m = true) : Tab.wfFrom d lo (Tab.filter m p) = true := by
  induction m generalizing lo with
  | nil => rfl
  | cons x t ih =>
    obtain ⟨a, y⟩ := x
    simp only [Tab.wfFrom, Bool.and_eq_true] at h
    have e : Tab.filter ((a, y) :: t) p = if p a y then (a, y) :: Tab.filter t p else Tab.filter t p := by
      unfold Tab.filter; rw [List.filter_cons]
    rw [e]
    split
    · simp only [Tab.wfFrom, Bool.and_eq_true]; exact ⟨h.1, ih (some a) h.2⟩
    · cases lo with
      | none => exact Tab.wf_of_wfFrom d _ (ih (some a) h.2)
      | some l => exact Tab.wfFrom_weaken d _ (ih (some a) h.2) (by simpa using Nat.le_of_lt (of_decide_eq_true h.1.1))
theorem Tab.wf_filter (d : α) (m : Tab α) (p : Nat → α → Bool) (h : Tab.wf d m = true) : Tab.wf d (Tab.filter m p) = true := Tab.wfFrom_filter d none m p h

end wf

/-! ## The memory -/

theorem Memory.read_write_same (m : Memory) (a : Nat) (b : Byte) (h : m.wf = true) : (m.write a b).read a = b := Tab.get_set_same _ m a b h
theorem Memory.read_write_ne (m : Memory) {a c : Nat} (b : Byte) (h : m.wf = true) (hc : c ≠ a) : (m.write a b).read c = m.read c := Tab.get_set_ne _ m b h hc
@[simp] theorem Memory.wf_write (m : Memory) (a : Nat) (b : Byte) (h : m.wf = true) : (m.write a b).wf = true := Tab.wf_set _ m a b h
@[simp] theorem Memory.wf_writeN (m : Memory) (a : Nat) (bs : List Byte) (h : m.wf = true) : (m.writeN a bs).wf = true := by
  induction bs generalizing m a with
  | nil => exact h
  | cons b t ih => exact ih _ _ (Memory.wf_write m a b h)
@[simp] theorem Memory.wf_writeSome (m : Memory) (a : Nat) (bs : List Byte) (ok : Nat → Bool) (h : m.wf = true) : (m.writeSome a bs ok).wf = true := by
  induction bs generalizing m a with
  | nil => exact h
  | cons b t ih =>
    unfold Memory.writeSome
    apply ih
    split
    · exact Memory.wf_write m a b h
    · exact h
@[simp] theorem Memory.wf_setWord (m : Memory) (a : Nat) (w : Word) (h : m.wf = true) : (m.setWord a w).wf = true := Memory.wf_writeN m a _ h
@[simp] theorem Memory.wf_setDWord (m : Memory) (a : Nat) (w : DWord) (h : m.wf = true) : (m.setDWord a w).wf = true := Memory.wf_writeN m a _ h
/-- Bytes outside a run that is written read as before. -/
theorem Memory.read_writeN_outside (m : Memory) (a c : Nat) (bs : List Byte) (h : m.wf = true) (hc : c < a ∨ a + bs.length ≤ c) : (m.writeN a bs).read c = m.read c := by
  induction bs generalizing m a with
  | nil => rfl
  | cons b t ih =>
    unfold Memory.writeN
    simp only [List.length_cons] at hc
    rw [ih _ _ (Memory.wf_write m a b h) (by omega), Memory.read_write_ne m b h (by omega)]
/-- Bytes inside it read as written. -/
theorem Memory.read_writeN_inside (m : Memory) (a j : Nat) (bs : List Byte) (h : m.wf = true) (hj : j < bs.length) : (m.writeN a bs).read (a + j) = bs[j] := by
  induction bs generalizing m a j with
  | nil => simp at hj
  | cons b t ih =>
    unfold Memory.writeN
    cases j with
    | zero => rw [Memory.read_writeN_outside _ _ _ _ (Memory.wf_write m a b h) (by omega), Nat.add_zero, Memory.read_write_same m a b h]; rfl
    | succ j =>
      have := ih (m.write a b) (a + 1) j (Memory.wf_write m a b h) (by simpa using hj)
      rw [show a + (j + 1) = a + 1 + j by omega, this]; rfl

end Sys2Proof.Machine
end

