-- ==== Sys2Proof/Laws/State.lean ====
section
/-! SUPPORT. Laws of the state: for each update, the fields that it leaves alone, and what a context, workgroup, core or function reads as afterwards. -/
namespace Sys2Proof.Machine

/-! ## What an update leaves alone -/

@[simp] theorem State.setCore_frame (s : State) (k : Nat) (c : Core) : (s.setCore k c).clock = s.clock ∧ (s.setCore k c).powered = s.powered ∧ (s.setCore k c).running = s.running ∧ (s.setCore k c).linkUp = s.linkUp ∧ (s.setCore k c).svn = s.svn ∧ (s.setCore k c).rev = s.rev ∧ (s.setCore k c).flash = s.flash ∧ (s.setCore k c).dies = s.dies ∧ (s.setCore k c).wgs = s.wgs ∧ (s.setCore k c).ctxs = s.ctxs ∧ (s.setCore k c).grids = s.grids ∧ (s.setCore k c).coresident = s.coresident ∧ (s.setCore k c).vfs = s.vfs ∧ (s.setCore k c).pf = s.pf ∧ (s.setCore k c).mem = s.mem ∧ (s.setCore k c).cist = s.cist ∧ (s.setCore k c).fe = s.fe ∧ (s.setCore k c).views = s.views ∧ (s.setCore k c).cistBad = s.cistBad ∧ (s.setCore k c).l1 = s.l1 ∧ (s.setCore k c).dir = s.dir ∧ (s.setCore k c).llc = s.llc ∧ (s.setCore k c).reqs = s.reqs ∧ (s.setCore k c).accs = s.accs ∧ (s.setCore k c).jobs = s.jobs ∧ (s.setCore k c).copies = s.copies ∧ (s.setCore k c).colls = s.colls ∧ (s.setCore k c).tokenq = s.tokenq ∧ (s.setCore k c).agenda = s.agenda ∧ (s.setCore k c).picks = s.picks ∧ (s.setCore k c).args = s.args ∧ (s.setCore k c).issue = s.issue ∧ (s.setCore k c).fresh = s.fresh ∧ (s.setCore k c).ids = s.ids ∧ (s.setCore k c).answer = s.answer := ⟨rfl, rfl, rfl, rfl, rfl, rfl, rfl, rfl, rfl, rfl, rfl, rfl, rfl, rfl, rfl, rfl, rfl, rfl, rfl, rfl, rfl, rfl, rfl, rfl, rfl, rfl, rfl, rfl, rfl, rfl, rfl, rfl, rfl, rfl, rfl⟩
@[simp] theorem State.updCore_frame (s : State) (k : Nat) (f : Core → Core) : (s.updCore k f).clock = s.clock ∧ (s.updCore k f).powered = s.powered ∧ (s.updCore k f).running = s.running ∧ (s.updCore k f).linkUp = s.linkUp ∧ (s.updCore k f).svn = s.svn ∧ (s.updCore k f).rev = s.rev ∧ (s.updCore k f).flash = s.flash ∧ (s.updCore k f).dies = s.dies ∧ (s.updCore k f).wgs = s.wgs ∧ (s.updCore k f).ctxs = s.ctxs ∧ (s.updCore k f).grids = s.grids ∧ (s.updCore k f).coresident = s.coresident ∧ (s.updCore k f).vfs = s.vfs ∧ (s.updCore k f).pf = s.pf ∧ (s.updCore k f).mem = s.mem ∧ (s.updCore k f).cist = s.cist ∧ (s.updCore k f).fe = s.fe ∧ (s.updCore k f).views = s.views ∧ (s.updCore k f).cistBad = s.cistBad ∧ (s.updCore k f).l1 = s.l1 ∧ (s.updCore k f).dir = s.dir ∧ (s.updCore k f).llc = s.llc ∧ (s.updCore k f).reqs = s.reqs ∧ (s.updCore k f).accs = s.accs ∧ (s.updCore k f).jobs = s.jobs ∧ (s.updCore k f).copies = s.copies ∧ (s.updCore k f).colls = s.colls ∧ (s.updCore k f).tokenq = s.tokenq ∧ (s.updCore k f).agenda = s.agenda ∧ (s.updCore k f).picks = s.picks ∧ (s.updCore k f).args = s.args ∧ (s.updCore k f).issue = s.issue ∧ (s.updCore k f).fresh = s.fresh ∧ (s.updCore k f).ids = s.ids ∧ (s.updCore k f).answer = s.answer := ⟨rfl, rfl, rfl, rfl, rfl, rfl, rfl, rfl, rfl, rfl, rfl, rfl, rfl, rfl, rfl, rfl, rfl, rfl, rfl, rfl, rfl, rfl, rfl, rfl, rfl, rfl, rfl, rfl, rfl, rfl, rfl, rfl, rfl, rfl, rfl⟩
@[simp] theorem State.updDie_frame (s : State) (k : Nat) (f : Die → Die) : (s.updDie k f).clock = s.clock ∧ (s.updDie k f).powered = s.powered ∧ (s.updDie k f).running = s.running ∧ (s.updDie k f).linkUp = s.linkUp ∧ (s.updDie k f).svn = s.svn ∧ (s.updDie k f).rev = s.rev ∧ (s.updDie k f).flash = s.flash ∧ (s.updDie k f).cores = s.cores ∧ (s.updDie k f).wgs = s.wgs ∧ (s.updDie k f).ctxs = s.ctxs ∧ (s.updDie k f).grids = s.grids ∧ (s.updDie k f).coresident = s.coresident ∧ (s.updDie k f).vfs = s.vfs ∧ (s.updDie k f).pf = s.pf ∧ (s.updDie k f).mem = s.mem ∧ (s.updDie k f).cist = s.cist ∧ (s.updDie k f).fe = s.fe ∧ (s.updDie k f).views = s.views ∧ (s.updDie k f).cistBad = s.cistBad ∧ (s.updDie k f).l1 = s.l1 ∧ (s.updDie k f).dir = s.dir ∧ (s.updDie k f).llc = s.llc ∧ (s.updDie k f).reqs = s.reqs ∧ (s.updDie k f).accs = s.accs ∧ (s.updDie k f).jobs = s.jobs ∧ (s.updDie k f).copies = s.copies ∧ (s.updDie k f).colls = s.colls ∧ (s.updDie k f).tokenq = s.tokenq ∧ (s.updDie k f).agenda = s.agenda ∧ (s.updDie k f).picks = s.picks ∧ (s.updDie k f).args = s.args ∧ (s.updDie k f).issue = s.issue ∧ (s.updDie k f).fresh = s.fresh ∧ (s.updDie k f).ids = s.ids ∧ (s.updDie k f).answer = s.answer := ⟨rfl, rfl, rfl, rfl, rfl, rfl, rfl, rfl, rfl, rfl, rfl, rfl, rfl, rfl, rfl, rfl, rfl, rfl, rfl, rfl, rfl, rfl, rfl, rfl, rfl, rfl, rfl, rfl, rfl, rfl, rfl, rfl, rfl, rfl, rfl⟩
@[simp] theorem State.setWg_frame (s : State) (k : Nat) (w : Wg) : (s.setWg k w).clock = s.clock ∧ (s.setWg k w).powered = s.powered ∧ (s.setWg k w).running = s.running ∧ (s.setWg k w).linkUp = s.linkUp ∧ (s.setWg k w).svn = s.svn ∧ (s.setWg k w).rev = s.rev ∧ (s.setWg k w).flash = s.flash ∧ (s.setWg k w).cores = s.cores ∧ (s.setWg k w).dies = s.dies ∧ (s.setWg k w).ctxs = s.ctxs ∧ (s.setWg k w).grids = s.grids ∧ (s.setWg k w).coresident = s.coresident ∧ (s.setWg k w).vfs = s.vfs ∧ (s.setWg k w).pf = s.pf ∧ (s.setWg k w).mem = s.mem ∧ (s.setWg k w).cist = s.cist ∧ (s.setWg k w).fe = s.fe ∧ (s.setWg k w).views = s.views ∧ (s.setWg k w).cistBad = s.cistBad ∧ (s.setWg k w).l1 = s.l1 ∧ (s.setWg k w).dir = s.dir ∧ (s.setWg k w).llc = s.llc ∧ (s.setWg k w).reqs = s.reqs ∧ (s.setWg k w).accs = s.accs ∧ (s.setWg k w).jobs = s.jobs ∧ (s.setWg k w).copies = s.copies ∧ (s.setWg k w).colls = s.colls ∧ (s.setWg k w).tokenq = s.tokenq ∧ (s.setWg k w).agenda = s.agenda ∧ (s.setWg k w).picks = s.picks ∧ (s.setWg k w).args = s.args ∧ (s.setWg k w).issue = s.issue ∧ (s.setWg k w).fresh = s.fresh ∧ (s.setWg k w).ids = s.ids ∧ (s.setWg k w).answer = s.answer := ⟨rfl, rfl, rfl, rfl, rfl, rfl, rfl, rfl, rfl, rfl, rfl, rfl, rfl, rfl, rfl, rfl, rfl, rfl, rfl, rfl, rfl, rfl, rfl, rfl, rfl, rfl, rfl, rfl, rfl, rfl, rfl, rfl, rfl, rfl, rfl⟩
@[simp] theorem State.updWg_frame (s : State) (k : Nat) (f : Wg → Wg) : (s.updWg k f).clock = s.clock ∧ (s.updWg k f).powered = s.powered ∧ (s.updWg k f).running = s.running ∧ (s.updWg k f).linkUp = s.linkUp ∧ (s.updWg k f).svn = s.svn ∧ (s.updWg k f).rev = s.rev ∧ (s.updWg k f).flash = s.flash ∧ (s.updWg k f).cores = s.cores ∧ (s.updWg k f).dies = s.dies ∧ (s.updWg k f).ctxs = s.ctxs ∧ (s.updWg k f).grids = s.grids ∧ (s.updWg k f).coresident = s.coresident ∧ (s.updWg k f).vfs = s.vfs ∧ (s.updWg k f).pf = s.pf ∧ (s.updWg k f).mem = s.mem ∧ (s.updWg k f).cist = s.cist ∧ (s.updWg k f).fe = s.fe ∧ (s.updWg k f).views = s.views ∧ (s.updWg k f).cistBad = s.cistBad ∧ (s.updWg k f).l1 = s.l1 ∧ (s.updWg k f).dir = s.dir ∧ (s.updWg k f).llc = s.llc ∧ (s.updWg k f).reqs = s.reqs ∧ (s.updWg k f).accs = s.accs ∧ (s.updWg k f).jobs = s.jobs ∧ (s.updWg k f).copies = s.copies ∧ (s.updWg k f).colls = s.colls ∧ (s.updWg k f).tokenq = s.tokenq ∧ (s.updWg k f).agenda = s.agenda ∧ (s.updWg k f).picks = s.picks ∧ (s.updWg k f).args = s.args ∧ (s.updWg k f).issue = s.issue ∧ (s.updWg k f).fresh = s.fresh ∧ (s.updWg k f).ids = s.ids ∧ (s.updWg k f).answer = s.answer := ⟨rfl, rfl, rfl, rfl, rfl, rfl, rfl, rfl, rfl, rfl, rfl, rfl, rfl, rfl, rfl, rfl, rfl, rfl, rfl, rfl, rfl, rfl, rfl, rfl, rfl, rfl, rfl, rfl, rfl, rfl, rfl, rfl, rfl, rfl, rfl⟩
@[simp] theorem State.setCtx_frame (s : State) (k : Nat) (c : Ctx) : (s.setCtx k c).clock = s.clock ∧ (s.setCtx k c).powered = s.powered ∧ (s.setCtx k c).running = s.running ∧ (s.setCtx k c).linkUp = s.linkUp ∧ (s.setCtx k c).svn = s.svn ∧ (s.setCtx k c).rev = s.rev ∧ (s.setCtx k c).flash = s.flash ∧ (s.setCtx k c).cores = s.cores ∧ (s.setCtx k c).dies = s.dies ∧ (s.setCtx k c).wgs = s.wgs ∧ (s.setCtx k c).grids = s.grids ∧ (s.setCtx k c).coresident = s.coresident ∧ (s.setCtx k c).vfs = s.vfs ∧ (s.setCtx k c).pf = s.pf ∧ (s.setCtx k c).mem = s.mem ∧ (s.setCtx k c).cist = s.cist ∧ (s.setCtx k c).fe = s.fe ∧ (s.setCtx k c).views = s.views ∧ (s.setCtx k c).cistBad = s.cistBad ∧ (s.setCtx k c).l1 = s.l1 ∧ (s.setCtx k c).dir = s.dir ∧ (s.setCtx k c).llc = s.llc ∧ (s.setCtx k c).reqs = s.reqs ∧ (s.setCtx k c).accs = s.accs ∧ (s.setCtx k c).jobs = s.jobs ∧ (s.setCtx k c).copies = s.copies ∧ (s.setCtx k c).colls = s.colls ∧ (s.setCtx k c).tokenq = s.tokenq ∧ (s.setCtx k c).agenda = s.agenda ∧ (s.setCtx k c).picks = s.picks ∧ (s.setCtx k c).args = s.args ∧ (s.setCtx k c).issue = s.issue ∧ (s.setCtx k c).fresh = s.fresh ∧ (s.setCtx k c).ids = s.ids ∧ (s.setCtx k c).answer = s.answer := ⟨rfl, rfl, rfl, rfl, rfl, rfl, rfl, rfl, rfl, rfl, rfl, rfl, rfl, rfl, rfl, rfl, rfl, rfl, rfl, rfl, rfl, rfl, rfl, rfl, rfl, rfl, rfl, rfl, rfl, rfl, rfl, rfl, rfl, rfl, rfl⟩
@[simp] theorem State.updCtx_frame (s : State) (k : Nat) (f : Ctx → Ctx) : (s.updCtx k f).clock = s.clock ∧ (s.updCtx k f).powered = s.powered ∧ (s.updCtx k f).running = s.running ∧ (s.updCtx k f).linkUp = s.linkUp ∧ (s.updCtx k f).svn = s.svn ∧ (s.updCtx k f).rev = s.rev ∧ (s.updCtx k f).flash = s.flash ∧ (s.updCtx k f).cores = s.cores ∧ (s.updCtx k f).dies = s.dies ∧ (s.updCtx k f).wgs = s.wgs ∧ (s.updCtx k f).grids = s.grids ∧ (s.updCtx k f).coresident = s.coresident ∧ (s.updCtx k f).vfs = s.vfs ∧ (s.updCtx k f).pf = s.pf ∧ (s.updCtx k f).mem = s.mem ∧ (s.updCtx k f).cist = s.cist ∧ (s.updCtx k f).fe = s.fe ∧ (s.updCtx k f).views = s.views ∧ (s.updCtx k f).cistBad = s.cistBad ∧ (s.updCtx k f).l1 = s.l1 ∧ (s.updCtx k f).dir = s.dir ∧ (s.updCtx k f).llc = s.llc ∧ (s.updCtx k f).reqs = s.reqs ∧ (s.updCtx k f).accs = s.accs ∧ (s.updCtx k f).jobs = s.jobs ∧ (s.updCtx k f).copies = s.copies ∧ (s.updCtx k f).colls = s.colls ∧ (s.updCtx k f).tokenq = s.tokenq ∧ (s.updCtx k f).agenda = s.agenda ∧ (s.updCtx k f).picks = s.picks ∧ (s.updCtx k f).args = s.args ∧ (s.updCtx k f).issue = s.issue ∧ (s.updCtx k f).fresh = s.fresh ∧ (s.updCtx k f).ids = s.ids ∧ (s.updCtx k f).answer = s.answer := ⟨rfl, rfl, rfl, rfl, rfl, rfl, rfl, rfl, rfl, rfl, rfl, rfl, rfl, rfl, rfl, rfl, rfl, rfl, rfl, rfl, rfl, rfl, rfl, rfl, rfl, rfl, rfl, rfl, rfl, rfl, rfl, rfl, rfl, rfl, rfl⟩
@[simp] theorem State.updGrid_frame (s : State) (k : Nat) (f : Grid → Grid) : (s.updGrid k f).clock = s.clock ∧ (s.updGrid k f).powered = s.powered ∧ (s.updGrid k f).running = s.running ∧ (s.updGrid k f).linkUp = s.linkUp ∧ (s.updGrid k f).svn = s.svn ∧ (s.updGrid k f).rev = s.rev ∧ (s.updGrid k f).flash = s.flash ∧ (s.updGrid k f).cores = s.cores ∧ (s.updGrid k f).dies = s.dies ∧ (s.updGrid k f).wgs = s.wgs ∧ (s.updGrid k f).ctxs = s.ctxs ∧ (s.updGrid k f).coresident = s.coresident ∧ (s.updGrid k f).vfs = s.vfs ∧ (s.updGrid k f).pf = s.pf ∧ (s.updGrid k f).mem = s.mem ∧ (s.updGrid k f).cist = s.cist ∧ (s.updGrid k f).fe = s.fe ∧ (s.updGrid k f).views = s.views ∧ (s.updGrid k f).cistBad = s.cistBad ∧ (s.updGrid k f).l1 = s.l1 ∧ (s.updGrid k f).dir = s.dir ∧ (s.updGrid k f).llc = s.llc ∧ (s.updGrid k f).reqs = s.reqs ∧ (s.updGrid k f).accs = s.accs ∧ (s.updGrid k f).jobs = s.jobs ∧ (s.updGrid k f).copies = s.copies ∧ (s.updGrid k f).colls = s.colls ∧ (s.updGrid k f).tokenq = s.tokenq ∧ (s.updGrid k f).agenda = s.agenda ∧ (s.updGrid k f).picks = s.picks ∧ (s.updGrid k f).args = s.args ∧ (s.updGrid k f).issue = s.issue ∧ (s.updGrid k f).fresh = s.fresh ∧ (s.updGrid k f).ids = s.ids ∧ (s.updGrid k f).answer = s.answer := ⟨rfl, rfl, rfl, rfl, rfl, rfl, rfl, rfl, rfl, rfl, rfl, rfl, rfl, rfl, rfl, rfl, rfl, rfl, rfl, rfl, rfl, rfl, rfl, rfl, rfl, rfl, rfl, rfl, rfl, rfl, rfl, rfl, rfl, rfl, rfl⟩
@[simp] theorem State.updVf_frame (s : State) (k : Nat) (f : Vf → Vf) : (s.updVf k f).clock = s.clock ∧ (s.updVf k f).powered = s.powered ∧ (s.updVf k f).running = s.running ∧ (s.updVf k f).linkUp = s.linkUp ∧ (s.updVf k f).svn = s.svn ∧ (s.updVf k f).rev = s.rev ∧ (s.updVf k f).flash = s.flash ∧ (s.updVf k f).cores = s.cores ∧ (s.updVf k f).dies = s.dies ∧ (s.updVf k f).wgs = s.wgs ∧ (s.updVf k f).ctxs = s.ctxs ∧ (s.updVf k f).grids = s.grids ∧ (s.updVf k f).coresident = s.coresident ∧ (s.updVf k f).pf = s.pf ∧ (s.updVf k f).mem = s.mem ∧ (s.updVf k f).cist = s.cist ∧ (s.updVf k f).fe = s.fe ∧ (s.updVf k f).views = s.views ∧ (s.updVf k f).cistBad = s.cistBad ∧ (s.updVf k f).l1 = s.l1 ∧ (s.updVf k f).dir = s.dir ∧ (s.updVf k f).llc = s.llc ∧ (s.updVf k f).reqs = s.reqs ∧ (s.updVf k f).accs = s.accs ∧ (s.updVf k f).jobs = s.jobs ∧ (s.updVf k f).copies = s.copies ∧ (s.updVf k f).colls = s.colls ∧ (s.updVf k f).tokenq = s.tokenq ∧ (s.updVf k f).agenda = s.agenda ∧ (s.updVf k f).picks = s.picks ∧ (s.updVf k f).args = s.args ∧ (s.updVf k f).issue = s.issue ∧ (s.updVf k f).fresh = s.fresh ∧ (s.updVf k f).ids = s.ids ∧ (s.updVf k f).answer = s.answer := ⟨rfl, rfl, rfl, rfl, rfl, rfl, rfl, rfl, rfl, rfl, rfl, rfl, rfl, rfl, rfl, rfl, rfl, rfl, rfl, rfl, rfl, rfl, rfl, rfl, rfl, rfl, rfl, rfl, rfl, rfl, rfl, rfl, rfl, rfl, rfl⟩
@[simp] theorem State.updPf_frame (s : State) (f : Pf → Pf) : (s.updPf f).clock = s.clock ∧ (s.updPf f).powered = s.powered ∧ (s.updPf f).running = s.running ∧ (s.updPf f).linkUp = s.linkUp ∧ (s.updPf f).svn = s.svn ∧ (s.updPf f).rev = s.rev ∧ (s.updPf f).flash = s.flash ∧ (s.updPf f).cores = s.cores ∧ (s.updPf f).dies = s.dies ∧ (s.updPf f).wgs = s.wgs ∧ (s.updPf f).ctxs = s.ctxs ∧ (s.updPf f).grids = s.grids ∧ (s.updPf f).coresident = s.coresident ∧ (s.updPf f).vfs = s.vfs ∧ (s.updPf f).mem = s.mem ∧ (s.updPf f).cist = s.cist ∧ (s.updPf f).fe = s.fe ∧ (s.updPf f).views = s.views ∧ (s.updPf f).cistBad = s.cistBad ∧ (s.updPf f).l1 = s.l1 ∧ (s.updPf f).dir = s.dir ∧ (s.updPf f).llc = s.llc ∧ (s.updPf f).reqs = s.reqs ∧ (s.updPf f).accs = s.accs ∧ (s.updPf f).jobs = s.jobs ∧ (s.updPf f).copies = s.copies ∧ (s.updPf f).colls = s.colls ∧ (s.updPf f).tokenq = s.tokenq ∧ (s.updPf f).agenda = s.agenda ∧ (s.updPf f).picks = s.picks ∧ (s.updPf f).args = s.args ∧ (s.updPf f).issue = s.issue ∧ (s.updPf f).fresh = s.fresh ∧ (s.updPf f).ids = s.ids ∧ (s.updPf f).answer = s.answer := ⟨rfl, rfl, rfl, rfl, rfl, rfl, rfl, rfl, rfl, rfl, rfl, rfl, rfl, rfl, rfl, rfl, rfl, rfl, rfl, rfl, rfl, rfl, rfl, rfl, rfl, rfl, rfl, rfl, rfl, rfl, rfl, rfl, rfl, rfl, rfl⟩
@[simp] theorem State.updReq_frame (s : State) (k : Nat) (f : Req → Req) : (s.updReq k f).clock = s.clock ∧ (s.updReq k f).powered = s.powered ∧ (s.updReq k f).running = s.running ∧ (s.updReq k f).linkUp = s.linkUp ∧ (s.updReq k f).svn = s.svn ∧ (s.updReq k f).rev = s.rev ∧ (s.updReq k f).flash = s.flash ∧ (s.updReq k f).cores = s.cores ∧ (s.updReq k f).dies = s.dies ∧ (s.updReq k f).wgs = s.wgs ∧ (s.updReq k f).ctxs = s.ctxs ∧ (s.updReq k f).grids = s.grids ∧ (s.updReq k f).coresident = s.coresident ∧ (s.updReq k f).vfs = s.vfs ∧ (s.updReq k f).pf = s.pf ∧ (s.updReq k f).mem = s.mem ∧ (s.updReq k f).cist = s.cist ∧ (s.updReq k f).fe = s.fe ∧ (s.updReq k f).views = s.views ∧ (s.updReq k f).cistBad = s.cistBad ∧ (s.updReq k f).l1 = s.l1 ∧ (s.updReq k f).dir = s.dir ∧ (s.updReq k f).llc = s.llc ∧ (s.updReq k f).accs = s.accs ∧ (s.updReq k f).jobs = s.jobs ∧ (s.updReq k f).copies = s.copies ∧ (s.updReq k f).colls = s.colls ∧ (s.updReq k f).tokenq = s.tokenq ∧ (s.updReq k f).agenda = s.agenda ∧ (s.updReq k f).picks = s.picks ∧ (s.updReq k f).args = s.args ∧ (s.updReq k f).issue = s.issue ∧ (s.updReq k f).fresh = s.fresh ∧ (s.updReq k f).ids = s.ids ∧ (s.updReq k f).answer = s.answer := ⟨rfl, rfl, rfl, rfl, rfl, rfl, rfl, rfl, rfl, rfl, rfl, rfl, rfl, rfl, rfl, rfl, rfl, rfl, rfl, rfl, rfl, rfl, rfl, rfl, rfl, rfl, rfl, rfl, rfl, rfl, rfl, rfl, rfl, rfl, rfl⟩
@[simp] theorem State.updAcc_frame (s : State) (k : Nat) (f : Acc → Acc) : (s.updAcc k f).clock = s.clock ∧ (s.updAcc k f).powered = s.powered ∧ (s.updAcc k f).running = s.running ∧ (s.updAcc k f).linkUp = s.linkUp ∧ (s.updAcc k f).svn = s.svn ∧ (s.updAcc k f).rev = s.rev ∧ (s.updAcc k f).flash = s.flash ∧ (s.updAcc k f).cores = s.cores ∧ (s.updAcc k f).dies = s.dies ∧ (s.updAcc k f).wgs = s.wgs ∧ (s.updAcc k f).ctxs = s.ctxs ∧ (s.updAcc k f).grids = s.grids ∧ (s.updAcc k f).coresident = s.coresident ∧ (s.updAcc k f).vfs = s.vfs ∧ (s.updAcc k f).pf = s.pf ∧ (s.updAcc k f).mem = s.mem ∧ (s.updAcc k f).cist = s.cist ∧ (s.updAcc k f).fe = s.fe ∧ (s.updAcc k f).views = s.views ∧ (s.updAcc k f).cistBad = s.cistBad ∧ (s.updAcc k f).l1 = s.l1 ∧ (s.updAcc k f).dir = s.dir ∧ (s.updAcc k f).llc = s.llc ∧ (s.updAcc k f).reqs = s.reqs ∧ (s.updAcc k f).jobs = s.jobs ∧ (s.updAcc k f).copies = s.copies ∧ (s.updAcc k f).colls = s.colls ∧ (s.updAcc k f).tokenq = s.tokenq ∧ (s.updAcc k f).agenda = s.agenda ∧ (s.updAcc k f).picks = s.picks ∧ (s.updAcc k f).args = s.args ∧ (s.updAcc k f).issue = s.issue ∧ (s.updAcc k f).fresh = s.fresh ∧ (s.updAcc k f).ids = s.ids ∧ (s.updAcc k f).answer = s.answer := ⟨rfl, rfl, rfl, rfl, rfl, rfl, rfl, rfl, rfl, rfl, rfl, rfl, rfl, rfl, rfl, rfl, rfl, rfl, rfl, rfl, rfl, rfl, rfl, rfl, rfl, rfl, rfl, rfl, rfl, rfl, rfl, rfl, rfl, rfl, rfl⟩
@[simp] theorem State.setDir_frame (s : State) (k : Nat) (d : DirWord) : (s.setDir k d).clock = s.clock ∧ (s.setDir k d).powered = s.powered ∧ (s.setDir k d).running = s.running ∧ (s.setDir k d).linkUp = s.linkUp ∧ (s.setDir k d).svn = s.svn ∧ (s.setDir k d).rev = s.rev ∧ (s.setDir k d).flash = s.flash ∧ (s.setDir k d).cores = s.cores ∧ (s.setDir k d).dies = s.dies ∧ (s.setDir k d).wgs = s.wgs ∧ (s.setDir k d).ctxs = s.ctxs ∧ (s.setDir k d).grids = s.grids ∧ (s.setDir k d).coresident = s.coresident ∧ (s.setDir k d).vfs = s.vfs ∧ (s.setDir k d).pf = s.pf ∧ (s.setDir k d).mem = s.mem ∧ (s.setDir k d).cist = s.cist ∧ (s.setDir k d).fe = s.fe ∧ (s.setDir k d).views = s.views ∧ (s.setDir k d).cistBad = s.cistBad ∧ (s.setDir k d).l1 = s.l1 ∧ (s.setDir k d).llc = s.llc ∧ (s.setDir k d).reqs = s.reqs ∧ (s.setDir k d).accs = s.accs ∧ (s.setDir k d).jobs = s.jobs ∧ (s.setDir k d).copies = s.copies ∧ (s.setDir k d).colls = s.colls ∧ (s.setDir k d).tokenq = s.tokenq ∧ (s.setDir k d).agenda = s.agenda ∧ (s.setDir k d).picks = s.picks ∧ (s.setDir k d).args = s.args ∧ (s.setDir k d).issue = s.issue ∧ (s.setDir k d).fresh = s.fresh ∧ (s.setDir k d).ids = s.ids ∧ (s.setDir k d).answer = s.answer := ⟨rfl, rfl, rfl, rfl, rfl, rfl, rfl, rfl, rfl, rfl, rfl, rfl, rfl, rfl, rfl, rfl, rfl, rfl, rfl, rfl, rfl, rfl, rfl, rfl, rfl, rfl, rfl, rfl, rfl, rfl, rfl, rfl, rfl, rfl, rfl⟩
@[simp] theorem State.setL1_frame (s : State) (c w : Nat) (x : L1Word) : (s.setL1 c w x).clock = s.clock ∧ (s.setL1 c w x).powered = s.powered ∧ (s.setL1 c w x).running = s.running ∧ (s.setL1 c w x).linkUp = s.linkUp ∧ (s.setL1 c w x).svn = s.svn ∧ (s.setL1 c w x).rev = s.rev ∧ (s.setL1 c w x).flash = s.flash ∧ (s.setL1 c w x).cores = s.cores ∧ (s.setL1 c w x).dies = s.dies ∧ (s.setL1 c w x).wgs = s.wgs ∧ (s.setL1 c w x).ctxs = s.ctxs ∧ (s.setL1 c w x).grids = s.grids ∧ (s.setL1 c w x).coresident = s.coresident ∧ (s.setL1 c w x).vfs = s.vfs ∧ (s.setL1 c w x).pf = s.pf ∧ (s.setL1 c w x).mem = s.mem ∧ (s.setL1 c w x).cist = s.cist ∧ (s.setL1 c w x).fe = s.fe ∧ (s.setL1 c w x).views = s.views ∧ (s.setL1 c w x).cistBad = s.cistBad ∧ (s.setL1 c w x).dir = s.dir ∧ (s.setL1 c w x).llc = s.llc ∧ (s.setL1 c w x).reqs = s.reqs ∧ (s.setL1 c w x).accs = s.accs ∧ (s.setL1 c w x).jobs = s.jobs ∧ (s.setL1 c w x).copies = s.copies ∧ (s.setL1 c w x).colls = s.colls ∧ (s.setL1 c w x).tokenq = s.tokenq ∧ (s.setL1 c w x).agenda = s.agenda ∧ (s.setL1 c w x).picks = s.picks ∧ (s.setL1 c w x).args = s.args ∧ (s.setL1 c w x).issue = s.issue ∧ (s.setL1 c w x).fresh = s.fresh ∧ (s.setL1 c w x).ids = s.ids ∧ (s.setL1 c w x).answer = s.answer := ⟨rfl, rfl, rfl, rfl, rfl, rfl, rfl, rfl, rfl, rfl, rfl, rfl, rfl, rfl, rfl, rfl, rfl, rfl, rfl, rfl, rfl, rfl, rfl, rfl, rfl, rfl, rfl, rfl, rfl, rfl, rfl, rfl, rfl, rfl, rfl⟩
@[simp] theorem State.newId_frame (s : State) : (s.newId.2).clock = s.clock ∧ (s.newId.2).powered = s.powered ∧ (s.newId.2).running = s.running ∧ (s.newId.2).linkUp = s.linkUp ∧ (s.newId.2).svn = s.svn ∧ (s.newId.2).rev = s.rev ∧ (s.newId.2).flash = s.flash ∧ (s.newId.2).cores = s.cores ∧ (s.newId.2).dies = s.dies ∧ (s.newId.2).wgs = s.wgs ∧ (s.newId.2).ctxs = s.ctxs ∧ (s.newId.2).grids = s.grids ∧ (s.newId.2).coresident = s.coresident ∧ (s.newId.2).vfs = s.vfs ∧ (s.newId.2).pf = s.pf ∧ (s.newId.2).mem = s.mem ∧ (s.newId.2).cist = s.cist ∧ (s.newId.2).fe = s.fe ∧ (s.newId.2).views = s.views ∧ (s.newId.2).cistBad = s.cistBad ∧ (s.newId.2).l1 = s.l1 ∧ (s.newId.2).dir = s.dir ∧ (s.newId.2).llc = s.llc ∧ (s.newId.2).reqs = s.reqs ∧ (s.newId.2).accs = s.accs ∧ (s.newId.2).jobs = s.jobs ∧ (s.newId.2).copies = s.copies ∧ (s.newId.2).colls = s.colls ∧ (s.newId.2).tokenq = s.tokenq ∧ (s.newId.2).agenda = s.agenda ∧ (s.newId.2).picks = s.picks ∧ (s.newId.2).args = s.args ∧ (s.newId.2).issue = s.issue ∧ (s.newId.2).fresh = s.fresh ∧ (s.newId.2).answer = s.answer := ⟨rfl, rfl, rfl, rfl, rfl, rfl, rfl, rfl, rfl, rfl, rfl, rfl, rfl, rfl, rfl, rfl, rfl, rfl, rfl, rfl, rfl, rfl, rfl, rfl, rfl, rfl, rfl, rfl, rfl, rfl, rfl, rfl, rfl, rfl, rfl⟩
@[simp] theorem State.free_frame (s : State) (w : Nat) : ((s.free w).2).clock = s.clock ∧ ((s.free w).2).powered = s.powered ∧ ((s.free w).2).running = s.running ∧ ((s.free w).2).linkUp = s.linkUp ∧ ((s.free w).2).svn = s.svn ∧ ((s.free w).2).rev = s.rev ∧ ((s.free w).2).flash = s.flash ∧ ((s.free w).2).cores = s.cores ∧ ((s.free w).2).dies = s.dies ∧ ((s.free w).2).wgs = s.wgs ∧ ((s.free w).2).ctxs = s.ctxs ∧ ((s.free w).2).grids = s.grids ∧ ((s.free w).2).coresident = s.coresident ∧ ((s.free w).2).vfs = s.vfs ∧ ((s.free w).2).pf = s.pf ∧ ((s.free w).2).mem = s.mem ∧ ((s.free w).2).cist = s.cist ∧ ((s.free w).2).fe = s.fe ∧ ((s.free w).2).views = s.views ∧ ((s.free w).2).cistBad = s.cistBad ∧ ((s.free w).2).l1 = s.l1 ∧ ((s.free w).2).dir = s.dir ∧ ((s.free w).2).llc = s.llc ∧ ((s.free w).2).reqs = s.reqs ∧ ((s.free w).2).accs = s.accs ∧ ((s.free w).2).jobs = s.jobs ∧ ((s.free w).2).copies = s.copies ∧ ((s.free w).2).colls = s.colls ∧ ((s.free w).2).tokenq = s.tokenq ∧ ((s.free w).2).agenda = s.agenda ∧ ((s.free w).2).picks = s.picks ∧ ((s.free w).2).args = s.args ∧ ((s.free w).2).issue = s.issue ∧ ((s.free w).2).ids = s.ids ∧ ((s.free w).2).answer = s.answer := ⟨rfl, rfl, rfl, rfl, rfl, rfl, rfl, rfl, rfl, rfl, rfl, rfl, rfl, rfl, rfl, rfl, rfl, rfl, rfl, rfl, rfl, rfl, rfl, rfl, rfl, rfl, rfl, rfl, rfl, rfl, rfl, rfl, rfl, rfl, rfl⟩
@[simp] theorem State.freeBytes_frame (s : State) (n : Nat) : ((s.freeBytes n).2).clock = s.clock ∧ ((s.freeBytes n).2).powered = s.powered ∧ ((s.freeBytes n).2).running = s.running ∧ ((s.freeBytes n).2).linkUp = s.linkUp ∧ ((s.freeBytes n).2).svn = s.svn ∧ ((s.freeBytes n).2).rev = s.rev ∧ ((s.freeBytes n).2).flash = s.flash ∧ ((s.freeBytes n).2).cores = s.cores ∧ ((s.freeBytes n).2).dies = s.dies ∧ ((s.freeBytes n).2).wgs = s.wgs ∧ ((s.freeBytes n).2).ctxs = s.ctxs ∧ ((s.freeBytes n).2).grids = s.grids ∧ ((s.freeBytes n).2).coresident = s.coresident ∧ ((s.freeBytes n).2).vfs = s.vfs ∧ ((s.freeBytes n).2).pf = s.pf ∧ ((s.freeBytes n).2).mem = s.mem ∧ ((s.freeBytes n).2).cist = s.cist ∧ ((s.freeBytes n).2).fe = s.fe ∧ ((s.freeBytes n).2).views = s.views ∧ ((s.freeBytes n).2).cistBad = s.cistBad ∧ ((s.freeBytes n).2).l1 = s.l1 ∧ ((s.freeBytes n).2).dir = s.dir ∧ ((s.freeBytes n).2).llc = s.llc ∧ ((s.freeBytes n).2).reqs = s.reqs ∧ ((s.freeBytes n).2).accs = s.accs ∧ ((s.freeBytes n).2).jobs = s.jobs ∧ ((s.freeBytes n).2).copies = s.copies ∧ ((s.freeBytes n).2).colls = s.colls ∧ ((s.freeBytes n).2).tokenq = s.tokenq ∧ ((s.freeBytes n).2).agenda = s.agenda ∧ ((s.freeBytes n).2).picks = s.picks ∧ ((s.freeBytes n).2).args = s.args ∧ ((s.freeBytes n).2).issue = s.issue ∧ ((s.freeBytes n).2).ids = s.ids ∧ ((s.freeBytes n).2).answer = s.answer := ⟨rfl, rfl, rfl, rfl, rfl, rfl, rfl, rfl, rfl, rfl, rfl, rfl, rfl, rfl, rfl, rfl, rfl, rfl, rfl, rfl, rfl, rfl, rfl, rfl, rfl, rfl, rfl, rfl, rfl, rfl, rfl, rfl, rfl, rfl, rfl⟩
@[simp] theorem State.push_frame (s : State) (i : Instr) (a : Args) (d : Option Nat) : (s.push i a d).clock = s.clock ∧ (s.push i a d).powered = s.powered ∧ (s.push i a d).running = s.running ∧ (s.push i a d).linkUp = s.linkUp ∧ (s.push i a d).svn = s.svn ∧ (s.push i a d).rev = s.rev ∧ (s.push i a d).flash = s.flash ∧ (s.push i a d).cores = s.cores ∧ (s.push i a d).dies = s.dies ∧ (s.push i a d).wgs = s.wgs ∧ (s.push i a d).ctxs = s.ctxs ∧ (s.push i a d).grids = s.grids ∧ (s.push i a d).coresident = s.coresident ∧ (s.push i a d).vfs = s.vfs ∧ (s.push i a d).pf = s.pf ∧ (s.push i a d).mem = s.mem ∧ (s.push i a d).cist = s.cist ∧ (s.push i a d).fe = s.fe ∧ (s.push i a d).views = s.views ∧ (s.push i a d).cistBad = s.cistBad ∧ (s.push i a d).l1 = s.l1 ∧ (s.push i a d).dir = s.dir ∧ (s.push i a d).llc = s.llc ∧ (s.push i a d).reqs = s.reqs ∧ (s.push i a d).accs = s.accs ∧ (s.push i a d).jobs = s.jobs ∧ (s.push i a d).copies = s.copies ∧ (s.push i a d).colls = s.colls ∧ (s.push i a d).tokenq = s.tokenq ∧ (s.push i a d).picks = s.picks ∧ (s.push i a d).args = s.args ∧ (s.push i a d).issue = s.issue ∧ (s.push i a d).fresh = s.fresh ∧ (s.push i a d).ids = s.ids ∧ (s.push i a d).answer = s.answer := ⟨rfl, rfl, rfl, rfl, rfl, rfl, rfl, rfl, rfl, rfl, rfl, rfl, rfl, rfl, rfl, rfl, rfl, rfl, rfl, rfl, rfl, rfl, rfl, rfl, rfl, rfl, rfl, rfl, rfl, rfl, rfl, rfl, rfl, rfl, rfl⟩
@[simp] theorem State.pushOnce_frame (s : State) (i : Instr) (a : Args) (d : Option Nat) : (s.pushOnce i a d).clock = s.clock ∧ (s.pushOnce i a d).powered = s.powered ∧ (s.pushOnce i a d).running = s.running ∧ (s.pushOnce i a d).linkUp = s.linkUp ∧ (s.pushOnce i a d).svn = s.svn ∧ (s.pushOnce i a d).rev = s.rev ∧ (s.pushOnce i a d).flash = s.flash ∧ (s.pushOnce i a d).cores = s.cores ∧ (s.pushOnce i a d).dies = s.dies ∧ (s.pushOnce i a d).wgs = s.wgs ∧ (s.pushOnce i a d).ctxs = s.ctxs ∧ (s.pushOnce i a d).grids = s.grids ∧ (s.pushOnce i a d).coresident = s.coresident ∧ (s.pushOnce i a d).vfs = s.vfs ∧ (s.pushOnce i a d).pf = s.pf ∧ (s.pushOnce i a d).mem = s.mem ∧ (s.pushOnce i a d).cist = s.cist ∧ (s.pushOnce i a d).fe = s.fe ∧ (s.pushOnce i a d).views = s.views ∧ (s.pushOnce i a d).cistBad = s.cistBad ∧ (s.pushOnce i a d).l1 = s.l1 ∧ (s.pushOnce i a d).dir = s.dir ∧ (s.pushOnce i a d).llc = s.llc ∧ (s.pushOnce i a d).reqs = s.reqs ∧ (s.pushOnce i a d).accs = s.accs ∧ (s.pushOnce i a d).jobs = s.jobs ∧ (s.pushOnce i a d).copies = s.copies ∧ (s.pushOnce i a d).colls = s.colls ∧ (s.pushOnce i a d).tokenq = s.tokenq ∧ (s.pushOnce i a d).picks = s.picks ∧ (s.pushOnce i a d).args = s.args ∧ (s.pushOnce i a d).issue = s.issue ∧ (s.pushOnce i a d).fresh = s.fresh ∧ (s.pushOnce i a d).ids = s.ids ∧ (s.pushOnce i a d).answer = s.answer := by unfold State.pushOnce; split <;> simp
@[simp] theorem State.updFront_frame (s : State) (k : Nat) (b : Bool) (f : Front → Front) : (s.updFront k b f).clock = s.clock ∧ (s.updFront k b f).powered = s.powered ∧ (s.updFront k b f).running = s.running ∧ (s.updFront k b f).linkUp = s.linkUp ∧ (s.updFront k b f).svn = s.svn ∧ (s.updFront k b f).rev = s.rev ∧ (s.updFront k b f).flash = s.flash ∧ (s.updFront k b f).cores = s.cores ∧ (s.updFront k b f).dies = s.dies ∧ (s.updFront k b f).wgs = s.wgs ∧ (s.updFront k b f).grids = s.grids ∧ (s.updFront k b f).coresident = s.coresident ∧ (s.updFront k b f).vfs = s.vfs ∧ (s.updFront k b f).pf = s.pf ∧ (s.updFront k b f).mem = s.mem ∧ (s.updFront k b f).cist = s.cist ∧ (s.updFront k b f).fe = s.fe ∧ (s.updFront k b f).views = s.views ∧ (s.updFront k b f).cistBad = s.cistBad ∧ (s.updFront k b f).l1 = s.l1 ∧ (s.updFront k b f).dir = s.dir ∧ (s.updFront k b f).llc = s.llc ∧ (s.updFront k b f).reqs = s.reqs ∧ (s.updFront k b f).accs = s.accs ∧ (s.updFront k b f).jobs = s.jobs ∧ (s.updFront k b f).copies = s.copies ∧ (s.updFront k b f).colls = s.colls ∧ (s.updFront k b f).tokenq = s.tokenq ∧ (s.updFront k b f).agenda = s.agenda ∧ (s.updFront k b f).picks = s.picks ∧ (s.updFront k b f).args = s.args ∧ (s.updFront k b f).issue = s.issue ∧ (s.updFront k b f).fresh = s.fresh ∧ (s.updFront k b f).ids = s.ids ∧ (s.updFront k b f).answer = s.answer := ⟨rfl, rfl, rfl, rfl, rfl, rfl, rfl, rfl, rfl, rfl, rfl, rfl, rfl, rfl, rfl, rfl, rfl, rfl, rfl, rfl, rfl, rfl, rfl, rfl, rfl, rfl, rfl, rfl, rfl, rfl, rfl, rfl, rfl, rfl, rfl⟩
@[simp] theorem State.flagDown_frame (s : State) (k : Nat) (x : Option (Bool × Nat)) : (s.flagDown k x).clock = s.clock ∧ (s.flagDown k x).powered = s.powered ∧ (s.flagDown k x).running = s.running ∧ (s.flagDown k x).linkUp = s.linkUp ∧ (s.flagDown k x).svn = s.svn ∧ (s.flagDown k x).rev = s.rev ∧ (s.flagDown k x).flash = s.flash ∧ (s.flagDown k x).cores = s.cores ∧ (s.flagDown k x).dies = s.dies ∧ (s.flagDown k x).wgs = s.wgs ∧ (s.flagDown k x).grids = s.grids ∧ (s.flagDown k x).coresident = s.coresident ∧ (s.flagDown k x).vfs = s.vfs ∧ (s.flagDown k x).pf = s.pf ∧ (s.flagDown k x).mem = s.mem ∧ (s.flagDown k x).cist = s.cist ∧ (s.flagDown k x).fe = s.fe ∧ (s.flagDown k x).views = s.views ∧ (s.flagDown k x).cistBad = s.cistBad ∧ (s.flagDown k x).l1 = s.l1 ∧ (s.flagDown k x).dir = s.dir ∧ (s.flagDown k x).llc = s.llc ∧ (s.flagDown k x).reqs = s.reqs ∧ (s.flagDown k x).accs = s.accs ∧ (s.flagDown k x).jobs = s.jobs ∧ (s.flagDown k x).copies = s.copies ∧ (s.flagDown k x).colls = s.colls ∧ (s.flagDown k x).tokenq = s.tokenq ∧ (s.flagDown k x).agenda = s.agenda ∧ (s.flagDown k x).picks = s.picks ∧ (s.flagDown k x).args = s.args ∧ (s.flagDown k x).issue = s.issue ∧ (s.flagDown k x).fresh = s.fresh ∧ (s.flagDown k x).ids = s.ids ∧ (s.flagDown k x).answer = s.answer := by unfold State.flagDown; split <;> simp
@[simp] theorem State.orFlags_frame (s : State) (k : Nat) (x : Fl) : (s.orFlags k x).clock = s.clock ∧ (s.orFlags k x).powered = s.powered ∧ (s.orFlags k x).running = s.running ∧ (s.orFlags k x).linkUp = s.linkUp ∧ (s.orFlags k x).svn = s.svn ∧ (s.orFlags k x).rev = s.rev ∧ (s.orFlags k x).flash = s.flash ∧ (s.orFlags k x).cores = s.cores ∧ (s.orFlags k x).dies = s.dies ∧ (s.orFlags k x).wgs = s.wgs ∧ (s.orFlags k x).grids = s.grids ∧ (s.orFlags k x).coresident = s.coresident ∧ (s.orFlags k x).vfs = s.vfs ∧ (s.orFlags k x).pf = s.pf ∧ (s.orFlags k x).mem = s.mem ∧ (s.orFlags k x).cist = s.cist ∧ (s.orFlags k x).fe = s.fe ∧ (s.orFlags k x).views = s.views ∧ (s.orFlags k x).cistBad = s.cistBad ∧ (s.orFlags k x).l1 = s.l1 ∧ (s.orFlags k x).dir = s.dir ∧ (s.orFlags k x).llc = s.llc ∧ (s.orFlags k x).reqs = s.reqs ∧ (s.orFlags k x).accs = s.accs ∧ (s.orFlags k x).jobs = s.jobs ∧ (s.orFlags k x).copies = s.copies ∧ (s.orFlags k x).colls = s.colls ∧ (s.orFlags k x).tokenq = s.tokenq ∧ (s.orFlags k x).agenda = s.agenda ∧ (s.orFlags k x).picks = s.picks ∧ (s.orFlags k x).args = s.args ∧ (s.orFlags k x).issue = s.issue ∧ (s.orFlags k x).fresh = s.fresh ∧ (s.orFlags k x).ids = s.ids ∧ (s.orFlags k x).answer = s.answer := ⟨rfl, rfl, rfl, rfl, rfl, rfl, rfl, rfl, rfl, rfl, rfl, rfl, rfl, rfl, rfl, rfl, rfl, rfl, rfl, rfl, rfl, rfl, rfl, rfl, rfl, rfl, rfl, rfl, rfl, rfl, rfl, rfl, rfl, rfl, rfl⟩
@[simp] theorem State.setCist_frame (s : State) (c b : Nat) (x : Byte) : (s.setCist c b x).clock = s.clock ∧ (s.setCist c b x).powered = s.powered ∧ (s.setCist c b x).running = s.running ∧ (s.setCist c b x).linkUp = s.linkUp ∧ (s.setCist c b x).svn = s.svn ∧ (s.setCist c b x).rev = s.rev ∧ (s.setCist c b x).flash = s.flash ∧ (s.setCist c b x).cores = s.cores ∧ (s.setCist c b x).dies = s.dies ∧ (s.setCist c b x).wgs = s.wgs ∧ (s.setCist c b x).ctxs = s.ctxs ∧ (s.setCist c b x).grids = s.grids ∧ (s.setCist c b x).coresident = s.coresident ∧ (s.setCist c b x).vfs = s.vfs ∧ (s.setCist c b x).pf = s.pf ∧ (s.setCist c b x).mem = s.mem ∧ (s.setCist c b x).fe = s.fe ∧ (s.setCist c b x).views = s.views ∧ (s.setCist c b x).cistBad = s.cistBad ∧ (s.setCist c b x).l1 = s.l1 ∧ (s.setCist c b x).dir = s.dir ∧ (s.setCist c b x).llc = s.llc ∧ (s.setCist c b x).reqs = s.reqs ∧ (s.setCist c b x).accs = s.accs ∧ (s.setCist c b x).jobs = s.jobs ∧ (s.setCist c b x).copies = s.copies ∧ (s.setCist c b x).colls = s.colls ∧ (s.setCist c b x).tokenq = s.tokenq ∧ (s.setCist c b x).agenda = s.agenda ∧ (s.setCist c b x).picks = s.picks ∧ (s.setCist c b x).args = s.args ∧ (s.setCist c b x).issue = s.issue ∧ (s.setCist c b x).fresh = s.fresh ∧ (s.setCist c b x).ids = s.ids ∧ (s.setCist c b x).answer = s.answer := ⟨rfl, rfl, rfl, rfl, rfl, rfl, rfl, rfl, rfl, rfl, rfl, rfl, rfl, rfl, rfl, rfl, rfl, rfl, rfl, rfl, rfl, rfl, rfl, rfl, rfl, rfl, rfl, rfl, rfl, rfl, rfl, rfl, rfl, rfl, rfl⟩
@[simp] theorem State.setFe_frame (s : State) (c w : Nat) (b : Bool) : (s.setFe c w b).clock = s.clock ∧ (s.setFe c w b).powered = s.powered ∧ (s.setFe c w b).running = s.running ∧ (s.setFe c w b).linkUp = s.linkUp ∧ (s.setFe c w b).svn = s.svn ∧ (s.setFe c w b).rev = s.rev ∧ (s.setFe c w b).flash = s.flash ∧ (s.setFe c w b).cores = s.cores ∧ (s.setFe c w b).dies = s.dies ∧ (s.setFe c w b).wgs = s.wgs ∧ (s.setFe c w b).ctxs = s.ctxs ∧ (s.setFe c w b).grids = s.grids ∧ (s.setFe c w b).coresident = s.coresident ∧ (s.setFe c w b).vfs = s.vfs ∧ (s.setFe c w b).pf = s.pf ∧ (s.setFe c w b).mem = s.mem ∧ (s.setFe c w b).cist = s.cist ∧ (s.setFe c w b).views = s.views ∧ (s.setFe c w b).cistBad = s.cistBad ∧ (s.setFe c w b).l1 = s.l1 ∧ (s.setFe c w b).dir = s.dir ∧ (s.setFe c w b).llc = s.llc ∧ (s.setFe c w b).reqs = s.reqs ∧ (s.setFe c w b).accs = s.accs ∧ (s.setFe c w b).jobs = s.jobs ∧ (s.setFe c w b).copies = s.copies ∧ (s.setFe c w b).colls = s.colls ∧ (s.setFe c w b).tokenq = s.tokenq ∧ (s.setFe c w b).agenda = s.agenda ∧ (s.setFe c w b).picks = s.picks ∧ (s.setFe c w b).args = s.args ∧ (s.setFe c w b).issue = s.issue ∧ (s.setFe c w b).fresh = s.fresh ∧ (s.setFe c w b).ids = s.ids ∧ (s.setFe c w b).answer = s.answer := ⟨rfl, rfl, rfl, rfl, rfl, rfl, rfl, rfl, rfl, rfl, rfl, rfl, rfl, rfl, rfl, rfl, rfl, rfl, rfl, rfl, rfl, rfl, rfl, rfl, rfl, rfl, rfl, rfl, rfl, rfl, rfl, rfl, rfl, rfl, rfl⟩
@[simp] theorem State.setView_frame (s : State) (w k : Nat) (l : List Nat) : (s.setView w k l).clock = s.clock ∧ (s.setView w k l).powered = s.powered ∧ (s.setView w k l).running = s.running ∧ (s.setView w k l).linkUp = s.linkUp ∧ (s.setView w k l).svn = s.svn ∧ (s.setView w k l).rev = s.rev ∧ (s.setView w k l).flash = s.flash ∧ (s.setView w k l).cores = s.cores ∧ (s.setView w k l).dies = s.dies ∧ (s.setView w k l).wgs = s.wgs ∧ (s.setView w k l).ctxs = s.ctxs ∧ (s.setView w k l).grids = s.grids ∧ (s.setView w k l).coresident = s.coresident ∧ (s.setView w k l).vfs = s.vfs ∧ (s.setView w k l).pf = s.pf ∧ (s.setView w k l).mem = s.mem ∧ (s.setView w k l).cist = s.cist ∧ (s.setView w k l).fe = s.fe ∧ (s.setView w k l).cistBad = s.cistBad ∧ (s.setView w k l).l1 = s.l1 ∧ (s.setView w k l).dir = s.dir ∧ (s.setView w k l).llc = s.llc ∧ (s.setView w k l).reqs = s.reqs ∧ (s.setView w k l).accs = s.accs ∧ (s.setView w k l).jobs = s.jobs ∧ (s.setView w k l).copies = s.copies ∧ (s.setView w k l).colls = s.colls ∧ (s.setView w k l).tokenq = s.tokenq ∧ (s.setView w k l).agenda = s.agenda ∧ (s.setView w k l).picks = s.picks ∧ (s.setView w k l).args = s.args ∧ (s.setView w k l).issue = s.issue ∧ (s.setView w k l).fresh = s.fresh ∧ (s.setView w k l).ids = s.ids ∧ (s.setView w k l).answer = s.answer := ⟨rfl, rfl, rfl, rfl, rfl, rfl, rfl, rfl, rfl, rfl, rfl, rfl, rfl, rfl, rfl, rfl, rfl, rfl, rfl, rfl, rfl, rfl, rfl, rfl, rfl, rfl, rfl, rfl, rfl, rfl, rfl, rfl, rfl, rfl, rfl⟩
@[simp] theorem State.hear_frame (s : State) (k : Nat) (l : List Nat) : (s.hear k l).clock = s.clock ∧ (s.hear k l).powered = s.powered ∧ (s.hear k l).running = s.running ∧ (s.hear k l).linkUp = s.linkUp ∧ (s.hear k l).svn = s.svn ∧ (s.hear k l).rev = s.rev ∧ (s.hear k l).flash = s.flash ∧ (s.hear k l).cores = s.cores ∧ (s.hear k l).dies = s.dies ∧ (s.hear k l).wgs = s.wgs ∧ (s.hear k l).grids = s.grids ∧ (s.hear k l).coresident = s.coresident ∧ (s.hear k l).vfs = s.vfs ∧ (s.hear k l).pf = s.pf ∧ (s.hear k l).mem = s.mem ∧ (s.hear k l).cist = s.cist ∧ (s.hear k l).fe = s.fe ∧ (s.hear k l).views = s.views ∧ (s.hear k l).cistBad = s.cistBad ∧ (s.hear k l).l1 = s.l1 ∧ (s.hear k l).dir = s.dir ∧ (s.hear k l).llc = s.llc ∧ (s.hear k l).reqs = s.reqs ∧ (s.hear k l).accs = s.accs ∧ (s.hear k l).jobs = s.jobs ∧ (s.hear k l).copies = s.copies ∧ (s.hear k l).colls = s.colls ∧ (s.hear k l).tokenq = s.tokenq ∧ (s.hear k l).agenda = s.agenda ∧ (s.hear k l).picks = s.picks ∧ (s.hear k l).args = s.args ∧ (s.hear k l).issue = s.issue ∧ (s.hear k l).fresh = s.fresh ∧ (s.hear k l).ids = s.ids ∧ (s.hear k l).answer = s.answer := by unfold State.hear; split <;> simp
@[simp] theorem State.publish_frame (s : State) (k : Nat) : (s.publish k).clock = s.clock ∧ (s.publish k).powered = s.powered ∧ (s.publish k).running = s.running ∧ (s.publish k).linkUp = s.linkUp ∧ (s.publish k).svn = s.svn ∧ (s.publish k).rev = s.rev ∧ (s.publish k).flash = s.flash ∧ (s.publish k).cores = s.cores ∧ (s.publish k).dies = s.dies ∧ (s.publish k).wgs = s.wgs ∧ (s.publish k).grids = s.grids ∧ (s.publish k).coresident = s.coresident ∧ (s.publish k).vfs = s.vfs ∧ (s.publish k).pf = s.pf ∧ (s.publish k).mem = s.mem ∧ (s.publish k).cist = s.cist ∧ (s.publish k).fe = s.fe ∧ (s.publish k).views = s.views ∧ (s.publish k).cistBad = s.cistBad ∧ (s.publish k).l1 = s.l1 ∧ (s.publish k).dir = s.dir ∧ (s.publish k).llc = s.llc ∧ (s.publish k).reqs = s.reqs ∧ (s.publish k).accs = s.accs ∧ (s.publish k).jobs = s.jobs ∧ (s.publish k).copies = s.copies ∧ (s.publish k).colls = s.colls ∧ (s.publish k).tokenq = s.tokenq ∧ (s.publish k).agenda = s.agenda ∧ (s.publish k).picks = s.picks ∧ (s.publish k).args = s.args ∧ (s.publish k).issue = s.issue ∧ (s.publish k).fresh = s.fresh ∧ (s.publish k).ids = s.ids ∧ (s.publish k).answer = s.answer := ⟨rfl, rfl, rfl, rfl, rfl, rfl, rfl, rfl, rfl, rfl, rfl, rfl, rfl, rfl, rfl, rfl, rfl, rfl, rfl, rfl, rfl, rfl, rfl, rfl, rfl, rfl, rfl, rfl, rfl, rfl, rfl, rfl, rfl, rfl, rfl⟩
@[simp] theorem State.learn_frame (s : State) (k : Nat) : (s.learn k).clock = s.clock ∧ (s.learn k).powered = s.powered ∧ (s.learn k).running = s.running ∧ (s.learn k).linkUp = s.linkUp ∧ (s.learn k).svn = s.svn ∧ (s.learn k).rev = s.rev ∧ (s.learn k).flash = s.flash ∧ (s.learn k).cores = s.cores ∧ (s.learn k).dies = s.dies ∧ (s.learn k).wgs = s.wgs ∧ (s.learn k).grids = s.grids ∧ (s.learn k).coresident = s.coresident ∧ (s.learn k).vfs = s.vfs ∧ (s.learn k).pf = s.pf ∧ (s.learn k).mem = s.mem ∧ (s.learn k).cist = s.cist ∧ (s.learn k).fe = s.fe ∧ (s.learn k).views = s.views ∧ (s.learn k).cistBad = s.cistBad ∧ (s.learn k).l1 = s.l1 ∧ (s.learn k).dir = s.dir ∧ (s.learn k).llc = s.llc ∧ (s.learn k).reqs = s.reqs ∧ (s.learn k).accs = s.accs ∧ (s.learn k).jobs = s.jobs ∧ (s.learn k).copies = s.copies ∧ (s.learn k).colls = s.colls ∧ (s.learn k).tokenq = s.tokenq ∧ (s.learn k).agenda = s.agenda ∧ (s.learn k).picks = s.picks ∧ (s.learn k).args = s.args ∧ (s.learn k).issue = s.issue ∧ (s.learn k).fresh = s.fresh ∧ (s.learn k).ids = s.ids ∧ (s.learn k).answer = s.answer := ⟨rfl, rfl, rfl, rfl, rfl, rfl, rfl, rfl, rfl, rfl, rfl, rfl, rfl, rfl, rfl, rfl, rfl, rfl, rfl, rfl, rfl, rfl, rfl, rfl, rfl, rfl, rfl, rfl, rfl, rfl, rfl, rfl, rfl, rfl, rfl⟩
@[simp] theorem State.publishAt_frame (s : State) (k j : Nat) : (s.publishAt k j).clock = s.clock ∧ (s.publishAt k j).powered = s.powered ∧ (s.publishAt k j).running = s.running ∧ (s.publishAt k j).linkUp = s.linkUp ∧ (s.publishAt k j).svn = s.svn ∧ (s.publishAt k j).rev = s.rev ∧ (s.publishAt k j).flash = s.flash ∧ (s.publishAt k j).cores = s.cores ∧ (s.publishAt k j).dies = s.dies ∧ (s.publishAt k j).wgs = s.wgs ∧ (s.publishAt k j).grids = s.grids ∧ (s.publishAt k j).coresident = s.coresident ∧ (s.publishAt k j).vfs = s.vfs ∧ (s.publishAt k j).pf = s.pf ∧ (s.publishAt k j).mem = s.mem ∧ (s.publishAt k j).cist = s.cist ∧ (s.publishAt k j).fe = s.fe ∧ (s.publishAt k j).cistBad = s.cistBad ∧ (s.publishAt k j).l1 = s.l1 ∧ (s.publishAt k j).dir = s.dir ∧ (s.publishAt k j).llc = s.llc ∧ (s.publishAt k j).reqs = s.reqs ∧ (s.publishAt k j).accs = s.accs ∧ (s.publishAt k j).jobs = s.jobs ∧ (s.publishAt k j).copies = s.copies ∧ (s.publishAt k j).colls = s.colls ∧ (s.publishAt k j).tokenq = s.tokenq ∧ (s.publishAt k j).agenda = s.agenda ∧ (s.publishAt k j).picks = s.picks ∧ (s.publishAt k j).args = s.args ∧ (s.publishAt k j).issue = s.issue ∧ (s.publishAt k j).fresh = s.fresh ∧ (s.publishAt k j).ids = s.ids ∧ (s.publishAt k j).answer = s.answer := ⟨rfl, rfl, rfl, rfl, rfl, rfl, rfl, rfl, rfl, rfl, rfl, rfl, rfl, rfl, rfl, rfl, rfl, rfl, rfl, rfl, rfl, rfl, rfl, rfl, rfl, rfl, rfl, rfl, rfl, rfl, rfl, rfl, rfl, rfl⟩
@[simp] theorem State.learnAt_frame (s : State) (j k : Nat) : (s.learnAt j k).clock = s.clock ∧ (s.learnAt j k).powered = s.powered ∧ (s.learnAt j k).running = s.running ∧ (s.learnAt j k).linkUp = s.linkUp ∧ (s.learnAt j k).svn = s.svn ∧ (s.learnAt j k).rev = s.rev ∧ (s.learnAt j k).flash = s.flash ∧ (s.learnAt j k).cores = s.cores ∧ (s.learnAt j k).dies = s.dies ∧ (s.learnAt j k).wgs = s.wgs ∧ (s.learnAt j k).grids = s.grids ∧ (s.learnAt j k).coresident = s.coresident ∧ (s.learnAt j k).vfs = s.vfs ∧ (s.learnAt j k).pf = s.pf ∧ (s.learnAt j k).mem = s.mem ∧ (s.learnAt j k).cist = s.cist ∧ (s.learnAt j k).fe = s.fe ∧ (s.learnAt j k).views = s.views ∧ (s.learnAt j k).cistBad = s.cistBad ∧ (s.learnAt j k).l1 = s.l1 ∧ (s.learnAt j k).dir = s.dir ∧ (s.learnAt j k).llc = s.llc ∧ (s.learnAt j k).reqs = s.reqs ∧ (s.learnAt j k).accs = s.accs ∧ (s.learnAt j k).jobs = s.jobs ∧ (s.learnAt j k).copies = s.copies ∧ (s.learnAt j k).colls = s.colls ∧ (s.learnAt j k).tokenq = s.tokenq ∧ (s.learnAt j k).agenda = s.agenda ∧ (s.learnAt j k).picks = s.picks ∧ (s.learnAt j k).args = s.args ∧ (s.learnAt j k).issue = s.issue ∧ (s.learnAt j k).fresh = s.fresh ∧ (s.learnAt j k).ids = s.ids ∧ (s.learnAt j k).answer = s.answer := by simp [State.learnAt]
@[simp] theorem State.wakeAll_frame (s : State) (p : Nat → LaneSt → Bool) : (s.wakeAll p).clock = s.clock ∧ (s.wakeAll p).powered = s.powered ∧ (s.wakeAll p).running = s.running ∧ (s.wakeAll p).linkUp = s.linkUp ∧ (s.wakeAll p).svn = s.svn ∧ (s.wakeAll p).rev = s.rev ∧ (s.wakeAll p).flash = s.flash ∧ (s.wakeAll p).cores = s.cores ∧ (s.wakeAll p).dies = s.dies ∧ (s.wakeAll p).wgs = s.wgs ∧ (s.wakeAll p).grids = s.grids ∧ (s.wakeAll p).coresident = s.coresident ∧ (s.wakeAll p).vfs = s.vfs ∧ (s.wakeAll p).pf = s.pf ∧ (s.wakeAll p).mem = s.mem ∧ (s.wakeAll p).cist = s.cist ∧ (s.wakeAll p).fe = s.fe ∧ (s.wakeAll p).views = s.views ∧ (s.wakeAll p).cistBad = s.cistBad ∧ (s.wakeAll p).l1 = s.l1 ∧ (s.wakeAll p).dir = s.dir ∧ (s.wakeAll p).llc = s.llc ∧ (s.wakeAll p).reqs = s.reqs ∧ (s.wakeAll p).accs = s.accs ∧ (s.wakeAll p).jobs = s.jobs ∧ (s.wakeAll p).copies = s.copies ∧ (s.wakeAll p).colls = s.colls ∧ (s.wakeAll p).tokenq = s.tokenq ∧ (s.wakeAll p).agenda = s.agenda ∧ (s.wakeAll p).picks = s.picks ∧ (s.wakeAll p).args = s.args ∧ (s.wakeAll p).issue = s.issue ∧ (s.wakeAll p).fresh = s.fresh ∧ (s.wakeAll p).ids = s.ids ∧ (s.wakeAll p).answer = s.answer := ⟨rfl, rfl, rfl, rfl, rfl, rfl, rfl, rfl, rfl, rfl, rfl, rfl, rfl, rfl, rfl, rfl, rfl, rfl, rfl, rfl, rfl, rfl, rfl, rfl, rfl, rfl, rfl, rfl, rfl, rfl, rfl, rfl, rfl, rfl, rfl⟩
@[simp] theorem State.writeBack_frame (s : State) (w : Nat) (x : L1Word) : (s.writeBack w x).clock = s.clock ∧ (s.writeBack w x).powered = s.powered ∧ (s.writeBack w x).running = s.running ∧ (s.writeBack w x).linkUp = s.linkUp ∧ (s.writeBack w x).svn = s.svn ∧ (s.writeBack w x).rev = s.rev ∧ (s.writeBack w x).flash = s.flash ∧ (s.writeBack w x).cores = s.cores ∧ (s.writeBack w x).dies = s.dies ∧ (s.writeBack w x).wgs = s.wgs ∧ (s.writeBack w x).ctxs = s.ctxs ∧ (s.writeBack w x).grids = s.grids ∧ (s.writeBack w x).coresident = s.coresident ∧ (s.writeBack w x).vfs = s.vfs ∧ (s.writeBack w x).pf = s.pf ∧ (s.writeBack w x).cist = s.cist ∧ (s.writeBack w x).fe = s.fe ∧ (s.writeBack w x).views = s.views ∧ (s.writeBack w x).cistBad = s.cistBad ∧ (s.writeBack w x).l1 = s.l1 ∧ (s.writeBack w x).dir = s.dir ∧ (s.writeBack w x).llc = s.llc ∧ (s.writeBack w x).reqs = s.reqs ∧ (s.writeBack w x).accs = s.accs ∧ (s.writeBack w x).jobs = s.jobs ∧ (s.writeBack w x).copies = s.copies ∧ (s.writeBack w x).colls = s.colls ∧ (s.writeBack w x).tokenq = s.tokenq ∧ (s.writeBack w x).agenda = s.agenda ∧ (s.writeBack w x).picks = s.picks ∧ (s.writeBack w x).args = s.args ∧ (s.writeBack w x).issue = s.issue ∧ (s.writeBack w x).fresh = s.fresh ∧ (s.writeBack w x).ids = s.ids ∧ (s.writeBack w x).answer = s.answer := ⟨rfl, rfl, rfl, rfl, rfl, rfl, rfl, rfl, rfl, rfl, rfl, rfl, rfl, rfl, rfl, rfl, rfl, rfl, rfl, rfl, rfl, rfl, rfl, rfl, rfl, rfl, rfl, rfl, rfl, rfl, rfl, rfl, rfl, rfl, rfl⟩
@[simp] theorem State.clearResv_frame (s : State) (c l : Nat) (k : Option (Nat × Nat)) : (s.clearResv c l k).clock = s.clock ∧ (s.clearResv c l k).powered = s.powered ∧ (s.clearResv c l k).running = s.running ∧ (s.clearResv c l k).linkUp = s.linkUp ∧ (s.clearResv c l k).svn = s.svn ∧ (s.clearResv c l k).rev = s.rev ∧ (s.clearResv c l k).flash = s.flash ∧ (s.clearResv c l k).cores = s.cores ∧ (s.clearResv c l k).dies = s.dies ∧ (s.clearResv c l k).wgs = s.wgs ∧ (s.clearResv c l k).grids = s.grids ∧ (s.clearResv c l k).coresident = s.coresident ∧ (s.clearResv c l k).vfs = s.vfs ∧ (s.clearResv c l k).pf = s.pf ∧ (s.clearResv c l k).mem = s.mem ∧ (s.clearResv c l k).cist = s.cist ∧ (s.clearResv c l k).fe = s.fe ∧ (s.clearResv c l k).views = s.views ∧ (s.clearResv c l k).cistBad = s.cistBad ∧ (s.clearResv c l k).l1 = s.l1 ∧ (s.clearResv c l k).dir = s.dir ∧ (s.clearResv c l k).llc = s.llc ∧ (s.clearResv c l k).reqs = s.reqs ∧ (s.clearResv c l k).accs = s.accs ∧ (s.clearResv c l k).jobs = s.jobs ∧ (s.clearResv c l k).copies = s.copies ∧ (s.clearResv c l k).colls = s.colls ∧ (s.clearResv c l k).tokenq = s.tokenq ∧ (s.clearResv c l k).agenda = s.agenda ∧ (s.clearResv c l k).picks = s.picks ∧ (s.clearResv c l k).args = s.args ∧ (s.clearResv c l k).issue = s.issue ∧ (s.clearResv c l k).fresh = s.fresh ∧ (s.clearResv c l k).ids = s.ids ∧ (s.clearResv c l k).answer = s.answer := ⟨rfl, rfl, rfl, rfl, rfl, rfl, rfl, rfl, rfl, rfl, rfl, rfl, rfl, rfl, rfl, rfl, rfl, rfl, rfl, rfl, rfl, rfl, rfl, rfl, rfl, rfl, rfl, rfl, rfl, rfl, rfl, rfl, rfl, rfl, rfl⟩
@[simp] theorem State.clearResvOthers_frame (s : State) (l : Nat) (k : Option (Nat × Nat)) : (s.clearResvOthers l k).clock = s.clock ∧ (s.clearResvOthers l k).powered = s.powered ∧ (s.clearResvOthers l k).running = s.running ∧ (s.clearResvOthers l k).linkUp = s.linkUp ∧ (s.clearResvOthers l k).svn = s.svn ∧ (s.clearResvOthers l k).rev = s.rev ∧ (s.clearResvOthers l k).flash = s.flash ∧ (s.clearResvOthers l k).cores = s.cores ∧ (s.clearResvOthers l k).dies = s.dies ∧ (s.clearResvOthers l k).wgs = s.wgs ∧ (s.clearResvOthers l k).grids = s.grids ∧ (s.clearResvOthers l k).coresident = s.coresident ∧ (s.clearResvOthers l k).vfs = s.vfs ∧ (s.clearResvOthers l k).pf = s.pf ∧ (s.clearResvOthers l k).mem = s.mem ∧ (s.clearResvOthers l k).cist = s.cist ∧ (s.clearResvOthers l k).fe = s.fe ∧ (s.clearResvOthers l k).views = s.views ∧ (s.clearResvOthers l k).cistBad = s.cistBad ∧ (s.clearResvOthers l k).l1 = s.l1 ∧ (s.clearResvOthers l k).dir = s.dir ∧ (s.clearResvOthers l k).llc = s.llc ∧ (s.clearResvOthers l k).reqs = s.reqs ∧ (s.clearResvOthers l k).accs = s.accs ∧ (s.clearResvOthers l k).jobs = s.jobs ∧ (s.clearResvOthers l k).copies = s.copies ∧ (s.clearResvOthers l k).colls = s.colls ∧ (s.clearResvOthers l k).tokenq = s.tokenq ∧ (s.clearResvOthers l k).agenda = s.agenda ∧ (s.clearResvOthers l k).picks = s.picks ∧ (s.clearResvOthers l k).args = s.args ∧ (s.clearResvOthers l k).issue = s.issue ∧ (s.clearResvOthers l k).fresh = s.fresh ∧ (s.clearResvOthers l k).ids = s.ids ∧ (s.clearResvOthers l k).answer = s.answer := ⟨rfl, rfl, rfl, rfl, rfl, rfl, rfl, rfl, rfl, rfl, rfl, rfl, rfl, rfl, rfl, rfl, rfl, rfl, rfl, rfl, rfl, rfl, rfl, rfl, rfl, rfl, rfl, rfl, rfl, rfl, rfl, rfl, rfl, rfl, rfl⟩
@[simp] theorem State.acquire_frame (s : State) (c : Nat) (x : Scope) : (s.acquire c x).clock = s.clock ∧ (s.acquire c x).powered = s.powered ∧ (s.acquire c x).running = s.running ∧ (s.acquire c x).linkUp = s.linkUp ∧ (s.acquire c x).svn = s.svn ∧ (s.acquire c x).rev = s.rev ∧ (s.acquire c x).flash = s.flash ∧ (s.acquire c x).cores = s.cores ∧ (s.acquire c x).dies = s.dies ∧ (s.acquire c x).wgs = s.wgs ∧ (s.acquire c x).ctxs = s.ctxs ∧ (s.acquire c x).grids = s.grids ∧ (s.acquire c x).coresident = s.coresident ∧ (s.acquire c x).vfs = s.vfs ∧ (s.acquire c x).pf = s.pf ∧ (s.acquire c x).mem = s.mem ∧ (s.acquire c x).cist = s.cist ∧ (s.acquire c x).fe = s.fe ∧ (s.acquire c x).views = s.views ∧ (s.acquire c x).cistBad = s.cistBad ∧ (s.acquire c x).dir = s.dir ∧ (s.acquire c x).llc = s.llc ∧ (s.acquire c x).reqs = s.reqs ∧ (s.acquire c x).accs = s.accs ∧ (s.acquire c x).jobs = s.jobs ∧ (s.acquire c x).copies = s.copies ∧ (s.acquire c x).colls = s.colls ∧ (s.acquire c x).tokenq = s.tokenq ∧ (s.acquire c x).agenda = s.agenda ∧ (s.acquire c x).picks = s.picks ∧ (s.acquire c x).args = s.args ∧ (s.acquire c x).issue = s.issue ∧ (s.acquire c x).fresh = s.fresh ∧ (s.acquire c x).ids = s.ids ∧ (s.acquire c x).answer = s.answer := ⟨rfl, rfl, rfl, rfl, rfl, rfl, rfl, rfl, rfl, rfl, rfl, rfl, rfl, rfl, rfl, rfl, rfl, rfl, rfl, rfl, rfl, rfl, rfl, rfl, rfl, rfl, rfl, rfl, rfl, rfl, rfl, rfl, rfl, rfl, rfl⟩

/-! ## What an update changes -/

theorem State.ctx_setCtx (s : State) (k : Nat) (c : Ctx) : (s.setCtx k c).ctx k = c := by simp [State.setCtx, State.ctx]
theorem State.ctx_setCtx_ne (s : State) {k j : Nat} (c : Ctx) (h : j ≠ k) : (s.setCtx k c).ctx j = s.ctx j := Tab.get_put_ne _ _ c h
theorem State.ctx_updCtx (s : State) (k : Nat) (f : Ctx → Ctx) (h : (Tab.find? s.ctxs k).isSome) : (s.updCtx k f).ctx k = f (s.ctx k) := Tab.get_modify_same _ _ k f h
theorem State.ctx_updCtx_ne (s : State) {k j : Nat} (f : Ctx → Ctx) (h : j ≠ k) : (s.updCtx k f).ctx j = s.ctx j := Tab.get_modify_ne _ _ f h
@[simp] theorem State.has_updCtx (s : State) (k j : Nat) (f : Ctx → Ctx) : (Tab.find? (s.updCtx k f).ctxs j).isSome = (Tab.find? s.ctxs j).isSome := Tab.find?_modify_isSome _ _ _ _
theorem State.wg_updWg (s : State) (k : Nat) (f : Wg → Wg) (h : (Tab.find? s.wgs k).isSome) : (s.updWg k f).wg k = f (s.wg k) := Tab.get_modify_same _ _ k f h
theorem State.wg_updWg_ne (s : State) {k j : Nat} (f : Wg → Wg) (h : j ≠ k) : (s.updWg k f).wg j = s.wg j := Tab.get_modify_ne _ _ f h
theorem State.core_updCore (s : State) (k : Nat) (f : Core → Core) : (s.updCore k f).core k = f (s.core k) := Tab.get_put_same _ _ _ _
theorem State.core_updCore_ne (s : State) {k j : Nat} (f : Core → Core) (h : j ≠ k) : (s.updCore k f).core j = s.core j := Tab.get_put_ne _ _ _ h
theorem State.vf_updVf (s : State) (k : Nat) (f : Vf → Vf) : (s.updVf k f).vf k = f (s.vf k) := Tab.get_put_same _ _ _ _
theorem State.vf_updVf_ne (s : State) {k j : Nat} (f : Vf → Vf) (h : j ≠ k) : (s.updVf k f).vf j = s.vf j := Tab.get_put_ne _ _ _ h
@[simp] theorem State.pf_updPf (s : State) (f : Pf → Pf) : (s.updPf f).pf = f s.pf := rfl
@[simp] theorem State.newId_fst (s : State) : s.newId.1 = s.ids := rfl
@[simp] theorem State.push_agenda (s : State) (i : Instr) (a : Args) (d : Option Nat) : (s.push i a d).agenda = s.agenda ++ [⟨i, a, d⟩] := rfl

/-- Reads of a part look at the table that holds it. -/
theorem State.ctx_congr {s t : State} (h : t.ctxs = s.ctxs) (k : Nat) : t.ctx k = s.ctx k := by unfold State.ctx; rw [h]
theorem State.wg_congr {s t : State} (h : t.wgs = s.wgs) (k : Nat) : t.wg k = s.wg k := by unfold State.wg; rw [h]
theorem State.core_congr {s t : State} (h : t.cores = s.cores) (k : Nat) : t.core k = s.core k := by unfold State.core; rw [h]
theorem State.vf_congr {s t : State} (h : t.vfs = s.vfs) (k : Nat) : t.vf k = s.vf k := by unfold State.vf; rw [h]

/-! ## Registers -/

theorem Ctx.vreg_setV (c : Ctx) (l n : Nat) (x : Word) (h : Tab.wf 0 c.v = true) : (c.setV l n x).vreg l n = x := Tab.get_set_same _ _ _ _ h
theorem Ctx.vreg_setV_ne (c : Ctx) {l n m j : Nat} (x : Word) (h : Tab.wf 0 c.v = true) (hk : vKey m j ≠ vKey l n) : (c.setV l n x).vreg m j = c.vreg m j := Tab.get_set_ne _ _ _ h hk
theorem Wg.sreg_setS (g : Wg) (n : Nat) (x : DWord) (h : Tab.wf 0 g.s = true) : (g.setS n x).sreg n = x := Tab.get_set_same _ _ _ _ h
theorem Wg.sreg_setS_ne (g : Wg) {n j : Nat} (x : DWord) (h : Tab.wf 0 g.s = true) (hj : j ≠ n) : (g.setS n x).sreg j = g.sreg j := Tab.get_set_ne _ _ _ h hj
/-- P7 always reads 1. -/
@[simp] theorem Ctx.pred_seven (c : Ctx) : c.pred 7 = BitVec.allOnes 32 := rfl

/-! ## Folds that leave a part of the state alone -/

theorem foldl_keeps {α β : Type} (π : State → β) (f : State → α → State) (l : List α) (h : ∀ s a, π (f s a) = π s) (s : State) : π (l.foldl f s) = π s := by
  induction l generalizing s with
  | nil => rfl
  | cons a t ih => rw [List.foldl_cons, ih, h]
theorem foldl_holds {α : Type} (P : State → Prop) (f : State → α → State) (l : List α) (h : ∀ s a, P s → P (f s a)) (s : State) (hs : P s) : P (l.foldl f s) := by
  induction l generalizing s with
  | nil => exact hs
  | cons a t ih => exact ih _ (h s a hs)

end Sys2Proof.Machine
end

