-- ==== Sys2Proof/Laws/Issue.lean ====
section
/-! SUPPORT. Laws of an issue: when a form runs and when it is rejected, and everything that State's parts hold after it. -/
namespace Sys2Proof.Machine

/-! ## The checks -/

theorem State.issuing_eq {s : State} {i : Issue} : s.issuing = some i ↔ s.issue = some i ∧ (Tab.find? s.ctxs i.ctx).isSome = true := by
  unfold State.issuing
  cases h : s.issue with
  | none => simp
  | some j =>
    by_cases hj : (Tab.find? s.ctxs j.ctx).isSome
    · simp only [hj, if_true, Option.some.injEq]
      exact ⟨fun e => ⟨e, e ▸ hj⟩, fun e => e.1⟩
    · simp only [hj, Bool.false_eq_true, if_false, reduceCtorEq, Option.some.injEq, false_iff, not_and]
      intro e; subst e; exact hj

theorem issuerCheck_none (i : Issue) (who : Issuer) (m n : Nat) : issuerCheck i who m = none ↔ issuerCheck i who n = none := by
  unfold issuerCheck; split <;> simp
/-- Whether the checks pass does not depend on the opcode, which only a report names. -/
theorem Form.check_none_opc (h : Hdr) (m n : Nat) (who : Issuer) (p : Plan) (q : Check) (s : State) (i : Issue) :
    (Form.check { h := h, opc := m, who := who, plan := p, queue := q } s i = none) ↔ (Form.check { h := h, opc := n, who := who, plan := p, queue := q } s i = none) := by
  unfold Form.check
  simp only [Option.or_eq_none_iff]
  rw [issuerCheck_none i who m n]

/-- A form whose checks pass runs. -/
theorem issueForm_next {f : Form} {eff : Issue → Lanes → State → Eff} {s : State} {i : Issue} (h : s.issuing = some i) (hc : f.check s i = none) :
    issueForm f eff s = .next (finish i f.h.c (hdrFlag f.h) f.plan (guardMask s i f.h) false (eff i (guardMask s i f.h) s)) := by
  unfold issueForm; simp only [h, hc]
/-- A form of which a check fails traps. -/
theorem issueForm_reject {f : Form} {eff : Issue → Lanes → State → Eff} {s : State} {i : Issue} {c d : Nat} (h : s.issuing = some i) (hc : f.check s i = some (c, d)) :
    issueForm f eff s = .next (rejectWord s i c d) := by
  unfold issueForm; simp only [h, hc]
theorem issueFormS_eq {f : Issue → State → Form} {eff : Issue → Lanes → State → Eff} {s : State} {i : Issue} (h : s.issuing = some i) :
    issueFormS f eff s = issueForm (f i s) eff s := by
  unfold issueFormS; simp only [h]

/-! ## Lanes and fronts -/

theorem Front.lane_updLanes (f : Front) (m : Lanes) (g : Nat → Lane → Lane) (l : Nat) :
    (f.updLanes m g).lane l = if l < f.lanes.length ∧ hasLane m l = true then g l (f.lane l) else f.lane l := by
  unfold Front.lane Front.updLanes nth
  by_cases hl : l < f.lanes.length
  · by_cases hm : hasLane m l = true
    · simp [hl, hm]
    · simp [hl, hm]
  · simp [hl, List.getD_eq_getElem?_getD]
@[simp] theorem Front.updLanes_frame (f : Front) (m : Lanes) (g : Nat → Lane → Lane) : (f.updLanes m g).latches = f.latches ∧ (f.updLanes m g).flags = f.flags ∧ (f.updLanes m g).chain = f.chain ∧ (f.updLanes m g).notBefore = f.notBefore ∧ (f.updLanes m g).lanes.length = f.lanes.length := by
  simp [Front.updLanes]
theorem Front.shifts_frame (l : List Latch) (f : Front) : (l.foldl Front.shift f).lanes = f.lanes ∧ (l.foldl Front.shift f).flags = f.flags ∧ (l.foldl Front.shift f).chain = f.chain ∧ (l.foldl Front.shift f).notBefore = f.notBefore := by
  induction l generalizing f with
  | nil => simp
  | cons a t ih => simpa [Front.shift] using ih (f.shift a)
theorem Front.lane_shifts (f : Front) (l : List Latch) (n : Nat) : (l.foldl Front.shift f).lane n = f.lane n := by
  unfold Front.lane; rw [(Front.shifts_frame l f).1]
/-- The lanes of the issuing front: those of the fragment as their word leaves them, the others as they were. -/
theorem Front.lane_afterIssue (f : Front) (i : Issue) (c : Bool) (e : Eff) (now l : Nat) :
    (f.afterIssue i c e now).lane l = if l < f.lanes.length ∧ hasLane i.exec l = true then (f.lane l).afterIssue i e l else f.lane l := by
  have h := Front.lane_shifts (f.updLanes i.exec fun l x => x.afterIssue i e l) e.shifts l
  rw [Front.lane_updLanes] at h
  exact h
@[simp] theorem Front.afterIssue_frame (f : Front) (i : Issue) (c : Bool) (e : Eff) (now : Nat) : (f.afterIssue i c e now).flags = f.flags ∧ (f.afterIssue i c e now).notBefore = f.notBefore ∧ (f.afterIssue i c e now).lastIssue = some now := by
  simp [Front.afterIssue, Front.shifts_frame]
/-- The latches: the word's results come first. -/
theorem Front.latches_afterIssue (f : Front) (i : Issue) (c : Bool) (e : Eff) (now : Nat) : (f.afterIssue i c e now).latches = (e.shifts.foldl Front.shift f).latches := by
  have : ∀ (l : List Latch) (g h : Front), g.latches = h.latches → (l.foldl Front.shift g).latches = (l.foldl Front.shift h).latches := by
    intro l
    induction l with
    | nil => intro g h e; exact e
    | cons a t ih => intro g h e; exact ih _ _ (by simp [Front.shift, e])
  exact this e.shifts _ f (by simp)
theorem Front.latch_zero (f : Front) (i : Issue) (c : Bool) (e : Eff) (now : Nat) (l : Latch) (h : e.shifts = [l]) : nth {} (f.afterIssue i c e now).latches 0 = l := by
  rw [Front.latches_afterIssue, h]; rfl

/-! ## Contexts -/

@[simp] theorem Ctx.updFront_frame (c : Ctx) (b : Bool) (g : Front → Front) : (c.updFront b g).wk = c.wk ∧ (c.updFront b g).num = c.num ∧ (c.updFront b g).waiting = c.waiting ∧ (c.updFront b g).v = c.v ∧ (c.updFront b g).p = c.p ∧ (c.updFront b g).fpctl = c.fpctl ∧ (c.updFront b g).fpstat = c.fpstat ∧ (c.updFront b g).limit = c.limit ∧ (c.updFront b g).issued = c.issued ∧ (c.updFront b g).mark = c.mark ∧ (c.updFront b g).turn = c.turn ∧ (c.updFront b g).lrWin = c.lrWin ∧ (c.updFront b g).deferred = c.deferred ∧ (c.updFront b g).resv = c.resv ∧ (c.updFront b g).scFails = c.scFails ∧ (c.updFront b g).streams = c.streams ∧ (c.updFront b g).outstanding = c.outstanding ∧ (c.updFront b g).fences = c.fences ∧ (c.updFront b g).syncs = c.syncs ∧ (c.updFront b g).pends = c.pends ∧ (c.updFront b g).ibuf = c.ibuf ∧ (c.updFront b g).seq = c.seq ∧ (c.updFront b g).copies = c.copies ∧ (c.updFront b g).collsCovered = c.collsCovered ∧ (c.updFront b g).known = c.known ∧ (c.updFront b g).told = c.told ∧ (c.updFront b g).heard = c.heard ∧ (c.updFront b g).evicted = c.evicted := by
  unfold Ctx.updFront; split <;> simp
theorem Ctx.frontAt_updFront (c : Ctx) (b : Bool) (g : Front → Front) (h : b = true → c.trap.isSome) : (c.updFront b g).frontAt b = g (c.frontAt b) := by
  cases b with
  | false => rfl
  | true =>
    obtain ⟨t, ht⟩ := Option.isSome_iff_exists.mp (h rfl)
    simp [Ctx.updFront, Ctx.frontAt, ht]
@[simp] theorem Ctx.trap_updFront_isSome (c : Ctx) (b : Bool) (g : Front → Front) : (c.updFront b g).trap.isSome = c.trap.isSome := by
  cases b <;> simp [Ctx.updFront]
theorem Ctx.followTurn_frame (c : Ctx) (x b : Lanes) (d : Bool) : ∃ t m r, c.followTurn x b d = { c with turn := t, turnLanes := m, endTurn := r } := by
  unfold Ctx.followTurn
  split
  · exact ⟨c.turn, c.turnLanes, c.endTurn, rfl⟩
  · dsimp only
    split
    · exact ⟨_, c.turnLanes, _, rfl⟩
    · split
      · exact ⟨_, c.turnLanes, _, rfl⟩
      · exact ⟨_, _, _, rfl⟩
theorem Ctx.startTurn_frame (c : Ctx) : ∃ m t l r, c.startTurn = { c with mark := m, turn := t, turnLanes := l, endTurn := r } := by
  unfold Ctx.startTurn
  dsimp only
  split
  · exact ⟨_, _, _, _, rfl⟩
  · exact ⟨c.mark, c.turn, c.turnLanes, c.endTurn, rfl⟩
/-- The fields of the fairness timer, and the context with some of its own. -/
structure Timer where
  (issued : Nat) (deferred : Bool) (lrWin : Option (DWord × Nat)) (mark : Option DWord) (turn : Option (DWord × Nat)) (turnLanes : Lanes) (endTurn : Bool)
def Ctx.timed (c : Ctx) (t : Timer) : Ctx :=
  { c with issued := t.issued, deferred := t.deferred, lrWin := t.lrWin, mark := t.mark, turn := t.turn, turnLanes := t.turnLanes, endTurn := t.endTurn }
theorem Ctx.yield_frame (c : Ctx) : ∃ t, c.yield = c.timed t := by
  unfold Ctx.yield
  split
  · exact ⟨⟨_, _, _, _, _, _, _⟩, rfl⟩
  · split
    · exact ⟨⟨c.issued, c.deferred, c.lrWin, c.mark, c.turn, c.turnLanes, c.endTurn⟩, rfl⟩
    · obtain ⟨m, t, l, r, h⟩ := Ctx.startTurn_frame c
      rw [h]; exact ⟨⟨_, _, _, _, _, _, _⟩, rfl⟩
theorem Ctx.trim_frame (c : Ctx) : ∃ t, c.trim = c.timed t := by
  unfold Ctx.trim
  dsimp only
  repeat' split
  all_goals exact ⟨⟨_, _, _, _, _, _, _⟩, rfl⟩
/-- The fairness timer changes nothing but its own fields. -/
theorem Ctx.account_frame (c : Ctx) (x : Lanes) (e : Eff) (a : Lanes) : ∃ t, c.account x e a = c.timed t := by
  have h : ∀ (c1 : Ctx) (b : Lanes) (f : Bool), (∃ t, c1 = c.timed t) →
      ∃ t, (if f then (if e.yields then c1.yield else c1.followTurn x b c1.lrWin.isSome) else (if e.yields then c1.yield else c1.followTurn x b c1.lrWin.isSome).trim) = c.timed t := by
    rintro c1 b f ⟨t, rfl⟩
    have hy : ∃ v, (if e.yields then (c.timed t).yield else (c.timed t).followTurn x b (c.timed t).lrWin.isSome) = c.timed v := by
      split
      · obtain ⟨v, hv⟩ := Ctx.yield_frame (c.timed t)
        rw [hv]; exact ⟨v, rfl⟩
      · obtain ⟨v, m, r, hv⟩ := Ctx.followTurn_frame (c.timed t) x b (c.timed t).lrWin.isSome
        rw [hv]; exact ⟨⟨_, _, _, _, _, _, _⟩, rfl⟩
    obtain ⟨v, hv⟩ := hy
    rw [hv]
    split
    · exact ⟨v, rfl⟩
    · obtain ⟨u, hu⟩ := Ctx.trim_frame (c.timed v)
      rw [hu]; exact ⟨u, rfl⟩
  unfold Ctx.account
  dsimp only
  apply h
  repeat' split
  all_goals exact ⟨⟨_, _, _, _, _, _, _⟩, rfl⟩

@[simp] theorem Ctx.issuedBy_frame (x : Ctx) (i : Issue) (c : Bool) (e : Eff) (now : Nat) : (x.issuedBy i c e now).v = x.v ∧ (x.issuedBy i c e now).p = x.p ∧ (x.issuedBy i c e now).fpctl = x.fpctl ∧ (x.issuedBy i c e now).limit = x.limit ∧ (x.issuedBy i c e now).resv = x.resv ∧ (x.issuedBy i c e now).streams = x.streams ∧ (x.issuedBy i c e now).fences = x.fences ∧ (x.issuedBy i c e now).syncs = x.syncs ∧ (x.issuedBy i c e now).waiting = x.waiting ∧ (x.issuedBy i c e now).outstanding = x.outstanding ∧ (x.issuedBy i c e now).scFails = x.scFails ∧ (x.issuedBy i c e now).copies = x.copies ∧ (x.issuedBy i c e now).collsCovered = x.collsCovered ∧ (x.issuedBy i c e now).known = x.known ∧ (x.issuedBy i c e now).told = x.told ∧ (x.issuedBy i c e now).heard = x.heard ∧ (x.issuedBy i c e now).evicted = x.evicted ∧ (x.issuedBy i c e now).ibuf = x.ibuf ∧ (x.issuedBy i c e now).wk = x.wk ∧ (x.issuedBy i c e now).num = x.num ∧ (x.issuedBy i c e now).fpstat = x.fpstat ||| e.fl.setWidth 32 ∧ (x.issuedBy i c e now).pends = x.pends ∧ (x.issuedBy i c e now).trap.isSome = x.trap.isSome := by
  simp [Ctx.issuedBy]
theorem Ctx.withPend_frame (x : Ctx) (pd : Option Pend) : (x.withPend pd).v = x.v ∧ (x.withPend pd).p = x.p ∧ (x.withPend pd).fpctl = x.fpctl ∧ (x.withPend pd).limit = x.limit ∧ (x.withPend pd).resv = x.resv ∧ (x.withPend pd).streams = x.streams ∧ (x.withPend pd).fences = x.fences ∧ (x.withPend pd).syncs = x.syncs ∧ (x.withPend pd).waiting = x.waiting ∧ (x.withPend pd).outstanding = x.outstanding ∧ (x.withPend pd).scFails = x.scFails ∧ (x.withPend pd).copies = x.copies ∧ (x.withPend pd).collsCovered = x.collsCovered ∧ (x.withPend pd).known = x.known ∧ (x.withPend pd).told = x.told ∧ (x.withPend pd).heard = x.heard ∧ (x.withPend pd).evicted = x.evicted ∧ (x.withPend pd).ibuf = x.ibuf ∧ (x.withPend pd).wk = x.wk ∧ (x.withPend pd).num = x.num ∧ (x.withPend pd).fpstat = x.fpstat ∧ (x.withPend pd).pends = x.pends ++ pd.toList ∧ (x.withPend pd).trap.isSome = x.trap.isSome := by
  unfold Ctx.withPend
  cases pd with
  | none => simp
  | some q => dsimp only; split <;> simp
/-- What an issue leaves alone in its context; and what is in flight after it. -/
theorem Ctx.afterIssue_frame (x : Ctx) (i : Issue) (c : Bool) (act : Lanes) (e : Eff) (now : Nat) (pd : Option Pend) :
    (x.afterIssue i c act e now pd).v = x.v ∧ (x.afterIssue i c act e now pd).p = x.p ∧ (x.afterIssue i c act e now pd).fpctl = x.fpctl ∧
    (x.afterIssue i c act e now pd).limit = x.limit ∧ (x.afterIssue i c act e now pd).resv = x.resv ∧ (x.afterIssue i c act e now pd).streams = x.streams ∧
    (x.afterIssue i c act e now pd).fences = x.fences ∧ (x.afterIssue i c act e now pd).syncs = x.syncs ∧ (x.afterIssue i c act e now pd).waiting = x.waiting ∧
    (x.afterIssue i c act e now pd).outstanding = x.outstanding ∧ (x.afterIssue i c act e now pd).scFails = x.scFails ∧ (x.afterIssue i c act e now pd).copies = x.copies ∧
    (x.afterIssue i c act e now pd).collsCovered = x.collsCovered ∧ (x.afterIssue i c act e now pd).known = x.known ∧ (x.afterIssue i c act e now pd).told = x.told ∧ (x.afterIssue i c act e now pd).heard = x.heard ∧ (x.afterIssue i c act e now pd).evicted = x.evicted ∧
    (x.afterIssue i c act e now pd).ibuf = x.ibuf ∧ (x.afterIssue i c act e now pd).wk = x.wk ∧ (x.afterIssue i c act e now pd).num = x.num ∧
    (x.afterIssue i c act e now pd).fpstat = x.fpstat ||| e.fl.setWidth 32 ∧ (x.afterIssue i c act e now pd).pends = x.pends ++ pd.toList ∧
    (x.afterIssue i c act e now pd).trap.isSome = x.trap.isSome := by
  have hf := Ctx.withPend_frame (x.issuedBy i c e now) pd
  simp only [Ctx.issuedBy_frame] at hf
  have hy (y : Ctx) : ∃ t, (if (i.level || decide (i.ctx % 32 = 16)) = true then y else y.account i.exec e act) = y.timed t := by
    split
    · exact ⟨⟨y.issued, y.deferred, y.lrWin, y.mark, y.turn, y.turnLanes, y.endTurn⟩, rfl⟩
    · exact Ctx.account_frame y i.exec e act
  obtain ⟨t, h⟩ := hy (((x.issuedBy i c e now).withPend pd).noteVector act e now)
  unfold Ctx.afterIssue
  rw [h]; exact hf
/-- The front that issued: as its word leaves it, but that a flag has counted up. -/
theorem Ctx.frontAt_afterIssue (x : Ctx) (i : Issue) (c : Bool) (act : Lanes) (e : Eff) (now : Nat) (pd : Option Pend) (h : i.level = true → x.trap.isSome)
    (hq : ∀ q b n, pd = some q → q.flag = some (b, n) → b = i.level) :
    (x.afterIssue i c act e now pd).frontAt i.level = { (x.frontAt i.level).afterIssue i c e now with
      flags := match pd.bind (·.flag) with | some (_, n) => updNth (x.frontAt i.level).flags n (· + 1) | none => (x.frontAt i.level).flags } := by
  have ha : ∀ y : Ctx, (if (i.level || decide (i.ctx % 32 = 16)) = true then y else y.account i.exec e act).frontAt i.level = y.frontAt i.level := by
    intro y
    split
    · rfl
    · obtain ⟨t, hh⟩ := Ctx.account_frame y i.exec e act
      rw [hh]; cases i.level <;> rfl
  have hn (y : Ctx) : (y.noteVector act e now).frontAt i.level = y.frontAt i.level := by cases i.level <;> rfl
  have h0 : (x.issuedBy i c e now).frontAt i.level = (x.frontAt i.level).afterIssue i c e now := by
    rw [← Ctx.frontAt_updFront x i.level (fun f => f.afterIssue i c e now) h]
    unfold Ctx.issuedBy; cases i.level <;> rfl
  have hfl := (Front.afterIssue_frame (x.frontAt i.level) i c e now).1
  unfold Ctx.afterIssue
  dsimp only
  rw [ha, hn]
  cases pd with
  | none =>
    unfold Ctx.withPend
    dsimp only [Option.bind]
    rw [h0, ← hfl]
  | some q =>
    have hp : ∀ (y : Ctx) (ps : List Pend), ({ y with pends := ps } : Ctx).frontAt i.level = y.frontAt i.level := by intro y ps; cases i.level <;> rfl
    unfold Ctx.withPend
    dsimp only [Option.bind]
    rw [hp]
    cases hqf : q.flag with
    | none =>
      dsimp only
      rw [h0, ← hfl]
    | some bn =>
      obtain ⟨b, n⟩ := bn
      obtain rfl := hq q b n rfl hqf
      dsimp only
      rw [Ctx.frontAt_updFront _ _ _ (by intro hl; simpa using h hl), h0, hfl]

/-! ## The state after an issue -/

@[simp] theorem State.takeId_frame (s : State) (b : Bool) : (s.takeId b).clock = s.clock ∧ (s.takeId b).powered = s.powered ∧ (s.takeId b).running = s.running ∧ (s.takeId b).linkUp = s.linkUp ∧ (s.takeId b).svn = s.svn ∧ (s.takeId b).rev = s.rev ∧ (s.takeId b).flash = s.flash ∧ (s.takeId b).cores = s.cores ∧ (s.takeId b).dies = s.dies ∧ (s.takeId b).wgs = s.wgs ∧ (s.takeId b).ctxs = s.ctxs ∧ (s.takeId b).grids = s.grids ∧ (s.takeId b).coresident = s.coresident ∧ (s.takeId b).vfs = s.vfs ∧ (s.takeId b).pf = s.pf ∧ (s.takeId b).mem = s.mem ∧ (s.takeId b).cist = s.cist ∧ (s.takeId b).fe = s.fe ∧ (s.takeId b).cistBad = s.cistBad ∧ (s.takeId b).l1 = s.l1 ∧ (s.takeId b).dir = s.dir ∧ (s.takeId b).llc = s.llc ∧ (s.takeId b).reqs = s.reqs ∧ (s.takeId b).accs = s.accs ∧ (s.takeId b).jobs = s.jobs ∧ (s.takeId b).copies = s.copies ∧ (s.takeId b).colls = s.colls ∧ (s.takeId b).tokenq = s.tokenq ∧ (s.takeId b).agenda = s.agenda ∧ (s.takeId b).picks = s.picks ∧ (s.takeId b).args = s.args ∧ (s.takeId b).issue = s.issue ∧ (s.takeId b).fresh = s.fresh ∧ (s.takeId b).answer = s.answer ∧ (s.takeId b).views = s.views := by
  simp [State.takeId]
@[simp] theorem State.askTurn_frame (s : State) (k : Nat) : (s.askTurn k).clock = s.clock ∧ (s.askTurn k).powered = s.powered ∧ (s.askTurn k).running = s.running ∧ (s.askTurn k).linkUp = s.linkUp ∧ (s.askTurn k).svn = s.svn ∧ (s.askTurn k).rev = s.rev ∧ (s.askTurn k).flash = s.flash ∧ (s.askTurn k).cores = s.cores ∧ (s.askTurn k).dies = s.dies ∧ (s.askTurn k).wgs = s.wgs ∧ (s.askTurn k).ctxs = s.ctxs ∧ (s.askTurn k).grids = s.grids ∧ (s.askTurn k).coresident = s.coresident ∧ (s.askTurn k).vfs = s.vfs ∧ (s.askTurn k).pf = s.pf ∧ (s.askTurn k).mem = s.mem ∧ (s.askTurn k).cist = s.cist ∧ (s.askTurn k).fe = s.fe ∧ (s.askTurn k).cistBad = s.cistBad ∧ (s.askTurn k).l1 = s.l1 ∧ (s.askTurn k).dir = s.dir ∧ (s.askTurn k).llc = s.llc ∧ (s.askTurn k).reqs = s.reqs ∧ (s.askTurn k).accs = s.accs ∧ (s.askTurn k).jobs = s.jobs ∧ (s.askTurn k).copies = s.copies ∧ (s.askTurn k).colls = s.colls ∧ (s.askTurn k).tokenq = s.tokenq ∧ (s.askTurn k).picks = s.picks ∧ (s.askTurn k).args = s.args ∧ (s.askTurn k).issue = s.issue ∧ (s.askTurn k).fresh = s.fresh ∧ (s.askTurn k).ids = s.ids ∧ (s.askTurn k).answer = s.answer ∧ (s.askTurn k).views = s.views := by
  unfold State.askTurn; split <;> simp

section
variable (i : Issue) (c : Bool) (setf : Option Nat) (p : Plan) (act : Lanes) (pair : Bool) (e : Eff)

/-- A word changes, beyond its own effect, only its context, its core's counts, the numbering and the agenda. -/
@[simp] theorem State.afterWord_frame (s : State) : (s.afterWord i c setf p act pair e).clock = s.clock ∧ (s.afterWord i c setf p act pair e).powered = s.powered ∧ (s.afterWord i c setf p act pair e).running = s.running ∧ (s.afterWord i c setf p act pair e).linkUp = s.linkUp ∧ (s.afterWord i c setf p act pair e).svn = s.svn ∧ (s.afterWord i c setf p act pair e).rev = s.rev ∧ (s.afterWord i c setf p act pair e).flash = s.flash ∧ (s.afterWord i c setf p act pair e).dies = s.dies ∧ (s.afterWord i c setf p act pair e).wgs = s.wgs ∧ (s.afterWord i c setf p act pair e).grids = s.grids ∧ (s.afterWord i c setf p act pair e).coresident = s.coresident ∧ (s.afterWord i c setf p act pair e).vfs = s.vfs ∧ (s.afterWord i c setf p act pair e).pf = s.pf ∧ (s.afterWord i c setf p act pair e).mem = s.mem ∧ (s.afterWord i c setf p act pair e).cist = s.cist ∧ (s.afterWord i c setf p act pair e).fe = s.fe ∧ (s.afterWord i c setf p act pair e).cistBad = s.cistBad ∧ (s.afterWord i c setf p act pair e).l1 = s.l1 ∧ (s.afterWord i c setf p act pair e).dir = s.dir ∧ (s.afterWord i c setf p act pair e).llc = s.llc ∧ (s.afterWord i c setf p act pair e).reqs = s.reqs ∧ (s.afterWord i c setf p act pair e).accs = s.accs ∧ (s.afterWord i c setf p act pair e).jobs = s.jobs ∧ (s.afterWord i c setf p act pair e).copies = s.copies ∧ (s.afterWord i c setf p act pair e).colls = s.colls ∧ (s.afterWord i c setf p act pair e).tokenq = s.tokenq ∧ (s.afterWord i c setf p act pair e).picks = s.picks ∧ (s.afterWord i c setf p act pair e).args = s.args ∧ (s.afterWord i c setf p act pair e).fresh = s.fresh ∧ (s.afterWord i c setf p act pair e).answer = s.answer ∧ (s.afterWord i c setf p act pair e).views = s.views ∧ (s.afterWord i c setf p act pair e).issue = none := by
  unfold State.afterWord; simp
theorem State.ctxs_afterWord (s : State) : (s.afterWord i c setf p act pair e).ctxs =
    ((s.takeId (e.vary.isNone && (pendOf i setf p act e (s.core (s.coreOf i.ctx)).time s.ids).isSome)).updCtx i.ctx fun x =>
      x.afterIssue i c act e (s.core (s.coreOf i.ctx)).time (pendOf i setf p act e (s.core (s.coreOf i.ctx)).time s.ids)).ctxs := by
  unfold State.afterWord; simp
/-- The context that issued. -/
theorem State.ctx_afterWord (s : State) (hc : (Tab.find? s.ctxs i.ctx).isSome) : (s.afterWord i c setf p act pair e).ctx i.ctx =
    (s.ctx i.ctx).afterIssue i c act e (s.core (s.coreOf i.ctx)).time (pendOf i setf p act e (s.core (s.coreOf i.ctx)).time s.ids) := by
  rw [State.ctx_congr (State.ctxs_afterWord i c setf p act pair e s)]
  rw [State.ctx_updCtx _ _ _ (by simpa using hc), State.ctx_congr (s := s) (by simp)]
/-- Every other context. -/
theorem State.ctx_afterWord_ne (s : State) {k : Nat} (hk : k ≠ i.ctx) : (s.afterWord i c setf p act pair e).ctx k = s.ctx k := by
  rw [State.ctx_congr (State.ctxs_afterWord i c setf p act pair e s)]
  rw [State.ctx_updCtx_ne _ _ hk, State.ctx_congr (s := s) (by simp)]
@[simp] theorem State.has_afterWord (s : State) (k : Nat) : (Tab.find? (s.afterWord i c setf p act pair e).ctxs k).isSome = (Tab.find? s.ctxs k).isSome := by
  unfold State.afterWord; simp
theorem finish_eq (h : e.fault = none) : finish i c setf p act pair e = e.st.afterWord i c setf p act pair e := by
  unfold finish; simp only [h]
theorem pendOf_flag (now id : Nat) (q : Pend) (b : Bool) (n : Nat) (h : pendOf i setf p act e now id = some q) (hf : q.flag = some (b, n)) : b = i.level := by
  unfold pendOf at h
  dsimp only at h
  have : q.flag = setf.map fun n => (i.level, n) := by
    split at h
    · split at h
      · cases h
      · cases h; rfl
    · cases h
    · cases h; rfl
  rw [this] at hf
  cases setf with
  | none => cases hf
  | some m => cases hf; rfl
end

end Sys2Proof.Machine
end

