-- ==== Sys2Proof/Laws/PerInstr.lean ====
section
/-! SUPPORT. The family EncodeLen: an instruction's first word says how many bytes its encoding takes (R148, R149). -/
namespace Sys2Proof.Laws.EncodeLen
open Sys2Proof

/-- The encoding takes the bytes that its first word announces; a happening has none. -/
def Statement (i : Instr) : Prop := (encode i).length = match i.words with | [] => 0 | w :: _ => sizeOf w

theorem bytesLE_length (n v : Nat) : (bytesLE n v).length = n := by
  induction n generalizing v with
  | zero => rfl
  | succ n ih => simp [bytesLE, ih]
/-- FMT of a full or extended word (R149). -/
theorem fmt_full (r : Raw) : r.word0.extractLsb' 62 2 = if r.ext then 2 else 0 := by
  apply BitVec.eq_of_getLsbD_eq
  intro j hj
  have : j = 0 ∨ j = 1 := by omega
  cases h : r.ext <;> rcases this with rfl | rfl <;> simp only [Raw.word0, h, BitVec.getLsbD_extractLsb', BitVec.getLsbD_append] <;> simp
/-- FMT of a pair word. -/
theorem fmt_pair (op : PairOp) (x : PairW) : (x.word op).extractLsb' 62 2 = 1 := by
  apply BitVec.eq_of_getLsbD_eq
  intro j hj
  have : j = 0 ∨ j = 1 := by omega
  rcases this with rfl | rfl <;> simp only [PairW.word, BitVec.getLsbD_extractLsb', BitVec.getLsbD_append] <;> simp

theorem all (i : Instr) : Statement i := by
  unfold Statement encode Instr.words
  cases i.raw with
  | some r => cases h : r.ext <;> simp [sizeOf, fmt_full, h, bytesLE_length]
  | none =>
    cases i.pair with
    | some p => simp [sizeOf, fmt_pair, bytesLE_length]
    | none => rfl

theorem iadd (x : _) : Statement (.iadd x) := all _
theorem iaddX (x : _) : Statement (.iaddX x) := all _
theorem isub (x : _) : Statement (.isub x) := all _
theorem isubX (x : _) : Statement (.isubX x) := all _
theorem imul (x : _) : Statement (.imul x) := all _
theorem imulX (x : _) : Statement (.imulX x) := all _
theorem imulh (x : _) : Statement (.imulh x) := all _
theorem imulhX (x : _) : Statement (.imulhX x) := all _
theorem imad (x : _) : Statement (.imad x) := all _
theorem imin (x : _) : Statement (.imin x) := all _
theorem iminX (x : _) : Statement (.iminX x) := all _
theorem imax (x : _) : Statement (.imax x) := all _
theorem imaxX (x : _) : Statement (.imaxX x) := all _
theorem iabs (x : _) : Statement (.iabs x) := all _
theorem and (x : _) : Statement (.and x) := all _
theorem andX (x : _) : Statement (.andX x) := all _
theorem or (x : _) : Statement (.or x) := all _
theorem orX (x : _) : Statement (.orX x) := all _
theorem xor (x : _) : Statement (.xor x) := all _
theorem xorX (x : _) : Statement (.xorX x) := all _
theorem andn (x : _) : Statement (.andn x) := all _
theorem andnX (x : _) : Statement (.andnX x) := all _
theorem shl (x : _) : Statement (.shl x) := all _
theorem shlX (x : _) : Statement (.shlX x) := all _
theorem shr (x : _) : Statement (.shr x) := all _
theorem shrX (x : _) : Statement (.shrX x) := all _
theorem sar (x : _) : Statement (.sar x) := all _
theorem sarX (x : _) : Statement (.sarX x) := all _
theorem popc (x : _) : Statement (.popc x) := all _
theorem clz (x : _) : Statement (.clz x) := all _
theorem brev (x : _) : Statement (.brev x) := all _
theorem bfx (x : _) : Statement (.bfx x) := all _
theorem bfxX (x : _) : Statement (.bfxX x) := all _
theorem bfi (x : _) : Statement (.bfi x) := all _
theorem bfiX (x : _) : Statement (.bfiX x) := all _
theorem lea (x : _) : Statement (.lea x) := all _
theorem icmp (x : _) : Statement (.icmp x) := all _
theorem icmpX (x : _) : Statement (.icmpX x) := all _
theorem sel (x : _) : Statement (.sel x) := all _
theorem movi (x : _) : Statement (.movi x) := all _
theorem moviX (x : _) : Statement (.moviX x) := all _
theorem fadd (x : _) : Statement (.fadd x) := all _
theorem faddX (x : _) : Statement (.faddX x) := all _
theorem fsub (x : _) : Statement (.fsub x) := all _
theorem fsubX (x : _) : Statement (.fsubX x) := all _
theorem fmul (x : _) : Statement (.fmul x) := all _
theorem fmulX (x : _) : Statement (.fmulX x) := all _
theorem ffma (x : _) : Statement (.ffma x) := all _
theorem fmin (x : _) : Statement (.fmin x) := all _
theorem fmax (x : _) : Statement (.fmax x) := all _
theorem fcmp (x : _) : Statement (.fcmp x) := all _
theorem frcp (x : _) : Statement (.frcp x) := all _
theorem frsq (x : _) : Statement (.frsq x) := all _
theorem fsqrt (x : _) : Statement (.fsqrt x) := all _
theorem fexp2 (x : _) : Statement (.fexp2 x) := all _
theorem flog2 (x : _) : Statement (.flog2 x) := all _
theorem fsin (x : _) : Statement (.fsin x) := all _
theorem fcos (x : _) : Statement (.fcos x) := all _
theorem frnd (x : _) : Statement (.frnd x) := all _
theorem fclass (x : _) : Statement (.fclass x) := all _
theorem hadd2 (x : _) : Statement (.hadd2 x) := all _
theorem hmul2 (x : _) : Statement (.hmul2 x) := all _
theorem hfma2 (x : _) : Statement (.hfma2 x) := all _
theorem badd2 (x : _) : Statement (.badd2 x) := all _
theorem bmul2 (x : _) : Statement (.bmul2 x) := all _
theorem bfma2 (x : _) : Statement (.bfma2 x) := all _
theorem mov (x : _) : Statement (.mov x) := all _
theorem movs (x : _) : Statement (.movs x) := all _
theorem f2i (x : _) : Statement (.f2i x) := all _
theorem i2f (x : _) : Statement (.i2f x) := all _
theorem fcvt (x : _) : Statement (.fcvt x) := all _
theorem qpack (x : _) : Statement (.qpack x) := all _
theorem qunpk (x : _) : Statement (.qunpk x) := all _
theorem shfl (x : _) : Statement (.shfl x) := all _
theorem vote (x : _) : Statement (.vote x) := all _
theorem redg (x : _) : Statement (.redg x) := all _
theorem scang (x : _) : Statement (.scang x) := all _
theorem rdsr (x : _) : Statement (.rdsr x) := all _
theorem wrsr (x : _) : Statement (.wrsr x) := all _
theorem movts (x : _) : Statement (.movts x) := all _
theorem nop (x : _) : Statement (.nop x) := all _
theorem bra (x : _) : Statement (.bra x) := all _
theorem braX (x : _) : Statement (.braX x) := all _
theorem brx (x : _) : Statement (.brx x) := all _
theorem call (x : _) : Statement (.call x) := all _
theorem callX (x : _) : Statement (.callX x) := all _
theorem callx (x : _) : Statement (.callx x) := all _
theorem ret (x : _) : Statement (.ret x) := all _
theorem land (x : _) : Statement (.land x) := all _
theorem exit (x : _) : Statement (.exit x) := all _
theorem yield (x : _) : Statement (.yield x) := all _
theorem dqpush (x : _) : Statement (.dqpush x) := all _
theorem dqpop (x : _) : Statement (.dqpop x) := all _
theorem tfence (x : _) : Statement (.tfence x) := all _
theorem ld8 (x : _) : Statement (.ld8 x) := all _
theorem ld8X (x : _) : Statement (.ld8X x) := all _
theorem ld16 (x : _) : Statement (.ld16 x) := all _
theorem ld16X (x : _) : Statement (.ld16X x) := all _
theorem ld32 (x : _) : Statement (.ld32 x) := all _
theorem ld32X (x : _) : Statement (.ld32X x) := all _
theorem ld64 (x : _) : Statement (.ld64 x) := all _
theorem ld64X (x : _) : Statement (.ld64X x) := all _
theorem ld128 (x : _) : Statement (.ld128 x) := all _
theorem ld128X (x : _) : Statement (.ld128X x) := all _
theorem st8 (x : _) : Statement (.st8 x) := all _
theorem st8X (x : _) : Statement (.st8X x) := all _
theorem st16 (x : _) : Statement (.st16 x) := all _
theorem st16X (x : _) : Statement (.st16X x) := all _
theorem st32 (x : _) : Statement (.st32 x) := all _
theorem st32X (x : _) : Statement (.st32X x) := all _
theorem st64 (x : _) : Statement (.st64 x) := all _
theorem st64X (x : _) : Statement (.st64X x) := all _
theorem st128 (x : _) : Statement (.st128 x) := all _
theorem st128X (x : _) : Statement (.st128X x) := all _
theorem lds (x : _) : Statement (.lds x) := all _
theorem ldsX (x : _) : Statement (.ldsX x) := all _
theorem sts (x : _) : Statement (.sts x) := all _
theorem stsX (x : _) : Statement (.stsX x) := all _
theorem ldlv (x : _) : Statement (.ldlv x) := all _
theorem stlv (x : _) : Statement (.stlv x) := all _
theorem ldp (x : _) : Statement (.ldp x) := all _
theorem ldpX (x : _) : Statement (.ldpX x) := all _
theorem gath (x : _) : Statement (.gath x) := all _
theorem gathX (x : _) : Statement (.gathX x) := all _
theorem scat (x : _) : Statement (.scat x) := all _
theorem scatX (x : _) : Statement (.scatX x) := all _
theorem cinv (x : _) : Statement (.cinv x) := all _
theorem cflush (x : _) : Statement (.cflush x) := all _
theorem fence (x : _) : Statement (.fence x) := all _
theorem ldfe (x : _) : Statement (.ldfe x) := all _
theorem ldfeX (x : _) : Statement (.ldfeX x) := all _
theorem stef (x : _) : Statement (.stef x) := all _
theorem stefX (x : _) : Statement (.stefX x) := all _
theorem feset (x : _) : Statement (.feset x) := all _
theorem atom (x : _) : Statement (.atom x) := all _
theorem atcas (x : _) : Statement (.atcas x) := all _
theorem red (x : _) : Statement (.red x) := all _
theorem lr (x : _) : Statement (.lr x) := all _
theorem lrX (x : _) : Statement (.lrX x) := all _
theorem sc (x : _) : Statement (.sc x) := all _
theorem bari (x : _) : Statement (.bari x) := all _
theorem bariX (x : _) : Statement (.bariX x) := all _
theorem bara (x : _) : Statement (.bara x) := all _
theorem barad (x : _) : Statement (.barad x) := all _
theorem barw (x : _) : Statement (.barw x) := all _
theorem bart (x : _) : Statement (.bart x) := all _
theorem sync (x : _) : Statement (.sync x) := all _
theorem tld (x : _) : Statement (.tld x) := all _
theorem tst (x : _) : Statement (.tst x) := all _
theorem tzero (x : _) : Statement (.tzero x) := all _
theorem tmma (x : _) : Statement (.tmma x) := all _
theorem tmms (x : _) : Statement (.tmms x) := all _
theorem tmmq (x : _) : Statement (.tmmq x) := all _
theorem trdy (x : _) : Statement (.trdy x) := all _
theorem twait (x : _) : Statement (.twait x) := all _
theorem tacc (x : _) : Statement (.tacc x) := all _
theorem taccXp (x : _) : Statement (.taccXp x) := all _
theorem taccScl (x : _) : Statement (.taccScl x) := all _
theorem taccWr (x : _) : Statement (.taccWr x) := all _
theorem tgemm (x : _) : Statement (.tgemm x) := all _
theorem cpy (x : _) : Statement (.cpy x) := all _
theorem cpym (x : _) : Statement (.cpym x) := all _
theorem cpycv (x : _) : Statement (.cpycv x) := all _
theorem cpylb (x : _) : Statement (.cpylb x) := all _
theorem fbopen (x : _) : Statement (.fbopen x) := all _
theorem fbnext (x : _) : Statement (.fbnext x) := all _
theorem fbmeet (x : _) : Statement (.fbmeet x) := all _
theorem fbjoin (x : _) : Statement (.fbjoin x) := all _
theorem fbskip (x : _) : Statement (.fbskip x) := all _
theorem fbsave (x : _) : Statement (.fbsave x) := all _
theorem fbsaveX (x : _) : Statement (.fbsaveX x) := all _
theorem fbrest (x : _) : Statement (.fbrest x) := all _
theorem fbrestX (x : _) : Statement (.fbrestX x) := all _
theorem coll (x : _) : Statement (.coll x) := all _
theorem collw (x : _) : Statement (.collw x) := all _
theorem launch (x : _) : Statement (.launch x) := all _
theorem join (x : _) : Statement (.join x) := all _
theorem trap (x : _) : Statement (.trap x) := all _
theorem tret (x : _) : Statement (.tret x) := all _
theorem tretSkip (x : _) : Statement (.tretSkip x) := all _
theorem tretTo (x : _) : Statement (.tretTo x) := all _
theorem tkill (x : _) : Statement (.tkill x) := all _
theorem tlbinvPage (x : _) : Statement (.tlbinvPage x) := all _
theorem tlbinvRange (x : _) : Statement (.tlbinvRange x) := all _
theorem tlbinvVf (x : _) : Statement (.tlbinvVf x) := all _
theorem icinv (x : _) : Statement (.icinv x) := all _
theorem icinvAll (x : _) : Statement (.icinvAll x) := all _
theorem reclaim (x : _) : Statement (.reclaim x) := all _
theorem pwrhint (x : _) : Statement (.pwrhint x) := all _
theorem brstk (x : _) : Statement (.brstk x) := all _
theorem rcvpt (x : _) : Statement (.rcvpt x) := all _
theorem rcvj (x : _) : Statement (.rcvj x) := all _
theorem scbwait (x : _) : Statement (.scbwait x) := all _
theorem ldcoh (x : _) : Statement (.ldcoh x) := all _
theorem stcoh (x : _) : Statement (.stcoh x) := all _
theorem mma8 (x : _) : Statement (.mma8 x) := all _
theorem bymix (x : _) : Statement (.bymix x) := all _
theorem nopPair (x : _) : Statement (.nopPair x) := all _
theorem iaddPair (x : _) : Statement (.iaddPair x) := all _
theorem isubPair (x : _) : Statement (.isubPair x) := all _
theorem imulPair (x : _) : Statement (.imulPair x) := all _
theorem iminPair (x : _) : Statement (.iminPair x) := all _
theorem imaxPair (x : _) : Statement (.imaxPair x) := all _
theorem andPair (x : _) : Statement (.andPair x) := all _
theorem orPair (x : _) : Statement (.orPair x) := all _
theorem xorPair (x : _) : Statement (.xorPair x) := all _
theorem andnPair (x : _) : Statement (.andnPair x) := all _
theorem shlPair (x : _) : Statement (.shlPair x) := all _
theorem shrPair (x : _) : Statement (.shrPair x) := all _
theorem sarPair (x : _) : Statement (.sarPair x) := all _
theorem faddPair (x : _) : Statement (.faddPair x) := all _
theorem fsubPair (x : _) : Statement (.fsubPair x) := all _
theorem fmulPair (x : _) : Statement (.fmulPair x) := all _
theorem fminPair (x : _) : Statement (.fminPair x) := all _
theorem fmaxPair (x : _) : Statement (.fmaxPair x) := all _
theorem hadd2Pair (x : _) : Statement (.hadd2Pair x) := all _
theorem hmul2Pair (x : _) : Statement (.hmul2Pair x) := all _
theorem badd2Pair (x : _) : Statement (.badd2Pair x) := all _
theorem bmul2Pair (x : _) : Statement (.bmul2Pair x) := all _
theorem movPair (x : _) : Statement (.movPair x) := all _
theorem f2iPair (x : _) : Statement (.f2iPair x) := all _
theorem i2fPair (x : _) : Statement (.i2fPair x) := all _
theorem issueCycle : Statement .issueCycle := all _
theorem instructionFetchFill : Statement .instructionFetchFill := all _
theorem fixedLatencyWriteback : Statement .fixedLatencyWriteback := all _
theorem flagCountDown : Statement .flagCountDown := all _
theorem fairnessTurn : Statement .fairnessTurn := all _
theorem trapEntryDeferred : Statement .trapEntryDeferred := all _
theorem trapLevelTimeout : Statement .trapLevelTimeout := all _
theorem standpipeAnnounce : Statement .standpipeAnnounce := all _
theorem homeRdu : Statement .homeRdu := all _
theorem homeRdt : Statement .homeRdt := all _
theorem homeRdo : Statement .homeRdo := all _
theorem homeWrw : Statement .homeWrw := all _
theorem homeAth : Statement .homeAth := all _
theorem homeWb : Statement .homeWb := all _
theorem homeDrop : Statement .homeDrop := all _
theorem homeReclaim : Statement .homeReclaim := all _
theorem holderRecall : Statement .holderRecall := all _
theorem recallRefusalExpiry : Statement .recallRefusalExpiry := all _
theorem holderFail : Statement .holderFail := all _
theorem reclassification : Statement .reclassification := all _
theorem hostCxlMemRead : Statement .hostCxlMemRead := all _
theorem hostCxlMemWrite : Statement .hostCxlMemWrite := all _
theorem sumpWindowClose : Statement .sumpWindowClose := all _
theorem copyChannelStart : Statement .copyChannelStart := all _
theorem copyArrival : Statement .copyArrival := all _
theorem channelWptrUpdate : Statement .channelWptrUpdate := all _
theorem copyFault : Statement .copyFault := all _
theorem matrixOpStart : Statement .matrixOpStart := all _
theorem matrixOpComplete : Statement .matrixOpComplete := all _
theorem pumpStep : Statement .pumpStep := all _
theorem selfTest : Statement .selfTest := all _
theorem tokenRefill : Statement .tokenRefill := all _
theorem tokenGrant : Statement .tokenGrant := all _
theorem powerMeasure : Statement .powerMeasure := all _
theorem persistBoundaryInterval : Statement .persistBoundaryInterval := all _
theorem workgroupPlace : Statement .workgroupPlace := all _
theorem coresidentPlace : Statement .coresidentPlace := all _
theorem priorityAging : Statement .priorityAging := all _
theorem coresidentWithhold : Statement .coresidentWithhold := all _
theorem wayDrain : Statement .wayDrain := all _
theorem workgroupRetire : Statement .workgroupRetire := all _
theorem gridRetire : Statement .gridRetire := all _
theorem collectiveComplete : Statement .collectiveComplete := all _
theorem collectiveFault : Statement .collectiveFault := all _
theorem streamElementFault : Statement .streamElementFault := all _
theorem notPresentFault : Statement .notPresentFault := all _
theorem walkMissRecord : Statement .walkMissRecord := all _
theorem quiesce : Statement .quiesce := all _
theorem trapQueueLogCopy : Statement .trapQueueLogCopy := all _
theorem framePoolRefill : Statement .framePoolRefill := all _
theorem workgroupEvict : Statement .workgroupEvict := all _
theorem groupEvict : Statement .groupEvict := all _
theorem contextRestore : Statement .contextRestore := all _
theorem rootlaunch : Statement .rootlaunch := all _
theorem rootlaunchProcess : Statement .rootlaunchProcess := all _
theorem rootctlClearDrop : Statement .rootctlClearDrop := all _
theorem dutyselWrite : Statement .dutyselWrite := all _
theorem invctlPage : Statement .invctlPage := all _
theorem invctlRange : Statement .invctlRange := all _
theorem invctlVf : Statement .invctlVf := all _
theorem invctlComplete : Statement .invctlComplete := all _
theorem fwctlWrite : Statement .fwctlWrite := all _
theorem formatWindowChangeDone : Statement .formatWindowChangeDone := all _
theorem tqresp : Statement .tqresp := all _
theorem fpgrow : Statement .fpgrow := all _
theorem pwrctlWrite : Statement .pwrctlWrite := all _
theorem tokcapWrite : Statement .tokcapWrite := all _
theorem tokrateWrite : Statement .tokrateWrite := all _
theorem registerWrite : Statement .registerWrite := all _
theorem mailboxImage : Statement .mailboxImage := all _
theorem mailboxQuote : Statement .mailboxQuote := all _
theorem mailboxKeyset : Statement .mailboxKeyset := all _
theorem mailboxUnknownCommand : Statement .mailboxUnknownCommand := all _
theorem moduleReset : Statement .moduleReset := all _
theorem functionLevelReset : Statement .functionLevelReset := all _
theorem objectLoad : Statement .objectLoad := all _
theorem thermalThrottle : Statement .thermalThrottle := all _
theorem thermalShutdown : Statement .thermalShutdown := all _
theorem linkDown : Statement .linkDown := all _
theorem registerParityError : Statement .registerParityError := all _
theorem hostCxlCacheSnoop : Statement .hostCxlCacheSnoop := all _
theorem thermalThrottleEnd : Statement .thermalThrottleEnd := all _
theorem powerFail : Statement .powerFail := all _
theorem objectUnload : Statement .objectUnload := all _

end Sys2Proof.Laws.EncodeLen
end

