-- ==== Sys2Proof/Laws/Result.lean ====
section
/-! SUPPORT. What a form whose checks pass does, in the words of Safety: its result delivered, its lanes gone on, the rest untouched. -/
namespace Sys2Proof.Machine

theorem Issuing.issuing {s : State} {i : Issue} (h : Issuing s i) : s.issuing = some i := State.issuing_eq.mpr ⟨h.issue, h.has⟩
theorem Passes.check {s : State} {i : Issue} {h : Hdr} {who : Issuer} {p : Plan} {q : Check} (hp : Passes s i h who p q) (opc : Nat) :
    Form.check { h := h, opc := opc, who := who, plan := p, queue := q } s i = none := (Form.check_none_opc h opc 0 who p q s i).mpr hp

/-! ## The issuing context -/

theorem Ctx.keeps_refl (a : Ctx) : a.Keeps a := by constructor <;> rfl
theorem Ctx.Keeps.trans {a b c : Ctx} (h : a.Keeps b) (k : b.Keeps c) : a.Keeps c := by
  cases h; cases k; constructor <;> simp only [*]
theorem Ctx.keeps_updFront (a : Ctx) (b : Bool) (g : Front → Front) : a.Keeps (a.updFront b g) := by
  constructor
  case trapRegs => cases b <;> cases h : a.trap <;> simp [Ctx.updFront, h]
  all_goals simp
theorem Ctx.keeps_account (c : Ctx) (x : Lanes) (e : Eff) (a : Lanes) : c.Keeps (c.account x e a) := by
  obtain ⟨t, h⟩ := Ctx.account_frame c x e a
  rw [h]; constructor <;> rfl
/-- An issue keeps the registers of its context. -/
theorem Ctx.keeps_afterIssue (x : Ctx) (i : Issue) (c : Bool) (act : Lanes) (e : Eff) (now : Nat) (pd : Option Pend) : x.Keeps (x.afterIssue i c act e now pd) := by
  have h1 : x.Keeps (x.issuedBy i c e now) := (x.keeps_updFront i.level (fun f => f.afterIssue i c e now)).trans (by constructor <;> rfl)
  have h2 : (x.issuedBy i c e now).Keeps ((x.issuedBy i c e now).withPend pd) := by
    unfold Ctx.withPend
    cases pd with
    | none => exact Ctx.keeps_refl _
    | some q =>
      cases hq : q.flag with
      | none => simp only [hq]; constructor <;> rfl
      | some f =>
        simp only [hq]
        exact (Ctx.keeps_updFront _ f.1 (fun g => { g with flags := updNth g.flags f.2 (· + 1) })).trans (by constructor <;> rfl)
  have h3 : ((x.issuedBy i c e now).withPend pd).Keeps (((x.issuedBy i c e now).withPend pd).noteVector act e now) := by constructor <;> rfl
  unfold Ctx.afterIssue
  dsimp only
  split
  · exact (h1.trans h2).trans h3
  · exact ((h1.trans h2).trans h3).trans (Ctx.keeps_account _ _ _ _)

/-! ## The state -/

theorem State.agenda_askTurn (s : State) (k : Nat) (h : Happening) (hm : h ∈ (s.askTurn k).agenda) : h ∈ s.agenda ∨ h.what = .fairnessTurn := by
  unfold State.askTurn State.pushOnce at hm
  split at hm
  · split at hm
    · exact .inl hm
    · rcases List.mem_append.mp hm with hm | hm
      · exact .inl hm
      · exact .inr (by rw [List.mem_singleton.mp hm])
  · exact .inl hm

/-- An issue by itself leaves the count of outstanding requests. -/
theorem Ctx.outstanding_afterIssue (x : Ctx) (i : Issue) (c : Bool) (act : Lanes) (e : Eff) (now : Nat) (pd : Option Pend) :
    (x.afterIssue i c act e now pd).outstanding = x.outstanding := by
  have hu (a : Ctx) (b : Bool) (g : Front → Front) : (a.updFront b g).outstanding = a.outstanding := by unfold Ctx.updFront; split <;> rfl
  have hw : ((x.issuedBy i c e now).withPend pd).outstanding = x.outstanding := by
    cases pd with
    | none => exact hu x _ _
    | some q =>
      unfold Ctx.withPend
      cases hq : q.flag with
      | none => simp only [hq]; exact hu x _ _
      | some f => simp only [hq]; exact (hu _ _ _).trans (hu x _ _)
  unfold Ctx.afterIssue
  dsimp only
  split
  · exact hw
  · refine Eq.trans ?_ hw
    obtain ⟨t, h⟩ := Ctx.account_frame (((x.issuedBy i c e now).withPend pd).noteVector act e now) i.exec e act
    rw [h]; rfl

section
variable (i : Issue) (c : Bool) (setf : Option Nat) (p : Plan) (act : Lanes) (pair : Bool) (e : Eff)

/-- What a word leaves alone. -/
theorem State.untouched_afterWord (s : State) (hc : (Tab.find? s.ctxs i.ctx).isSome) : Untouched s (s.afterWord i c setf p act pair e) i.ctx := by
  have hf := State.afterWord_frame i c setf p act pair e s
  constructor
  case cores =>
    intro k
    have hk : (s.afterWord i c setf p act pair e).cores = (((s.takeId (e.vary.isNone && (pendOf i setf p act e (s.core (s.coreOf i.ctx)).time s.ids).isSome)).updCtx i.ctx fun x =>
      x.afterIssue i c act e (s.core (s.coreOf i.ctx)).time (pendOf i setf p act e (s.core (s.coreOf i.ctx)).time s.ids)).updCore
        (((s.takeId (e.vary.isNone && (pendOf i setf p act e (s.core (s.coreOf i.ctx)).time s.ids).isSome)).updCtx i.ctx fun x =>
      x.afterIssue i c act e (s.core (s.coreOf i.ctx)).time (pendOf i setf p act e (s.core (s.coreOf i.ctx)).time s.ids)).coreOf i.ctx)
        fun x => { x with slots := x.slots + 1, late := x.late + ((if pair then 0 else bankStall p) + e.stall) }).cores := by
      unfold State.afterWord; simp
    rw [State.core_congr hk]
    by_cases hj : k = (((s.takeId (e.vary.isNone && (pendOf i setf p act e (s.core (s.coreOf i.ctx)).time s.ids).isSome)).updCtx i.ctx fun x =>
      x.afterIssue i c act e (s.core (s.coreOf i.ctx)).time (pendOf i setf p act e (s.core (s.coreOf i.ctx)).time s.ids)).coreOf i.ctx)
    · rw [hj, State.core_updCore]
      rw [State.core_congr (s := s) (by simp)]
      exact ⟨_, _, rfl⟩
    · rw [State.core_updCore_ne _ _ hj, State.core_congr (s := s) (by simp)]
      exact ⟨_, _, rfl⟩
  case others => intro j hj; exact State.ctx_afterWord_ne i c setf p act pair e s hj
  case own => rw [State.ctx_afterWord i c setf p act pair e s hc]; exact Ctx.keeps_afterIssue _ _ _ _ _ _ _
  case outstanding => rw [State.ctx_afterWord i c setf p act pair e s hc]; exact Ctx.outstanding_afterIssue _ _ _ _ _ _ _
  case agenda =>
    intro h hm
    unfold State.afterWord at hm
    simpa using State.agenda_askTurn _ _ _ hm
  all_goals simp only [hf]

/-- The issuing front's lanes. -/
theorem State.lane_afterWord (s : State) (hi : (Tab.find? s.ctxs i.ctx).isSome) (hl : i.level = true → (s.ctx i.ctx).trap.isSome) (h32 : ((s.ctx i.ctx).frontAt i.level).lanes.length = 32) (l : Nat) (h : l < 32) :
    ((s.afterWord i c setf p act pair e).front i.ctx i.level).lane l =
      if hasLane i.exec l then ((s.front i.ctx i.level).lane l).afterIssue i e l else (s.front i.ctx i.level).lane l := by
  unfold State.front
  rw [State.ctx_afterWord i c setf p act pair e s hi, Ctx.frontAt_afterIssue _ _ _ _ _ _ _ hl (fun q b n hq hf => pendOf_flag i setf p act e _ _ q b n hq hf)]
  have : ∀ (f : Front) (fl : List Nat), ({ f with flags := fl } : Front).lane l = f.lane l := fun _ _ => rfl
  rw [this, Front.lane_afterIssue]
  simp [h32, h]
/-- The latches. -/
theorem State.latches_afterWord (s : State) (hi : (Tab.find? s.ctxs i.ctx).isSome) (hl : i.level = true → (s.ctx i.ctx).trap.isSome) :
    ((s.afterWord i c setf p act pair e).front i.ctx i.level).latches = (e.shifts.foldl Front.shift (s.front i.ctx i.level)).latches := by
  unfold State.front
  rw [State.ctx_afterWord i c setf p act pair e s hi, Ctx.frontAt_afterIssue _ _ _ _ _ _ _ hl (fun q b n hq hf => pendOf_flag i setf p act e _ _ q b n hq hf)]
  have : ∀ (f : Front) (fl : List Nat), ({ f with flags := fl } : Front).latches = f.latches := fun _ _ => rfl
  rw [this, Front.latches_afterIssue]
theorem State.pends_afterWord (s : State) (hi : (Tab.find? s.ctxs i.ctx).isSome) :
    ((s.afterWord i c setf p act pair e).ctx i.ctx).pends = (s.ctx i.ctx).pends ++ (pendOf i setf p act e (s.core (s.coreOf i.ctx)).time s.ids).toList := by
  rw [State.ctx_afterWord i c setf p act pair e s hi]
  simp only [Ctx.afterIssue_frame]
theorem State.fpstat_afterWord (s : State) (hi : (Tab.find? s.ctxs i.ctx).isSome) :
    ((s.afterWord i c setf p act pair e).ctx i.ctx).fpstat = (s.ctx i.ctx).fpstat ||| e.fl.setWidth 32 := by
  rw [State.ctx_afterWord i c setf p act pair e s hi]
  simp only [Ctx.afterIssue_frame]
end

/-! ## Results in every acting lane -/

theorem mem_lanesOf {m : Lanes} {l : Nat} : l ∈ lanesOf m ↔ hasLane m l = true := by
  unfold lanesOf hasLane
  simp only [List.mem_filter, List.mem_range, and_iff_right_iff_imp]
  exact BitVec.lt_of_getLsbD
/-- Lanes come in rising order. -/
theorem lanesOf_rising (m : Lanes) : (lanesOf m).Pairwise (· < ·) := List.Pairwise.filter _ List.pairwise_lt_range
theorem Tab.get_rising {α : Type} (d : α) (ls : List Nat) (g : Nat → α) (hs : ls.Pairwise (· < ·)) {l : Nat} (h : l ∈ ls) : Tab.get d (ls.map fun l => (l, g l)) l = g l := by
  induction ls with
  | nil => cases h
  | cons a t ih =>
    obtain ⟨hlt, hs⟩ := List.pairwise_cons.mp hs
    rcases List.mem_cons.mp h with rfl | hm
    · simp [Tab.get]
    · have := hlt l hm
      simp only [List.map_cons, Tab.get]
      rw [if_neg (by omega), if_neg (by omega), ih hs hm]
theorem Tab.get_lanes {α : Type} (d : α) (m : Lanes) (g : Nat → α) {l : Nat} (h : hasLane m l = true) : Tab.get d ((lanesOf m).map fun l => (l, g l)) l = g l :=
  Tab.get_rising d _ g (lanesOf_rising m) (mem_lanesOf.mpr h)

section
variable {s : State} {i : Issue} {h : Hdr} {act : Lanes}

/-- A word with no fault, no lane that stays and no exit goes on in every lane. -/
theorem Eff.goOn_all (e : Eff) (m : Lanes) (hf : e.fault = none) (hx : e.exits = 0) (hb : e.block = []) : e.goOn m = m := by
  unfold Eff.goOn
  rw [hf, hx, hb]
  simp only [Tab.filter, Tab.keys, List.filter_nil, List.map_nil, maskOf, List.foldl_nil]
  rw [show ~~~((0 : Lanes) ||| 0 ||| 0) = BitVec.allOnes 32 from by decide, BitVec.and_allOnes]
/-- A word whose effect is a result of fixed latency delivers it. -/
theorem delivers_afterWord (c : Bool) (setf : Option Nat) (p : Plan) (pair : Bool) (e : Eff) (l0 : Latch) (wr : Nat → List Wr) (fl : Nat → Fl)
    (hi : Issuing s i) (he : e.st = s) (hv : e.vary = none) (hns : e.noShift = false) (hl : e.latch = [l0]) (hgo : ∀ m, e.goOn m = m)
    (hw : e.wr = (lanesOf act).flatMap wr) (hfl : e.fl = (lanesOf act).foldl (fun m l => m ||| fl l) 0) :
    let t := e.st.afterWord i c setf p act pair e
    nth {} (t.front i.ctx i.level).latches 0 = l0 ∧
    (∀ l, hasLane act l = true → ∀ w ∈ wr l, ∃ q ∈ (t.ctx i.ctx).pends, q.due = some (s.nowAt i + e.lat) ∧ w ∈ q.wr) ∧
    (∀ q ∈ (t.ctx i.ctx).pends, q ∉ (s.ctx i.ctx).pends → ∀ w ∈ q.wr, ∃ l, hasLane act l = true ∧ w ∈ wr l) ∧
    (t.ctx i.ctx).fpstat = (s.ctx i.ctx).fpstat ||| ((lanesOf act).foldl (fun m l => m ||| fl l) 0).setWidth 32 := by
  subst he
  intro t
  refine ⟨?_, ?_, ?_, ?_⟩
  · rw [State.latches_afterWord i c setf p act pair e _ hi.has hi.level]
    simp [Eff.shifts, hns, hl, Front.shift, nth]
  · intro l hl' w hw'
    have hmem : w ∈ e.wr := by rw [hw]; exact List.mem_flatMap.mpr ⟨l, mem_lanesOf.mpr hl', hw'⟩
    have hact : act ≠ 0 := by rintro rfl; simp [hasLane] at hl'
    rw [State.pends_afterWord i c setf p act pair e _ hi.has]
    simp only [pendOf, hv]
    have hne : e.wr.isEmpty = false := by cases hh : e.wr with | nil => rw [hh] at hmem; cases hmem | cons _ _ => rfl
    have hgood : act ||| (act &&& e.exits) ≠ 0 := by
      intro h0; exact hact (BitVec.or_eq_zero_iff.mp h0).1
    simp only [hgo, hgood, hne, decide_false, Bool.false_and, Bool.or_self, Bool.false_eq_true, if_false, Option.toList_some, List.mem_append, List.mem_singleton]
    exact ⟨_, .inr rfl, rfl, hmem⟩
  · intro q hq hn w hw'
    rw [State.pends_afterWord i c setf p act pair e _ hi.has] at hq
    simp only [pendOf, hv] at hq
    rcases List.mem_append.mp hq with hq | hq
    · exact absurd hq hn
    · split at hq
      · cases hq
      · obtain rfl := List.mem_singleton.mp hq
        dsimp only at hw'
        rw [hw] at hw'
        obtain ⟨l, hl', h'⟩ := List.mem_flatMap.mp hw'
        exact ⟨l, mem_lanesOf.mp hl', h'⟩
  · rw [State.fpstat_afterWord i c setf p act pair e _ hi.has, hfl]

/-- Lanes of a word without a fault, a jump, a block, an exit or a landing bit. -/
theorem advances_afterWord (c : Bool) (setf : Option Nat) (p : Plan) (pair : Bool) (e : Eff) (hi : Issuing s i) (he : e.st.ctx i.ctx = s.ctx i.ctx)
    (hf : e.fault = none) (hn : e.next = []) (hx : e.exits = 0) (hb : e.block = []) (hla : e.land = none) (hh : (Tab.find? e.st.ctxs i.ctx).isSome = true) :
    Advances s (e.st.afterWord i c setf p act pair e) i := by
  intro l hl
  have key := State.lane_afterWord i c setf p act pair e e.st hh (by rw [he]; exact hi.level) (by rw [he]; exact hi.lanes) l hl
  rw [key]
  have hfr : e.st.front i.ctx i.level = s.front i.ctx i.level := by unfold State.front; rw [he]
  rw [hfr]
  split
  · simp [Lane.afterIssue, hf, hn, hx, hb, hla, hasLane, Tab.get, Tab.find?, Issue.after, Lane.goto]
  · rfl

/-- A form with a vector result computes it. -/
theorem computes_vec {opc : Nat} {who : Issuer} {plan : Plan} {q : Check} {d : Reg} {wide : Bool} {lat : Nat} {f : Issue → Lanes → State → Nat → DWord × Fl}
    (hi : Issuing s i) (hp : Passes s i h who plan q) :
    Computes (issueForm { h := h, opc := opc, who := who, plan := plan, queue := q } (fun i act s => vecEff i act s h d wide lat (f i act s)) s) s i h d wide lat
      (fun l => (f i (guardMask s i h) s l).1) (fun l => (f i (guardMask s i h) s l).2) := by
  have hn := issueForm_next (eff := fun i act s => vecEff i act s h d wide lat (f i act s)) hi.issuing (hp.check opc)
  have he : (vecEff i (guardMask s i h) s h d wide lat (f i (guardMask s i h) s)).fault = none := rfl
  refine ⟨_, hn.trans (congrArg _ (finish_eq i _ _ _ _ _ _ he)), State.untouched_afterWord i _ _ _ _ _ _ _ hi.has, ?_, ?_⟩
  · exact advances_afterWord _ _ _ _ _ hi rfl rfl rfl rfl rfl rfl hi.has
  · obtain ⟨h1, h2, h3, h4⟩ := delivers_afterWord (act := guardMask s i h) h.c (hdrFlag h) plan false (vecEff i (guardMask s i h) s h d wide lat (f i (guardMask s i h) s)) _
      (fun l => if h.wbs then [] else destWr (i.ctx % 32 == 16) l wide d (f i (guardMask s i h) s l).1) (fun l => (f i (guardMask s i h) s l).2) hi rfl rfl rfl rfl (fun m => Eff.goOn_all _ m rfl rfl rfl)
      (by simp only [vecEff]; cases h.wbs <;> simp [List.flatMap_map]) (by simp only [vecEff, List.foldl_map])
    constructor
    · intro l hl
      rw [h1]
      simp only [List.map_map]
      exact Tab.get_lanes 0 _ (fun l => if wide then (f i (guardMask s i h) s l).1 else (((f i (guardMask s i h) s l).1).setWidth 32).setWidth 64) hl
    · rw [h1]; rfl
    · intro l hl w hw hb
      exact h2 l hl w (by simpa [hb] using hw)
    · intro q hq hn w hw
      obtain ⟨l, hl, hw'⟩ := h3 q hq hn w hw
      cases hb : h.wbs with
      | true => simp [hb] at hw'
      | false => exact ⟨rfl, l, hl, by simpa [hb] using hw'⟩
    · exact h4

/-- A form with a predicate result computes it. -/
theorem computes_pred {opc : Nat} {who : Issuer} {plan : Plan} {q : Check} {n lat : Nat} {f : Issue → Lanes → State → Nat → Bool × Fl}
    (hi : Issuing s i) (hp : Passes s i h who plan q) :
    ∃ t, issueForm { h := h, opc := opc, who := who, plan := plan, queue := q } (fun i act s => predEff i act s n lat (f i act s)) s = .next t ∧ Untouched s t i.ctx ∧ Advances s t i ∧
      DeliversP s t i (guardMask s i h) n lat (fun l => (f i (guardMask s i h) s l).1) (fun l => (f i (guardMask s i h) s l).2) := by
  have hn := issueForm_next (eff := fun i act s => predEff i act s n lat (f i act s)) hi.issuing (hp.check opc)
  have he : (predEff i (guardMask s i h) s n lat (f i (guardMask s i h) s)).fault = none := rfl
  refine ⟨_, hn.trans (congrArg _ (finish_eq i _ _ _ _ _ _ he)), State.untouched_afterWord i _ _ _ _ _ _ _ hi.has, ?_, ?_⟩
  · exact advances_afterWord _ _ _ _ _ hi rfl rfl rfl rfl rfl rfl hi.has
  · obtain ⟨h1, h2, h3, h4⟩ := delivers_afterWord (act := guardMask s i h) h.c (hdrFlag h) plan false (predEff i (guardMask s i h) s n lat (f i (guardMask s i h) s)) _
      (fun l => [⟨.p n l, if (f i (guardMask s i h) s l).1 then 1 else 0⟩]) (fun l => (f i (guardMask s i h) s l).2) hi rfl rfl rfl rfl (fun m => Eff.goOn_all _ m rfl rfl rfl)
      (by simp only [predEff, List.map_map, ← List.map_eq_flatMap]; rfl) (by simp only [predEff, List.foldl_map])
    constructor
    · intro l hl
      rw [h1]
      simp only [List.map_map]
      exact Tab.get_lanes 0 _ (fun l => if (f i (guardMask s i h) s l).1 then (1 : DWord) else 0) hl
    · intro l hl
      exact h2 l hl _ (List.mem_singleton.mpr rfl)
    · intro q hq hn w hw
      obtain ⟨l, hl, hw'⟩ := h3 q hq hn w hw
      exact ⟨l, hl, List.mem_singleton.mp hw'⟩
    · exact h4

/-- A lane's fate when no lane faults. -/
def Eff.lane (e : Eff) (i : Issue) (l : Nat) (x : Lane) : Lane := x.afterIssue i e l
/-- A form whose effect writes no register of fixed latency, and that faults in no lane, does its effect and nothing else. -/
theorem does_form {opc : Nat} {who : Issuer} {plan : Plan} {q : Check} {eff : Issue → Lanes → State → Eff} {e : Eff}
    (hi : Issuing s i) (hp : Passes s i h who plan q) (heq : eff i (guardMask s i h) s = e) (hf : e.fault = none) (hl : e.latch = []) (hns : e.noShift = false)
    (hw : e.wr = []) (hel : e.elems = []) (hfl : e.fl = 0) (hctx : (e.st.ctx i.ctx).front = (s.ctx i.ctx).front) (htr : (e.st.ctx i.ctx).trap = (s.ctx i.ctx).trap)
    (hh : (Tab.find? e.st.ctxs i.ctx).isSome = true) :
    Does (issueForm { h := h, opc := opc, who := who, plan := plan, queue := q } eff s) s e.st i (fun l x => x.afterIssue i e l) := by
  have hfr : e.st.front i.ctx i.level = s.front i.ctx i.level := by
    unfold State.front Ctx.frontAt; rw [hctx, htr]
  have hlev : i.level = true → (e.st.ctx i.ctx).trap.isSome = true := by rw [htr]; exact hi.level
  have h32 : ((e.st.ctx i.ctx).frontAt i.level).lanes.length = 32 := by
    have := hi.lanes; unfold Ctx.frontAt at this ⊢; rw [hctx, htr]; exact this
  have hn := issueForm_next (eff := eff) hi.issuing (hp.check opc)
  rw [heq] at hn
  refine ⟨_, hn.trans (congrArg _ (finish_eq i _ _ _ _ _ _ hf)), State.untouched_afterWord i _ _ _ _ _ _ _ hh, ?_, ?_, ?_, ?_⟩
  · intro l hl'
    rw [State.lane_afterWord i _ _ _ _ _ e e.st hh hlev h32 l hl', hfr]
  · intro l
    rw [State.latches_afterWord i _ _ _ _ _ e e.st hh hlev]
    simp [Eff.shifts, hns, hl, Front.shift, nth, Tab.get]
  · intro p hp'
    rw [State.pends_afterWord i _ _ _ _ _ e e.st hh] at hp'
    rcases List.mem_append.mp hp' with hp' | hp'
    · exact .inl hp'
    · refine .inr ?_
      unfold pendOf at hp'
      dsimp only at hp'
      split at hp'
      · split at hp'
        · cases hp'
        · obtain rfl := List.mem_singleton.mp hp'; exact ⟨hw, hel⟩
      · cases hp'
      · obtain rfl := List.mem_singleton.mp hp'; exact ⟨rfl, rfl⟩
  · rw [State.fpstat_afterWord i _ _ _ _ _ e e.st hh, hfl]; simp
end

end Sys2Proof.Machine
end

