-- ==== Sys2Proof/Tests/Slice0.lean ====
section
/-! SUPPORT. Tests: ill-formed terms that WellFormed refuses, words of every family, small steps, and for every statement with hypotheses a state and
operands that meet them. Expected values come from the manual's tables and worked examples, or from its rules by hand. -/
namespace Sys2Proof.Tests
open Sys2Proof Sys2Proof.Machine Sys2Proof.Rules

set_option maxRecDepth 100000
set_option Elab.async false

/-! ## A small machine -/

/-- Memory with a page table that maps the first GiB to itself, writable and executable, a frame of 64 user bytes at 0x108000, and, in the page that the
core has translated, the tensor descriptor of the trips (06, after R118) at 0x100100 and a collective descriptor at 0x100200. -/
def pages : Memory :=
  let m : Memory := Memory.setDWord [] 0x10000 0x12001
  let m := Memory.setDWord (Memory.setDWord (Memory.setDWord m 0x12000 0x14001) 0x14000 3) 0x14008 3
  let m := Memory.writeN m 0x108024 [0x40]
  let m := Memory.setDWord (Memory.setDWord (Memory.setDWord m 0x200100 0x12) 0x200110 0x0000000300000004) 0x200128 0x0000000700000100
  Memory.setDWord (Memory.setDWord (Memory.setDWord m 0x200200 0x100400) 0x200208 0x100800) 0x200210 0x0000000100000001
/-- Group 0 of a workgroup of function 0 on core 0, with its head context; S4 and S5 hold an address in a page that its core has translated, S6 and
S7 hold 4, S8 and S9 the first byte of its scratchpad, S10 a collective descriptor, S12 a failed
handle, S16 to S23 a launch record. -/
def small : State :=
  let s := State.reset.placeWords 0 0
  { s with mem := pages, ctxs := s.ctxs ++ [(48, freshCtx 1 16 fetchVa 1)], vfs := [(0, { ptbase := 0x10000, retcnt := List.replicate 8 0, fpbase := 0x20000, fpact := 0x10000 })]
           wgs := [(1, { s.wg 1 with s := [(4, 0x100100), (5, 0x100100), (6, 4), (7, 4), (8, 0xFF00000000000000), (9, 0xFF00000000000000), (10, 0x100200), (12, 0x8000000000000002), (16, 0x100000), (18, 0x40801)], d := 0x108000 :: List.replicate 7 0 })] }
def word (k : Nat) (level : Bool) (exec : Lanes) : Issue := { ctx := k, level := level, pc := fetchVa, exec := exec, size := 8, head := fetchVa, off := 0, last := true }
/-- A word of lanes 0 and 1 of group 0, of its lane 0, and of the head context, about to be executed. -/
def grp : Issue := word 32 false 3
def one : Issue := word 32 false 1
def hd : Issue := word 48 false 1
def about (s : State) (i : Issue) : State := { s with issue := some i }
def sg : State := about small grp
def so : State := about small one
def sh : State := about small hd
/-- The same group with its lanes 0 and 1 at trap level. -/
def trapped : TrapCtx := { regs := { cause := 0x60, addr := 5, pc := fetchVa, lanes := 3, kind := .precise }, sibs := 0xFFFFFFFC, entered := 0
                           front := Front.fresh ((List.range 32).map fun l => if l < 2 then { pc := fetchVa, st := .active } else {}) }
def tl : Issue := word 32 true 3
def st : State := about (small.updCtx 32 fun c => { c with trap := some trapped }) tl

theorem lanes_all {m : Lanes} {p : Nat → Prop} (h : ∀ l, l < 32 → hasLane m l = true → p l) : ∀ l, hasLane m l = true → p l := by
  intro l hl
  by_cases hb : l < 32
  · exact h l hb hl
  · simp only [hasLane] at hl
    have := BitVec.getLsbD_of_ge m l (by omega)
    simp_all
theorem issuing_sg : Issuing sg grp := ⟨(by decide +kernel), (by decide +kernel), (by decide +kernel), (by decide +kernel)⟩
theorem issuing_so : Issuing so one := ⟨(by decide +kernel), (by decide +kernel), (by decide +kernel), (by decide +kernel)⟩
theorem issuing_sh : Issuing sh hd := ⟨(by decide +kernel), (by decide +kernel), (by decide +kernel), (by decide +kernel)⟩
theorem issuing_st : Issuing st tl := ⟨(by decide +kernel), (by decide +kernel), (by decide +kernel), (by decide +kernel)⟩
/-- A table whose every entry has a property that the absent value has too gives it at every key. -/
theorem tab_all {α : Type} {p : α → Prop} (d : α) (m : Tab α) (hd : p d) (h : ∀ e ∈ m, p e.2) (k : Nat) : p (Tab.get d m k) := by
  induction m with
  | nil => exact hd
  | cons e t ih =>
    unfold Tab.get
    split
    · exact h _ (List.mem_cons_self ..)
    · split
      · exact hd
      · exact ih fun x hx => h x (List.mem_cons_of_mem _ hx)
theorem inl_of {α β : Type} {x : α ⊕ β} {b : α} (h : x.getLeft? = some b) : x = .inl b := by
  cases x <;> simp_all

/-! ## Statements about instructions that compute -/

def m64 : IntMod := { w64 := true, us := false, sat := false }
def m32 : IntMod := { w64 := false, us := true, sat := true }
theorem wit_integer_two_sources : Issuing sg grp ∧ (∀ r ∈ intRules, Passes sg grp always .both (intPlan ⟨always, m64, .v 8, .s 4, .v 2⟩ r)) ∧
    (∀ r ∈ intRules, Passes sg grp always .both (intPlanX ⟨always, m64, .v 8, .s 4, 0xFFFFFFFF⟩ r)) ∧ (∃ r ∈ intRules, ∃ f, r.imm = some f) :=
  ⟨issuing_sg, (by unfold Passes; decide +kernel), (by unfold Passes; decide +kernel), _, .head _, _, rfl⟩
theorem wit_fields_and_one_source : Issuing sg grp ∧ m32.w64 = false ∧ (∀ r ∈ fieldRules, Passes sg grp always .both (intPlan ⟨always, m32, .v 8, .s 4, .v 2⟩ r)) ∧
    (∀ r ∈ fieldRules, Passes sg grp always .both (intPlanX ⟨always, m32, .v 8, .s 4, 0x0805⟩ r)) ∧
    (∀ r ∈ oneRules, Passes sg grp always .both { srcs := [(.s 4, 2)], dsts := [(.v 8, if r.wideD && m64.w64 then 2 else 1)] }) :=
  ⟨issuing_sg, rfl, (by unfold Passes; decide +kernel), (by unfold Passes; decide +kernel), (by unfold Passes; decide +kernel)⟩
theorem wit_lea : Issuing sg grp ∧ Passes sg grp always .both { srcs := [(.s 4, 2), (.v 3, 1)], dsts := [(.v 20, 2)], wbs := false } := ⟨issuing_sg, (by unfold Passes; decide +kernel)⟩
theorem wit_compare_and_move : Issuing sg grp ∧ condWide .lt64 = true ∧ Passes sg grp always .both { srcs := [(.s 4, 2), (.v 2, 2)], pdst := [1] } ∧
    Passes sg grp always .both { srcs := [(.s 4, 2)], pdst := [7] } ∧ Passes sg grp always .both { dsts := [(.v 8, 2)] } ∧
    Passes sg grp always .both { srcs := [(.s 4, 2)], dsts := [(.v 8, 2)] } ∧ Passes sg grp always .groups { srcs := [(.s 4, 2)], dsts := [(.v 8, 2)] } :=
  ⟨issuing_sg, rfl, (by unfold Passes; decide +kernel), (by unfold Passes; decide +kernel), (by unfold Passes; decide +kernel), (by unfold Passes; decide +kernel), (by unfold Passes; decide +kernel)⟩
theorem wit_select : Issuing sg grp ∧ Passes sg grp always .both { srcs := [(.v 4, 1), (.v 5, 1)], psrc := [7], dsts := [(.v 6, 1)] } := ⟨issuing_sg, (by unfold Passes; decide +kernel)⟩
theorem wit_floating : Issuing sg grp ∧ (∀ r ∈ fpRules, Passes sg grp always .both { srcs := [(.v 1, 1), (.v 2, 1)] ++ (if r.readD then [(.v 3, 1)] else []), dsts := [(.v 3, 1)] }) ∧
    Passes sg grp always .both { srcs := [(.v 1, 1)], dsts := [(.v 3, 1)] } ∧ Passes sg grp always .both { srcs := [(.v 1, 1), (.v 2, 1)], dsts := [(.v 3, 1)] } ∧
    Passes sg grp always .both { srcs := [(.v 1, 1), (.v 2, 1)], pdst := [0] } :=
  ⟨issuing_sg, (by unfold Passes; decide +kernel), (by unfold Passes; decide +kernel), (by unfold Passes; decide +kernel), (by unfold Passes; decide +kernel)⟩
theorem wit_canonical_nan : (fp32.val 0x7F800001).isNan = true ∧ (fp32.val 0x7F800001).isSNan = true ∧ (fp32.val 0x7FC00000).isNan = true ∧ (fp32.val 0x7FC00000).isSNan = false ∧
    (fp32.val (fp32.add { rm := .rne, ftz := false } 0x7F800000 0xFF800000).1).isNan = true := (by decide +kernel)
/-- A tie: 5 halves to 2. -/
theorem wit_rounds : 0 < 1 ∧ 2 * (roundTo .rne false 5 0 false 1).1 * 2 ^ 1 + 2 ^ 1 = 2 * 5 := (by decide +kernel)
theorem wit_lane_exchange : Issuing sg grp ∧ Passes sg grp always .groups { srcs := [(.s 4, 2), (.v 3, 1)], dsts := [(.v 8, 2)] } ∧
    Passes sg grp always .groups { srcs := [(.v 1, 1)], dsts := [(.v 2, 1)] } ∧ shuffleFrom .up 0 1 = none ∧ shuffleFrom .dn 31 1 = none ∧ shuffleFrom .up 1 1 = some 0 :=
  ⟨issuing_sg, (by unfold Passes; decide +kernel), (by unfold Passes; decide +kernel), rfl, by decide, by decide⟩
theorem wit_reductions : Issuing sg grp ∧ Passes sg grp always .groups (redPlan ⟨always, .addI64, .v 8, .v 2, .v 4⟩) ∧ (reduceInt .addI64).isSome = true ∧
    Passes sg grp always .groups (redPlan ⟨always, .xor, .v 8, .v 2, .v 4⟩) ∧ (reduceInt .xor).isSome = true :=
  ⟨issuing_sg, (by unfold Passes; decide +kernel), rfl, (by unfold Passes; decide +kernel), rfl⟩
theorem wit_blocks : Issuing sg grp ∧ Passes sg grp always .groups { srcs := [(.v 8, 8), (.v 1, 1)], dsts := [(.v 2, 1)] } ∧
    Passes sg grp always .groups { srcs := [(.v 2, 1), (.v 1, 1)], dsts := [(.v 8, 8)] } := ⟨issuing_sg, (by unfold Passes; decide +kernel), (by unfold Passes; decide +kernel)⟩
theorem wit_system_registers :
    (Issuing st tl ∧ trapOnly .tpc = true ∧ Passes st tl always .both { dsts := [(.v 2, 2)], ok := !(SysReg.tpc = .faircnt && tl.ctx % 32 = 16) && !(regWide .tpc && Reg.v 2 = .sp .zero) }) ∧
    (Issuing sg grp ∧ trapOnly .fpctl = false ∧ Passes sg grp always .both { dsts := [(.v 2, 1)], ok := !(SysReg.fpctl = .faircnt && grp.ctx % 32 = 16) && !(regWide .fpctl && Reg.v 2 = .sp .zero) }) ∧
    (Issuing st tl ∧ written .trapbase = true ∧ tl.level = true ∧ accepts .trapbase (readReg st tl 0 true (.s 4)) = true ∧ guardMask st tl always ≠ 0 ∧
      Passes st tl always .both { srcs := [(.s 4, 2)], ok := !(SysReg.trapbase = .faircnt && tl.ctx % 32 = 16) }) ∧
    (written .faircnt = true ∧ accepts .faircnt 64 = true ∧ accepts .faircnt 4096 = true ∧ accepts .faircnt 56 = false ∧ accepts .faircnt 4104 = false ∧
      Passes sg grp always .both { srcs := [(.v 4, 1)], ok := !(SysReg.faircnt = .faircnt && grp.ctx % 32 = 16) }) :=
  ⟨⟨issuing_st, rfl, (by unfold Passes; decide +kernel)⟩, ⟨issuing_sg, rfl, (by unfold Passes; decide +kernel)⟩, ⟨issuing_st, rfl, rfl, (by decide +kernel), (by decide +kernel), (by unfold Passes; decide +kernel)⟩,
   rfl, by decide, by decide, by decide, by decide, (by unfold Passes; decide +kernel)⟩
theorem wit_pump_status : Issuing sg grp ∧ CanTrap sg grp ∧ Passes sg grp always .both { dsts := [(.v 2, 2)], ok := Reg.v 2 ≠ .sp .zero } :=
  ⟨issuing_sg, ⟨rfl, (by decide +kernel), (by decide +kernel), (by decide +kernel), (by decide +kernel)⟩, (by unfold Passes; decide +kernel)⟩
theorem wit_control : Issuing sg grp ∧ Passes sg grp always .both {} ∧ Passes sg grp always .both { srcs := [(.s 4, 2)] } ∧
    Passes sg grp always .both { dsts := [(.v 0, 2)] } ∧ Passes sg grp always .both { dsts := [(.v 2, 2)], ok := linkOk (.v 2) } ∧
    Passes sg grp always .both { srcs := [(.s 4, 2)], dsts := [(.v 2, 2)], ok := linkOk (.v 2) } ∧
    Issuing sh hd ∧ Passes sh hd always .both { dsts := [(.s 31, 2)] } :=
  ⟨issuing_sg, (by unfold Passes; decide +kernel), (by unfold Passes; decide +kernel), (by unfold Passes; decide +kernel), (by unfold Passes; decide +kernel), (by unfold Passes; decide +kernel), issuing_sh, (by unfold Passes; decide +kernel)⟩
def noTrough : State := about (small.updWg 1 fun g => { g with trough := [] }) grp
theorem wit_trough : (Issuing sh hd ∧ Passes sh hd always .heads { srcs := [(.s 4, 2)] }) ∧
    (Issuing sg grp ∧ Passes sg grp always .groups { dsts := [(.v 2, 2)] } ∧ (sg.wgOf grp.ctx).trough = [0]) ∧
    (Issuing noTrough grp ∧ Passes noTrough grp always .groups { dsts := [(.v 2, 2)] } ∧ (noTrough.wgOf grp.ctx).trough = []) :=
  ⟨⟨issuing_sh, (by unfold Passes; decide +kernel)⟩, ⟨issuing_sg, (by unfold Passes; decide +kernel), (by decide +kernel)⟩,
   ⟨(by decide +kernel), (by decide +kernel), (by decide +kernel), (by decide +kernel)⟩, (by unfold Passes; decide +kernel), (by decide +kernel)⟩
def turning : State := about (small.updCtx 32 fun c => { c with turn := some (fetchVa, 8), fpstat := 3, fpctl := 0 }) grp
theorem issuing_turning : Issuing turning grp := ⟨(by decide +kernel), (by decide +kernel), (by decide +kernel), (by decide +kernel)⟩
theorem wit_lanes_and_turns_end : Issuing turning grp ∧ Passes turning grp always .both {} ∧ (∀ k, (turning.ctx k).syncs = []) ∧
    grp.level = false ∧ grp.ctx % 32 ≠ 16 ∧ guardMask turning grp always ≠ 0 ∧ (turning.ctx grp.ctx).turn.isSome = true ∧
    (∀ j, j < 6 → (turning.ctx grp.ctx).fpstat.getLsbD j = true → (turning.ctx grp.ctx).fpctl.getLsbD (9 + j) = false) :=
  ⟨issuing_turning, (by unfold Passes; decide +kernel), tab_all (p := fun c => Ctx.syncs c = []) _ _ rfl ((by decide +kernel)), rfl, by decide, (by decide +kernel), (by decide +kernel), (by decide +kernel)⟩

/-! ## Statements about memory -/

def there (n : Nat) (_ k : Nat) : Place := .mem (n + 8 * k) 0 0
theorem access_ok : ∀ w ∈ [Width.w8, .w16, .w32, .w64, .w128], AccessOk sg grp.ctx w true 0x100100 (there 0x200100 0) ∧ AccessOk sg grp.ctx w false 0x100100 (there 0x200100 0) := by
  unfold AccessOk; decide +kernel
theorem acts_sg : guardMask sg grp always = 3 := (by decide +kernel)
theorem wit_loads_and_stores :
    (Issuing sg grp ∧ (∀ r ∈ loads, Passes sg grp always .both { srcs := [(.s 4, 2)], dsts := [(.v 8, widthRegs r.2.2)] }) ∧
      (∀ r ∈ stores, Passes sg grp always .both { srcs := [(.s 4, 2), (.v 8, widthRegs r.2.2)] }) ∧
      (∀ w ∈ [Width.w8, .w16, .w32, .w64, .w128], ∀ l, hasLane (guardMask sg grp always) l = true →
        AccessOk sg grp.ctx w true (ea sg grp (.s 4) 0 l) (there 0x200100 l) ∧ AccessOk sg grp.ctx w false (ea sg grp (.s 4) 0 l) (there 0x200100 l))) ∧
    (Passes sg grp always .both { srcs := [(.v 1, 1)], dsts := [(.v 8, 4)] } ∧ Passes sg grp always .both { srcs := [(.v 1, 1), (.v 8, 4)] } ∧
      ∀ l, hasLane (guardMask sg grp always) l = true → LexOk sg grp.ctx 0 (64 + (src32 sg grp l (.v 1)).toNat) .w128 true 0x108040 (there 0x208040 l) ∧
        LexOk sg grp.ctx 0 (64 + (src32 sg grp l (.v 1)).toNat) .w128 false 0x108040 (there 0x208040 l)) := by
  refine ⟨⟨issuing_sg, (by unfold Passes; decide +kernel), (by unfold Passes; decide +kernel), fun w hw => lanes_all ?_⟩, (by unfold Passes; decide +kernel), (by unfold Passes; decide +kernel), lanes_all ?_⟩
  · intro l hl _; exact access_ok w hw
  · have hz : ∀ l, 64 + (src32 sg grp l (.v 1)).toNat = 64 := fun _ => rfl
    intro l _ _
    rw [hz]
    unfold LexOk
    exact ⟨⟨(by decide +kernel), inl_of (by decide +kernel), fun j hj => by unfold there; revert j; decide +kernel⟩, (by decide +kernel), inl_of (by decide +kernel), fun j hj => by unfold there; revert j; decide +kernel⟩
theorem wit_gather_scatter : Issuing sg grp ∧ Passes sg grp always .both { srcs := [(.s 4, 2)], dsts := [(.v 8, 4)] } (sumpRoom sg grp) ∧
    Passes sg grp always .both { srcs := [(.s 4, 2), (.v 8, 4)] } (sumpRoom sg grp) ∧
    ∀ l, hasLane (guardMask sg grp always) l = true → AccessOk sg grp.ctx .w128 true (ea sg grp (.s 4) 0 l) (there 0x200100 l) ∧ AccessOk sg grp.ctx .w128 false (ea sg grp (.s 4) 0 l) (there 0x200100 l) :=
  ⟨issuing_sg, (by unfold Passes; decide +kernel), (by unfold Passes; decide +kernel), lanes_all fun _ _ _ => access_ok .w128 (by decide +kernel)⟩
theorem wit_scratchpad : Issuing sg grp ∧ Passes sg grp always .both { srcs := [(.v 1, 1)], dsts := [(.v 8, 4)] } ∧ Passes sg grp always .both { srcs := [(.v 1, 1), (.v 8, 4)] } ∧
    (∀ l, hasLane (guardMask sg grp always) l = true → CistOk sg grp .w128 (cistAt sg grp (.v 1) 0x7FF0 l)) ∧ ¬ CistOk sg grp .w128 (cistAt sg grp (.v 1) 0x7FF8 0) := by
  refine ⟨issuing_sg, (by unfold Passes; decide +kernel), (by unfold Passes; decide +kernel), lanes_all ?_, ?_⟩ <;> unfold CistOk <;> decide +kernel
theorem wit_cache : Issuing sg grp ∧ Passes sg grp always .both { srcs := [(.s 4, 2)] } ∧ Tab.wf ({} : L1Word) sg.l1 = true ∧ Memory.wf sg.mem = true ∧
    Passes sg grp always .both (rangePlan ⟨always, .range (.s 4) (.s 6)⟩) ∧ RangesOk sg grp ⟨always, .range (.s 4) (.s 6)⟩ ∧
    Passes sg grp always .both (rangePlan ⟨always, .all⟩) ∧ RangesOk sg grp ⟨always, .all⟩ ∧ Passes sg grp always .both {} ∧ guardMask sg grp always ≠ 0 :=
  ⟨issuing_sg, (by unfold Passes; decide +kernel), rfl, (by decide +kernel), (by unfold Passes; decide +kernel), lanes_all (by decide +kernel), (by unfold Passes; decide +kernel), trivial, (by unfold Passes; decide +kernel), (by decide +kernel)⟩
theorem wit_covers : Covers sg grp ⟨always, .range (.s 4) (.s 6)⟩ 0x80040 := ⟨0, (by decide +kernel), (by decide +kernel)⟩

/-- The same with the word at scratchpad byte 0 full. -/
def full : State := about { small with fe := [(0, true)] } one
theorem issuing_full : Issuing full one := ⟨(by decide +kernel), (by decide +kernel), (by decide +kernel), (by decide +kernel)⟩
def spad (_ : Nat) : Nat × Nat := (0, 0)
theorem one_lane {l : Nat} (h : hasLane (guardMask full one always) l = true) : l = 0 := by
  have e : guardMask full one always = 1 := (by decide +kernel)
  rw [e] at h
  exact lanes_all (m := 1) (p := fun l => l = 0) (by decide +kernel) l h
theorem wit_full_empty :
    (Issuing full one ∧ NothingOlder full one.ctx ∧ AllActive full one ∧ Tab.wf 0 full.cist = true ∧ Tab.wf false full.fe = true ∧ Distinct (guardMask full one always) spad ∧
      Passes full one always .both (fePlan false (.s 8) (.v 2)) ∧
      ∀ l, hasLane (guardMask full one always) l = true → WordOk full one.ctx false (ea full one (.s 8) 0 l) 0 0 ∧ full.feBit 0 0 = true) ∧
    (Issuing so one ∧ NothingOlder so one.ctx ∧ AllActive so one ∧ Distinct (guardMask so one always) spad ∧ Passes so one always .both (fePlan true (.s 8) (.v 2)) ∧
      ∀ l, hasLane (guardMask so one always) l = true → WordOk so one.ctx true (ea so one (.s 8) 0 l) 0 0 ∧ so.feBit 0 0 = false) ∧
    (Passes so one always .both { srcs := [(.s 8, 2), (.s 6, 1)] } ∧ so.fesetWords one (src64 so one 0 (.s 8)) (src32 so one 0 (.s 6)).toNat = .inl [(0, 0)]) := by
  have hw (s : State) (w : Bool) : (chkSpan 0xFF00000000000000 4 4 = none ∧ (∀ n o, windowOf 0xFF00000000000000 ≠ .frame n o) ∧ windowOf 0xFF00000000000000 ≠ .global) := by
    have e : windowOf 0xFF00000000000000 = .own 0 := (by decide +kernel)
    refine ⟨(by decide +kernel), ?_, ?_⟩ <;> rw [e] <;> simp
  have hf : ∀ l, ea full one (.s 8) 0 l = 0xFF00000000000000 := fun _ => by
    show (full.wgOf 32).sreg 8 + 0 = _; decide +kernel
  have hs : ∀ l, ea so one (.s 8) 0 l = 0xFF00000000000000 := fun _ => by
    show (so.wgOf 32).sreg 8 + 0 = _; decide +kernel
  have e : guardMask so one always = guardMask full one always := (by decide +kernel)
  refine ⟨⟨issuing_full, ⟨(by decide +kernel), (by decide +kernel), (by decide +kernel)⟩, lanes_all (by decide +kernel), rfl, (by decide +kernel), ?_, (by unfold Passes; decide +kernel), ?_⟩, ⟨issuing_so, ⟨(by decide +kernel), (by decide +kernel), (by decide +kernel)⟩, lanes_all (by decide +kernel), ?_, (by unfold Passes; decide +kernel), ?_⟩, (by unfold Passes; decide +kernel), (by decide +kernel)⟩
  · intro l k hl hk hn; exact absurd ((one_lane hl).trans (one_lane hk).symm) hn
  · intro l hl; rw [hf]; exact ⟨⟨(hw full false).1, (hw full false).2.1, (hw full false).2.2, (by decide +kernel)⟩, (by decide +kernel)⟩
  · rw [e]; intro l k hl hk hn; exact absurd ((one_lane hl).trans (one_lane hk).symm) hn
  · intro l hl; rw [hs]; exact ⟨⟨(hw so true).1, (hw so true).2.1, (hw so true).2.2, (by decide +kernel)⟩, (by decide +kernel)⟩
def elem (op : ElemOp) : Elem := { lane := 0, va := 0x100100, place := .mem 0x200100 0 0, n := 4, dst := .sp .zero, op := op }
theorem wit_atomic_values : (elem .load).n = 4 ∧ ({ elem .load with n := 8 } : Elem).n = 8 ∧ (5 : DWord).setWidth (8 * 4) = (5 : BitVec 32) := by decide
theorem wit_atomics : Issuing sg grp ∧ guardMask sg grp always = 3 ∧
    (∀ w ∈ [Width.w16, .w32, .w64], w ≠ .w128 ∧ Passes sg grp always .both { srcs := [(.s 4, 2), (.v 8, widthRegs w)], dsts := [(.v 10, widthRegs w)] } ∧
      Passes sg grp always .both { srcs := [(.s 4, 2), (.v 8, widthRegs w)] } ∧ Passes sg grp always .both { srcs := [(.s 4, 2), (.v 8, widthRegs w), (.v 10, widthRegs w)], dsts := [(.v 12, widthRegs w)] } ∧
      Passes sg grp always .both { srcs := [(.s 4, 2)], dsts := [(.v 8, widthRegs w)] } ∧ Passes sg grp always .both { srcs := [(.s 4, 2), (.v 8, widthRegs w)], dsts := [(.v 10, 1)] }) ∧
    (∀ l, hasLane (guardMask sg grp always) l = true → windowOf (ea sg grp (.s 4) 0 l) = .global ∧ AccessOk sg grp.ctx .w64 true (ea sg grp (.s 4) 0 l) (there 0x200100 l)) ∧
    HgathOk (guardMask sg grp always) .hgath (there 0x200100) := by
  refine ⟨issuing_sg, acts_sg, (by unfold Passes; decide +kernel), lanes_all fun l hl _ => ⟨?_, (access_ok .w64 (by decide +kernel)).1⟩, fun _ => ⟨(by decide +kernel), Config.homeHash (0x200100 / 128) % 192, lanes_all fun l _ _ => ⟨0x200100, 0, rfl, (by decide +kernel), rfl⟩⟩⟩
  show windowOf ((sg.wgOf 32).sreg 4 + 0) = .global
  decide +kernel
/-- Lane 0 of group 0 holds a reservation on the line of 0x200100, under .own. -/
def held : State := about (small.updCtx 32 fun c => { c with resv := [(0, ⟨0x200100 / 128, .own⟩)] }) one
def scAcc : Acc := { id := 1, ctx := 32, core := 0, level := false, lanes := 1, pc := fetchVa, head := fetchVa, off := 0, pol := .own, scope := .core, elems := [elem (.sc 7)], isLoad := true }
theorem wit_store_conditional : (elem (.sc 7)).place = .mem 0x200100 0 0 ∧ (elem (.sc 7)).op = .sc 7 ∧ (Tab.find? held.ctxs scAcc.ctx).isSome = true ∧
    Tab.wfFrom (⟨0, .si⟩ : Resv) none (held.ctx scAcc.ctx).resv = true ∧ (held.ctx scAcc.ctx).reserved 0 (0x200100 / 128) scAcc.pol = true ∧
    (Tab.find? so.ctxs scAcc.ctx).isSome = true ∧ Tab.wfFrom (⟨0, .si⟩ : Resv) none (so.ctx scAcc.ctx).resv = true ∧ (so.ctx scAcc.ctx).reserved 0 (0x200100 / 128) scAcc.pol = false := by
  decide +kernel

/-! ## Statements about barriers -/

def bar1 (b : Bar) : State := about (small.updWg 1 fun g => g.setBar 0 b) grp
def fresh2 : Bar := { garr := 0, harr := false, phase := 255, drops := 1, expect := 2, arrived := 0 }
theorem issuing_bar1 : Issuing (bar1 fresh2) grp := ⟨(by decide +kernel), (by decide +kernel), (by decide +kernel), (by decide +kernel)⟩
theorem wit_barriers :
    (Issuing sg grp ∧ Passes sg grp always .both { srcs := [(.s 6, 1)] } ∧ Passes sg grp always .both {} ∧ guardMask sg grp always ≠ 0 ∧
      1 ≤ (src32 sg grp (lowestLane (guardMask sg grp always)) (.s 6)).toNat ∧ (src32 sg grp (lowestLane (guardMask sg grp always)) (.s 6)).toNat ≤ 255 ∧
      (barOf sg grp.ctx 0).arrived = 0 ∧ ∀ c ∈ sg.copies, c.2.wk = grp.ctx / 32 → c.2.form.bar ≠ 0) ∧
    (Issuing (bar1 fresh2) grp ∧ (Tab.find? (bar1 fresh2).wgs (grp.ctx / 32)).isSome = true ∧ ((bar1 fresh2).wgOf grp.ctx).bars.length = 16 ∧ Passes (bar1 fresh2) grp always .both {} ∧
      (barOf (bar1 fresh2) grp.ctx 0).expect ≠ 0 ∧ arrived (barOf (bar1 fresh2) grp.ctx 0) grp.ctx = false ∧ ((barOf (bar1 fresh2) grp.ctx 0).arrived + 1) % 256 ≠ (barOf (bar1 fresh2) grp.ctx 0).expect) ∧
    (((barOf (bar1 { fresh2 with expect := 1 }) grp.ctx 0).arrived + 1) % 256 = (barOf (bar1 { fresh2 with expect := 1 }) grp.ctx 0).expect) ∧
    (arrived (barOf (bar1 { fresh2 with garr := 1, arrived := 1 }) grp.ctx 0) grp.ctx = true ∧ Passes (bar1 { fresh2 with garr := 1, arrived := 1 }) grp always .both {} ∧
      Passes (bar1 fresh2) grp always .both { pdst := [3] }) ∧
    (Passes sg grp always .groups {} ∧ grp.level = false ∧ ∀ e ∈ (sg.ctx grp.ctx).syncs, e.1 ≠ Scope.core ∨ e.2 = 0) :=
  ⟨⟨issuing_sg, (by unfold Passes; decide +kernel), (by unfold Passes; decide +kernel), (by decide +kernel), (by decide +kernel), (by decide +kernel), (by decide +kernel), (by decide +kernel)⟩, ⟨issuing_bar1, (by decide +kernel), (by decide +kernel), (by unfold Passes; decide +kernel), (by decide +kernel), (by decide +kernel), (by decide +kernel)⟩, (by decide +kernel), ⟨(by decide +kernel), (by unfold Passes; decide +kernel), (by unfold Passes; decide +kernel)⟩, (by unfold Passes; decide +kernel), rfl, (by decide +kernel)⟩

/-! ## Statements about engines -/

/-- T0 is 32 rows of 128 E4M3 elements, T1 of 128 Q4X elements; barrier 0 has two members; accumulator 0 has XP forms. -/
def tiled : State := about (small.updWg 1 fun g => { (g.setBar 0 fresh2) with tshape := 0x28008000 :: 0x48008000 :: List.replicate 6 0, xpValid := [true, false, false, false] }) grp
theorem issuing_tiled : Issuing tiled grp := ⟨(by decide +kernel), (by decide +kernel), (by decide +kernel), (by decide +kernel)⟩
theorem wit_tile_accesses : Issuing tiled grp ∧ Passes tiled grp always .both { srcs := [(.s 4, 2)] } ∧ guardMask tiled grp always ≠ 0 ∧
    (nth 0 (tiled.wgOf grp.ctx).tshape 0 ≠ 0 ∧ shapeType (nth 0 (tiled.wgOf grp.ctx).tshape 0) = TileTy.e4m3.code.toNat ∧
      rowsCheck tiled grp.ctx 0x100100 (shapeRb (nth 0 (tiled.wgOf grp.ctx).tshape 0)) (shapeRows (nth 0 (tiled.wgOf grp.ctx).tshape 0)) (shapeRb (nth 0 (tiled.wgOf grp.ctx).tshape 0)) (tileAlign .e4m3) false = none) ∧
    (tstShape tiled grp.ctx (.tile 0 .e4m3) = (true, 32, 128, 8) ∧ rowsCheck tiled grp.ctx 0x100100 128 32 128 8 true = none ∧ tstShape tiled grp.ctx (.acc 3) = (true, 32, 128, 8) ∧
      tstCalm tiled grp.ctx (.tile 0 .e4m3) ∧ tstCalm tiled grp.ctx (.acc 3)) :=
  ⟨issuing_tiled, (by unfold Passes; decide +kernel), (by decide +kernel), (by decide +kernel), (by decide +kernel), (by decide +kernel), (by decide +kernel), ⟨(by decide +kernel), fun _ h => nomatch h⟩, (by show tiled.accBusy _ _ = false; decide +kernel)⟩
theorem wit_tile_registers : Issuing tiled grp ∧ Passes tiled grp always .both { srcs := [(.s 6, 1)] } ∧ shapeFits 0x28008000 = true ∧ shapeFits 0x0080FF00 = false ∧ shapeFits 0 = false ∧
    Passes tiled grp always .both {} ∧ guardMask tiled grp always ≠ 0 ∧ (Tab.find? tiled.wgs (grp.ctx / 32)).isSome = true ∧ Tab.wf 0 (tiled.wgOf grp.ctx).tiles = true ∧
    Tab.wf 0x7F (tiled.wgOf grp.ctx).tscl = true ∧ Tab.wf 0 (tiled.wgOf grp.ctx).acc = true ∧ tiled.tileBusy grp.ctx 7 = false ∧ tiled.accBusy grp.ctx 3 = false :=
  ⟨issuing_tiled, (by unfold Passes; decide +kernel), (by decide +kernel), (by decide +kernel), (by decide +kernel), (by unfold Passes; decide +kernel), (by decide +kernel), (by decide +kernel), (by decide +kernel), (by decide +kernel), (by decide +kernel), (by decide +kernel), (by decide +kernel)⟩
/-- A shape register that a MOVTS may write, in S6. -/
def shape : State := about (small.updWg 1 fun g => { g with s := [(6, 0x28008000)] }) grp
theorem wit_move_tile_shape : Issuing shape grp ∧ Passes shape grp always .both { srcs := [(.s 6, 1)] } ∧ guardMask shape grp always ≠ 0 ∧
    shapeFits (src32 shape grp (lowestLane (guardMask shape grp always)) (.s 6)) = true := ⟨⟨(by decide +kernel), (by decide +kernel), (by decide +kernel), (by decide +kernel)⟩, (by unfold Passes; decide +kernel), (by decide +kernel), (by decide +kernel)⟩
def mmq : TmmX := { h := always, ac := 0, ta := 0, tb := 1, ty := .e4m3, kb := 0 }
def mms : TmmsX := { h := always, ac := 0, ta := 0, tb := 0, tm := 2, ty := .e4m3, pat := .p24, kb := 0 }
def gemm : TgemmX := { h := always, ty := .e4m3, ac := 3, ab := .v 2, c := .v 4, mt := 0, nt := 0, ks := 1 }
theorem wit_matrix : Issuing tiled grp ∧ (∀ r ∈ matRules mmq mms, Form.check { h := r.2.1, opc := 0, who := .both, plan := {}, queue := matRoom tiled grp r.2.1 } tiled grp = none) ∧
    guardMask tiled grp always ≠ 0 ∧ (tiled.wgOf grp.ctx).matShapes { mop := .tmmq, ty := .e4m3, ac := 0, ta := 0, tb := 1, tm := 0, pat := .p24, kb := 0 } = some [0x28008000, 0x48008000, 0x28008000] ∧
    (tiled.wgOf grp.ctx).matShapes { mop := .tmma, ty := .e4m3, ac := 0, ta := 0, tb := 0, tm := 0, pat := .p24, kb := 0 } = some [0x28008000, 0x28008000, 0x28008000] ∧
    (∃ snap u, tiled.snapshot (grp.ctx / 32) { mop := .tmmq, ty := .e4m3, ac := 0, ta := 0, tb := 1, tm := 0, pat := .p24, kb := 0 } = (snap, u) ∧
      snapMetaOk { mop := .tmmq, ty := .e4m3, ac := 0, ta := 0, tb := 1, tm := 0, pat := .p24, kb := 0 } [0x28008000, 0x48008000, 0x28008000] snap = true) ∧
    (Tab.find? tiled.wgs (grp.ctx / 32)).isSome = true ∧ (tiled.wgOf grp.ctx).told = [] ∧
    (Passes tiled grp always .both { srcs := [(.v 2, 2), (.v 4, 1)] } (matRoom tiled grp always) ∧ ∀ p ∈ panels 0 0 0 gemm, p.1 % 64 = 0 ∧ p.1 + p.2 ≤ (tiled.wgOf grp.ctx).reserved) :=
  ⟨issuing_tiled, (by decide +kernel), (by decide +kernel), (by decide +kernel), (by decide +kernel), ⟨_, _, rfl, rfl⟩, (by decide +kernel), (by decide +kernel), (by unfold Passes; decide +kernel), (by decide +kernel)⟩
theorem wit_accumulators : Issuing tiled grp ∧ (∀ l, hasLane (guardMask tiled grp always) l = true → (src32 tiled grp l (.v 1)).toNat ≤ 1023) ∧ tiled.accBusy grp.ctx 0 = false ∧
    Passes tiled grp always .both { srcs := [(.v 1, 1)], dsts := [(.v 2, 1)] } ∧ Passes tiled grp always .both { srcs := [(.v 1, 1)], dsts := [(.v 2, 2)] } ∧
    nth false (tiled.wgOf grp.ctx).xpValid 0 = true ∧ Passes tiled grp always .both { srcs := [(.v 1, 1), (.v 2, 1)] } ∧ guardMask tiled grp always ≠ 0 ∧
    (Tab.find? tiled.wgs (grp.ctx / 32)).isSome = true ∧ Tab.wf 0 (tiled.wgOf grp.ctx).acc = true ∧ Passes tiled grp always .both { dsts := [(.v 2, 1)] } :=
  ⟨issuing_tiled, lanes_all (by decide +kernel), (by decide +kernel), (by unfold Passes; decide +kernel), (by unfold Passes; decide +kernel), (by decide +kernel), (by unfold Passes; decide +kernel), (by decide +kernel), (by decide +kernel), (by decide +kernel), (by unfold Passes; decide +kernel)⟩
def cpy : CpyX := { h := always, b := 0, pol := .own, hint := 0, dst := .s 4, src := .s 4, len := .s 6, chan := none, td := false }
def cpym : CpymX := { h := always, b := 0, pol := .own, hint := 0, dst := .sp .zero, src := .s 4, len := .s 6, td := true, cmd := { mop := .tmmq, ty := .e4m3, ac := 0, ta := 0, tb := 1, tm := 0, pat := .p24, kb := 0 } }
def cpycv : CpycvX := { h := always, b := 0, pol := .own, hint := 0, dst := .s 4, src := .s 4, len := .s 6, chan := none, nsat := false, form := 0x01020000 }
def cpylb : CpylbX := { h := always, b := 0, pol := .own, hint := 0, dst := .s 4, src := .s 4, len := .s 6, chan := { ch := 1, scope := .core, pub := .s 4 }, fresh := false, rowb := 4, sstr := 8 }
/-- A copy that group 0 is to join. -/
def joined : State :=
  { tiled with copies := [(9, { id := 9, wk := 1, number := some 0, form := { opc := 0xCA, bar := 0, pol := .own, chan := none, flag := false, td := false, form := 0, cmd := none }, slices := [] })] }
theorem pub_ok {o : Option DWord} {q : Prop} (h : o.all (fun y => decide (y.toNat % 8 = 0)) = true) (y : DWord) (hy : o = some y) : y.toNat % 8 = 0 ∨ q := by
  subst hy; exact .inl (of_decide_eq_true h)
theorem wit_copies : Issuing tiled grp ∧
    (∀ r ∈ copyRules cpy cpym cpycv cpylb, Form.check { h := r.h, opc := 0, who := .both, plan := { srcs := [(r.dst, 2), (r.src, 2), (r.len, 1), (r.pub, 2)] }, queue := copyFull tiled grp r.f } tiled grp = none ∧
      SliceOk tiled grp r ∧
      ((tiled.wgOf grp.ctx).bar r.f.bar.val).expect ≠ 0 ∧ ∀ c, r.f.cmd = some c → (tiled.wgOf grp.ctx).matShapes c ≠ none) ∧ tiled.target grp.ctx = none ∧
    (Issuing joined grp ∧ (joined.target grp.ctx).isSome = true ∧ Tab.find? joined.copies 9 = (joined.target grp.ctx).map (·.2) ∧
      copyFull joined grp { opc := 0xCA, bar := 0, pol := .own, chan := none, flag := false, td := false, form := 0, cmd := none } = none) := by
  refine ⟨issuing_tiled, ?_, (by decide +kernel), ⟨(by decide +kernel), (by decide +kernel), (by decide +kernel), (by decide +kernel)⟩, (by decide +kernel), (by decide +kernel), (by decide +kernel)⟩
  intro r hr
  simp only [copyRules, List.mem_cons, List.not_mem_nil, or_false] at hr
  rcases hr with rfl | rfl | rfl | rfl
  · exact ⟨(by decide +kernel), ⟨(by decide +kernel), (by decide +kernel), pub_ok (by decide +kernel)⟩, (by decide +kernel), fun c hc => nomatch hc⟩
  · exact ⟨(by decide +kernel), ⟨(by decide +kernel), (by decide +kernel), pub_ok (by decide +kernel)⟩, (by decide +kernel), fun c hc => by cases hc; decide +kernel⟩
  · exact ⟨(by decide +kernel), ⟨(by decide +kernel), (by decide +kernel), pub_ok (by decide +kernel)⟩, (by decide +kernel), fun c hc => nomatch hc⟩
  · exact ⟨(by decide +kernel), ⟨(by decide +kernel), (by decide +kernel), pub_ok (by decide +kernel)⟩, (by decide +kernel), fun c hc => nomatch hc⟩

/-! ## Statements about streams -/

def fbopen : FbopenX := { h := always, pol := .si, hint := 0, q := 0, a := .s 4, b := .sp .zero, scope := .pkg, lev := 0 }
def fbskip : FbskipF := { h := always, q := 0, k := .s 6 }
def fbst : FbstF := { h := always, pol := .si, hint := 0, q := 0, addr := .s 4, scope := .pkg, off := 0 }
def fbstX : FbstX := { h := always, pol := .si, hint := 0, q := 0, addr := .s 4, scope := .pkg, off := 0 }
/-- Streams 0 and 1 stand open on level 0 of the trips, at a fibre of four. -/
def plainStream : Stream := ((((({} : Stream).set 509 3 1).set 498 3 4).set 288 32 0).set 160 32 4).setFibre false { spec := 0x0000000300000004, crd := 0 }
def open2 : State := about (small.updCtx 32 fun c => { c with streams := setNth (setNth c.streams 0 plainStream) 1 plainStream }) grp
theorem issuing_open2 : Issuing open2 grp := ⟨(by decide +kernel), (by decide +kernel), (by decide +kernel), (by decide +kernel)⟩
theorem wit_streams : Issuing sg grp ∧ (∀ r ∈ streamRules grp fbopen fbskip fbst fbstX, Form.check { h := r.h, opc := 0, who := .both, plan := { srcs := r.srcs, ok := r.ok && grp.ctx % 32 ≠ 16 }, queue := sumpRoom sg grp } sg grp = none) ∧
    guardMask sg grp always ≠ 0 ∧ (∃ u, openStream grp.ctx 0 0x100100 0 0 .si .pkg sg = .ok ((), u)) ∧ (∃ u, saveStream grp.ctx 0 .si 0x100100 sg = .ok ((), u)) ∧
    (∃ u, skipStream grp.ctx 0 4 open2 = .ok ((), u)) ∧ (∃ u, restStream grp.ctx 0 .si 0x100140 sg = .ok ((), u)) ∧
    (sg.ctx grp.ctx).streams.length = 16 ∧ (Tab.find? sg.ctxs grp.ctx).isSome = true := by
  have ok {m : Except RowStop (Unit × State)} (h : (match m with | .ok _ => true | .error _ => false) = true) : ∃ u, m = .ok ((), u) := by
    cases m with
    | ok p => exact ⟨p.2, rfl⟩
    | error e => simp at h
  exact ⟨issuing_sg, (by decide +kernel), (by decide +kernel), ok (by decide +kernel), ok (by decide +kernel), ok (by decide +kernel), ok (by decide +kernel), (by decide +kernel), (by decide +kernel)⟩
theorem wit_stream_pairs : Issuing open2 grp ∧ Passes open2 grp always .both { ok := grp.ctx % 32 ≠ 16 && (0 : Fin 16) ≠ 1 } ∧ guardMask open2 grp always ≠ 0 ∧
    (open2.stream grp.ctx 0).plain = true ∧ (open2.stream grp.ctx 1).plain = true ∧ (open2.ctx grp.ctx).streams.length = 16 ∧
    ((open2.stream grp.ctx 0).kind ≠ 0 ∧ (open2.stream grp.ctx 0).pair = false ∧
      Passes open2 grp always .both { dsts := [(.v 42, 1), (.v 43, 1)] ++ (if (open2.stream grp.ctx 0).pair then [(regPlus (.v 43) 1, 1)] else []), pdst := [3] } (sumpRoom open2 grp)) :=
  ⟨issuing_open2, (by unfold Passes; decide +kernel), (by decide +kernel), (by decide +kernel), (by decide +kernel), (by decide +kernel), (by decide +kernel), (by decide +kernel), (by unfold Passes; decide +kernel)⟩

/-! ## Statements about collectives, grids and traps -/

def cores : State := about { small with grids := [(1, { small.grid 1 with coresident := true })] } hd
theorem wit_collectives : Issuing cores hd ∧ Passes cores hd always .heads { srcs := [(.s 10, 2)] } (collRoom cores hd) ∧ guardMask cores hd always ≠ 0 ∧ (cores.gridOf hd.ctx).coresident = true ∧
    (∃ d counts t, readColl hd.ctx (src64 cores hd 0 (.s 10)) .allred (collBytes .f32) cores = .ok ((d, counts), t) ∧ t.collOpen (t.wgOf hd.ctx).vfn (collInst .pkg (t.wgOf hd.ctx).core) 0 .pkg = none) := by
  have ok {m : Except RowStop ((CollDesc × List Nat) × State)} (h : (match m with | .ok (_, t) => decide (t.colls = []) | .error _ => false) = true) : ∃ d counts t, m = .ok ((d, counts), t) ∧ t.colls = [] := by
    cases m with
    | ok p => exact ⟨p.1.1, p.1.2, p.2, rfl, of_decide_eq_true h⟩
    | error e => exact absurd h (by simp)
  obtain ⟨d, n, t, h, hc⟩ := ok (m := readColl hd.ctx (src64 cores hd 0 (.s 10)) .allred (collBytes .f32) cores) (by decide +kernel)
  exact ⟨⟨(by decide +kernel), (by decide +kernel), (by decide +kernel), (by decide +kernel)⟩, (by unfold Passes; decide +kernel), (by decide +kernel), (by decide +kernel), d, n, t, h, by simp [State.collOpen, hc]⟩
def entry : State := about (small.updWg 1 fun g => { g with collq := [(5, 0)] }) hd
theorem wit_collw : Issuing entry hd ∧ Passes entry hd always .heads { dsts := [(.s 2, 2)] } ∧ guardMask entry hd always ≠ 0 ∧
    (entry.wgOf hd.ctx).collq[(entry.ctx hd.ctx).collsCovered]? = some (5, 0) := ⟨⟨(by decide +kernel), (by decide +kernel), (by decide +kernel), (by decide +kernel)⟩, (by unfold Passes; decide +kernel), (by decide +kernel), (by decide +kernel)⟩
def launch : LaunchF := { h := always, d := .v 60, recd := 2, arg := .sp .zero }
theorem wit_launch : Issuing so one ∧ Passes so one always .both (launchPlan launch) ∧ guardMask so one always ≠ 0 ∧ (so.gridOf one.ctx).level < 7 ∧
    recordFault (launchRecord so one launch) 8 = none ∧ lanesOf (guardMask so one always) = [0] ∧ (Record.of (launchRecord so one launch)).level = (so.gridOf one.ctx).level + 1 ∧
    (Record.of (launchRecord so one launch)).after = false ∧ (Record.of (launchRecord so one launch)).coresident = false ∧
    (∃ f u, so.takeFrame (so.wgOf one.ctx).vfn (Record.of (launchRecord so one launch)).frame = (some f, u)) ∧
    (Record.of (launchRecord { so with wgs := [(1, { so.wg 1 with s := [(16, 0x100000), (18, 0x801)] })] } one launch)).level ≠ (so.gridOf one.ctx).level + 1 := by
  have ok {x : Option DWord × State} (h : x.1.isSome = true) : ∃ f u, x = (some f, u) := by
    obtain ⟨a, b⟩ := x
    cases a with
    | some f => exact ⟨f, b, rfl⟩
    | none => simp at h
  exact ⟨issuing_so, (by unfold Passes; decide +kernel), (by decide +kernel), (by decide +kernel), (by decide +kernel), (by decide +kernel), (by decide +kernel), (by decide +kernel), (by decide +kernel), ok (by decide +kernel), (by decide +kernel)⟩
/-- S12 names a live grid that is no ancestor. -/
def child : State :=
  about { small with grids := small.grids ++ [(2, { id := 2, slot := 1, gen := 1, parent := some 1 })], vfs := [(0, { small.vf 0 with gens := [(1, 1)] })]
                     wgs := [(1, { small.wg 1 with s := [(12, 0x0000000100000001)] })] } grp
theorem wit_join : (Issuing sg grp ∧ Passes sg grp always .both { srcs := [(.s 12, 2)] } ∧ sg.named 0 (src64 sg grp 0 (.s 12)) = .failed) ∧
    (Issuing child grp ∧ Passes child grp always .both { srcs := [(.s 12, 2)] } ∧ child.named 0 (src64 child grp 0 (.s 12)) = .live 2 ∧ 2 ∉ child.lineage (child.wgOf grp.ctx).grid 8) :=
  ⟨⟨issuing_sg, (by unfold Passes; decide +kernel), (by decide +kernel)⟩, ⟨(by decide +kernel), (by decide +kernel), (by decide +kernel), (by decide +kernel)⟩, (by unfold Passes; decide +kernel), (by decide +kernel), (by decide +kernel)⟩
theorem canTrap_sg : CanTrap sg grp := ⟨rfl, (by decide +kernel), (by decide +kernel), (by decide +kernel), (by decide +kernel)⟩
theorem wit_trap : Issuing sg grp ∧ CanTrap sg grp ∧ Passes sg grp always .both {} ∧ guardMask sg grp always ≠ 0 ∧ guardMask sg grp { always with pred := 0 } = 0 := ⟨issuing_sg, canTrap_sg, (by unfold Passes; decide +kernel), (by decide +kernel), (by decide +kernel)⟩
theorem wit_leaving_trap : Issuing st tl ∧ tl.level = true ∧ (st.ctx tl.ctx).trap = some trapped ∧ (st.ctx tl.ctx).front.lanes.length = 32 ∧ trapped.regs.kind = .precise ∧
    Passes st tl always .both {} ∧ guardMask st tl always ≠ 0 ∧ (∀ k, (st.ctx k).syncs = []) ∧ Passes st tl always .both { srcs := [(.s 4, 2)] } :=
  ⟨issuing_st, rfl, (by decide +kernel), (by decide +kernel), rfl, (by unfold Passes; decide +kernel), (by decide +kernel), tab_all (p := fun c => Ctx.syncs c = []) _ _ rfl (by decide +kernel), (by unfold Passes; decide +kernel)⟩
theorem wit_invalidate : Issuing st tl ∧ Passes st tl always .both { srcs := [(.s 4, 2)] } ∧ Passes st tl always .both { srcs := [(.s 4, 2), (.s 6, 1)] } ∧ Passes st tl always .both {} ∧
    guardMask st tl always ≠ 0 ∧ tl.level = true ∧ (src32 st tl (lowestLane (guardMask st tl always)) (.s 6)).toNat ≠ 0 := ⟨issuing_st, (by unfold Passes; decide +kernel), (by unfold Passes; decide +kernel), (by unfold Passes; decide +kernel), (by decide +kernel), rfl, (by decide +kernel)⟩
theorem wit_reclaim : Passes st tl always .both { srcs := [(.s 4, 2), (.v 1, 1)] } ∧ (src64 st tl 0 (.s 4)).toNat % 128 = 0 ∧ guardMask st tl always = wordMask 0 (lanesOf (guardMask st tl always)).length ∧
    windowOf (src64 st tl 0 (.s 4)) = .global ∧ (∃ p, st.xlat (st.coreOf tl.ctx) 0 (src64 st tl 0 (.s 4)).toNat = .ok p ∧ p.cls = 0 ∧ physRange (p.phys (src64 st tl 0 (.s 4)).toNat) = .tier ∧ p.va ∉ (st.vf 0).busyPages) :=
  ⟨(by unfold Passes; decide +kernel), (by decide +kernel), (by decide +kernel), (by decide +kernel), { vfn := 0, va := 0x100000, bits := 16, pa := 0x200000, cls := 0, own := 0, w := true, x := true, bind := false, pers := false }, (by decide +kernel), rfl, (by decide +kernel), (by decide +kernel)⟩
theorem wit_damain2 : Issuing sg grp ∧ CanTrap sg grp ∧ Passes sg grp always .both {} := ⟨issuing_sg, canTrap_sg, (by unfold Passes; decide +kernel)⟩
def pair (op : PairOp) : PairW := { c := false, dist := 0, wait := 0, hint := true, d := if op = .nop then .v 0 else .v 4, s := if op = .nop then .v 0 else .v 5, other := ⟨.fadd, .v 9, .v 10⟩ }
theorem wit_pairs : Issuing sg grp ∧ ∀ r ∈ pairForms, pairCheck r.2 (pair r.2) sg grp = none := ⟨issuing_sg, (by decide +kernel)⟩
theorem wit_bad_words : Issuing sg grp ∧ CanTrap sg grp ∧ check2 grp 0xF7 = none ∧ (∃ w0 : DWord, sg.word? grp.ctx grp.pc = some w0 ∧ w0.extractLsb' 62 2 ≠ 1) := ⟨issuing_sg, canTrap_sg, (by decide +kernel), 0, (by decide +kernel), (by decide +kernel)⟩
/-- The buffered word is a pair, its slot 0 code 63. -/
def badPair : State := about (small.updCtx 32 fun c => { c with ibuf := [(fetchVa.toNat, 0x40000FC000000000)] }) grp
theorem wit_bad_pair : badPair.word? grp.ctx grp.pc = some 0x40000FC000000000 ∧ (0x40000FC000000000 : DWord).extractLsb' 62 2 = 1 ∧ PairOp.ofCode ((0x40000FC000000000 : DWord).extractLsb' 38 6) = none := by decide +kernel

/-! ## Statements about happenings -/

def withArgs (s : State) (a : Args) : State := { s with args := a }
def onGroup (f : Ctx → Ctx) (a : Args) : State := withArgs (small.updCtx 32 f) a
/-- The word at 0x100040 stands in the core's instruction cache. -/
def cached : State := withArgs ((small.updCore 0 fun c => { c with icache := [(0x200040, 5)] }).updVf 0 fun v => { v with objects := [⟨0, 0x100000, 0x1000, [], [], [(0x100000, 0x1000)]⟩] }) { id := 32, v := 0x100040 }
def pending (w : Wr) (flag : Option (Bool × Nat)) (due : Option Nat) : Pend := { id := 7, due := due, wr := [w], codes := [], lanes := 1, flag := flag }
def counting : State :=
  { onGroup (fun c => { c with pends := [pending ⟨.v 0 1, 0⟩ (some (false, 2)) none] }) { id := 7 } with
    jobs := [(7, { id := 7, ctx := 32, level := false, lanes := 3, pc := fetchVa, head := fetchVa, off := 0, seqs := [], job := .trdy [] })] }
def handlerRec : TrapRec := { cause := 0x11, addr := 5, pc := fetchVa, lanes := 3, kind := .precise }
theorem wit_issue_logic : (State.reset.powered = true ∧ State.reset.cores = [] ∧ State.reset.ctxs = []) ∧
    ((Tab.find? cached.ctxs 32).isSome = true ∧ windowOf cached.args.v = .global ∧ cached.args.v.toNat % 8 = 0 ∧ 0x200040 % 8 = 0 ∧
      cached.chkFetch (cached.wgOf 32).vfn (cached.wgOf 32).core cached.args.v = .ok (.mem 0x200040 0 0) ∧ Tab.find? (cached.core (cached.coreOf 32)).icache 0x200040 = some 5) ∧
    (∀ w ∈ [(⟨.v 0 5, 9⟩ : Wr), ⟨.s 7, 9⟩], let s := onGroup (fun c => { c with pends := [pending w none (some 0)] }) { id := 32 };
      (Tab.find? s.ctxs 32).isSome = true ∧ (s.ctx 32).pends = [pending w none (some 0)] ∧ 0 ≤ (s.core (s.coreOf 32)).time ∧ Tab.wf 0 (s.ctx 32).v = true ∧
        (Tab.find? s.wgs (32 / 32)).isSome = true ∧ Tab.wf 0 (s.wgOf 32).s = true) ∧
    (counting.acc 7 = none ∧ (counting.job 7).isSome = true ∧ (Tab.find? counting.ctxs 32).isSome = true ∧ 2 < (counting.ctx 32).front.flags.length) ∧
    (∀ lr ∈ [none, some (fetchVa, 16)], let s := onGroup (fun c => { c with deferred := true, lrWin := lr }) { id := 32 };
      (Tab.find? s.ctxs 32).isSome = true ∧ (s.ctx 32).deferred = true ∧ (s.ctx 32).lrWin = lr) ∧
    (let s := onGroup (fun c => { c with waiting := [handlerRec] }) { id := 32 };
      (Tab.find? s.ctxs 32).isSome = true ∧ TrapFree s 32 ∧ (s.ctx 32).waiting = [handlerRec]) ∧
    (let s := { onGroup (fun c => { c with trap := some trapped }) { id := 32 } with clock := 65536 };
      (s.ctx 32).trap = some trapped ∧ 65536 ≤ s.clock - trapped.entered) :=
  ⟨(by decide +kernel), (by decide +kernel), (by decide +kernel), (by decide +kernel), (by decide +kernel), ⟨(by decide +kernel), ⟨(by decide +kernel), (by decide +kernel)⟩, (by decide +kernel)⟩, (by decide +kernel)⟩

def request (kind : ReqKind) : Req := { id := 7, acc := 9, core := 0, kind := kind, line := 0x400, words := [0x8000], need := [0x8000] }
def element (op : ElemOp) : Elem := { lane := 0, va := 0x20000, place := .mem 0x20000 0 0, n := 4, dst := .v 0, op := op, req := 7 }
def access (op : ElemOp) : Acc :=
  { id := 9, ctx := 32, core := 0, level := false, lanes := 1, pc := fetchVa, head := fetchVa, off := 0, pol := .own, scope := .pkg, elems := [element op], isLoad := false }
def homeOf (r : Req) (as : Tab Acc) : State := { withArgs small { id := 7 } with reqs := [(7, r)], accs := as, clock := 1 }
theorem atHome_of (kind : ReqKind) (as : Tab Acc) (r : Req) (d : Tab Word) (h : r = { request kind with atHome := true, data := d }) : AtHome (homeOf r as) kind r 0x8000 := by
  subst h
  exact ⟨rfl, rfl, rfl, rfl, rfl, rfl, rfl, (by show (small.fillWay 0).isSome = true; decide +kernel), (by decide +kernel), rfl⟩
theorem uncached_small : Uncached small := ⟨(by decide +kernel), (by decide +kernel), (by decide +kernel)⟩
def dirtyWord (st : L1St) : L1Word := { st := st, data := 0x12345678, dirty := 0xF, way := 1 }
/-- A recall of a word that core 0 owns, on behalf of a core of die 1. -/
def recalled : State :=
  { State.reset with args := { id := 7, num := 0 }, reqs := [(7, { request .rdO with core := 256, atHome := true, asked := [0] })], l1 := [(l1Key 0 0x8000, dirtyWord .m)],
                     dir := [(0x8000, { mode := .x 0, busy := some 7 })] }
theorem wit_coherence : (Uncached (homeOf (request .rdU) []) ∧ (request .rdU).announced = false ∧ (request .rdU).atHome = false ∧ (request .rdU).cls = 0 ∧ (request .rdU).words ≠ [] ∧
      (request .rdU).at' < (homeOf (request .rdU) []).clock ∧ (homeOf (request .rdU) []).accs = []) ∧
    (∀ k ∈ [ReqKind.rdU, .rdT, .rdO], Uncached (homeOf { request k with atHome := true } []) ∧ (homeOf { request k with atHome := true } []).accs = [] ∧
      AtHome (homeOf { request k with atHome := true } []) k { request k with atHome := true } 0x8000) ∧
    (∀ k ∈ [(ReqKind.wrW, ElemOp.store 5), (.atH, .atomic .add 5)], Uncached (homeOf { request k.1 with atHome := true } [(9, access k.2)]) ∧
      AtHome (homeOf { request k.1 with atHome := true } [(9, access k.2)]) k.1 { request k.1 with atHome := true } 0x8000 ∧
      (let e := element k.2; (request k.1).acc = (access k.2).id ∧ (access k.2).elems = [e] ∧ e.req = (request k.1).id ∧ e.done = false ∧ e.place = .mem (4 * 0x8000) 0 0 ∧ e.n = 4)) ∧
    (∀ st ∈ [L1St.m, .us], let s := { withArgs small { id := 0, num := 0x8000 } with l1 := [(l1Key 0 0x8000, dirtyWord st)] };
      Tab.wf ({} : L1Word) s.l1 = true ∧ Memory.wf s.mem = true ∧ (s.l1w 0 0x8000).st = st ∧ (s.l1w 0 0x8000).dirty = 0xF) ∧
    (Uncached (homeOf { request .reclaim with atHome := true, data := [(0x8000, 3)] } []) ∧
      AtHome (homeOf { request .reclaim with atHome := true, data := [(0x8000, 3)] } []) .reclaim { request .reclaim with atHome := true, data := [(0x8000, 3)] } 0x8000) ∧
    (recalled.req 7 = some { request .rdO with core := 256, atHome := true, asked := [0] } ∧ coreDie 0 = recalled.args.num ∧ recalled.ctxs = [] ∧ Memory.wf recalled.mem = true) ∧
    ((recalled.req recalled.args.id).isSome = true) := by
  refine ⟨⟨uncached_small, (by decide +kernel), (by decide +kernel), (by decide +kernel), (by decide +kernel), (by decide +kernel), rfl⟩, ?_, ?_, (by decide +kernel), ⟨uncached_small, atHome_of _ _ _ _ rfl⟩, (by decide +kernel), (by decide +kernel)⟩
  · intro k hk
    refine ⟨uncached_small, rfl, atHome_of _ _ _ [] ?_⟩
    simp only [request]
  · intro k hk
    refine ⟨uncached_small, atHome_of _ _ _ [] ?_, rfl, rfl, rfl, rfl, rfl, rfl⟩
    simp only [request]

/-- The page at 0x100000 is mapped by itself, read-only. -/
def readOnly : State :=
  { withArgs small { id := 0, v := 0x100000 } with
    mem := Memory.setDWord (Memory.setDWord (Memory.setDWord (Memory.setDWord (Memory.setDWord [] 0x10000 0x12001) 0x12000 0x14001) 0x14000 0x16001) 0x16000 0x17001) 0x17100 0x100007 }
def roPage : Tlb := { vfn := 0, va := 0x100000, bits := 16, pa := 0x100000, cls := 1, own := 0, w := false, x := false, bind := false, pers := false }
/-- Core 0 of die 0 owns a word of host memory. -/
def ownedByDie : State :=
  { State.reset with args := { v := 0x800000000000, on := true }, l1 := [(l1Key 0 0x200000000000, dirtyWord .m)], dir := [(0x200000000000, { mode := .x 0 })] }
/-- A load whose access waits in the oldest window of its core's sump. -/
def missingAcc : Acc := { access .load with id := 7, pol := .si, isLoad := true, elems := [{ element .load with req := 0, sump := true }] }
def missing : State := { small.updCore 0 fun c => { c with sump := [(0, [(7, 0)])] } with clock := 32, accs := [(7, missingAcc)] }
theorem wit_failures : (State.reset.vfs = [] ∧ (withArgs State.reset { who := .l1 3 }).args.who = .l1 3 ∧ (withArgs State.reset { who := .dieAgent 3 }).args.who = .dieAgent 3 ∧
      (withArgs State.reset { who := .store 1, list := [5] }).args.who = .store 1 ∧ physRange 20 = .tier ∧ (State.reset.dirWord 5).mode = .n ∧
      (withArgs State.reset { who := .cistern 3, list := [5] }).args.who = .cistern 3 ∧ (withArgs State.reset { who := .corrected 5 }).args.who = .corrected 5 ∧ (withArgs State.reset { who := .standpipe }).args.who = .standpipe ∧
      State.reset.pf.errcorr.length = 8 ∧ State.reset.args.who = .hostLink ∧ State.reset.linkUp = true ∧ (let s := { State.reset with args := { list := [5] }, dir := [(5, { mode := .x 12 })] };
        Tab.wf ({} : DirWord) s.dir = true ∧ 5 ∈ s.args.list ∧ (s.dirWord 5).mode = .x 12)) ∧
    (readOnly.walk 0 0x100000 = .ok roPage ∧ roPage.cls ≠ 0 ∧ readOnly.leafAt 0 0x100000 = some (0x17100, 16) ∧ readOnly.accs = [] ∧ readOnly.jobs = [] ∧ readOnly.copies = [] ∧ Uncached readOnly ∧ (∀ x ∈ readOnly.vfs, x.2.busyPages = [])) ∧
    ((missing.core 0).sump = [(0, [(7, 0)])] ∧ 32 ≤ missing.clock - 0 ∧ missing.accs = [(7, missingAcc)] ∧ missingAcc.id = 7 ∧ missingAcc.pol = .si ∧ missingAcc.core = 0 ∧
      (let e := { element .load with req := 0, sump := true }; missingAcc.elems = [e] ∧ e.place = .mem 0x20000 0 0 ∧ e.n = 4 ∧ e.done = false) ∧ physRange 0x20000 = .tier ∧
      missing.inScale 0x20000 = false ∧ missing.jobs = [] ∧ (missing.ctx 32).fences = [] ∧ (missing.ctx 32).pends = [] ∧ missing.l1 = [] ∧ missing.reqs = []) :=
  ⟨(by decide +kernel), ⟨(by decide +kernel), (by decide +kernel), (by decide +kernel), (by decide +kernel), (by decide +kernel), (by decide +kernel), ⟨(by decide +kernel), (by decide +kernel), (by decide +kernel)⟩, (by decide +kernel)⟩, (by decide +kernel)⟩
theorem wit_host_memory : (State.reset.reached = true ∧ State.reset.vfs = [] ∧ Uncached State.reset ∧ physRange 0 = .tier) ∧
    (let s := withArgs State.reset { v := 0x1010, bytes := List.replicate 48 1 };
      s.reached = true ∧ s.vfs = [] ∧ Uncached s ∧ physRange s.args.v.toNat = .tier ∧ s.args.bytes ≠ [] ∧ s.args.bytes.length ≤ 64 - s.args.v.toNat % 64) ∧
    (let s := ownedByDie;
      s.reached = true ∧ s.vfs = [] ∧ s.args.on = true ∧ physRange s.args.v.toNat = .host ∧ s.args.v.toNat / 64 * 16 ≤ 0x200000000000 ∧ 0x200000000000 < s.args.v.toNat / 64 * 16 + 16 ∧
        coreDie 0 = 0 ∧ Memory.wf s.mem = true) := ⟨⟨(by decide +kernel), (by decide +kernel), ⟨(by decide +kernel), (by decide +kernel), (by decide +kernel)⟩, (by decide +kernel)⟩, ⟨(by decide +kernel), (by decide +kernel), ⟨(by decide +kernel), (by decide +kernel), (by decide +kernel)⟩, (by decide +kernel), (by decide +kernel), (by decide +kernel)⟩, (by decide +kernel)⟩

theorem fault_of {α : Type} {m : Except RowStop (α × State)} (h : (match m with | .error (.fault _ _ _) => true | _ => false) = true) : ∃ cz d a, m = .error (.fault cz d a) := by
  cases m with
  | ok p => simp at h
  | error e => cases e <;> simp_all
def slice (src : DWord) (progress : Nat) : Slice := { ctx := 32, level := false, lanes := 3, pc := fetchVa, dst := 0x100000, src := src, len := 4, pub := none, progress := progress, ended := false }
def form (chan : Option (Fin 4 × Scope)) : CopyForm := { opc := 0xCA, bar := 0, pol := .own, chan := chan, flag := false, td := false, form := 0, cmd := none }
def copy (chan : Option (Fin 4 × Scope)) (src : DWord) (progress : Nat) (begun : Bool) : Copy :=
  { id := 7, wk := 1, number := none, form := form chan, slices := [slice src progress], started := begun, begun := begun }
def copying (c : Copy) : State := { withArgs tiled { id := 7 } with copies := [(7, c)] }
theorem wit_copy_happenings : (∀ c, (copying c).copies = [((copying c).args.id, c)]) ∧
    (let c := copy (some (1, .core)) 0x100400 0 false; c.id = 7 ∧ c.begun = false ∧ (copying c).supplied c = true ∧ (slice 0x100400 0).isOpen c.form = true ∧
      (Tab.find? (copying c).wgs 1).isSome = true ∧ ((copying c).wg 1).wptr.length = 4) ∧
    (let c := copy none 0x100400 4 true; c.form.chan = none ∧ c.stopped = false ∧ c.started = true ∧ c.begun = true ∧ c.matId = none ∧ c.qfmt = [] ∧ (∀ x ∈ c.slices, x.isOpen c.form = false) ∧ (Tab.find? (copying c).wgs 1).isSome = true ∧
      ((copying c).wg 1).bars.length = 16 ∧ (((copying c).wg 1).bar 0).expect ≠ 0 ∧ ((((copying c).wg 1).bar 0).arrived + 1) % 256 ≠ (((copying c).wg 1).bar 0).expect) ∧
    (let c := copy (some (1, .core)) 0x100400 4 true; c.form.chan = some (1, .core) ∧ c.done ≠ c.counted ∧ (∀ x ∈ c.slices, x.pub = none) ∧ (Tab.find? (copying c).wgs 1).isSome = true ∧ ((copying c).wg 1).wptr.length = 4) ∧
    (let c := copy none 0x300000000000000 0 true; c.begun = true ∧ c.stopped = false ∧ (copying c).args.pick = none ∧ c.form.chan = none ∧ c.slices = [slice 0x300000000000000 0] ∧ (slice 0x300000000000000 0).isOpen c.form = true ∧
      (Tab.find? (copying c).ctxs 32).isSome = true ∧ TrapNow (copying c) 32 ∧ (copying c).sliceLive (slice 0x300000000000000 0) ≠ 0) ∧
    (∃ cz d a, copyStep (copy none 0x300000000000000 0 true) (slice 0x300000000000000 0) (copying (copy none 0x300000000000000 0 true)) = .error (.fault cz d a)) :=
  ⟨fun _ => rfl, (by decide +kernel), (by decide +kernel), (by decide +kernel), ⟨(by decide +kernel), (by decide +kernel), (by decide +kernel), (by decide +kernel), (by decide +kernel), (by decide +kernel), (by decide +kernel), ⟨⟨(by decide +kernel), (by decide +kernel)⟩, (by decide +kernel)⟩, (by decide +kernel)⟩, fault_of (by decide +kernel)⟩

def shapes : List Word := [0x28008000, 0x48008000, 0x28008000]
def operation (m : Option Gemm) : MatCmdQ :=
  { id := 3, ctx := 32, cmd := { mop := .tmmq, ty := .e4m3, ac := 0, ta := 0, tb := 1, tm := 0, pat := .p24, kb := 0 }, shapes := shapes, armed := true, gemm := m }
def tgemm : Gemm := { ty := .e4m3, a := 0, b := 0, c := 0, mt := 0, nt := 0, ks := 2 }
def queued (q : MatCmdQ) (act : Bool) (busy : Option (Nat × Nat × Nat)) : State :=
  withArgs { small with wgs := [(1, { small.wg 1 with mq := [q], pump := { act := act } })], cores := [(0, { small.core 0 with mat := busy })] } { id := 0 }
theorem wit_matrix_happenings : (∀ e ∈ [(none, false), (some tgemm, false), (some tgemm, true)], let s := queued (operation e.1) e.2 none
      (s.wg 1).core = 0 ∧ (s.wg 1).evicted = false ∧ (s.wg 1).leaving = false ∧ (s.core 0).testDue = false ∧ s.wgs = [(1, s.wg 1)] ∧ (s.wg 1).mq = [operation e.1] ∧ (operation e.1).armed = true ∧ (s.core 0).mat = none ∧ (s.wg 1).pump.act = e.2 ∧
        (s.vf (s.wg 1).vfn).quiescing = false ∧ s.capped = false ∧ (s.wg 1).pump.kb < tgemm.ks) ∧
    (∀ m ∈ [none, some tgemm], let s := queued (operation m) m.isSome (some (1, 3, 0)); s.wgs = [(1, s.wg 1)] ∧ (s.wg 1).core = 0 ∧ (s.core 0).mat = some (1, 3, 0) ∧ 0 ≤ s.clock ∧ (operation m).id = 3 ∧
      (s.wg 1).mq = [operation m] ∧ (operation m).gemm = m ∧ (s.wg 1).pump.act = m.isSome ∧ (operation m).tainted = false ∧ (operation m).spoiled = false ∧ (s.core 0).suspect = false ∧
      (s.core 0).testDue = false ∧ snapMetaOk (operation m).cmd (operation m).shapes (operation m).snap = true ∧ Tab.wf 0 (s.wg 1).acc = true) ∧
    (let s := withArgs (small.updCore 0 fun c => { c with testDue := true }) {}; (s.core 0).mat = none ∧ (s.core 0).testDue = true) ∧
    (let s := withArgs (small.updCore 0 fun c => { c with mat := some (0, 0, 0), faulty := [15] }) {}; (s.core 0).mat = some (0, 0, 0) ∧ 0 ≤ s.clock ∧ s.args.list = [] ∧
      (s.core 0).faulty.eraseDups.filter (fun b => !(s.core 0).fenced.contains b) = [] ++ [15]) := ⟨(by decide +kernel), (by decide +kernel), (by decide +kernel), (by decide +kernel)⟩

def part (src : DWord) : Part := { ctx := 48, rank := 0, src := src, dst := 0x100400, ovf := 0, stat := 0, ovflen := 0, counts := [], held := false, killed := false, collected := false }
def coll (src : DWord) : Coll :=
  { id := 7, vfn := 0, inst := 0, cid := 0, scope := .pkg, op := .allred, ty := .f32, count := 1, parts := 1, rcap := 0, members := [part src], status := none }
def waiterRec (job : Job) (k : Nat) : JobRec := { id := 7, ctx := k, level := false, lanes := 1, pc := fetchVa, head := fetchVa, off := 0, seqs := [], job := job }
def collected (src : DWord) : State := { withArgs small { id := 7 } with colls := [coll src], jobs := [(7, waiterRec (.collw 7 0 (.s 2)) 48)] }
theorem collRun_ok {m : Except CollStop (Nat × State)} (h : (match m with | .ok (_, u) => decide (u.colls = [coll 0x100300]) | .error _ => false) = true) : ∃ st u, m = .ok (st, u) ∧ u.colls = [coll 0x100300] := by
  cases m with
  | ok p => exact ⟨p.1, p.2, rfl, of_decide_eq_true h⟩
  | error e => exact absurd h (by simp)
theorem collRun_bad {m : Except CollStop (Nat × State)} (h : (match m with | .error ⟨0, .fault _ _ _⟩ => true | _ => false) = true) : ∃ cz d a, m = .error ⟨0, .fault cz d a⟩ := by
  cases m with
  | ok p => simp at h
  | error e =>
    obtain ⟨r, e⟩ := e
    cases r <;> cases e <;> simp_all
/-- Stream 0 of group 0 stands at a fibre whose coordinates no page maps. -/
def lostFibre : State := { withArgs (small.updCtx 32 fun c => { c with streams := setNth c.streams 0 (plainStream.setFibre false { spec := 0x0000000700000004, crd := 0x300000000000000 }) }) { id := 7 } with
                           jobs := [(7, waiterRec (.stream 0 1 1 2 3 false) 32)] }
theorem wit_collective_happenings :
    (let s := collected 0x100300; s.colls = [coll 0x100300] ∧ (coll 0x100300).full = true ∧ (∀ m ∈ (coll 0x100300).members, m.held = false)) ∧
    (∃ st u, collRun (coll 0x100300) (collected 0x100300) = .ok (st, u) ∧ u.colls = [coll 0x100300]) ∧
    (∃ cz d a, collRun (coll 0x300000000000000) (collected 0x300000000000000) = .error ⟨0, .fault cz d a⟩) ∧
    (let s := collected 0x300000000000000; s.collWaiter (part 0x300000000000000) 7 = some (waiterRec (.collw 7 0 (.s 2)) 48) ∧ TrapNow s 48 ∧ (Tab.find? s.ctxs 48).isSome = true ∧
      maskOf ((lanesOf 1).filter fun l => ((s.ctx 48).front.lane l).st ≠ .exited) ≠ 0) ∧
    (let s := lostFibre; (∃ cz d a, nextStep (waiterRec (.stream 0 1 1 2 3 false) 32) 0 1 2 3 s = .error (.fault cz d a)) ∧ (s.job 7).isSome = true ∧ TrapNow s 32 ∧
      maskOf ((lanesOf 1).filter fun l => ((s.ctx 32).front.lane l).st ≠ .exited) ≠ 0) :=
  ⟨⟨(by decide +kernel), (by decide +kernel), (by decide +kernel)⟩, collRun_ok (by decide +kernel), collRun_bad (by decide +kernel), ⟨(by decide +kernel), ⟨⟨(by decide +kernel), (by decide +kernel)⟩, (by decide +kernel)⟩, (by decide +kernel), (by decide +kernel)⟩, fault_of (by decide +kernel), (by decide +kernel), ⟨⟨(by decide +kernel), (by decide +kernel)⟩, (by decide +kernel)⟩, (by decide +kernel)⟩

/-! ## Power -/

def power (f : Pf → Pf) (a : Args) : State := withArgs { small with pf := f Pf.reset } a
def asking (n : DWord) : State := { power (fun p => { p with capped := true, toklevel := n }) {} with tokenq := [1] }
theorem wit_power : (small.pf.pwrctl.getLsbD 63 = small.pf.capped ∧ small.pf.tokcapNow = small.pf.tokcap) ∧
    (let s := power (fun p => { p with pwrctl := 0x8000000002580000 }) {}; s.pf.pwrctl.getLsbD 63 = true ∧ s.pf.capped = false ∧ s.pf.dutysel.getLsbD 7 = false) ∧
    ((asking 0).tokenq = [1] ∧ (asking 0).pf.capped = true ∧ (asking 0).pf.toklevel = 0) ∧ ((asking 5).tokenq = [1] ∧ (asking 5).pf.capped = true ∧ (asking 5).pf.toklevel ≠ 0 ∧
      (Tab.find? (asking 5).wgs 1).isSome = true) ∧
    (∀ m ∈ [false, true], let s := power (fun p => { p with capped := m, dutysel := if m then 0x80 else 0 }) {}; s.pf.capped = false ∨ s.pf.dutysel.getLsbD 7 = true) ∧
    (let s := { small with llc := [(0, { p := 3, up := 2, down := 1 })] }; Tab.wf ({} : LlcSlice) s.llc = true ∧ s.persistMin ≤ 3 ∧ 3 ≤ s.persistMax) ∧ small.powered = true ∧ small.linkUp = true ∧
    (∀ c ∈ [99, 100, 110], let s := power id { id := 31, v := BitVec.ofNat 64 (c * 2 ^ 40) }; s.args.id < 32 ∧ s.pf.throttled.length = 32 ∧ s.args.v.toNat / 2 ^ 40 % 2 ^ 8 = c) ∧
    (let s := power (fun p => { p with throttled := List.replicate 32 true }) { id := 31, v := 94 <<< 40 }; s.args.v.toNat / 2 ^ 40 % 2 ^ 8 < 95 ∧ nth false s.pf.throttled 31 = true) :=
  ⟨(by decide +kernel), (by decide +kernel), (by decide +kernel), (by decide +kernel), (by decide +kernel), (by decide +kernel), (by decide +kernel), (by decide +kernel), (by decide +kernel), (by decide +kernel)⟩

/-! ## Dispatch and eviction -/

def entry2 : QEntry := { grid := 2, next := 0, prio := 1, since := 0 }
/-- Grid 2 waits at the dispatcher of die 0; with more registers than any core has, it finds no room. -/
def waiting (regs : Nat) : State :=
  withArgs { small with grids := small.grids ++ [(2, { id := 2, slot := 1, gen := 1, prio := 1, regs := regs, groups := 2, entry := 0x100000 })], dies := [(0, { queue := [entry2] })]
                        coresident := [2], vfs := [(0, { small.vf 0 with savesize := 0x80000, savebase := 0x300000 })] } {}
def roomy : State := waiting 8
def crowded : State := waiting 2049
theorem wit_dispatch : ((roomy.die 0).queue = [entry2] ∧ roomy.mayPlace 2 = true ∧ (roomy.roomFor 0 entry2).length = 256 ∧ roomy.args.pick = none ∧ (Tab.find? roomy.grids 2).isSome = true ∧
      (roomy.grid 2).cist = 0 ∧ (roomy.grid 2).groups ≤ 16) ∧
    (let s := withArgs roomy { id := 2 }; 2 ∈ s.coresident ∧ s.mayPlace 2 = true ∧ s.args.list = [] ∧ (s.grid 2).wgcnt = 1 ∧
      (List.range 3072).find? (fun c => s.room c (s.grid 2).groups (s.grid 2).regs 0 && !s.owed c (s.grid 2).prio && !s.withheldFor c 2 (s.grid 2).prio) = some 0) ∧
    (let s := { withArgs roomy { id := 2 } with clock := 2 ^ 20 }; 2 ∈ s.coresident ∧ (Tab.find? s.grids 2).isSome = true ∧ 2 ^ 20 ≤ s.clock - (s.grid 2).since) ∧
    (let s := { withArgs small { id := 0, num := 3 } with cores := [(0, { ways := List.replicate 8 (.draining 1) })] }; (s.core 0).way 3 = .draining 1 ∧ (s.core 0).way 7 = .draining 1) ∧
    (let s := withArgs { small with ctxs := [] } { id := 1 }; s.wgs = [(1, s.wg 1)] ∧ s.wgDone 1 = true ∧ (Tab.find? s.grids (s.wg 1).grid).isSome = true) ∧
    (let s := withArgs { small with grids := [(1, { id := 1, retired := 1 })] } { id := 1 }; s.grids = [(1, s.grid 1)] ∧ (s.grid 1).wgcnt ≤ (s.grid 1).retired ∧ (s.grid 1).children = 0 ∧
      (s.grid 1).parent = none ∧ (s.grid 1).done = 0) := ⟨(by decide +kernel), (by decide +kernel), (by decide +kernel), (by decide +kernel), (by decide +kernel), (by decide +kernel)⟩
theorem some_of {α : Type} {x : Option α} (h : x.isSome = true) : ∃ u, x = some u := by
  cases x with
  | some u => exact ⟨u, rfl⟩
  | none => simp at h
/-- The workgroup of the small machine with no group left to save. -/
def groupless : State := withArgs (crowded.updWg 1 fun g => { g with ngroups := 0 }) { id := 1 }
theorem wit_eviction : (let s := withArgs crowded { id := 32 }; s.wanting 0 (s.grid 1).prio = some entry2 ∧ s.groupMay 32 = true ∧
      (s.wgOf 32).evicted = false ∧ (s.use 0).wgs + 1 ≤ 4 ∧ ((s.grid 2).cist + 0x7FFF) / 0x8000 ≤ (lentWays (s.core 0)).length ∧ s.firstVictim 0 1 (fun w => (Tab.keys s.ctxs).any fun x => x / 32 = w && s.groupMay x) = true ∧
      ∃ u, s.takeSlots 0 32 1 0 = some u) ∧
    ((groupless.wg 1).evicted = false ∧ (groupless.wg 1).starting = false ∧ groupless.wgMay 1 = true ∧ groupless.enginesRun 1 = false ∧ groupless.accessesRun 1 = false ∧
      ({ groupless with copies := [(7, copy none 0x100400 0 true)] } : State).enginesRun 1 = true ∧
      (groupless.wanting 0 (groupless.grid 1).prio).isSome = true ∧ groupless.firstVictim 0 1 groupless.wgMay = true ∧ ∃ u, groupless.takeSlots 0 (2 ^ 60 + 1) 11 0 = some u) ∧
    (let s := onGroup (fun c => { c with evicted := true }) { id := 32 }; s.args.num = 0 ∧ (Tab.find? s.ctxs 32).isSome = true ∧ (s.ctx 32).evicted = true ∧ (s.wgOf 32).evicted = false ∧
      (s.use 0).groups + 1 ≤ 16 ∧ (s.use 0).regs + (s.wgOf 32).regs ≤ 2048 ∧ (s.vf 0).quiescing = false) :=
  ⟨⟨(by decide +kernel), (by decide +kernel), (by decide +kernel), (by decide +kernel), (by decide +kernel), (by decide +kernel), some_of (by rfl)⟩, ⟨(by decide +kernel), (by decide +kernel), (by decide +kernel), (by decide +kernel), (by decide +kernel), (by decide +kernel), (by decide +kernel), (by decide +kernel), some_of (by rfl)⟩, (by decide +kernel)⟩

/-! ## Services and the host's registers -/

def onVf (f : Vf → Vf) (a : Args) : State := withArgs { small with vfs := [(0, f (small.vf 0))] } a
def asked : Open := { kind := 1, index := some 4, va := 0x100000, info := 16, answered := false, recd := 0 }
/-- A trap queue at 0x140000 with one finished record, which the device has still to copy. -/
def logging : State := { onVf (fun v => { v with tqbase := 0x140000, tqctl := 0x80000004, tqlog := 0x10000 }) {} with
                         mem := Memory.setDWord (Memory.setDWord small.mem 0x140000 1) 0x140040 0x0600000000000000 }
theorem wit_services : (let s := onVf id { v := 0x100000 }; ∃ p, s.walk 0 s.args.v.toNat = .ok p) ∧
    (let s := onVf (fun v => { v with tqctl := 0x80000000 }) { v := 0x200000000000 }; (∃ b, s.walk 0 s.args.v.toNat = .absent none b) ∧ (s.vf 0).tqEn = true ∧ (s.vf 0).opens = []) ∧
    (∀ m ∈ [none, some (1, 3, 0)], let s := withArgs { small with vfs := [(0, { quiescing := true })], cores := [(0, { mat := m })] } {}; (s.vf 0).quiescing = true ∧ s.engineBusy 0 = m.isSome) ∧
    ((small.vf 0).tqEn = false ∧ (small.vf 0).opens = []) ∧ ((logging.vf 0).opens = [] ∧ (logging.vf 0).tqEn = true ∧ (logging.vf 0).dutysel.getLsbD 5 = false ∧ logging.tqSeq 0 < logging.tqWr 0 ∧
      nth 0 (logging.devRead 0 (logging.tqEntry 0 (logging.tqSeq 0)) 8) 7 ≠ 0) ∧
    (let s := onVf (fun v => { v with fplow := 0x20000, fplimit := 0x30000 }) {}; s.args.on = false ∧ (s.vf 0).fpfree < (s.vf 0).fplow.toNat ∧ (s.vf 0).dutysel.getLsbD 4 = false ∧
      (s.vf 0).fpact.toNat < (s.vf 0).fplimit.toNat) ∧
    (let s := onVf id { v := 0x4000000000 }; s.answers = true ∧ s.args.v.toNat / 2 ^ 38 ≠ 0) ∧
    (let s := onVf (fun v => { v with opens := [asked] }) { v := 4 }; s.answers = true ∧ s.args.v.toNat = 4 ∧ (s.vf 0).opens = [asked] ∧ s.tqRd 0 ≤ 4) ∧
    (let s := onVf (fun v => { v with dutysel := 0x10 }) { v := 0x10000 }; s.answers = true ∧ (s.vf 0).dutysel.getLsbD 4 = true ∧ s.args.v.toNat % 0x10000 = 0) :=
  ⟨⟨{ vfn := 0, va := 0, bits := 30, pa := 0, cls := 0, own := 0, w := true, x := true, bind := false, pers := false }, (by decide +kernel)⟩, ⟨⟨16, (by decide +kernel)⟩, (by decide +kernel), (by decide +kernel)⟩, (by decide +kernel), (by decide +kernel), (by decide +kernel), (by decide +kernel), (by decide +kernel), (by decide +kernel), (by decide +kernel)⟩

/-- A root record of level 0 at 0x180000. -/
def rooted : State :=
  withArgs { small with mem := Memory.setDWord (Memory.setDWord small.mem 0x180000 0x100000) 0x180010 0x801, vfs := [(0, { small.vf 0 with rootq := [0x180000] })] } {}
def GoodRecord (s : State) (w : Nat → DWord) : Prop :=
  recordFault w 6 = none ∧ w 7 = 0 ∧ (w 6).toNat % 8 = 0 ∧ (w 6 = 0 ∨ windowOf (w 6) = .global) ∧ (Record.of w).level = 0 ∧ (Record.of w).after = false ∧ (Record.of w).coresident = false ∧ (s.takeFrame 0 (Record.of w).frame).1.isSome = true
theorem rootRead_ok {r : RootRead × State} (h : match r with | (.ok w, u) => GoodRecord u w | _ => False) : ∃ w u, r = (.ok w, u) ∧ GoodRecord u w := by
  obtain ⟨r, u⟩ := r
  cases r with
  | ok w => exact ⟨w, u, rfl, h⟩
  | _ => exact absurd h (by simp)
theorem wit_host_registers : (small.answers = true ∧ small.args.on = false ∧ ∀ r ∈ plainRegs, (withArgs small { num := r.1 }).args.num = r.1) ∧
    (let s := withArgs small { on := true, num := 0x800, v := 0x40 }; s.reached = true ∧ s.args.on = true ∧ s.args.num = 0x800) ∧
    (let s := onVf (fun v => { v with rootq := [0x180001, 0x180000] }) {}; (s.vf 0).rootq = [0x180001, 0x180000] ∧ (s.vf 0).quiescing = false ∧ (0x180001 : DWord).toNat % 64 ≠ 0) ∧
    ((∃ leaf bits, windowOf 0x200000000000 = .global ∧ small.walk 0 0x200000000000 = .absent leaf bits) ∧ windowOf 0xFF00000000000000 ≠ .global ∧ (0xFF00000000000000 : DWord).toNat % 64 = 0 ∧
      ({ small with dir := [(0x4000, { mode := .z })] } : State).walk 0 0x180000 = .lost ∧ ({ small with mem := Memory.setDWord small.mem 0x10000 0xD } : State).walk 0 0x180000 = .bad) ∧
    ((rooted.vf 0).rootq = [0x180000] ∧ (rooted.vf 0).quiescing = false ∧ ∃ w u, rooted.rootRead 0 0x180000 = (.ok w, u) ∧ GoodRecord u w) ∧
    (∀ b ∈ [false, true], let s := withArgs small { on := b, v := 0xFF }; s.answers = true ∧ s.args.v.toNat < 256 ∧ s.args.on = b ∧ (Tab.find? s.vfs 0).isSome = true) ∧
    InvOk (onVf id { v := 0 }) 0 ∧ InvOk (onVf id { v := 0x1FFFFFFFF }) 1 ∧ InvOk (onVf id { v := 0x200000000 }) 2 ∧
    (let s := onVf (fun v => { v with invctl := 0x8000000000000000 }) {}; (s.vf 0).invctl.getLsbD 63 = true ∧ (s.vf 0).invctl.getLsbD 34 = false ∧ (s.vf 0).invwaits = []) ∧
    (∀ r ∈ [false, true], let s := withArgs small { num := 15, v := if r then 7 else 1 }; s.answers = true ∧ s.pf.fw.length = 16 ∧ (nth {} s.pf.fw 15).ctl.getLsbD 31 = false ∧ s.args.v.getLsbD 0 = true ∧
      s.fwRefuses 15 (s.args.v.toNat / 2 % 4) = r ∧ (nth {} s.pf.fw 15).ctl &&& 7 ≠ s.args.v &&& 7) ∧
    (let s := power (fun p => { p with fw := List.replicate 16 { ctl := 0x80000000, next := 1 } }) { id := 15 }; s.pf.fw.length = 16 ∧ (nth {} s.pf.fw 15).ctl.getLsbD 31 = true ∧
      s.rangeBusy (nth {} s.pf.fw 15).data.toNat (nth {} s.pf.fw 15).size.toNat = false) := by
  refine ⟨⟨(by decide +kernel), (by decide +kernel), (by decide +kernel)⟩, (by decide +kernel), (by decide +kernel), ⟨⟨none, 16, (by decide +kernel), (by decide +kernel)⟩, (by decide +kernel), (by decide +kernel), (by decide +kernel), (by decide +kernel)⟩, ⟨(by decide +kernel), (by decide +kernel), rootRead_ok ?_⟩, (by decide +kernel), ⟨(by decide +kernel), (by decide +kernel), (by decide +kernel), (by decide +kernel)⟩, ⟨(by decide +kernel), (by decide +kernel), (by decide +kernel), (by decide +kernel)⟩, ⟨(by decide +kernel), (by decide +kernel), (by decide +kernel), (by decide +kernel)⟩, (by decide +kernel), (by decide +kernel), (by decide +kernel)⟩
  show GoodRecord _ _
  exact ⟨(by decide +kernel), (by decide +kernel), (by decide +kernel), (by decide +kernel), (by decide +kernel), (by decide +kernel), (by decide +kernel), (by decide +kernel)⟩

/-! ## The module -/

def keyed : State :=
  withArgs { small with mem := Memory.writeN small.mem 0x800000000010 [0x80], pf := { Pf.reset with mbstat := 0, mblen := 512 } } {}
theorem wit_module : (Memory.wf small.mem = true) ∧
    (let s := power (fun p => { p with mblen := 64 }) {}; s.reached = true ∧ s.pf.mbstat ≠ 1 ∧ s.args.on = false ∧ s.mbFits = true ∧ 64 ≤ s.mbLen ∧ s.mbLen ≤ 64 + 0x4000000 + 384 + 16224) ∧
    (let s := power (fun p => { p with mblen := 35 }) {}; s.reached = true ∧ s.pf.mbstat ≠ 1 ∧ s.args.on = false ∧ s.mbLen < 64 ∧ s.running = true ∧ s.mbLen < 36) ∧
    (let s := keyed; s.reached = true ∧ s.pf.mbstat ≠ 1 ∧ s.running = true ∧ s.mbFits = true ∧ s.mbLen = 512 ∧ keysetOk (s.peekN s.mbAt 512) = true ∧
      s.keyInUse (natAt (s.peekN s.mbAt 512) 0 4) (natAt (s.peekN s.mbAt 512) 4 4) = false ∧ natAt (s.peekN s.mbAt 512) 8 4 = 0) ∧
    (let s := power (fun p => { p with mblen := 16800 }) {}; s.reached = true ∧ s.pf.mbstat ≠ 1 ∧ s.running = true ∧ Memory.wf s.mem = true ∧ s.mbFits = true ∧ 192 + 384 + 16224 ≤ s.mbLen ∧
      natOfBytes (s.peekN s.mbAt 4) < 512) ∧
    (let s := power (fun p => { p with mbimage := some [] }) { on := true }; s.args.on = true ∧ s.pf.mbimage = some []) ∧
    (small.answers = true ∧ small.args.id < 512 ∧ (small.vf small.args.id).dutysel.getLsbD 3 = false) ∧
    (∀ b ∈ [false, true], let s := onVf (fun v => { v with quiesced := b }) {}; s.answers = true ∧ (s.vf 0).quiesced = b) ∧
    (let s := withArgs small { id := 32 }; (Tab.find? s.ctxs 32).isSome = true ∧ s.pf.errunc.length = 8) :=
  ⟨(by decide +kernel), (by decide +kernel), (by decide +kernel), (by decide +kernel), (by decide +kernel), (by decide +kernel), (by decide +kernel), (by decide +kernel), (by decide +kernel)⟩

/-! ## Decoding and the step -/

/-- The small machine with a word to fetch: MOVI V51, and the lowest PC is lane 0's. -/
def fetched : State := State.reset.withFetchWord 128 (0x80001E31C3300000 + 2 ^ 64 * 0xC0000000FF000000)
theorem wit_step : (let s := { small with agenda := [{ what := .sumpWindowClose }] }; s.takeHappening.isSome = true ∧ s.picks = [] ∧ s.agenda = [{ what := .sumpWindowClose }] ∧ ∀ x ∈ s.agenda, x.overdue s.clock = false) ∧
    (let a := [({ what := .sumpWindowClose } : Happening)]; let h : Happening := { what := .wayDrain, due := some 0 }; (∀ x ∈ a, x.overdue small.clock = false) ∧ h.overdue small.clock = true) ∧
    (let s := { State.reset with powered := false }; s.picks = [] ∧ s.agenda = [] ∧ s.powered = false) ∧
    (State.reset.picks = [] ∧ State.reset.powered = true ∧ (match exec .issueCycle State.reset with | .next t => decide (t.issue = none) | _ => false) = true) ∧
    (fetched.picks = [] ∧ fetched.agenda = [] ∧ fetched.powered = true ∧ match exec .issueCycle fetched with
      | .next t => ∃ i ∈ t.issue, t.word? i.ctx i.pc = some 0x80001E31C3300000 ∧ t.word? i.ctx (i.pc + 8) = some 0xC0000000FF000000
      | _ => False) := by
  refine ⟨(by decide +kernel), (by decide +kernel), (by decide +kernel), ⟨(by decide +kernel), (by decide +kernel), (by decide +kernel)⟩, (by decide +kernel), (by decide +kernel), (by decide +kernel), ?_⟩
  exact ⟨{ ctx := 32, level := false, pc := fetchVa, exec := BitVec.allOnes 32, size := 16, head := fetchVa, off := 0, last := true }, (by decide +kernel), (by decide +kernel), (by decide +kernel)⟩
theorem wit_decode_encode : wellFormed (.moviX { h := always, w64 := false, d := .v 51, imm := 0xFF000000 }) = true ∧ (Instr.moviX { h := always, w64 := false, d := .v 51, imm := 0xFF000000 }).words ≠ [] := by decide +kernel
theorem wit_memory : Memory.wf small.mem = true ∧ (match step fetched with | .next _ => true | _ => false) = true := ⟨(by decide +kernel), (by decide +kernel)⟩

/-! ## Traps, and forms without an acting lane -/

def never : Hdr := { always with pred := 0 }
theorem wit_register_traps : Issuing sg grp ∧ CanTrap sg grp ∧ guardMask sg grp always ≠ 0 ∧
    (trapOnly .tpc = true ∧ Passes sg grp always .both { dsts := [(.v 2, 2)], ok := !(SysReg.tpc = .faircnt && grp.ctx % 32 = 16) && !(regWide .tpc && Reg.v 2 = .sp .zero) }) ∧
    (written .dutysel = false ∧ Passes sg grp always .both { srcs := [(.s 4, 1)], ok := !(SysReg.dutysel = .faircnt && grp.ctx % 32 = 16) }) ∧
    (written .trapbase = true ∧ grp.level = false ∧ Passes sg grp always .both { srcs := [(.s 4, 2)], ok := !(SysReg.trapbase = .faircnt && grp.ctx % 32 = 16) }) ∧
    (written .faircnt = true ∧ accepts .faircnt (readReg sg grp 0 (regWide .faircnt) (.s 6)) = false ∧ Passes sg grp always .both { srcs := [(.s 6, 1)], ok := !(SysReg.faircnt = .faircnt && grp.ctx % 32 = 16) }) :=
  ⟨issuing_sg, canTrap_sg, (by decide +kernel), ⟨rfl, (by unfold Passes; decide +kernel)⟩, ⟨rfl, (by unfold Passes; decide +kernel)⟩, ⟨rfl, rfl, (by unfold Passes; decide +kernel)⟩, rfl, (by decide +kernel), (by unfold Passes; decide +kernel)⟩
theorem wit_no_acting_lane : guardMask sg grp never = 0 ∧ Passes sg grp never .both {} ∧ guardMask noTrough grp never = 0 ∧ Passes noTrough grp never .groups { dsts := [(.v 2, 2)] } ∧
    (noTrough.wgOf grp.ctx).headExited = false ∧ (noTrough.wgOf grp.ctx).trough = [] := ⟨(by decide +kernel), (by unfold Passes; decide +kernel), (by decide +kernel), (by unfold Passes; decide +kernel), (by decide +kernel), (by decide +kernel)⟩
/-- NV of group 0 is set and enabled. -/
def enabled : State := about (small.updCtx 32 fun c => { c with fpstat := 1, fpctl := 0x200 }) grp
theorem wit_tfence_traps : Issuing enabled grp ∧ CanTrap enabled grp ∧ Passes enabled grp always .both {} ∧ guardMask enabled grp always ≠ 0 ∧
    (let f : BitVec 6 := (enabled.ctx grp.ctx).fpstat.setWidth 6 &&& (enabled.ctx grp.ctx).fpctl.extractLsb' 9 6
     f ≠ 0) := ⟨⟨(by decide +kernel), (by decide +kernel), (by decide +kernel), (by decide +kernel)⟩, ⟨rfl, (by decide +kernel), (by decide +kernel), (by decide +kernel), (by decide +kernel)⟩, (by unfold Passes; decide +kernel), (by decide +kernel), (by decide +kernel)⟩
theorem wit_canonical_nan_of_three : (∃ r ∈ fpRules.take 4, r.readD = true) ∧ (fp32.val 0x7FC00000).isNan = true ∧ infTimesZero { rm := .rne, ftz := false } 0x7F800000 0 = true ∧
    infTimesZero { rm := .rne, ftz := true } 0x80000001 0xFF800000 = true :=
  ⟨⟨_, .tail _ (.tail _ (.tail _ (.head _))), rfl⟩, (by decide +kernel), (by decide +kernel), (by decide +kernel)⟩

/-! ## Memory, reservations, SYNC -/

theorem hits_sg : Hits sg grp.ctx 0x100100 := by
  have e : windowOf 0x100100 = .global := by decide +kernel
  unfold Hits
  rw [e]
  decide +kernel
/-- The core owns the word on which lane 0 holds a reservation; and every die's home has die 0 among its sharers. -/
def owning (st : L1St) : State := { held with l1 := [(l1Key 0 0x80040, { st := st, data := 0x11223344, dirty := 0, way := 1 })] }
def sharing : State := { held with dir := [(0x80040, { mode := .t [0, 3] })] }
theorem wit_reservation_held : (∀ st ∈ [L1St.o, .m], let s := owning st
      (Tab.find? s.ctxs scAcc.ctx).isSome = true ∧ Tab.wfFrom (⟨0, .si⟩ : Resv) none (s.ctx scAcc.ctx).resv = true ∧ (s.ctx scAcc.ctx).reserved 0 (0x200100 / 128) scAcc.pol = true ∧ Tab.wf ({} : L1Word) s.l1 = true ∧
      0x200100 + (elem (.sc 7)).n ≤ 2 ^ 48 ∧ ∀ w ∈ (elem (.sc 7)).memWords, (s.l1w scAcc.core w).st = .o ∨ (s.l1w scAcc.core w).st = .m) ∧
    (sharing.ctx scAcc.ctx).reserved 0 (0x200100 / 128) scAcc.pol = true ∧ Memory.wf sharing.mem = true ∧
    ∀ w ∈ (elem (.sc 7)).memWords, ∃ l, (sharing.dirWord w).mode = .t l ∧ coreDie scAcc.core ∈ l := by
  have e : (elem (.sc 7)).memWords = [0x80040] := by decide +kernel
  refine ⟨by decide +kernel, by decide +kernel, by decide +kernel, ?_⟩
  rw [e]
  intro w hw
  rw [List.mem_singleton.mp hw]
  exact ⟨[0, 3], by decide +kernel, by decide +kernel⟩
/-- Only lanes 0 and 1 of group 0 live. -/
def twoLanes : State := sg.updCtx 32 fun c => { c with front := { c.front with lanes := c.front.lanes.zipIdx.map fun (x, n) => if n < 2 then x else { x with st := .exited } } }
theorem wit_sync : (Issuing sg grp ∧ AllActive sg grp ∧ Passes sg grp always .groups {} ∧ guardMask sg grp always ≠ 0 ∧ ¬ AllIn sg grp .grp (guardMask sg grp always)) ∧
    (Issuing twoLanes grp ∧ AllActive twoLanes grp ∧ Passes twoLanes grp always .groups {} ∧ guardMask twoLanes grp always ≠ 0 ∧ AllIn twoLanes grp .grp (guardMask twoLanes grp always)) ∧
    AllIn sg grp .core (guardMask sg grp always) ∧
    (cores.gridOf hd.ctx).coresident = true := by
  refine ⟨⟨issuing_sg, lanes_all (by decide +kernel), (by unfold Passes; decide +kernel), (by decide +kernel), ?_⟩, ⟨⟨(by decide +kernel), (by decide +kernel), (by decide +kernel), (by decide +kernel)⟩, lanes_all (by decide +kernel), (by unfold Passes; decide +kernel), (by decide +kernel), ?_⟩, ?_, (by decide +kernel)⟩
  · intro h
    exact absurd (h 2 (by decide +kernel) (by decide +kernel)) (by decide +kernel)
  · show ∀ l, l < 32 → _
    decide +kernel
  · show ∀ k ∈ sg.syncMembers grp.ctx .core, _
    decide +kernel

/-! ## Streams in the scratchpad -/

def pad (s : State) (a v : Nat) : State := s.setCistBytes 0 a (bytesLE 8 v)
/-- The tensor descriptor of the trips at the first byte of core 0's cistern, and the coordinates 1, 3, 5 and 9 at byte 128; stream 0 of group 0 is x, and S6 holds k. -/
def padded (x : Stream) (k : Nat) : State :=
  about ((pad (pad (pad (pad (pad small 0 0x12) 0x10 0x0000000300000004) 0x28 0x0000000700000100) 0x80 0x0000000300000001) 0x88 0x0000000900000005 |>.updWg 1 fun g => { g with s := Tab.set 0 g.s 6 (BitVec.ofNat 64 k) }).updCtx 32 fun c =>
    { c with streams := setNth c.streams 0 x }) grp
def padVa : DWord := 0xFF00000000000000
def denseStream (kind a b : Nat) : Stream :=
  (((((((({} : Stream).set 509 3 kind).set 498 3 4).set 160 32 4).set 224 32 3).set 128 32 a).set 192 32 b).setFibre false { spec := 0x0000000300000004, crd := 0 }).setFibre true { spec := 0x0000000300000003, crd := 0 }
def sparseStream (a : Nat) (prev : Option Word) : Stream := (((({} : Stream).set 509 3 1).set 498 3 4).set 160 32 4).set 128 32 a |>.setFibre false { spec := 0x0000000700000100, crd := padVa + 0x80, prev := prev }
theorem issuing_padded (x : Stream) (k : Nat) : Issuing (padded x k) grp := ⟨rfl, rfl, (fun h => nomatch h), rfl⟩
theorem wit_streams_in_scratchpad :
    (let s := padded {} 0; HasStreams s grp.ctx ∧ Passes s grp always .both { srcs := [(.s 8, 2), (.sp .zero, 1)], ok := pairOk (.s 8) && grp.ctx % 32 ≠ 16 } (sumpRoom s grp) ∧ guardMask s grp always ≠ 0 ∧
      src64 s grp 0 (.s 8) = padVa ∧ InScratch s grp.ctx padVa 128 false 0 0 ∧
      (let d : Desc := ⟨padVa, s.cistBytes 0 0 128⟩; d.ok = true ∧ 0 < d.rank ∧ (d.dword 0x10).toNat / 2 ^ 34 % 4 = 0 ∧ 0 * ((d.dword 0x10).toNat % 2 ^ 32) + (d.dword 0x10).toNat % 2 ^ 32 ≤ 0xFFFFFFFF)) ∧
    (∀ x ∈ [denseStream 1 0 0, denseStream 2 1 2, denseStream 3 3 2], let s := padded x 2; HasStreams s grp.ctx ∧ Passes s grp always .both { srcs := [(.s 6, 1)], ok := grp.ctx % 32 ≠ 16 } (sumpRoom s grp) ∧
      s.stream grp.ctx 0 = x ∧ 1 ≤ x.kind ∧ x.kind ≤ 3 ∧ (x.pair = false → x.a.o = true) ∧ x.a.kind = .dense ∧ (x.pair = true → x.b.kind = .dense)) ∧
    (∀ e ∈ [(0, none), (2, some 3)], let x := sparseStream e.1 e.2; let s := padded x 5; let crd (p : Nat) : Nat := ofBytesLE (s.cistBytes 0 (128 + 4 * p) 4)
      s.stream grp.ctx 0 = x ∧ x.kind = 1 ∧ x.a.o = true ∧ x.a.kind = .compressed ∧ x.get32 128 = e.1 ∧ x.get32 160 = 4 ∧
      ∀ p, p < 4 → e.1 ≤ p → InScratch s grp.ctx (x.a.crd + BitVec.ofNat 64 (4 * p)) 4 false 0 (128 + 4 * p) ∧ crd p < x.a.size ∧ (p = e.1 → x.a.prev.all (fun w => decide (w.toNat < crd p)) = true) ∧ ∀ q, q < p → e.1 ≤ q → crd q < crd p) ∧
    (let s := padded (denseStream 1 2 0) 0; Passes s grp always .both { srcs := [(.s 8, 2)], ok := baseOk (.s 8) && grp.ctx % 32 ≠ 16 } (sumpRoom s grp) ∧ Tab.wf 0 s.cist = true ∧
      InScratch s grp.ctx (padVa + 1024) 64 true 0 1024 ∧ InScratch s grp.ctx (padVa + 1024) 64 false 0 1024 ∧
      (let st : Stream := { st := BitVec.ofNat 512 (ofBytesLE (s.cistBytes 0 1024 64)) }
       st.kind = 0 ∧ stGet st.st 507 1 = 0 ∧ stGet st.st 448 27 = 0 ∧ stGet st.st 498 3 ≠ 7 ∧ stGet st.st 479 3 ≠ 7 ∧ (stGet st.st 475 4 < 12 ∨ stGet st.st 475 4 = 15))) := by
  unfold HasStreams InScratch Passes
  exact ⟨(by decide +kernel), (by decide +kernel), (by decide +kernel), (by decide +kernel)⟩
theorem wit_invalidate_traps : Issuing sg grp ∧ CanTrap sg grp ∧ guardMask sg grp always ≠ 0 ∧ Passes sg grp always .both { srcs := [(.s 4, 2)] } ∧ Passes sg grp always .both { srcs := [(.s 4, 2), (.s 6, 1)] } ∧
    Passes sg grp always .both { srcs := [(.s 4, 2), (.v 1, 1)] } ∧ Passes sg grp always .both {} ∧
    (src32 sg grp (lowestLane (guardMask sg grp always)) (.s 6)).toNat ≠ 0 ∧ ∀ p ∈ sg.rangePieces grp.ctx (src64 sg grp 0 (.s 4)).toNat (src32 sg grp 0 (.s 6)).toNat, p.chk.isOk = true :=
  ⟨issuing_sg, canTrap_sg, (by decide +kernel), (by unfold Passes; decide +kernel), (by unfold Passes; decide +kernel), (by unfold Passes; decide +kernel), (by unfold Passes; decide +kernel), (by decide +kernel), (by decide +kernel)⟩

/-! ## Results that are due, and work that ends -/

def duePred : State := onGroup (fun c => { c with pends := [pending ⟨.p 3 5, 1⟩ none (some 0)] }) { id := 32 }
def cistElem (op : ElemOp) : Elem := { lane := 3, va := padVa + 8, place := .cist 0 8, n := 4, dst := .v 5, op := op }
def cistPend (op : ElemOp) : Pend := { id := 7, due := some 0, wr := [], codes := [5], lanes := 8, elems := [cistElem op], flag := some (false, 2) }
def dueCist (op : ElemOp) : State := { onGroup (fun c => { c with pends := [cistPend op] }) { id := 32 } with cist := (pad small 8 0x44332211).cist }
theorem wit_due : ((Tab.find? duePred.ctxs 32).isSome = true ∧ (duePred.ctx 32).pends = [pending ⟨.p 3 5, 1⟩ none (some 0)] ∧ 0 ≤ (duePred.core (duePred.coreOf 32)).time ∧ 3 < (duePred.ctx 32).p.length) ∧
    ∀ op ∈ [ElemOp.load, .store 0x55], let s := dueCist op; OnlyPend s 32 (cistPend op) ∧ (cistElem op).place = .cist 0 8 ∧ (cistElem op).done = false ∧ (cistElem op).failed = false ∧ s.accs = [] ∧ s.jobs = [] ∧
      Tab.wf 0 s.cist = true :=
  ⟨(by decide +kernel), fun op h => by
    rcases List.mem_cons.mp h with rfl | h
    · exact ⟨⟨(by decide +kernel), (by decide +kernel), (by decide +kernel)⟩, rfl, rfl, rfl, rfl, rfl, (by decide +kernel)⟩
    · obtain rfl := List.mem_singleton.mp h
      exact ⟨⟨(by decide +kernel), (by decide +kernel), (by decide +kernel)⟩, rfl, rfl, rfl, rfl, rfl, (by decide +kernel)⟩⟩
/-- A load of four bytes in lane 0 and of eight in lane 1 is performed. -/
def loaded (k : Nat) (n : Nat) : Elem := { lane := k, va := 0x100100, place := .mem 0x200100 0 0, n := n, dst := .v 8, op := .load, done := true, got := bytesLE n 0x8877665544332211 }
def workPend : Pend := { id := 7, due := none, wr := [], codes := [8, 9], lanes := 3, flag := some (false, 2) }
def loading : State :=
  { onGroup (fun c => { c with pends := [workPend], outstanding := 1, front := { c.front with flags := List.replicate 12 1 } }) { id := 7 } with
    accs := [(7, { id := 7, ctx := 32, core := 0, level := false, lanes := 3, pc := fetchVa, head := fetchVa, off := 0, pol := .own, scope := .grp, elems := [loaded 0 4, loaded 1 8], isLoad := true, entry := true })] }
def working (s : State) (job : Job) : State :=
  { withArgs (s.updCtx 32 fun c => { c with pends := [workPend], outstanding := 1, front := { c.front with flags := List.replicate 12 1 } }) { id := 7 } with jobs := [(7, { waiterRec job 32 with lanes := 3 })] }
def workRec (job : Job) : JobRec := { waiterRec job 32 with lanes := 3 }
def nexting (x : Stream) : State := working (small.updCtx 32 fun c => { c with streams := setNth c.streams 0 x }) (.stream 0 3 1 2 3 false)
def tileLoading : State := working tiled (.tld 0 0x100080 128 2 128 1 false .own)
def collWaiting : State := { working small (.collw 7 0 (.s 2)) with colls := [{ coll 0x100300 with status := some 5 }] }
theorem wit_work_completes :
    (let a := (loading.acc 7).getD missingAcc; loading.accs = [(loading.args.id, a)] ∧ a.id = loading.args.id ∧ a.isLoad = true ∧ a.flagged = false ∧ OnlyPend loading a.ctx workPend ∧ workPend.id = loading.args.id ∧
      a.elems = [loaded 0 4, loaded 1 8] ∧ (∀ e ∈ a.elems, e.done = true ∧ e.failed = false ∧ (e.got.length = 8 ∨ 1 ≤ e.got.length ∧ e.got.length ≤ 4) ∧ e.dst = .v 8) ∧ a.elems.Pairwise fun e f => e.lane ≠ f.lane) ∧
    (∀ job ∈ [Job.trdy [], .tlbinv []], OnlyJob (working small job) (workRec job) workPend) ∧
    (OnlyJob tileLoading (workRec (.tld 0 0x100080 128 2 128 1 false .own)) workPend ∧
      (let ps := tileLoading.pieces 32 (0x100080 + BitVec.ofNat 64 (1 * 128)) 128 false
       tileLoading.stopOf ps true = .go ∧ (∃ bs v, (ps.foldl (fun t x => t.touchVa 32 x.va) tileLoading).readPieces (tileLoading.coreOf 32) .own ps = some (bs, v) ∧ bs.length = 128)) ∧
      tileLoading.tileBusy 32 0 = false ∧ (Tab.find? tileLoading.wgs 1).isSome = true ∧ Tab.wf 0 (tileLoading.wg 1).tiles = true ∧ Tab.wf 0x7F (tileLoading.wg 1).tscl = true) ∧
    (∀ x ∈ [denseStream 1 0 0, denseStream 1 4 0], let s := nexting x; OnlyJob s (workRec (.stream 0 3 1 2 3 false)) workPend ∧ (s.ctx 32).evicted = false ∧ (s.ctx 32).streams.length = 16 ∧ s.stream 32 0 = x ∧
      x.kind = 1 ∧ x.exh = false ∧ x.a.kind = .dense ∧ 3 < (s.ctx 32).p.length ∧ lanesOf (3 &&& ~~~x.dmask) = [0, 1]) ∧
    ((denseStream 1 0 0).get32 128 < (denseStream 1 0 0).a.size ∧ ((denseStream 1 0 0).get32 288 * (denseStream 1 0 0).a.size + 0) % 2 ^ 32 ≠ 0xFFFFFFFF ∧ (denseStream 1 4 0).a.size ≤ (denseStream 1 4 0).get32 128) ∧
    (OnlyJob collWaiting (workRec (.collw 7 0 (.s 2))) workPend ∧ collWaiting.colls = [{ coll 0x100300 with status := some 5 }] ∧ (Tab.find? collWaiting.wgs 1).isSome = true ∧ Tab.wf 0 (collWaiting.wgOf 32).s = true) := by
  have ok {o : Option (List Byte × State)} (h : (match o with | some (bs, _) => decide (bs.length = 128) | none => false) = true) : ∃ bs v, o = some (bs, v) ∧ bs.length = 128 := by
    cases o with
    | some p => exact ⟨p.1, p.2, rfl, of_decide_eq_true h⟩
    | none => exact absurd h (by simp)
  refine ⟨⟨(by decide +kernel), (by decide +kernel), (by decide +kernel), (by decide +kernel), ⟨(by decide +kernel), (by decide +kernel), (by decide +kernel)⟩, (by decide +kernel), (by decide +kernel), (by decide +kernel), (by decide +kernel)⟩, ?_, ⟨⟨(by decide +kernel), (by decide +kernel), (by decide +kernel), ⟨(by decide +kernel), (by decide +kernel), (by decide +kernel)⟩, (by decide +kernel), (by decide +kernel), (by decide +kernel)⟩, ⟨(by decide +kernel), ok (by decide +kernel)⟩, (by decide +kernel), (by decide +kernel), (by decide +kernel), (by decide +kernel)⟩, ?_, (by decide +kernel), ⟨⟨(by decide +kernel), (by decide +kernel), (by decide +kernel), ⟨(by decide +kernel), (by decide +kernel), (by decide +kernel)⟩, (by decide +kernel), (by decide +kernel), (by decide +kernel)⟩, (by decide +kernel), (by decide +kernel), (by decide +kernel)⟩⟩
  · intro job h
    simp only [List.mem_cons, List.not_mem_nil, or_false] at h
    rcases h with rfl | rfl <;> exact ⟨(by decide +kernel), (by decide +kernel), (by decide +kernel), ⟨(by decide +kernel), (by decide +kernel), (by decide +kernel)⟩, (by decide +kernel), (by decide +kernel), (by decide +kernel)⟩
  · intro x h
    simp only [List.mem_cons, List.not_mem_nil, or_false] at h
    rcases h with rfl | rfl <;> exact ⟨⟨(by decide +kernel), (by decide +kernel), (by decide +kernel), ⟨(by decide +kernel), (by decide +kernel), (by decide +kernel)⟩, (by decide +kernel), (by decide +kernel), (by decide +kernel)⟩, (by decide +kernel), (by decide +kernel), (by decide +kernel), (by decide +kernel), (by decide +kernel), (by decide +kernel), (by decide +kernel), (by decide +kernel)⟩

/-! ## Failures, host memory, copies, collectives -/

def failing (w : FailedHolder) : State := { withArgs State.reset { who := w } with l1 := [(l1Key 3 5, dirtyWord .m)], dir := [(5, { mode := .x 0 })] }
theorem wit_failed_holders : ∀ w ∈ [FailedHolder.l1 3, .dieAgent 0], let s := failing w; s.vfs = [] ∧ s.args.who = w ∧ (s.die 0).agentDown = false ∧ Tab.wf ({} : DirWord) s.dir = true ∧ Tab.wf ({} : L1Word) s.l1 = true ∧
    (s.l1w 3 5).st = .m ∧ coreDie 3 = 0 := by decide +kernel
theorem wit_calm_reclassification : (readOnly.vf readOnly.args.id).late = [] := by decide +kernel
/-- A snoop that carries bytes of the host's. -/
def snooped : State := { ownedByDie with args := { v := 0x800000000008, on := true, bytes := [1, 2, 3] } }
theorem wit_host_bytes : ∀ s ∈ [State.reset, ownedByDie, snooped], (∀ x ∈ s.reqs, x.2.arrived = none) ∧ (∀ h ∈ s.agenda, h.args.num = 0) ∧ s.reached = true ∧ s.vfs = [] ∧
    (s.args.on = true → physRange s.args.v.toNat = .host ∧ s.args.v.toNat / 64 * 16 ≤ 0x200000000000 ∧ 0x200000000000 < s.args.v.toNat / 64 * 16 + 16 ∧ s.dir = [(0x200000000000, { mode := .x 0 })]) := by decide +kernel
/-- A copy of 128 bytes of the scratchpad to the next line. -/
def padSlice : Slice := { slice padVa 0 with dst := padVa + 128, len := 128 }
def padCopy : Copy := { copy none 0 0 true with slices := [padSlice] }
def padCopying : State := { copying padCopy with cist := (padded {} 0).cist }
theorem wit_copy_moves : (padCopying.vf (padCopying.wg 1).vfn).quiescing = false ∧ ((copying (copy (some (1, .core)) 0x100400 0 false)).vf 0).quiescing = false ∧ padCopying.copies = [(padCopying.args.id, padCopy)] ∧
    padCopy.id = padCopying.args.id ∧ padCopy.form.opc = 0xCA ∧ padCopy.form.td = false ∧ padCopy.form.chan = none ∧ padCopy.stopped = false ∧ padCopy.started = true ∧ padCopy.begun = true ∧ padCopying.args.pick = none ∧
    padSlice.progress = 0 ∧ padSlice.ended = false ∧ padSlice.src.toNat % 128 = 0 ∧ padSlice.dst.toNat % 128 = 0 ∧ chkSpan padSlice.src 128 1 = none ∧ chkSpan padSlice.dst 128 1 = none ∧
    padCopying.chkWindow 32 padSlice.src 128 false = .ok (.cist 0 0) ∧ padCopying.chkWindow 32 padSlice.dst 128 true = .ok (.cist 0 128) ∧ Tab.wf 0 padCopying.cist = true := by decide +kernel
def half (op : CollOp) (q : Nat) : Part := { part (BitVec.ofNat 64 (0x100300 + 16 * q)) with rank := q, dst := BitVec.ofNat 64 (0x100400 + 16 * q), stat := BitVec.ofNat 64 (0x100420 + 16 * q), counts := if op = .alltoall then [1, 1] else [] }
def twoParts (op : CollOp) : Coll := { coll 0 with op := op, ty := .i32, parts := 2, rcap := if op = .alltoall then 2 else 0, members := [half op 0, half op 1] }
def twoRanks (op : CollOp) : State :=
  { withArgs small { id := 7 } with mem := Memory.setDWord (Memory.setDWord small.mem 0x200300 0x0000000600000005) 0x200310 0x0000000800000007, colls := [twoParts op] }
theorem area_half (op : CollOp) (m : Part) (hm : m.ctx = 48) (va : DWord) (n pa : Nat) (hw : windowOf va = .global) (hs : chkSpan va n 1 = none) (hp : va.toNat % 65536 + n ≤ 65536)
    (hk : ((twoRanks op).tlbAt ((twoRanks op).coreOf 48) ((twoRanks op).wgOf 48).vfn va.toNat).isSome = true) (ho : ∀ w, (twoRanks op).chkGlobal 48 va.toNat w = .ok (.mem pa 0 0)) : Area (twoRanks op) m va n pa :=
  ⟨hw, hs, hp, hm ▸ hk, fun w => ⟨0, hm ▸ ho w⟩⟩
theorem wit_two_ranks : ∀ op ∈ [CollOp.allred, .redsc, .allga, .alltoall], TwoRanks (twoRanks op) (twoParts op) (half op) (fun q => 0x200300 + 16 * q) (fun q => 0x200400 + 16 * q) ∧
    (twoParts op).full = true ∧ (let n := dstElems (twoParts op).op 1 2 (twoParts op).rcap; Apart 0x200400 (4 * n) 0x200410 (4 * n)) ∧
    (op = .alltoall → (twoParts op).rcap = 2 ∧ ∀ q, q < 2 → (half op q).counts = [1, 1] ∧ (half op q).ovflen = 0 ∧ Area (twoRanks op) (half op q) (half op q).stat 16 (0x200420 + 16 * q)) := by
  have two {p : Nat → Prop} (h0 : p 0) (h1 : p 1) : ∀ q, q < 2 → p q := by
    intro q hq
    match q, hq with
    | 0, _ => exact h0
    | 1, _ => exact h1
  intro op h
  simp only [List.mem_cons, List.not_mem_nil, or_false] at h
  rcases h with rfl | rfl | rfl | rfl <;>
    exact ⟨⟨(by decide +kernel), (by decide +kernel), (by decide +kernel), (by decide +kernel), (by decide +kernel), (by decide +kernel), (by decide +kernel), two ⟨(by decide +kernel), (by decide +kernel), (by decide +kernel), (by decide +kernel)⟩ ⟨(by decide +kernel), (by decide +kernel), (by decide +kernel), (by decide +kernel)⟩, ⟨(by decide +kernel), (by decide +kernel), (by decide +kernel)⟩, two (area_half _ _ rfl _ _ _ (by decide +kernel) (by decide +kernel) (by decide +kernel) (by decide +kernel) (by decide +kernel)) (area_half _ _ rfl _ _ _ (by decide +kernel) (by decide +kernel) (by decide +kernel) (by decide +kernel) (by decide +kernel)),
      two (area_half _ _ rfl _ _ _ (by decide +kernel) (by decide +kernel) (by decide +kernel) (by decide +kernel) (by decide +kernel)) (area_half _ _ rfl _ _ _ (by decide +kernel) (by decide +kernel) (by decide +kernel) (by decide +kernel) (by decide +kernel))⟩, (by decide +kernel), (by unfold Apart; decide +kernel),
      by first | exact fun h => absurd h (by decide) | exact fun _ => ⟨(by decide +kernel), two ⟨(by decide +kernel), (by decide +kernel), area_half _ _ rfl _ _ _ (by decide +kernel) (by decide +kernel) (by decide +kernel) (by decide +kernel) (by decide +kernel)⟩ ⟨(by decide +kernel), (by decide +kernel), area_half _ _ rfl _ _ _ (by decide +kernel) (by decide +kernel) (by decide +kernel) (by decide +kernel) (by decide +kernel)⟩⟩⟩
def lostNext : State := nexting (plainStream.setFibre false { spec := 0x0000000700000004, crd := 0x300000000000000 })
theorem wit_lost_element : OnlyJob lostNext (workRec (.stream 0 3 1 2 3 false)) workPend ∧ (∃ cz d a, nextStep (workRec (.stream 0 3 1 2 3 false)) 0 1 2 3 lostNext = .error (.fault cz d a)) ∧ TrapNow lostNext 32 ∧
    maskOf ((lanesOf 3).filter fun l => ((lostNext.ctx 32).front.lane l).st ≠ .exited) ≠ 0 :=
  ⟨⟨(by decide +kernel), (by decide +kernel), (by decide +kernel), ⟨(by decide +kernel), (by decide +kernel), (by decide +kernel)⟩, (by decide +kernel), (by decide +kernel), (by decide +kernel)⟩, fault_of (by decide +kernel), ⟨⟨(by decide +kernel), (by decide +kernel)⟩, (by decide +kernel)⟩, (by decide +kernel)⟩

/-! ## Power, dispatch, eviction, services -/

def starting : State := power (fun p => { p with pwrctl := 0x8000000002580000, capStarts := true }) {}
def heated (c freq was : Nat) (low : Bool) : State :=
  power (fun p => { p with throttled := setNth p.throttled 31 low, islstat := setNth p.islstat 31 (BitVec.ofNat 64 (was * 2 ^ 12)) }) { id := 31, v := BitVec.ofNat 64 (c * 2 ^ 40 + freq * 2 ^ 12) }
theorem wit_starts_and_islands : ((small.pf.pwrctl.getLsbD 63 = small.pf.capped ∧ small.pf.capStarts = false ∧ small.pf.tokcapNow = small.pf.tokcap) ∧ starting.pf.pwrctl.getLsbD 63 = true ∧ starting.pf.capStarts = true) ∧
    (let hot (s : State) := s.args.v.toNat / 2 ^ 40 % 2 ^ 8
     let freq (s : State) := s.args.v.toNat / 2 ^ 12 % 2 ^ 12
     let was (s : State) := (nth 0 s.pf.islstat s.args.id).toNat / 2 ^ 12 % 2 ^ 12
     let low (s : State) := nth false s.pf.throttled s.args.id
     (∀ s ∈ [heated 100 5 0 false, heated 109 5 6 false, heated 109 9 5 true], s.args.id < 32 ∧ s.pf.throttled.length = 32 ∧ s.pf.islstat.length = 32 ∧ 100 ≤ hot s ∧ hot s < 110 ∧ (low s = true ∨ was s = 0 ∨ freq s < was s)) ∧
     hot (heated 94 5 6 true) < 95 ∧ (∀ s ∈ [heated 99 6 6 false, heated 109 7 6 false], hot s < 110 ∧ low s = false ∧ was s ≠ 0 ∧ was s ≤ freq s) ∧ (hot (heated 99 5 6 false) < 100 ∧ low (heated 99 5 6 false) = false) ∧
     (95 ≤ hot (heated 95 5 6 true) ∧ low (heated 95 5 6 true) = true) ∧ 110 ≤ hot (heated 110 5 6 false)) := by decide +kernel
theorem unused_of {s : State} (a : ∀ x ∈ s.wgs, x.1 < s.ids) (b : ∀ x ∈ s.ctxs, x.1 < 32 * s.ids)
    (c : ∀ x ∈ s.cores, ∀ w, w < 8 → (match (x.2 : Core).way w with | .draining k => decide (k < s.ids) | _ => true) = true)
    (d : ∀ w, w < 8 → (match (({} : Core)).way w with | .draining k => decide (k < s.ids) | _ => true) = true) : Unused s := by
  refine ⟨a, b, fun n w k hw h => ?_⟩
  have := tab_all (p := fun x : Core => ∀ w, w < 8 → (match x.way w with | .draining k => decide (k < s.ids) | _ => true) = true) {} s.cores d c n w hw
  unfold State.core at h
  rw [h] at this
  exact of_decide_eq_true this
def listed (l : List Nat) (s : State) : State := { withArgs s { id := 2, list := l } with grids := s.grids.map fun x => if x.1 = 2 then (2, { x.2 with wgcnt := l.length }) else x }
theorem wit_dispatch_more : Unused roomy ∧ (let s := listed [0, 700] roomy; 2 ∈ s.coresident ∧ s.mayPlace 2 = true ∧ (Tab.find? s.grids 2).isSome = true ∧ (s.grid 2).cist = 0 ∧ (s.grid 2).groups ≤ 16 ∧
      s.args.list.length = (s.grid 2).wgcnt ∧ s.args.list.Nodup ∧ ∀ c ∈ s.args.list, c < 3072 ∧ Takes s 2 c = true) ∧ Unused (listed [0, 700] roomy) ∧
    (let s := withArgs roomy { id := 2 }; (s.grid 2).wgcnt = 1 ∧ (List.range 3072).find? (Takes s 2) = some 0) ∧ Unused (withArgs roomy { id := 2 }) ∧
    (let s := withArgs crowded { id := 2 }; 0 < (s.grid 2).wgcnt ∧ s.mayPlace 2 = true ∧ (s.grid 2).cist = 0 ∧ ∀ c, c < 3072 → Takes s 2 c = false) :=
  ⟨unused_of (by decide +kernel) (by decide +kernel) (by decide +kernel) (by decide +kernel), (by decide +kernel), unused_of (by decide +kernel) (by decide +kernel) (by decide +kernel) (by decide +kernel), (by decide +kernel), unused_of (by decide +kernel) (by decide +kernel) (by decide +kernel) (by decide +kernel), (by decide +kernel)⟩
/-- What waits reserves eight ways; group 0 is evicted already. -/
def wide : State :=
  withArgs { crowded.updCtx 32 fun c => { c with evicted := true } with grids := crowded.grids.map fun x => if x.1 = 2 then (2, { x.2 with cist := 0x40000 }) else x } { id := 1 }
theorem wit_workgroup_evict : (∃ g, Tab.find? wide.wgs 1 = some g ∧ g.evicted = false ∧ g.starting = false ∧ wide.wanting g.core (wide.grid g.grid).prio = some entry2 ∧
      (lentWays (wide.core g.core)).length < ((wide.grid entry2.grid).cist + 0x7FFF) / 0x8000 ∧ wide.firstVictim g.core 1 wide.wgMay = true ∧ wide.unsaved 1 = 0 ∧ g.vfn = 0) ∧ (∃ u, wide.takeSlots 0 (2 ^ 60 + 1) 11 0 = some u) ∧
    wide.wgMay 1 = true ∧ wide.enginesRun 1 = false ∧ wide.accessesRun 1 = false ∧ ({ wide with copies := [(7, copy none 0x100400 0 true)] } : State).enginesRun 1 = true :=
  ⟨⟨wide.wg 1, (by decide +kernel), (by decide +kernel), (by decide +kernel), (by decide +kernel), (by decide +kernel), (by decide +kernel), (by decide +kernel), (by decide +kernel)⟩, some_of (by rfl), (by decide +kernel), (by decide +kernel), (by decide +kernel), (by decide +kernel)⟩
/-- The workgroup of the small machine, evicted, with a scratchpad byte and a full word in its save area. -/
def stashed : State :=
  withArgs ({ small.updWg 1 fun g => { g with evicted := true, stash := [(4, 7)], stashFe := [(1, true)] } with ctxs := Tab.mapVals small.ctxs fun _ c => { c with evicted := true } }.updCore 0 fun c => { c with ways := List.replicate 8 .lent })
    { id := 1, num := 1 }
theorem wit_restore : ∃ g, Tab.find? stashed.wgs 1 = some g ∧ g.evicted = true ∧ stashed.room g.core g.ngroups g.regs (waysOf g.cways).length = true ∧ (stashed.vf g.vfn).quiescing = false ∧
    Tab.wf 0 stashed.cist = true ∧ Tab.wf false stashed.fe = true ∧ Tab.wf 0 g.stash = true ∧ Tab.wf false g.stashFe = true ∧ (∀ x ∈ g.stash, x.1 < g.reserved) ∧ ∀ x ∈ g.stashFe, x.1 < g.reserved / 4 :=
  ⟨stashed.wg 1, (by decide +kernel), (by decide +kernel), (by decide +kernel), (by decide +kernel), (by decide +kernel), (by decide +kernel), (by decide +kernel), (by decide +kernel), (by decide +kernel), (by decide +kernel)⟩
def badTables (c : Bool) : State := withArgs (if c then { small with mem := Memory.setDWord small.mem 0x10000 0xD } else { small with dir := [(0x4000, { mode := .z })] }) { v := 0x123456 }
theorem wit_services_more : ((badTables true).walk 0 0x123456 = .bad ∧ (badTables false).walk 0 0x123456 = .lost) ∧ ((small.vf 0).late = []) ∧
    ((logging.vf 0).hostEntries = [] ∧ logging.tqSeq 0 = 0 ∧ max (logging.tqSeq 0 + (logging.vf 0).passed) (logging.tqRd 0) < logging.tqWr 0 ∧ nth 0 (logging.devRead 0 (logging.tqEntry 0 0) 8) 7 ≠ 0) ∧
    (let s := onVf (fun v => { v with opens := [{ asked with kind := 4, index := none }] }) { v := 0x10000 }; s.answers = true ∧ (s.vf 0).dutysel.getLsbD 4 = false ∧ (∃ o ∈ (s.vf 0).opens, o.kind = 4) ∧ s.args.v.toNat % 0x10000 = 0) ∧
    (∀ r ∈ plainRegs.map (fun x => (x.1, x.2.2 (small.vf 0))) ++ otherReads (small.vf 0), let s := withArgs small { num := r.1, list := [0] }; s.answers = true ∧ s.args.on = false ∧ s.args.list ≠ [] ∧ s.args.num = r.1) := by
  decide +kernel

/-! ## Words of every form, written out from the encoding tables of R149 to R159 and of each entry -/

def hc : Hdr := { c := true, dist := 9, wait := 0x842, setf := 5, pred := 2, pneg := true, wbs := true }
def hl : Hdr := { c := true, dist := 9, wait := 0x842, setf := 5, pred := 2, pneg := true, wbs := false }
def hv : Hdr := { c := false, dist := 9, wait := 0x842, setf := 5, pred := 2, pneg := true, wbs := false }
def hf : Hdr := { c := false, dist := 9, wait := 0x842, setf := 15, pred := 2, pneg := true, wbs := false }
def hr : Hdr := { c := true, dist := 9, wait := 0x842, setf := 15, pred := 2, pneg := true, wbs := true }
def hm : Hdr := { c := true, dist := 9, wait := 0x842, setf := 15, pred := 2, pneg := true, wbs := false }
def hp : Hdr := { c := false, dist := 9, wait := 0x842, setf := 15, pred := 7, pneg := false, wbs := false }
def hq : Hdr := { c := false, dist := 9, wait := 0x842, setf := 5, pred := 2, pneg := true, wbs := true }
def integerWords1 : List (DWord × DWord × Instr) := [
  (0x33084A02B0406C87, 0, .iadd { h := hc, m := { w64 := true, us := true, sat := true }, d := .v 4, a := .v 6, b := .s 8 }),
  (0x80001E03C0406007, 0xC0000000FFFFFF85, .iaddX { h := always, m := { w64 := true, us := true, sat := true }, d := .v 4, a := .v 6, imm := 0xFFFFFF85 }),
  (0x33084A04B0406C84, 0, .isub { h := hc, m := { w64 := false, us := false, sat := true }, d := .v 4, a := .v 6, b := .s 8 }),
  (0x80001E05C0406004, 0xC0000000FFFFFF85, .isubX { h := always, m := { w64 := false, us := false, sat := true }, d := .v 4, a := .v 6, imm := 0xFFFFFF85 }),
  (0x33084A06B0406C81, 0, .imul { h := hc, m := { w64 := true, us := false, sat := false }, d := .v 4, a := .v 6, b := .s 8 }),
  (0x80001E07C0406001, 0xC0000000FFFFFF85, .imulX { h := always, m := { w64 := true, us := false, sat := false }, d := .v 4, a := .v 6, imm := 0xFFFFFF85 }),
  (0x33084A08B0406C82, 0, .imulh { h := hc, m := { w64 := false, us := true, sat := false }, d := .v 4, a := .v 6, b := .s 8 }),
  (0x80001E09C0406002, 0xC0000000FFFFFF85, .imulhX { h := always, m := { w64 := false, us := true, sat := false }, d := .v 4, a := .v 6, imm := 0xFFFFFF85 }),
  (0x33084A0AB0406C81, 0, .imad { h := hc, m := { w64 := true, us := false, sat := false }, d := .v 4, a := .v 6, b := .s 8 }),
  (0x33084A0CB0406C82, 0, .imin { h := hc, m := { w64 := false, us := true, sat := false }, d := .v 4, a := .v 6, b := .s 8 }),
  (0x80001E0DC0406002, 0xC0000000FFFFFF85, .iminX { h := always, m := { w64 := false, us := true, sat := false }, d := .v 4, a := .v 6, imm := 0xFFFFFF85 }),
  (0x33084A0EB0406C83, 0, .imax { h := hc, m := { w64 := true, us := true, sat := false }, d := .v 4, a := .v 6, b := .s 8 }),
  (0x80001E0FC0406003, 0xC0000000FFFFFF85, .imaxX { h := always, m := { w64 := true, us := true, sat := false }, d := .v 4, a := .v 6, imm := 0xFFFFFF85 }),
  (0x33084A12B0406C81, 0, .and { h := hc, m := { w64 := true, us := false, sat := false }, d := .v 4, a := .v 6, b := .s 8 }),
  (0x80001E13C0406001, 0xC0000000FFFFFF85, .andX { h := always, m := { w64 := true, us := false, sat := false }, d := .v 4, a := .v 6, imm := 0xFFFFFF85 }),
  (0x33084A14B0406C80, 0, .or { h := hc, m := { w64 := false, us := false, sat := false }, d := .v 4, a := .v 6, b := .s 8 }),
  (0x80001E15C0406000, 0xC0000000FFFFFF85, .orX { h := always, m := { w64 := false, us := false, sat := false }, d := .v 4, a := .v 6, imm := 0xFFFFFF85 }),
  (0x33084A16B0406C81, 0, .xor { h := hc, m := { w64 := true, us := false, sat := false }, d := .v 4, a := .v 6, b := .s 8 }),
  (0x80001E17C0406001, 0xC0000000FFFFFF85, .xorX { h := always, m := { w64 := true, us := false, sat := false }, d := .v 4, a := .v 6, imm := 0xFFFFFF85 }),
  (0x33084A18B0406C80, 0, .andn { h := hc, m := { w64 := false, us := false, sat := false }, d := .v 4, a := .v 6, b := .s 8 }),
  (0x80001E19C0406000, 0xC0000000FFFFFF85, .andnX { h := always, m := { w64 := false, us := false, sat := false }, d := .v 4, a := .v 6, imm := 0xFFFFFF85 }),
  (0x33084A1AB0406C81, 0, .shl { h := hc, m := { w64 := true, us := false, sat := false }, d := .v 4, a := .v 6, b := .s 8 }),
  (0x80001E1BC0406001, 0xC0000000FFFFFF85, .shlX { h := always, m := { w64 := true, us := false, sat := false }, d := .v 4, a := .v 6, imm := 0xFFFFFF85 }),
  (0x33084A1CB0406C80, 0, .shr { h := hc, m := { w64 := false, us := false, sat := false }, d := .v 4, a := .v 6, b := .s 8 }),
  (0x80001E1DC0406000, 0xC0000000FFFFFF85, .shrX { h := always, m := { w64 := false, us := false, sat := false }, d := .v 4, a := .v 6, imm := 0xFFFFFF85 }),
  (0x33084A1EB0406C81, 0, .sar { h := hc, m := { w64 := true, us := false, sat := false }, d := .v 4, a := .v 6, b := .s 8 }),
  (0x80001E1FC0406001, 0xC0000000FFFFFF85, .sarX { h := always, m := { w64 := true, us := false, sat := false }, d := .v 4, a := .v 6, imm := 0xFFFFFF85 }),
  (0x33084A26B0406C82, 0, .bfx { h := hc, m := { w64 := false, us := true, sat := false }, d := .v 4, a := .v 6, b := .s 8 }),
  (0x80001E27C0406002, 0xC0000000FFFFFF85, .bfxX { h := always, m := { w64 := false, us := true, sat := false }, d := .v 4, a := .v 6, imm := 0xFFFFFF85 }),
  (0x33084A28B0406C80, 0, .bfi { h := hc, m := { w64 := false, us := false, sat := false }, d := .v 4, a := .v 6, b := .s 8 }),
  (0x80001E29C0406000, 0xC0000000FFFFFF85, .bfiX { h := always, m := { w64 := false, us := false, sat := false }, d := .v 4, a := .v 6, imm := 0xFFFFFF85 }),
  (0x33084A10B04E2005, 0, .iabs { h := hc, m := { w64 := true, us := false, sat := true }, d := .v 4, a := .l 2 })]
/-- R167 to R173. -/
theorem test_decode_integer1 : ∀ r ∈ integerWords1, decode r.1 r.2.1 = .ok r.2.2 ∧ wellFormed r.2.2 = true ∧ (decodeTableWord 128 (r.1.toNat + 2 ^ 64 * r.2.1.toNat)) = some r.2.2 := (by decide +kernel)
def integerWords2 : List (DWord × DWord × Instr) := [
  (0x33084A20B04E2001, 0, .popc { h := hc, m := { w64 := true, us := false, sat := false }, d := .v 4, a := .l 2 }),
  (0x33084A22B04E2000, 0, .clz { h := hc, m := { w64 := false, us := false, sat := false }, d := .v 4, a := .l 2 }),
  (0x33084A24B04E2001, 0, .brev { h := hc, m := { w64 := true, us := false, sat := false }, d := .v 4, a := .l 2 }),
  (0x33084A2AB14C42BA, 0, .lea { h := hc, sx := true, sh := 2, d := .v 20, a := .s 4, b := .v 43 }),
  (0x33084A2CA0609E59, 0, .icmp { h := hl, cond := .geu, p := 6, a := .v 9, b := .sp .lane }),
  (0x80001E2DC070900E, 0xC0000000FFFFFF85, .icmpX { h := always, cond := .ltu64, p := 7, a := .v 9, imm := 0xFFFFFF85 }),
  (0x33084A2EB0A0C0ED, 0, .sel { h := hc, w64 := true, p := 5, d := .v 10, a := .v 12, b := .v 14 }),
  (0x33084A30B3608011, 0, .movi { h := hc, w64 := true, d := .v 54, imm := 0x0801 }),
  (0x80001E31C3300000, 0xC0000000FF000000, .moviX { h := always, w64 := false, d := .v 51, imm := 0xFF000000 })]
/-- R167 to R173. -/
theorem test_decode_integer2 : ∀ r ∈ integerWords2, decode r.1 r.2.1 = .ok r.2.2 ∧ wellFormed r.2.2 = true ∧ (decodeTableWord 128 (r.1.toNat + 2 ^ 64 * r.2.1.toNat)) = some r.2.2 := (by decide +kernel)
def floatingWords : List (DWord × DWord × Instr) := [
  (0x33084A40B0406C80, 0, .fadd { h := hc, rm := .dyn, d := .v 4, a := .v 6, b := .s 8 }),
  (0x80001E41C0406000, 0xC00000003F800000, .faddX { h := always, rm := .dyn, d := .v 4, a := .v 6, imm := 0x3F800000 }),
  (0x33084A42B0406C81, 0, .fsub { h := hc, rm := .rne, d := .v 4, a := .v 6, b := .s 8 }),
  (0x80001E43C0406001, 0xC00000003F800000, .fsubX { h := always, rm := .rne, d := .v 4, a := .v 6, imm := 0x3F800000 }),
  (0x33084A44B0406C82, 0, .fmul { h := hc, rm := .rz, d := .v 4, a := .v 6, b := .s 8 }),
  (0x80001E45C0406002, 0xC00000003F800000, .fmulX { h := always, rm := .rz, d := .v 4, a := .v 6, imm := 0x3F800000 }),
  (0x33084A46B0406C83, 0, .ffma { h := hc, rm := .ru, d := .v 4, a := .v 6, b := .s 8 }),
  (0x33084A60B0406C84, 0, .hadd2 { h := hc, rm := .rd, d := .v 4, a := .v 6, b := .s 8 }),
  (0x33084A62B0406C80, 0, .hmul2 { h := hc, rm := .dyn, d := .v 4, a := .v 6, b := .s 8 }),
  (0x33084A64B0406C81, 0, .hfma2 { h := hc, rm := .rne, d := .v 4, a := .v 6, b := .s 8 }),
  (0x33084A66B0406C82, 0, .badd2 { h := hc, rm := .rz, d := .v 4, a := .v 6, b := .s 8 }),
  (0x33084A68B0406C83, 0, .bmul2 { h := hc, rm := .ru, d := .v 4, a := .v 6, b := .s 8 }),
  (0x33084A6AB0406C84, 0, .bfma2 { h := hc, rm := .rd, d := .v 4, a := .v 6, b := .s 8 }),
  (0x33084A48B0406C80, 0, .fmin { h := hc, d := .v 4, a := .v 6, b := .s 8 }),
  (0x33084A4AB0406C80, 0, .fmax { h := hc, d := .v 4, a := .v 6, b := .s 8 }),
  (0x33084A4CA0609E96, 0, .fcmp { h := hl, cond := .un, p := 6, a := .v 9, b := .sp .core }),
  (0x33084A4EB0406000, 0, .frcp { h := hc, d := .v 4, a := .v 6 }),
  (0x33084A50B0406000, 0, .frsq { h := hc, d := .v 4, a := .v 6 }),
  (0x33084A54B0406000, 0, .fexp2 { h := hc, d := .v 4, a := .v 6 }),
  (0x33084A56B0406000, 0, .flog2 { h := hc, d := .v 4, a := .v 6 }),
  (0x33084A58B0406000, 0, .fsin { h := hc, d := .v 4, a := .v 6 }),
  (0x33084A5AB0406000, 0, .fcos { h := hc, d := .v 4, a := .v 6 }),
  (0x33084A5EB0406000, 0, .fclass { h := hc, d := .v 4, a := .v 6 }),
  (0x33084A52B0406002, 0, .fsqrt { h := hc, rm := .rz, d := .v 4, a := .v 6 }),
  (0x33084A5CB0406004, 0, .frnd { h := hc, rm := .rd, d := .v 4, a := .v 6 })]
/-- R174 to R179. -/
theorem test_decode_floating : ∀ r ∈ floatingWords, decode r.1 r.2.1 = .ok r.2.2 ∧ wellFormed r.2.2 = true ∧ (decodeTableWord 128 (r.1.toNat + 2 ^ 64 * r.2.1.toNat)) = some r.2.2 := (by decide +kernel)
def moveWords : List (DWord × DWord × Instr) := [
  (0x33084A80B0406001, 0, .mov { h := hc, w64 := true, d := .v 4, a := .v 6 }),
  (0x33084A82B0406000, 0, .movs { h := hc, w64 := false, d := .v 4, a := .v 6 }),
  (0x33084A84B0406003, 0, .f2i { h := hc, rm := .ru, d := .v 4, a := .v 6 }),
  (0x33084A86B0406001, 0, .i2f { h := hc, rm := .rne, d := .v 4, a := .v 6 }),
  (0x33084A88B040603A, 0, .fcvt { h := hc, rm := .rz, nsat := true, conv := .toE4m3, d := .v 4, a := .v 6 }),
  (0x33084A88B0406140, 0, .fcvt { h := hc, rm := .dyn, nsat := false, conv := .ofE5m2, d := .v 4, a := .v 6 }),
  (0x33084A8AB0408C34, 0, .qpack { h := hc, rm := .rd, d := .v 4, a := .v 8, b := .s 3 }),
  (0x33084A8CB0804C31, 0, .qunpk { h := hc, rm := .rne, d := .v 8, a := .v 4, b := .s 3 }),
  (0x33084A8EB0406096, 0, .shfl { h := hc, w64 := true, mode := .dn, d := .v 4, a := .v 6, b := .v 9 }),
  (0x33084A90B0406003, 0, .vote { h := hc, mode := .uni, d := .v 4, a := .v 6 }),
  (0x33084A92B0406E49, 0, .redg { h := hc, op := .maxF32, d := .v 4, a := .v 6, b := .sp .zero }),
  (0x33084A94B0406E43, 0, .scang { h := hc, op := .addI64, d := .v 4, a := .v 6, b := .sp .zero }),
  (0x33084A96B04002E0, 0, .rdsr { h := hc, d := .v 4, sr := .wptr 2 }),
  (0x33084A98A0006020, 0, .wrsr { h := hl, sr := .faircnt, a := .v 6 }),
  (0x33085E9AA0722000, 0, .movts { h := hm, t := 7, a := .v 34 })]
/-- R180 to R190, R233. -/
theorem test_decode_move : ∀ r ∈ moveWords, decode r.1 r.2.1 = .ok r.2.2 ∧ wellFormed r.2.2 = true ∧ (decodeTableWord 128 (r.1.toNat + 2 ^ 64 * r.2.1.toNat)) = some r.2.2 := (by decide +kernel)
def controlWords : List (DWord × DWord × Instr) := [
  (0x33084AC0A0000000, 0, .nop { h := hl }),
  (0x33084AC2AFFFFFD0, 0, .bra { h := hl, off := 0xFFFFFD }),
  (0x80001EC3C0000000, 0xC000000080000001, .braX { h := always, off := 0x80000001 }),
  (0x33084AC4A0006000, 0, .brx { h := hl, a := .v 6 }),
  (0x33084AC6BFFFFFD0, 0, .call { h := hc, off := 0xFFFFFD }),
  (0x80001EC7C0A00000, 0xC000000080000001, .callX { h := always, d := .v 10, off := 0x80000001 }),
  (0x33084AC8B0A06000, 0, .callx { h := hc, d := .v 10, a := .v 6 }),
  (0x33084ACAA00DF000, 0, .ret { h := hl, a := .s 31 }),
  (0x33084ACCA0000000, 0, .land { h := hl }),
  (0x33084ACEA0000000, 0, .exit { h := hl }),
  (0x33084AD0A0000000, 0, .yield { h := hl }),
  (0x33084AD6A0000000, 0, .tfence { h := hl }),
  (0x13084AD2A00C6000, 0, .dqpush { h := hv, a := .s 6 }),
  (0x13084AD4B0600000, 0, .dqpop { h := hq, d := .v 6 })]
/-- R191. -/
theorem test_decode_control : ∀ r ∈ controlWords, decode r.1 r.2.1 = .ok r.2.2 ∧ wellFormed r.2.2 = true ∧ (decodeTableWord 128 (r.1.toNat + 2 ^ 64 * r.2.1.toNat)) = some r.2.2 := (by decide +kernel)
def memoryWords1 : List (DWord × DWord × Instr) := [
  (0x33084B00A0414110, 0, .ld8 { h := hl, pol := .own, hint := 0, data := .v 4, addr := .v 20, scope := .grp, off := 17 }),
  (0x80001F01C04C5000, 0xC0000000FFFFFF80, .ld8X { h := always, pol := .own, hint := 0, data := .v 4, addr := .s 5, scope := .grp, off := 0xFFFFFF80 }),
  (0x13084B0AA0414514, 0, .st8 { h := hv, pol := .wt, hint := 0, data := .v 4, addr := .v 20, scope := .quad, off := 17 }),
  (0x80001F0BC04C5004, 0xC2000000FFFFFF80, .st8X { h := always, pol := .wt, hint := 0, data := .v 4, addr := .s 5, scope := .quad, off := 0xFFFFFF80 }),
  (0x33084B02A0414325, 0, .ld16 { h := hl, pol := .wt, hint := 1, data := .v 4, addr := .v 20, scope := .core, off := 18 }),
  (0x80001F03C04C5005, 0xC1000000FFFFFF81, .ld16X { h := always, pol := .wt, hint := 1, data := .v 4, addr := .s 5, scope := .core, off := 0xFFFFFF81 }),
  (0x13084B0CA0414729, 0, .st16 { h := hv, pol := .si, hint := 1, data := .v 4, addr := .v 20, scope := .die, off := 18 }),
  (0x80001F0DC04C5009, 0xC3000000FFFFFF81, .st16X { h := always, pol := .si, hint := 1, data := .v 4, addr := .s 5, scope := .die, off := 0xFFFFFF81 }),
  (0x33084B04A041453A, 0, .ld32 { h := hl, pol := .si, hint := 2, data := .v 4, addr := .v 20, scope := .quad, off := 19 }),
  (0x80001F05C04C500A, 0xC2000000FFFFFF82, .ld32X { h := always, pol := .si, hint := 2, data := .v 4, addr := .s 5, scope := .quad, off := 0xFFFFFF82 }),
  (0x13084B0EA041493E, 0, .st32 { h := hv, pol := .wi, hint := 2, data := .v 4, addr := .v 20, scope := .pkg, off := 19 }),
  (0x80001F0FC04C500E, 0xC4000000FFFFFF82, .st32X { h := always, pol := .wi, hint := 2, data := .v 4, addr := .s 5, scope := .pkg, off := 0xFFFFFF82 }),
  (0x33084B06A041474F, 0, .ld64 { h := hl, pol := .wi, hint := 3, data := .v 4, addr := .v 20, scope := .die, off := 20 }),
  (0x80001F07C04C500F, 0xC3000000FFFFFF83, .ld64X { h := always, pol := .wi, hint := 3, data := .v 4, addr := .s 5, scope := .die, off := 0xFFFFFF83 }),
  (0x13084B10A0414B43, 0, .st64 { h := hv, pol := .own, hint := 3, data := .v 4, addr := .v 20, scope := .pod, off := 20 }),
  (0x80001F11C04C5003, 0xC5000000FFFFFF83, .st64X { h := always, pol := .own, hint := 3, data := .v 4, addr := .s 5, scope := .pod, off := 0xFFFFFF83 }),
  (0x33084B08A0414950, 0, .ld128 { h := hl, pol := .own, hint := 0, data := .v 4, addr := .v 20, scope := .pkg, off := 21 }),
  (0x80001F09C04C5000, 0xC4000000FFFFFF84, .ld128X { h := always, pol := .own, hint := 0, data := .v 4, addr := .s 5, scope := .pkg, off := 0xFFFFFF84 }),
  (0x13084B12A0414D54, 0, .st128 { h := hv, pol := .wt, hint := 0, data := .v 4, addr := .v 20, scope := .sys, off := 21 }),
  (0x80001F13C04C5004, 0xC6000000FFFFFF84, .st128X { h := always, pol := .wt, hint := 0, data := .v 4, addr := .s 5, scope := .sys, off := 0xFFFFFF84 }),
  (0x33084B14B0401C83, 0, .lds { h := hc, w := .w64, data := .v 4, base := .v 1, off := 0xC8 }),
  (0x80001F15C0401004, 0xC000000012345678, .ldsX { h := always, w := .w128, data := .v 4, base := .v 1, off := 0x12345678 }),
  (0x13084B16A04011C2, 0, .sts { h := hv, w := .w32, data := .v 4, base := .v 1, off := 0x1C }),
  (0x80001F17C0401001, 0xC000000012345678, .stsX { h := always, w := .w16, data := .v 4, base := .v 1, off := 0x12345678 }),
  (0xB3084B18A09E4008, 0xC44C000000000040, .ldlv { h := hl, pol := .si, hint := 0, w := .w32, scope := .pkg, level := 3, data := .v 9, idx := .sp .zero, off := 0x40 }),
  (0x93084B1AA090700D, 0xC67C0000FFFFFFF8, .stlv { h := hv, pol := .wi, hint := 1, w := .w64, scope := .sys, level := 7, data := .v 9, idx := .v 7, off := 0xFFFFFFF8 }),
  (0x33084B1CA00147F6, 0, .ldp { h := hl, pol := .wt, hint := 2, addr := .v 20, scope := .die, off := 31 }),
  (0x80001F1DC0014000, 0xC1000000FFFFFF80, .ldpX { h := always, pol := .own, hint := 0, addr := .v 20, scope := .core, off := 0xFFFFFF80 }),
  (0x33084B1EA04144C9, 0, .gath { h := hl, pol := .si, hint := 1, w := .w64, data := .v 4, addr := .v 20, scope := .quad }),
  (0x80001F1FC0414008, 0xC420000000000010, .gathX { h := always, pol := .si, hint := 0, w := .w16, data := .v 4, addr := .v 20, scope := .pkg, off := 0x10 }),
  (0x13084B20A0414C0F, 0, .scat { h := hv, pol := .wi, hint := 3, w := .w8, data := .v 4, addr := .v 20, scope := .sys }),
  (0x80001F21C0414004, 0xC0400000FFFFFFFC, .scatX { h := always, pol := .wt, hint := 0, w := .w32, data := .v 4, addr := .v 20, scope := .grp, off := 0xFFFFFFFC })]
/-- R202 to R210. -/
theorem test_decode_memory1 : ∀ r ∈ memoryWords1, decode r.1 r.2.1 = .ok r.2.2 ∧ wellFormed r.2.2 = true ∧ (decodeTableWord 128 (r.1.toNat + 2 ^ 64 * r.2.1.toNat)) = some r.2.2 := (by decide +kernel)
def memoryWords2 : List (DWord × DWord × Instr) := [
  (0x13084B22A0014090, 0, .cinv { h := hv, sel := .range (.v 20) (.v 9) }),
  (0x13084B24A0000001, 0, .cflush { h := hv, sel := .all }),
  (0x33085F26A0000803, 0, .fence { h := hm, kind := .ar, scope := .pkg })]
/-- R202 to R210. -/
theorem test_decode_memory2 : ∀ r ∈ memoryWords2, decode r.1 r.2.1 = .ok r.2.2 ∧ wellFormed r.2.2 = true ∧ (decodeTableWord 128 (r.1.toNat + 2 ^ 64 * r.2.1.toNat)) = some r.2.2 := (by decide +kernel)
def syncWords : List (DWord × DWord × Instr) := [
  (0x13084B40A0414090, 0, .ldfe { h := hv, pol := .own, hint := 0, data := .v 4, addr := .v 20, scope := .grp, off := 9 }),
  (0x80001F41C0414001, 0xC1000000FFFFFFFC, .ldfeX { h := always, pol := .own, hint := 1, data := .v 4, addr := .v 20, scope := .core, off := 0xFFFFFFFC }),
  (0x13084B42A0414090, 0, .stef { h := hv, pol := .own, hint := 0, data := .v 4, addr := .v 20, scope := .grp, off := 9 }),
  (0x80001F43C0414001, 0xC1000000FFFFFFFC, .stefX { h := always, pol := .own, hint := 1, data := .v 4, addr := .v 20, scope := .core, off := 0xFFFFFFFC }),
  (0x13084B44A0014091, 0, .feset { h := hv, toFull := true, a := .v 20, n := .v 9 }),
  (0x93084B46A081829C, 0xC449000000000008, .atom { h := hv, pol := .wi, hint := 0, op := .xor, w := .w32, scope := .pkg, data := .v 8, addr := .v 24, b := .v 41, off := 8 }),
  (0x93084B48A0818281, 0xC1602A00FFFFFFF8, .atcas { h := hv, pol := .own, hint := 1, w := .w64, scope := .core, data := .v 8, addr := .v 24, b := .v 40, c := .v 42, off := 0xFFFFFFF8 }),
  (0x93084B4AA001829C, 0xC622000000000000, .red { h := hv, pol := .wi, hint := 0, op := .bfadd, w := .w16, scope := .sys, addr := .v 24, b := .v 41, off := 0 }),
  (0x13084B4CA0614230, 0, .lr { h := hv, pol := .own, hint := 0, data := .v 6, addr := .v 20, scope := .core, off := 3 }),
  (0x80001F4DC061400C, 0xC460000000000018, .lrX { h := always, pol := .wi, hint := 0, w := .w64, scope := .pkg, data := .v 6, addr := .v 20, off := 0x18 }),
  (0x93084B4EA0814072, 0xC140000000000018, .sc { h := hv, pol := .own, hint := 2, w := .w32, scope := .core, data := .v 8, addr := .v 20, b := .v 7, off := 0x18 }),
  (0x13085F50A0F09000, 0, .bari { h := hf, b := 15, a := .v 9 }),
  (0x80001F51C0300000, 0xC0000000000000FF, .bariX { h := always, b := 3, count := 255 }),
  (0x13085F52A0900000, 0, .bara { h := hf, b := 9 }),
  (0x13085F54A0A00000, 0, .barad { h := hf, b := 10 }),
  (0x13085F56A0B00000, 0, .barw { h := hf, b := 11 }),
  (0x13085F58A0500006, 0, .bart { h := hf, b := 5, p := 6 }),
  (0x13085F5AA0000003, 0, .sync { h := hf, scope := .die })]
/-- R211 to R227. -/
theorem test_decode_sync : ∀ r ∈ syncWords, decode r.1 r.2.1 = .ok r.2.2 ∧ wellFormed r.2.2 = true ∧ (decodeTableWord 128 (r.1.toNat + 2 ^ 64 * r.2.1.toNat)) = some r.2.2 := (by decide +kernel)
def enginesWords1 : List (DWord × DWord × Instr) := [
  (0x93084B80A0514009, 0xC412344000000080, .tld { h := hv, pol := .si, hint := 1, t := 5, ty := .q4x, addr := .v 20, scope := .pkg, stride := 0x1234, off := 0x80 }),
  (0x93084B82A0514004, 0xC101002000000000, .tst { h := hv, pol := .wt, hint := 0, src := .tile 5 .e4m3, addr := .v 20, scope := .core, stride := 0x100, off := 0 }),
  (0x93084B82A0A14004, 0xC10000F000000000, .tst { h := hv, pol := .wt, hint := 0, src := .acc 2, addr := .v 20, scope := .core, stride := 0, off := 0 }),
  (0x13085F84A0700000, 0, .tzero { h := hf, u := .tile 7 }),
  (0x13085F84A0B00000, 0, .tzero { h := hf, u := .acc 3 }),
  (0x93085F86A0902051, 0xC000000000000007, .tmma { h := hf, ac := 1, ta := 2, tb := 5, ty := .fp16, kb := 7 }),
  (0x93085F88A0A02050, 0xC000000000006C09, .tmms { h := hf, ac := 2, ta := 2, tb := 5, tm := 6, ty := .bf16, pat := .p48, kb := 9 }),
  (0x93085F8AA0900012, 0xC000000000000001, .tmmq { h := hf, ac := 1, ta := 0, tb := 1, ty := .e4m3, kb := 1 }),
  (0x13084B8CA0000000, 0, .trdy { h := hv }),
  (0x13084B8EA0B00000, 0, .twait { h := hv, ac := 3 }),
  (0x33085F90B0D090B0, 0, .tacc { h := hr, data := .v 13, ac := 1, idx := .v 11 }),
  (0x33085F90B0E090B1, 0, .taccXp { h := hr, data := .v 14, ac := 1, idx := .v 11 }),
  (0x33085F90B10013F2, 0, .taccScl { h := hr, d := .v 16, t := 1, j := 63 }),
  (0x13085F90A0D0B0B3, 0, .taccWr { h := hf, data := .v 13, ac := 3, idx := .v 11 }),
  (0x93085F92A08C4C63, 0xC0123456789A0000, .tgemm { h := hf, ty := .e5m2, ac := 0, ab := .s 4, c := .s 6, mt := 0x123, nt := 0x456, ks := 0x789A }),
  (0x93085F94A05181A8, 0xC41CC01E00000000, .cpy { h := hf, b := 5, pol := .si, hint := 0, dst := .v 24, src := .v 26, len := .v 28, chan := some { ch := 2, scope := .pkg, pub := .v 30 }, td := false }),
  (0x93085F94A05181A1, 0xC01C08E400000000, .cpy { h := hf, b := 5, pol := .own, hint := 1, dst := .v 24, src := .v 26, len := .v 28, chan := none, td := true }),
  (0x93085F96A02181A0, 0xC01C093297400007, .cpym { h := hf, b := 2, pol := .own, hint := 0, dst := .v 24, src := .v 26, len := .v 28, td := true, cmd := { mop := .tmms, ty := .e5m2, ac := 2, ta := 4, tb := 5, tm := 6, pat := .p28, kb := 7 } }),
  (0x93085F98A00181A4, 0xC01C10E401040000, .cpycv { h := hf, b := 0, pol := .wt, hint := 0, dst := .v 24, src := .v 26, len := .v 28, chan := none, nsat := true, form := 0x01040000 }),
  (0x93085F9AA00181A8, 0xC11CB0E440008001, .cpylb { h := hf, b := 0, pol := .si, hint := 0, dst := .v 24, src := .v 26, len := .v 28, chan := { ch := 1, scope := .core, pub := .sp .zero }, fresh := true, rowb := 0x4000, sstr := 0x8001 }),
  (0x93084B9CA0C2E348, 0xC400000300000000, .fbopen { h := hv, pol := .si, hint := 0, q := 12, a := .v 46, b := .v 52, scope := .pkg, lev := 3 }),
  (0x13084B9EA2A2B203, 0, .fbnext { h := hv, c := .v 42, p := .v 43, pm := 3, q := 2 }),
  (0x13085FA0A0F010E0, 0, .fbmeet { h := hf, d := 15, a := 1, b := 14 }),
  (0x13085FA2A020F000, 0, .fbjoin { h := hf, d := 2, a := 15, b := 0 }),
  (0x13084BA4A0907000, 0, .fbskip { h := hv, q := 9, k := .v 7 }),
  (0x13084BA6A0414BFD, 0, .fbsave { h := hv, pol := .wi, hint := 1, q := 4, addr := .v 20, scope := .pod, off := 31 }),
  (0x80001FA7C0414000, 0xC4000000FFFFFFC0, .fbsaveX { h := always, pol := .own, hint := 0, q := 4, addr := .v 20, scope := .pkg, off := 0xFFFFFFC0 }),
  (0x13084BA8A0414BFD, 0, .fbrest { h := hv, pol := .wi, hint := 1, q := 4, addr := .v 20, scope := .pod, off := 31 }),
  (0x80001FA9C0414000, 0xC4000000FFFFFFC0, .fbrestX { h := always, pol := .own, hint := 0, q := 4, addr := .v 20, scope := .pkg, off := 0xFFFFFFC0 }),
  (0x93085FAAA00C2000, 0xC503C0A500000000, .coll { h := hf, a := .s 2, scope := .pod, op := .alltoall, ty := .b128, id := 0xA5 }),
  (0x13084BACAC900000, 0, .collw { h := hv, d := .s 9 }),
  (0x13084BAEA3CD0090, 0, .launch { h := hv, d := .v 60, recd := 2, arg := .v 9 })]
/-- R229 to R274. -/
theorem test_decode_engines1 : ∀ r ∈ enginesWords1, decode r.1 r.2.1 = .ok r.2.2 ∧ wellFormed r.2.2 = true ∧ (decodeTableWord 128 (r.1.toNat + 2 ^ 64 * r.2.1.toNat)) = some r.2.2 := (by decide +kernel)
def enginesWords2 : List (DWord × DWord × Instr) := [
  (0x13085FB0A003C000, 0, .join { h := hf, a := .v 60 })]
/-- R229 to R274. -/
theorem test_decode_engines2 : ∀ r ∈ enginesWords2, decode r.1 r.2.1 = .ok r.2.2 ∧ wellFormed r.2.2 = true ∧ (decodeTableWord 128 (r.1.toNat + 2 ^ 64 * r.2.1.toNat)) = some r.2.2 := (by decide +kernel)
def systemWords : List (DWord × DWord × Instr) := [
  (0x13085FC0A0012340, 0, .trap { h := hf, code := 0x1234 }),
  (0x13085FC3C0000000, 0, .tret { h := hp }),
  (0x00001FC3C0000001, 0, .tretSkip { h := always }),
  (0x13085FC3C0006002, 0, .tretTo { h := hp, a := .v 6 }),
  (0x13085FC5C0000000, 0, .tkill { h := hp }),
  (0x13084BC6A0006E40, 0, .tlbinvPage { h := hv, scope := .core, a := .v 6 }),
  (0x13084BC6A0006099, 0, .tlbinvRange { h := hv, scope := .pkg, a := .v 6, n := .v 9 }),
  (0x13084BC6A00E4E46, 0, .tlbinvVf { h := hv, scope := .die }),
  (0x13084BC8A0006094, 0, .icinv { h := hv, scope := .die, a := .v 6, n := .v 9 }),
  (0x13084BC8A00E4E49, 0, .icinvAll { h := hv, scope := .pkg }),
  (0x13084BCAA0906000, 0, .reclaim { h := hv, data := .v 9, addr := .v 6 }),
  (0x13085FCCA0000002, 0, .pwrhint { h := hf, level := 2 }),
  (0x33084BF0AFEC35A9, 0, .brstk { h := hl, ext := false, dst := 0xFE, sa := 0xC3, sb := 0x5A, mod := 9 }),
  (0x33084BF2AFEC35A9, 0, .rcvpt { h := hl, ext := false, dst := 0xFE, sa := 0xC3, sb := 0x5A, mod := 9 }),
  (0x33084BF4AFEC35A9, 0, .rcvj { h := hl, ext := false, dst := 0xFE, sa := 0xC3, sb := 0x5A, mod := 9 }),
  (0x33084BF6AFEC35A9, 0, .scbwait { h := hl, ext := false, dst := 0xFE, sa := 0xC3, sb := 0x5A, mod := 9 }),
  (0x33084BF8AFEC35A9, 0, .ldcoh { h := hl, ext := false, dst := 0xFE, sa := 0xC3, sb := 0x5A, mod := 9 }),
  (0x33084BFAAFEC35A9, 0, .stcoh { h := hl, ext := false, dst := 0xFE, sa := 0xC3, sb := 0x5A, mod := 9 }),
  (0x33084BFCAFEC35A9, 0, .mma8 { h := hl, ext := false, dst := 0xFE, sa := 0xC3, sb := 0x5A, mod := 9 }),
  (0x33084BFEAFEC35A9, 0, .bymix { h := hl, ext := false, dst := 0xFE, sa := 0xC3, sb := 0x5A, mod := 9 })]
/-- R276 to R282, R335. -/
theorem test_decode_system : ∀ r ∈ systemWords, decode r.1 r.2.1 = .ok r.2.2 ∧ wellFormed r.2.2 = true ∧ (decodeTableWord 128 (r.1.toNat + 2 ^ 64 * r.2.1.toNat)) = some r.2.2 := (by decide +kernel)
def pairWords : List (DWord × DWord × Instr) := [
  (0x730850000007090A, 0, .nopPair { c := true, dist := 9, wait := 0x842, hint := true, d := .v 0, s := .v 0, other := ⟨.or, .v 9, .v 10⟩ }),
  (0x730850410148090A, 0, .iaddPair { c := true, dist := 9, wait := 0x842, hint := true, d := .v 4, s := .v 5, other := ⟨.xor, .v 9, .v 10⟩ }),
  (0x730850810149090A, 0, .isubPair { c := true, dist := 9, wait := 0x842, hint := true, d := .v 4, s := .v 5, other := ⟨.andn, .v 9, .v 10⟩ }),
  (0x730850C1014A090A, 0, .imulPair { c := true, dist := 9, wait := 0x842, hint := true, d := .v 4, s := .v 5, other := ⟨.shl, .v 9, .v 10⟩ }),
  (0x73085101014B090A, 0, .iminPair { c := true, dist := 9, wait := 0x842, hint := true, d := .v 4, s := .v 5, other := ⟨.shr, .v 9, .v 10⟩ }),
  (0x73085141014C090A, 0, .imaxPair { c := true, dist := 9, wait := 0x842, hint := true, d := .v 4, s := .v 5, other := ⟨.sar, .v 9, .v 10⟩ }),
  (0x730851810150090A, 0, .andPair { c := true, dist := 9, wait := 0x842, hint := true, d := .v 4, s := .v 5, other := ⟨.fadd, .v 9, .v 10⟩ }),
  (0x730851C10151090A, 0, .orPair { c := true, dist := 9, wait := 0x842, hint := true, d := .v 4, s := .v 5, other := ⟨.fsub, .v 9, .v 10⟩ }),
  (0x730852010152090A, 0, .xorPair { c := true, dist := 9, wait := 0x842, hint := true, d := .v 4, s := .v 5, other := ⟨.fmul, .v 9, .v 10⟩ }),
  (0x730852410153090A, 0, .andnPair { c := true, dist := 9, wait := 0x842, hint := true, d := .v 4, s := .v 5, other := ⟨.fmin, .v 9, .v 10⟩ }),
  (0x730852810154090A, 0, .shlPair { c := true, dist := 9, wait := 0x842, hint := true, d := .v 4, s := .v 5, other := ⟨.fmax, .v 9, .v 10⟩ }),
  (0x730852C10155090A, 0, .shrPair { c := true, dist := 9, wait := 0x842, hint := true, d := .v 4, s := .v 5, other := ⟨.hadd2, .v 9, .v 10⟩ }),
  (0x730853010156090A, 0, .sarPair { c := true, dist := 9, wait := 0x842, hint := true, d := .v 4, s := .v 5, other := ⟨.hmul2, .v 9, .v 10⟩ }),
  (0x730854010157090A, 0, .faddPair { c := true, dist := 9, wait := 0x842, hint := true, d := .v 4, s := .v 5, other := ⟨.badd2, .v 9, .v 10⟩ }),
  (0x730854410158090A, 0, .fsubPair { c := true, dist := 9, wait := 0x842, hint := true, d := .v 4, s := .v 5, other := ⟨.bmul2, .v 9, .v 10⟩ }),
  (0x730854810160090A, 0, .fmulPair { c := true, dist := 9, wait := 0x842, hint := true, d := .v 4, s := .v 5, other := ⟨.mov, .v 9, .v 10⟩ }),
  (0x730854C10161090A, 0, .fminPair { c := true, dist := 9, wait := 0x842, hint := true, d := .v 4, s := .v 5, other := ⟨.f2i, .v 9, .v 10⟩ }),
  (0x730855010162090A, 0, .fmaxPair { c := true, dist := 9, wait := 0x842, hint := true, d := .v 4, s := .v 5, other := ⟨.i2f, .v 9, .v 10⟩ }),
  (0x7308554101400000, 0, .hadd2Pair { c := true, dist := 9, wait := 0x842, hint := true, d := .v 4, s := .v 5, other := ⟨.nop, .v 0, .v 0⟩ }),
  (0x730855810141090A, 0, .hmul2Pair { c := true, dist := 9, wait := 0x842, hint := true, d := .v 4, s := .v 5, other := ⟨.iadd, .v 9, .v 10⟩ }),
  (0x730855C10142090A, 0, .badd2Pair { c := true, dist := 9, wait := 0x842, hint := true, d := .v 4, s := .v 5, other := ⟨.isub, .v 9, .v 10⟩ }),
  (0x730856010143090A, 0, .bmul2Pair { c := true, dist := 9, wait := 0x842, hint := true, d := .v 4, s := .v 5, other := ⟨.imul, .v 9, .v 10⟩ }),
  (0x730858010144090A, 0, .movPair { c := true, dist := 9, wait := 0x842, hint := true, d := .v 4, s := .v 5, other := ⟨.imin, .v 9, .v 10⟩ }),
  (0x730858410145090A, 0, .f2iPair { c := true, dist := 9, wait := 0x842, hint := true, d := .v 4, s := .v 5, other := ⟨.imax, .v 9, .v 10⟩ }),
  (0x730858810146090A, 0, .i2fPair { c := true, dist := 9, wait := 0x842, hint := true, d := .v 4, s := .v 5, other := ⟨.and, .v 9, .v 10⟩ })]
/-- R155, R158. -/
theorem test_decode_pair : ∀ r ∈ pairWords, decode r.1 r.2.1 = .ok r.2.2 ∧ wellFormed r.2.2 = true ∧ (decodeTableWord 128 (r.1.toNat + 2 ^ 64 * r.2.1.toNat)) = some r.2.2 := (by decide +kernel)

/-! ## Terms that WellFormed refuses, one for each check -/

def illFormed : List Instr := [
  .nop { h := { always with pneg := true } }, .bara { h := { always with c := true }, b := 0 }, .nop { h := { always with wbs := true } },
  .bara { h := { always with setf := 0 }, b := 0 }, .nop { h := { always with setf := 12 } }, .nop { h := { always with setf := 14 } }, .trdy { h := always },
  .iadd { h := always, m := { w64 := false, us := true, sat := false }, d := .v 0, a := .v 0, b := .v 0 },
  .isubX { h := always, m := { w64 := false, us := true, sat := false }, d := .v 0, a := .v 0, imm := 0 },
  .imul { h := always, m := { w64 := true, us := true, sat := false }, d := .v 0, a := .v 0, b := .v 0 },
  .shl { h := always, m := { w64 := true, us := false, sat := true }, d := .v 0, a := .v 0, b := .v 0 },
  .imulh { h := always, m := { w64 := true, us := true, sat := true }, d := .v 0, a := .v 0, b := .v 0 },
  .iabs { h := always, m := { w64 := true, us := true, sat := true }, d := .v 0, a := .v 0 },
  .bfx { h := always, m := { w64 := true, us := true, sat := false }, d := .v 0, a := .v 0, b := .v 0 },
  .bfi { h := always, m := { w64 := false, us := true, sat := false }, d := .v 0, a := .v 0, b := .v 0 },
  .fcvt { h := always, rm := .dyn, nsat := true, conv := .toE5m2, d := .v 0, a := .v 0 },
  .gath { h := always, pol := .own, hint := 0, w := .w128, data := .v 0, addr := .v 0, scope := .grp },
  .atom { h := always, pol := .own, hint := 0, op := .add, w := .w16, scope := .grp, data := .v 0, addr := .v 0, b := .v 0, off := 0 },
  .atom { h := always, pol := .own, hint := 0, op := .bfadd, w := .w32, scope := .grp, data := .v 0, addr := .v 0, b := .v 0, off := 0 },
  .atom { h := always, pol := .own, hint := 0, op := .hgath, w := .w32, scope := .grp, data := .v 0, addr := .v 0, b := .v 1, off := 0 },
  .atcas { h := always, pol := .own, hint := 0, w := .w16, scope := .grp, data := .v 0, addr := .v 0, b := .v 0, c := .v 0, off := 0 },
  .red { h := always, pol := .own, hint := 0, op := .fmin, w := .w64, scope := .grp, addr := .v 0, b := .v 0, off := 0 },
  .red { h := always, pol := .own, hint := 0, op := .hgath, w := .w32, scope := .grp, addr := .v 0, b := .sp .zero, off := 0 },
  .lr { h := always, pol := .wt, hint := 0, data := .v 0, addr := .v 0, scope := .grp, off := 0 },
  .sc { h := always, pol := .si, hint := 0, w := .w32, scope := .grp, data := .v 0, addr := .v 0, b := .v 0, off := 0 },
  .lrX { h := always, pol := .own, hint := 0, w := .w128, scope := .grp, data := .v 0, addr := .v 0, off := 0 },
  .bariX { h := always, b := 0, count := 0 }, .sync { h := always, scope := .sys }, .sync { h := always, scope := .pod },
  .tmma { h := always, ac := 0, ta := 0, tb := 0, ty := .q4x, kb := 0 }, .tmms { h := always, ac := 0, ta := 0, tb := 0, tm := 0, ty := .metaTy, pat := .p24, kb := 0 },
  .tmmq { h := always, ac := 0, ta := 0, tb := 0, ty := .bf16, kb := 0 }, .tgemm { h := always, ty := .q4x, ac := 0, ab := .s 0, c := .s 0, mt := 0, nt := 0, ks := 1 },
  .tgemm { h := always, ty := .bf16, ac := 0, ab := .s 0, c := .s 0, mt := 0, nt := 0, ks := 0 },
  .cpy { cpy with chan := some { ch := 0, scope := .grp, pub := .v 0 } }, .cpym { cpym with cmd := { cpym.cmd with ty := .bf16 } }, .cpym { cpym with cmd := { cpym.cmd with tm := 1 } },
  .cpym { cpym with cmd := { cpym.cmd with pat := .p48 } }, .cpym { cpym with cmd := { cpym.cmd with mop := .tmma, ty := .q4x } }, .cpycv { cpycv with form := 0x01020004 },
  .cpylb { cpylb with rowb := 0 }, .cpylb { cpylb with rowb := 16385 }, .cpylb { cpylb with chan := { cpylb.chan with scope := .grp } },
  .coll { h := always, a := .s 0, scope := .die, op := .allred, ty := .b8, id := 0 }, .coll { h := always, a := .s 0, scope := .die, op := .alltoall, ty := .i32, id := 0 },
  .tret { h := { always with pred := 0 } }, .tkill { h := { always with pred := 0 } }, .tretTo { h := { always with pred := 6 }, a := .v 0 },
  .nopPair { c := false, dist := 0, wait := 0, hint := false, d := .v 1, s := .v 0, other := ⟨.fadd, .v 9, .v 10⟩ },
  .iaddPair { c := false, dist := 0, wait := 0, hint := false, d := .v 1, s := .v 0, other := ⟨.nop, .v 9, .v 0⟩ }]
theorem test_ill_formed : ∀ x ∈ illFormed, wellFormed x = false := (by decide +kernel)
/-- R149 to R163: words that are no instruction, or whose fields say nothing. -/
theorem test_bad_words : decode 0xFFFFFFFFFFFFFFFF 0 = .notInstr ∧ decode 0 0 = .unassigned ∧ decode 0x00001E33C0000000 0 = .unassigned ∧ decode 0x40000FC000000000 0 = .unassigned ∧
    decode 0x00001E2DC0800005 0 = .badField 0x16 ∧ decode 0x80001E31C3300000 0x00000000FF000000 = .badField 0x18 ∧ decode 0x00001E2DC01F2005 0 = .badField 0x16 := (by decide +kernel)

/-! ## Values that the manual prints or that its rules give by hand -/

def nearest : FpCtl := { rm := .rne, ftz := false }
/-- R174, R175: 1 + 2^-24 is a tie and rounds to 1; infinity minus infinity is the canonical NaN; −0 + +0 is +0, and −0 toward −∞. -/
theorem test_fadd : fp32.add nearest 0x3F800000 0x33800000 = (0x3F800000, fIX) ∧ fp32.sub nearest 0x7F800000 0x7F800000 = (0x7FC00000, fIV) ∧
    fp32.add nearest 0x80000000 0 = (0, 0) ∧ fp32.add { nearest with rm := .rd } 0x80000000 0 = (0x80000000, 0) := (by decide +kernel)
/-- R174: 3 × 2 + 1. -/
theorem test_ffma : fp32.fma nearest 0x40400000 0x40000000 0x3F800000 = (0x40E00000, 0) := (by decide +kernel)
/-- R178: −0.4 rounds to −0.0. -/
theorem test_frnd : frnd nearest 0xBECCCCCD = (0x80000000, 0) := (by decide +kernel)
/-- R181: a NaN gives 0, a value out of range the nearest end, each with IV. -/
theorem test_f2i : f2i nearest 0x7FC00000 = (0, fIV) ∧ f2i nearest 0xFF800000 = (0x80000000, fIV) ∧ f2i nearest 0x3FC00000 = (2, fIX) ∧ i2f .rne 0xFFFFFFFF = (0xBF800000, 0) := (by decide +kernel)
/-- R182: 24.0 is 0x5C in E4M3, and back. -/
theorem test_fcvt : fcvt .toE4m3 nearest false 0x41C00000 = (0x5C, 0) ∧ fcvt .ofE4m3 nearest false 0x5C = (0x41C00000, 0) ∧ fcvt .ofE4m3 nearest false 0x7F = (0x7FC00000, 0) := (by decide +kernel)
/-- R177: the exact cases. -/
theorem test_exact : frcp false 0x40000000 = (0x3F000000, 0) ∧ frsq false 0x40800000 = (0x3F000000, 0) ∧ fsqrt nearest 0x40800000 = (0x40000000, 0) ∧
    fexp2 false 0x40400000 = (0x41000000, 0) ∧ flog2 false 0x41000000 = (0x40400000, 0) ∧ frcp false 0 = (0x7F800000, fDZ) := (by decide +kernel)
/-- R176, R178. -/
theorem test_fcmp : fcmp .eq false 0x80000000 0 = (true, 0) ∧ fcmp .lt false 0x7FC00000 0 = (false, fIV) ∧ fcmp .ne false 0x7FC00000 0 = (true, 0) ∧ fclass 0x80000000 = 8 ∧ fclass 0x7FC00000 = 0x200 := (by decide +kernel)
/-- R184: the block of the tripscore weights, 6.0 at slot 2 with scale 0x7D: QPACK writes the marker and 0x5C. -/
theorem test_qpack : ((packHalf nearest 0x7D fun j => if j = 2 then 0x40C00000 else 0).1.take 6) = [0, 0, 8, 0xC, 5, 0] ∧
    ((unpackHalf nearest 0x7D fun j => nth 0 [0, 0, 8, 0xC, 5, 0] j).1.take 4) = [(0, 0), (0, 0), (0x40C00000, 0), (0, 0)] := (by decide +kernel)
/-- R226: the run of four groups, the last of which drops. -/
theorem test_barrier_run :
    let b4 : Bar := { garr := 0x0007, harr := false, phase := 0, drops := 0, expect := 4, arrived := 3 }
    let b3 : Bar := { garr := 0x0003, harr := false, phase := 1, drops := 0, expect := 3, arrived := 2 }
    b4.arrive (.group 3) true = some ({ garr := 0, harr := false, phase := 1, drops := 0, expect := 3, arrived := 0 }, true) ∧ b3.arrive (.group 0) false = none := (by decide +kernel)
/-- R186: SHFL's source lanes. -/
theorem test_shfl : shflLane .idx 5 33 = some 1 ∧ shflLane .up 3 4 = none ∧ shflLane .dn 30 2 = none ∧ shflLane .xor 5 1 = some 4 := (by decide +kernel)

/-! ## Steps -/

def ctxAfter (o : Out) (k : Nat) : Ctx := match o with | .next t => t.ctx k | _ => {}
def wgAfter (o : Out) : Wg := match o with | .next t => t.wg 1 | _ => {}
def wrote (o : Out) (d : Dest) : Option Word := ((ctxAfter o 32).pends.flatMap (·.wr)).find? (·.dest = d) |>.map (·.val.setWidth 32)
/-- R159: the worked MOVI, fetched and issued, writes V51 of every lane, and the next instruction stands 16 bytes on. -/
theorem test_step_movi : wrote (step fetched) (.v 0 51) = some 0xFF000000 ∧ wrote (step fetched) (.v 31 51) = some 0xFF000000 ∧ ((ctxAfter (step fetched) 32).front.lane 31).pc = fetchVa + 16 := (by decide +kernel)
/-- R170: S4 + 4 × V43, with V43 zero, and R168: 0x100100 + 0x100100. -/
theorem test_step_lea : wrote (exec (.lea { h := always, sx := false, sh := 2, d := .v 20, a := .s 4, b := .sp .lane }) sg) (.v 1 20) = some 0x100104 ∧
    wrote (exec (.iadd { h := always, m := { w64 := true, us := false, sat := false }, d := .v 20, a := .s 4, b := .s 5 }) sg) (.v 1 20) = some 0x200200 := (by decide +kernel)
/-- R168: IADD.SAT and .U.SAT at the ends of their ranges. -/
theorem test_step_sat : wrote (exec (.isub { h := always, m := { w64 := false, us := true, sat := true }, d := .v 2, a := .sp .zero, b := .s 6 }) sg) (.v 0 2) = some 0 ∧
    wrote (exec (.isub { h := always, m := { w64 := false, us := false, sat := false }, d := .v 2, a := .sp .zero, b := .s 6 }) sg) (.v 0 2) = some 0xFFFFFFFC := (by decide +kernel)
/-- R192, R193: BRX sends each acting lane to its target and sets its landing bit. -/
theorem test_step_brx : ((ctxAfter (exec (.brx { h := always, a := .s 4 }) sg) 32).front.lane 1) = { pc := 0x100100, landing := true, st := .active } ∧
    ((ctxAfter (exec (.bra { h := always, off := 0xFFFFFD }) sg) 32).front.lane 1).pc = fetchVa - 24 := (by decide +kernel)
/-- R276, R286: TRAP enters trap level with cause 0x60, its code in TADDR and its lanes in TLANES, at TRAPBASE. -/
theorem test_step_trap : let c := ctxAfter (exec (.trap { h := always, code := 0x1234 }) sg) 32
    (c.trap.map (·.regs)) = some { cause := causeWord 0x60 0 0, addr := 0x1234, pc := fetchVa, lanes := 3, kind := .precise } ∧ (c.frontAt true).lane 0 = { pc := fetchVa + 0x1000, st := .active } := (by decide +kernel)
/-- R277: TRET.SKIP of a single word resumes its lanes at the next one. -/
theorem test_step_tret : let c := ctxAfter (exec (.tretSkip { h := always }) st) 32; c.trap = none ∧ (c.front.lane 0) = { pc := fetchVa + 8, st := .active } := (by decide +kernel)
/-- R171: ICMP.GE LANE, 1. -/
theorem test_step_icmp : let o := exec (.icmpX { h := always, cond := .ge, p := 1, a := .sp .lane, imm := 1 }) sg; wrote o (.p 1 0) = some 0 ∧ wrote o (.p 1 1) = some 1 := (by decide +kernel)
/-- R195, R13: EXIT ends the acting lanes and no others. -/
theorem test_step_exit : let f := (ctxAfter (exec (.exit { h := always }) sg) 32).front; (f.lane 1).st = .exited ∧ (f.lane 2).st = .active := (by decide +kernel)
/-- R233: MOVTS writes a legal shape. -/
theorem test_step_movts : nth 0 (wgAfter (exec (.movts { h := always, t := 7, a := .s 6 }) shape)).tshape 7 = 0x28008000 := (by decide +kernel)
/-- R160: an instruction that may not be issued by a head context traps with 0x01 and its code. -/
theorem test_step_head : ((ctxAfter (exec (.vote { h := always, mode := .any, d := .s 0, a := .s 4 }) sh) 48).trap.map (·.regs.cause)) = some (causeWord 0x01 0x48 0) := (by decide +kernel)
end Sys2Proof.Tests
end

section
/-! SUPPORT. No step takes memory out of its canonical form (DESIGN CHOICE, log 1). Memory is written by `Memory.write`, `writeN`, `writeSome` and
`Tab.filter` alone, and each of them keeps the form; so each operation of the model keeps it, one lemma to an operation, in the order of the model. The proof
of a lemma is the path of states from the one that the operation is given to the one that it leaves. -/
namespace Sys2Proof.Machine

/-! ## States, outcomes and computations with canonical memory -/

/-- The memory of a state is in its canonical form. -/
def State.Canonical (s : State) : Prop := Memory.wf s.mem = true
/-- An outcome leaves only a state with canonical memory. -/
def Out.Canonical (o : Out) : Prop := ∀ t, o = .next t → t.Canonical
/-- What a computation came to: it ended with a state that has P, or stopped with a report that has Q. -/
def EndsIn {σ ε α : Type} (P : σ → Prop) (Q : ε → Prop) (r : Except ε (α × σ)) : Prop :=
  match r with
  | .ok p => P p.2
  | .error e => Q e
/-- A computation that is given a state with P, and ends, leaves a state with P; and one that stops gives a report with Q. -/
def Preserves {σ ε α : Type} (P : σ → Prop) (Q : ε → Prop) (m : StateT σ (Except ε) α) : Prop := ∀ x, P x → EndsIn P Q (m x)
/-- An engine's work leaves canonical memory, if it happens at all. -/
abbrev EngM.Canonical {ε α : Type} (m : StateT State (Except ε) α) : Prop := Preserves State.Canonical (fun _ => True) m

theorem State.Canonical.of_mem_eq {s t : State} (h : s.Canonical) (e : t.mem = s.mem) : t.Canonical := by rw [State.Canonical, e]; exact h
theorem State.Canonical.ite {c : Prop} [Decidable c] {s t : State} (hs : s.Canonical) (ht : t.Canonical) : (if c then s else t).Canonical := by
  split
  · exact hs
  · exact ht
theorem State.Canonical.iteFst {α : Type} {c : Prop} [Decidable c] {p q : State × α} (hp : p.1.Canonical) (hq : q.1.Canonical) :
    (if c then p else q).1.Canonical := by
  split
  · exact hp
  · exact hq
theorem State.Canonical.iteSnd {α : Type} {c : Prop} [Decidable c] {p q : α × State} (hp : p.2.Canonical) (hq : q.2.Canonical) :
    (if c then p else q).2.Canonical := by
  split
  · exact hp
  · exact hq
theorem State.Canonical.iteEff {c : Prop} [Decidable c] {e f : Eff} (he : e.st.Canonical) (hf : f.st.Canonical) : (if c then e else f).st.Canonical := by
  split
  · exact he
  · exact hf
theorem State.Canonical.foldl {α : Type} {f : State → α → State} {l : List α} {s : State} (h : s.Canonical) (hf : ∀ t a, t.Canonical → (f t a).Canonical) :
    (l.foldl f s).Canonical := foldl_holds State.Canonical f l hf s h
theorem State.Canonical.foldlFst {α β : Type} {f : State × β → α → State × β} {l : List α} {p : State × β} (h : p.1.Canonical)
    (hf : ∀ q a, q.1.Canonical → (f q a).1.Canonical) : (l.foldl f p).1.Canonical :=
  List.foldlRecOn l f (motive := fun q => q.1.Canonical) h fun q hq a _ => hf q a hq
theorem State.Canonical.foldlSnd {α β : Type} {f : β × State → α → β × State} {l : List α} {p : β × State} (h : p.2.Canonical)
    (hf : ∀ q a, q.2.Canonical → (f q a).2.Canonical) : (l.foldl f p).2.Canonical :=
  List.foldlRecOn l f (motive := fun q => q.2.Canonical) h fun q hq a _ => hf q a hq
theorem State.Canonical.of_snd_eq {α : Type} {p : α × State} {a : α} {t : State} (h : p.2.Canonical) (e : p = (a, t)) : t.Canonical := by subst e; exact h
theorem State.Canonical.of_fst_eq {α : Type} {p : State × α} {a : α} {t : State} (h : p.1.Canonical) (e : p = (t, a)) : t.Canonical := by subst e; exact h

/-- A state that is given memory in its canonical form has it. -/
theorem State.Canonical.setMem {s : State} {m : Memory} (h : Memory.wf m = true) : ({ s with mem := m } : State).Canonical := h
/-- Which word is issued is no part of memory. -/
theorem State.Canonical.setIssue {s : State} {i : Option Issue} (h : s.Canonical) : ({ s with issue := i } : State).Canonical := h

theorem Out.Canonical.next {s : State} (h : s.Canonical) : Out.Canonical (.next s) := fun _ e => Host.Outcome.next.inj e ▸ h
theorem Out.Canonical.refused {r : Refusal} : Out.Canonical (.refused r) := fun _ e => nomatch e
theorem Out.Canonical.fault {f : Fault} : Out.Canonical (.fault f) := fun _ e => nomatch e

namespace EndsIn
variable {σ ε α β : Type} {P : σ → Prop} {Q : ε → Prop}

theorem ok_iff {p : α × σ} : EndsIn P Q (.ok p) ↔ P p.2 := .rfl
theorem ok {p : α × σ} (h : P p.2) : EndsIn P Q (.ok p) := h
theorem error {e : ε} (h : Q e) : EndsIn (α := α) P Q (.error e) := h
theorem ite {c : Prop} [Decidable c] {r q : Except ε (α × σ)} (hr : EndsIn P Q r) (hq : EndsIn P Q q) : EndsIn P Q (if c then r else q) := by
  split
  · exact hr
  · exact hq
theorem bind {r : Except ε (α × σ)} {f : α × σ → Except ε (β × σ)} (hr : EndsIn P Q r) (hf : ∀ p, P p.2 → EndsIn P Q (f p)) : EndsIn P Q (r >>= f) :=
  match r, hr with
  | .error _, h => h
  | .ok p, h => hf p h
theorem foldlM {f : α × σ → β → Except ε (α × σ)} {l : List β} {p : α × σ} (h : P p.2) (hf : ∀ p b, P p.2 → EndsIn P Q (f p b)) :
    EndsIn P Q (l.foldlM f p) := by
  induction l generalizing p with
  | nil => exact h
  | cons b t ih => exact bind (hf p b h) fun _ hp => ih hp
end EndsIn

namespace Preserves
variable {σ ε α β : Type} {P : σ → Prop} {Q : ε → Prop}

theorem ok {m : StateT σ (Except ε) α} (hm : Preserves P Q m) {x y : σ} {a : α} (hx : P x) (e : m x = .ok (a, y)) : P y := EndsIn.ok_iff.mp (e ▸ hm x hx)
theorem ok_snd {m : StateT σ (Except ε) α} (hm : Preserves P Q m) {x : σ} {p : α × σ} (hx : P x) (e : m x = .ok p) : P p.2 := hm.ok hx e
theorem error {m : StateT σ (Except ε) α} (hm : Preserves P Q m) {x : σ} {r : ε} (hx : P x) (e : m x = .error r) : Q r := by
  have h := hm x hx
  rw [e] at h
  exact h
theorem pure {a : α} : Preserves P Q (pure a : StateT σ (Except ε) α) := fun _ hx => hx
theorem throw {r : ε} (h : Q r) : Preserves P Q (fun _ => .error r : StateT σ (Except ε) α) := fun _ _ => h
theorem bind {m : StateT σ (Except ε) α} {f : α → StateT σ (Except ε) β} (hm : Preserves P Q m) (hf : ∀ a, Preserves P Q (f a)) :
    Preserves P Q (m >>= f) := fun x hx => EndsIn.bind (hm x hx) fun p hp => hf p.1 p.2 hp
theorem map {m : StateT σ (Except ε) α} (hm : Preserves P Q m) (f : α → β) : Preserves P Q (f <$> m) := bind hm fun _ => pure
/-- What reads the state may lean on what holds of it. -/
theorem get_bind {f : σ → StateT σ (Except ε) β} (hf : ∀ x, P x → Preserves P Q (f x)) : Preserves P Q (get >>= f) := fun x hx => hf x hx x hx
theorem set {x : σ} (hx : P x) : Preserves P Q (set x : StateT σ (Except ε) PUnit) := fun _ _ => hx
theorem modify {f : σ → σ} (hf : ∀ x, P x → P (f x)) : Preserves P Q (modify f : StateT σ (Except ε) PUnit) := fun x hx => hf x hx
theorem ite {c : Prop} [Decidable c] {m n : StateT σ (Except ε) α} (hm : Preserves P Q m) (hn : Preserves P Q n) : Preserves P Q (if c then m else n) := by
  split
  · exact hm
  · exact hn
/-- Both branches go on with the same work. -/
theorem iteJoin {c : Prop} [Decidable c] {m n : StateT σ (Except ε) α} {f : α → StateT σ (Except ε) β} (hm : Preserves P Q m) (hn : Preserves P Q n)
    (hf : ∀ a, Preserves P Q (f a)) : Preserves P Q (if c then m >>= f else n >>= f) := ite (bind hm hf) (bind hn hf)
/-- Work that may stop before the rest. -/
theorem iteThen {c : Prop} [Decidable c] {m : StateT σ (Except ε) Unit} {f : Unit → StateT σ (Except ε) β} (hm : Preserves P Q m)
    (hf : ∀ u, Preserves P Q (f u)) : Preserves P Q (if c then m >>= f else f ()) := ite (bind hm hf) (hf ())
theorem iteElse {c : Prop} [Decidable c] {m : StateT σ (Except ε) Unit} {f : Unit → StateT σ (Except ε) β} (hm : Preserves P Q m)
    (hf : ∀ u, Preserves P Q (f u)) : Preserves P Q (if c then f () else m >>= f) := ite (hf ()) (bind hm hf)
theorem forM {f : α → StateT σ (Except ε) PUnit} (l : List α) (hf : ∀ a ∈ l, Preserves P Q (f a)) : Preserves P Q (l.forM f) := by
  induction l with
  | nil => exact pure
  | cons a t ih => exact bind (hf a List.mem_cons_self) fun _ => ih fun b hb => hf b (List.mem_cons_of_mem a hb)
theorem foldlM {f : β → α → StateT σ (Except ε) β} (l : List α) (b : β) (hf : ∀ b a, Preserves P Q (f b a)) : Preserves P Q (l.foldlM f b) := by
  induction l generalizing b with
  | nil => exact pure
  | cons a t ih => exact bind (hf b a) ih
theorem mapM {f : α → StateT σ (Except ε) β} (l : List α) (hf : ∀ a, Preserves P Q (f a)) : Preserves P Q (l.mapM f) := by
  induction l with
  | nil => exact pure
  | cons a t ih =>
    rw [List.mapM_cons]
    exact bind (hf a) fun _ => bind ih fun _ => pure
end Preserves

section
variable {a ac b base bound byte cause ck cls code core count detail die here holder id info k key lane lat : Nat}
variable {leaf line lo mode mt n nt op opc pa q rank role slice stamp user vfn w way wgid who wk word : Nat}
variable {off v va : DWord}
variable {s t : State}
variable {level : Bool}
variable {ws : List Nat}
variable {fl : Fl}
variable {bs : List Byte}
variable {i : Issue}
variable {scope : Scope}
variable {act : Lanes}
variable {j : JobRec}
variable {pol : Policy}
variable {addr : Reg}
variable {pick : Option Nat}
variable {kind : ReqKind}
variable {sc : InvScope}


/-! ## The state's tables (Machine/Tab.lean) -/

theorem State.Canonical.setCore {c : Core} (h : s.Canonical) : (s.setCore k c).Canonical := h
theorem State.Canonical.updCore {f : Core → Core} (h : s.Canonical) : (s.updCore k f).Canonical := h
theorem State.Canonical.updDie {f : Die → Die} (h : s.Canonical) : (s.updDie k f).Canonical := h
theorem State.Canonical.setWg {w : Wg} (h : s.Canonical) : (s.setWg k w).Canonical := h
theorem State.Canonical.updWg {f : Wg → Wg} (h : s.Canonical) : (s.updWg k f).Canonical := h
theorem State.Canonical.setCtx {c : Ctx} (h : s.Canonical) : (s.setCtx k c).Canonical := h
theorem State.Canonical.updCtx {f : Ctx → Ctx} (h : s.Canonical) : (s.updCtx k f).Canonical := h
theorem State.Canonical.updGrid {f : Grid → Grid} (h : s.Canonical) : (s.updGrid k f).Canonical := h
theorem State.Canonical.updVf {f : Vf → Vf} (h : s.Canonical) : (s.updVf k f).Canonical := h
theorem State.Canonical.updPf {f : Pf → Pf} (h : s.Canonical) : (s.updPf f).Canonical := h
theorem State.Canonical.updReq {f : Req → Req} (h : s.Canonical) : (s.updReq k f).Canonical := h
theorem State.Canonical.updAcc {f : Acc → Acc} (h : s.Canonical) : (s.updAcc k f).Canonical := h
theorem State.Canonical.setDir {d : DirWord} (h : s.Canonical) : (s.setDir w d).Canonical := h
theorem State.Canonical.setL1 {x : L1Word} (h : s.Canonical) : (s.setL1 core word x).Canonical := h
theorem State.Canonical.newId (h : s.Canonical) : s.newId.2.Canonical := h
theorem State.Canonical.freeBytes (h : s.Canonical) : (s.freeBytes n).2.Canonical := h
theorem State.Canonical.push {i : Instr} {a : Args} {due : Option Nat} (h : s.Canonical) : (s.push i a due).Canonical := h
theorem State.Canonical.pushOnce {i : Instr} {a : Args} {due : Option Nat} (h : s.Canonical) : (s.pushOnce i a due).Canonical := .ite h h.push

/-! ## The shared operations: lanes, caches and directory, tables of pages, records, traps (Machine/Ops.lean) -/

theorem State.Canonical.updFront {g : Front → Front} (h : s.Canonical) : (s.updFront ck level g).Canonical := h
theorem State.Canonical.write1 {w : Wr} (h : s.Canonical) : (s.write1 ck w).Canonical := by
  unfold State.write1
  split
  · exact h.updCtx
  · exact h.updWg
  · exact h.updCtx
theorem State.Canonical.writeAll {ws : List Wr} (h : s.Canonical) : (s.writeAll ck ws).Canonical := .foldl h fun _ _ h => h.write1
theorem State.Canonical.flagDown {flag : Option (Bool × Nat)} (h : s.Canonical) : (s.flagDown ck flag).Canonical := by
  unfold State.flagDown
  split
  · exact h.updFront
  · exact h
theorem State.Canonical.orFlags (h : s.Canonical) : (s.orFlags ck fl).Canonical := h
theorem State.Canonical.setCist {b : Byte} (h : s.Canonical) : (s.setCist core byte b).Canonical := h
theorem State.Canonical.setFe {b : Bool} (h : s.Canonical) : (s.setFe core word b).Canonical := h
theorem State.Canonical.writeBack {x : L1Word} (h : s.Canonical) : (s.writeBack w x).Canonical := Memory.wf_setWord _ _ _ h
theorem State.Canonical.clearResv {keep : Option (Nat × Nat)} (h : s.Canonical) : (s.clearResv core line keep).Canonical := h
theorem State.Canonical.clearResvOthers {who : Option (Nat × Nat)} (h : s.Canonical) : (s.clearResvOthers line who).Canonical := h
theorem State.Canonical.clearResvDie (h : s.Canonical) : (s.clearResvDie die line).Canonical := h
theorem State.Canonical.l1GiveUp {x : L1Word} (h : s.Canonical) : (s.l1GiveUp core w x how).Canonical := by
  unfold State.l1GiveUp
  extract_lets kept
  have hk : kept.Canonical := .ite h.writeBack h
  split
  · exact .ite hk.setL1.clearResv hk
  · exact .ite hk.setL1.clearResv hk
  · exact hk.setL1.clearResv
  · exact hk.setL1.clearResv
theorem State.Canonical.dieGiveUp {how : GiveUp} (h : s.Canonical) : (s.dieGiveUp die w how).Canonical := .foldl h.clearResvDie fun _ _ h => .ite h.l1GiveUp h
theorem State.Canonical.holderGiveUp {how : GiveUp} (h : s.Canonical) : (s.holderGiveUp n w how).Canonical := .ite h.dieGiveUp h
theorem State.Canonical.homeInvalidate (h : s.Canonical) : (s.homeInvalidate die w).Canonical :=
  .setDir (.foldl h fun _ _ h => .ite h.l1GiveUp (.ite h.setL1 h))
theorem State.Canonical.homeWrite {bs : List Byte} (h : s.Canonical) : (s.homeWrite die a bs).Canonical :=
  Memory.wf_writeSome _ _ _ _ (State.Canonical.foldl h fun _ _ h => h.homeInvalidate.clearResvOthers)
theorem State.Canonical.homeRead (h : s.Canonical) : (s.homeRead a n).2.Canonical := .foldl h fun _ _ h => .setDir (.foldl h fun _ _ h => .ite h.l1GiveUp h)
theorem State.Canonical.orphan (h : s.Canonical) : (s.orphan ws).Canonical := .ite h (.updPf (.foldl h fun _ _ h => h.setDir))
theorem State.Canonical.walkReads {va : Nat} (h : s.Canonical) : (s.walkReads vfn va).Canonical := .foldl h fun _ _ h => h.homeRead
theorem State.Canonical.fillTlb {t : Tlb} (h : s.Canonical) : (s.fillTlb core t).Canonical := h
theorem State.Canonical.touchTlb {va : Nat} (h : s.Canonical) : (s.touchTlb core vfn va).Canonical := by
  unfold State.touchTlb
  split
  · exact .fillTlb (.ite h h.walkReads)
  · exact h
theorem State.Canonical.countUnc (h : s.Canonical) : (s.countUnc n).Canonical := h
theorem State.Canonical.devWrite {va : DWord} {bs : List Byte} (h : s.Canonical) : (s.devWrite vfn va bs).Canonical := by
  induction bs generalizing s va with
  | nil => exact h
  | cons b t ih =>
    unfold State.devWrite
    split
    · exact ih h.homeWrite
    · exact ih h
theorem State.Canonical.lateAsk (h : s.Canonical) : (s.lateAsk vfn va).Canonical := by
  unfold State.lateAsk
  split
  · exact .ite h.pushOnce h.pushOnce
  · exact h
theorem State.Canonical.lateDo (h : s.Canonical) : (s.lateDo vfn va bs).Canonical := by
  unfold State.lateDo
  split
  · exact .ite h.devWrite h
  · exact h
theorem State.Canonical.lateWrite (h : s.Canonical) : (s.lateWrite vfn va bs).Canonical := .ite h.lateDo h.updVf.lateAsk
theorem State.Canonical.lateRetry (h : s.Canonical) : (s.lateRetry vfn).Canonical := by
  unfold State.lateRetry
  extract_lets l n done
  have hd : done.Canonical := .foldl (.ite h h.updVf) fun _ _ h => h.lateDo
  split
  · exact hd.lateAsk
  · exact hd
theorem State.Canonical.devWriteDWord (h : s.Canonical) : (s.devWriteDWord vfn va v).Canonical := h.devWrite
theorem State.Canonical.quiesce (h : s.Canonical) : (s.quiesce vfn).Canonical := h.updVf.pushOnce
theorem State.Canonical.putWords {ws : List DWord} {kept : Bool} (h : s.Canonical) : (s.putWords vfn ws kept).2.Canonical :=
  .iteSnd h (.iteSnd (.ite h.devWriteDWord.devWrite.devWriteDWord.updVf h.devWriteDWord.devWrite.devWriteDWord) h)
theorem State.Canonical.putRecord {r : Rec} {kept : Bool} (h : s.Canonical) : (s.putRecord vfn r kept).2.Canonical := h.putWords
theorem State.Canonical.fatal {r : Rec} (h : s.Canonical) : (s.fatal vfn r).Canonical := by
  unfold State.fatal
  split
  · next e =>
    have ht := h.putRecord.of_snd_eq e
    exact .ite ht ht.pushOnce
  · exact .ite h.updVf h.updVf.quiesce
theorem State.Canonical.request {r : Rec} (h : s.Canonical) : (s.request vfn r va info).2.Canonical := by
  unfold State.request
  split
  · next e =>
    have ht := h.putRecord.of_snd_eq e
    exact .ite ht.updVf ht.updVf.pushOnce
  · next e => exact (h.putRecord.of_snd_eq e).updVf
  · next e => exact h.putRecord.of_snd_eq e
theorem State.Canonical.enterTrap {r : TrapRec} (h : s.Canonical) : (s.enterTrap ck r).Canonical := h
theorem State.Canonical.trap {r : TrapRec} (h : s.Canonical) : (s.trap ck level r).Canonical :=
  .ite h.updCtx.fatal (.ite h.setCtx.fatal (.ite h.setCtx.setCtx h.setCtx.enterTrap))
theorem State.Canonical.leaveTrap {f : Nat → Lane → Lane} (h : s.Canonical) : (s.leaveTrap ck f).Canonical := by
  unfold State.leaveTrap
  dsimp only
  split
  · exact h
  · exact .ite h.setCtx h.setCtx.pushOnce
theorem State.Canonical.trapAt {lanes : Lanes} {addr : DWord} {kind : TrapKind} (h : s.Canonical) : (s.trapAt i lanes cause detail addr kind).Canonical :=
  h.trap
theorem State.Canonical.wakeAll {p : Nat → LaneSt → Bool} (h : s.Canonical) : (s.wakeAll p).Canonical := h
theorem State.Canonical.wakeWord (h : s.Canonical) : (s.wakeWord core word).Canonical := h
theorem State.Canonical.discard {us : Bool} {uw : Bool} (h : s.Canonical) : (s.discard core us uw).Canonical := h
theorem State.Canonical.acquire (h : s.Canonical) : (s.acquire core scope).Canonical := h
theorem State.Canonical.setView {l : List Nat} (h : s.Canonical) : (s.setView wk key l).Canonical := h
theorem State.Canonical.publish (h : s.Canonical) : (s.publish ck).Canonical := h
theorem State.Canonical.learn (h : s.Canonical) : (s.learn ck).Canonical := h
theorem State.Canonical.hear {l : List Nat} (h : s.Canonical) : (s.hear ck l).Canonical := .ite h h.updCtx
theorem State.Canonical.publishAt (h : s.Canonical) : (s.publishAt ck key).Canonical := h
theorem State.Canonical.learnAt (h : s.Canonical) : (s.learnAt key ck).Canonical := h.hear.learn
theorem State.Canonical.learnAll {cks : List Nat} {key : Nat → Nat} (h : s.Canonical) : (s.learnAll cks key).Canonical := .foldl h fun _ _ h => h.learnAt
theorem State.Canonical.wakeBar (h : s.Canonical) : (s.wakeBar wk n).Canonical := h.learnAll.wakeAll

/-! ## The end of a word, and the issue of a form (Machine/Operands.lean) -/

theorem State.Canonical.takeId {b : Bool} (h : s.Canonical) : (s.takeId b).Canonical := h
theorem State.Canonical.askTurn (h : s.Canonical) : (s.askTurn k).Canonical := .ite h.pushOnce h
/-- Whatever memory the state before it has: the word's effect stands in e. -/
theorem State.Canonical.afterWord {i : Issue} {b : Bool} {setf : Option Nat} {p : Plan} {act : Lanes} {pair : Bool} {e : Eff} (h : s.Canonical) :
    (s.afterWord i b setf p act pair e).Canonical := .of_mem_eq h.takeId.updCtx.updCore.askTurn rfl
theorem State.Canonical.finish {c : Bool} {setf : Option Nat} {p : Plan} {pair : Bool} {e : Eff}
    (h : e.st.Canonical) : (Machine.finish i c setf p act pair e).Canonical := by
  unfold Machine.finish
  split
  · exact h.afterWord.trapAt
  · exact h.afterWord
theorem State.Canonical.rejectWord (h : s.Canonical) : (Machine.rejectWord s i cause detail).Canonical := .of_mem_eq h.updCore.trapAt rfl
theorem Out.Canonical.issueForm {f : Form} {eff : Issue → Lanes → State → Eff} (h : s.Canonical) (he : ∀ i act t, t.Canonical → (eff i act t).st.Canonical) :
    (issueForm f eff s).Canonical := by
  unfold Machine.issueForm
  split
  · exact .refused
  · split
    · exact .next h.rejectWord
    · exact .next (he _ _ _ h).finish
theorem Out.Canonical.issueFormS {f : Issue → State → Form} {eff : Issue → Lanes → State → Eff} (h : s.Canonical)
    (he : ∀ i act t, t.Canonical → (eff i act t).st.Canonical) : (issueFormS f eff s).Canonical := by
  unfold Machine.issueFormS
  split
  · exact .refused
  · exact .issueForm h he

/-! ## Accesses, requests and coherence (Machine/Mem.lean) -/

theorem State.Canonical.l1Store {bs : List Byte} (h : s.Canonical) : (s.l1Store core a bs).Canonical := by
  induction bs generalizing s a with
  | nil => exact h
  | cons b t ih => exact ih (.ite h.setL1 (Memory.wf_write _ _ _ h))
theorem State.Canonical.l1UpdateAs {bs : List Byte} (h : s.Canonical) : (s.l1UpdateAs stamp core a bs).Canonical := by
  induction bs generalizing s a with
  | nil => exact h
  | cons b t ih => exact ih (.ite h.setL1 h)
theorem State.Canonical.l1Update (h : s.Canonical) : (s.l1Update core a bs).Canonical := h.newId.l1UpdateAs
theorem State.Canonical.storeOwned (h : s.Canonical) : (s.storeOwned core a bs).Canonical := .foldl h fun _ _ h => .ite h.l1Store h
/-- The bytes that a write at home admits are written. -/
theorem State.Canonical.updMem {bs : List Byte} {ok : Nat → Bool} (h : s.Canonical) : (s.updMem fun m => Memory.writeSome m a bs ok).Canonical :=
  Memory.wf_writeSome _ _ _ _ h
theorem State.Canonical.setCistBytes {bs : List Byte} (h : s.Canonical) : (s.setCistBytes core b bs).Canonical := by
  induction bs generalizing s b with
  | nil => exact h
  | cons x t ih => exact ih h.setCist
theorem State.Canonical.scCount {ok : Bool} (h : s.Canonical) : (s.scCount ck lane line ok).Canonical := .ite h.updCtx.updCore h.updCtx
theorem State.Canonical.dropUntracked (h : s.Canonical) : (s.dropUntracked core ws).Canonical := .foldl h fun _ _ h => .ite h.setL1 h
theorem State.Canonical.performHere {acc : Acc} {e : Elem} {home : Bool} {ws : List Nat} {resv : Option Bool} (h : s.Canonical) :
    (s.performHere acc e home ws resv).1.Canonical := by
  unfold State.performHere
  split
  · dsimp only
    split
    · exact h.setCistBytes
    · exact h
  · extract_lets line clear write old
    have hc : ∀ t, t.Canonical → (clear t).Canonical := fun _ h => h.clearResvOthers
    have hw : ∀ bs, (write s bs).Canonical := fun _ => .ite (.ite h.storeOwned.updMem.dropUntracked h.storeOwned.updMem.l1Update) h.l1Store
    have ho : ∀ new : Option (List Byte), (match new with | some bs => write s bs | none => s).Canonical := fun new => by
      split
      · exact hw _
      · exact h
    clear_value write clear
    cases e.op with
    | sc v => exact .scCount (.ite (hc _ (hw _)) h)
    | lr => exact h.updCtx
    | _ => exact .ite (hc _ (ho _)) (ho _)
theorem State.Canonical.carry {e : Elem} (h : s.Canonical) : (s.carry ck e).Canonical := by
  unfold State.carry
  extract_lets wk reads writes heard told
  have hh : heard.Canonical := .ite (.foldl h fun _ _ h => h.hear) h
  exact .ite (.foldl hh fun _ _ h => h.setView) hh
theorem State.Canonical.perform {a : Acc} {e : Elem} {home : Bool} {resv : Option Bool} (h : s.Canonical) : (s.perform a e home ws resv).1.Canonical :=
  h.performHere.carry
theorem State.Canonical.inject {a : Acc} (h : s.Canonical) : (s.inject a kind line ws cls).2.Canonical := by
  unfold State.inject
  split
  next id named e =>
  extract_lets at' pers r quiet entered dropped
  have he : entered.Canonical := (h.newId.of_snd_eq e :)
  have hd : dropped.Canonical := .ite (.foldl he.dropUntracked fun _ _ h => .ite h.l1GiveUp.setDir h) he
  exact .ite hd.push hd
theorem State.Canonical.pass {acc : Acc} {wait : List Nat} {es : List Elem} (h : s.Canonical) : (s.pass acc wait es).1.Canonical := by
  induction es generalizing s wait with
  | nil => exact h
  | cons e t ih =>
    unfold State.pass
    extract_lets keep kind now lost
    have hk : ∀ b, (keep b).1.Canonical := fun _ => ih h
    exact .iteFst (ih h) (.iteFst (hk _) (.iteFst (hk _) (.iteFst (ih h.perform) (hk _))))
theorem State.Canonical.sendLine {a : Acc} {es : List (Elem × Bool)} (h : s.Canonical) : (s.sendLine a line es).1.Canonical := by
  unfold State.sendLine
  dsimp only
  refine .iteFst h ?_
  split
  · exact h
  · exact .foldlFst h fun _ _ h => h.inject
theorem State.Canonical.advance (h : s.Canonical) : (s.advance id).Canonical := by
  unfold State.advance
  split
  · exact h
  · exact .updAcc (.foldlFst h.pass fun _ _ h => h.sendLine)
theorem State.Canonical.kick (h : s.Canonical) : (s.kick core).Canonical := .foldl h fun _ _ h => .ite h.pushOnce h
theorem State.Canonical.endPend {ws : List Wr} (h : s.Canonical) : (s.endPend ck id ws).Canonical := by
  unfold State.endPend
  split
  · exact h
  · exact h.writeAll.updCtx.flagDown
theorem State.Canonical.complete (h : s.Canonical) : (s.complete id).Canonical := by
  unfold State.complete
  split
  · exact h
  · extract_lets all head freed counted ended
    have he : ended.Canonical := .ite (.updAcc (.ite h.endPend.updCtx h.endPend)) h
    exact .ite (.kick he) he
theorem State.Canonical.zTrap {a : Acc} {lanes : Lanes} {deferred : Bool} (h : s.Canonical) : (s.zTrap a lanes deferred).Canonical := by
  unfold State.zTrap
  dsimp only
  split
  · exact h
  · exact .trap (.ite h.updFront h)
theorem State.Canonical.zFaultAcc {r : Req} (h : s.Canonical) : (s.zFaultAcc r k).Canonical := by
  unfold State.zFaultAcc
  split
  · exact h
  · exact .kick (.pushOnce (.ite h.updAcc h.updAcc.zTrap.zTrap))
theorem State.Canonical.zFault {r : Req} (h : s.Canonical) : (s.zFault r).Canonical := .foldl (.of_mem_eq h rfl) fun _ _ h => h.zFaultAcc
theorem State.Canonical.install {st : L1St} (h : s.Canonical) : (s.install core w st cls stamp).Canonical := by
  unfold State.install
  split
  · exact h
  · exact .ite h h.setL1
theorem State.Canonical.wakeReqs (h : s.Canonical) : (s.wakeReqs line).Canonical := .foldl h fun _ _ h => .ite h (.ite h.pushOnce (.ite h.pushOnce h))
theorem State.Canonical.performReq {r : Req} {home : Bool} {p : State → Elem → Bool} (h : s.Canonical) : (s.performReq r home p k).Canonical := by
  unfold State.performReq
  split
  · exact h
  · exact .kick (.pushOnce (.updAcc (.foldlFst h fun _ _ h => .iteFst h.perform h)))
theorem State.Canonical.finishReq {r : Req} {home : Bool} (h : s.Canonical) : (s.finishReq r home).Canonical :=
  .foldl (.kick (.foldl (.of_mem_eq (.foldl h fun _ _ h => .ite h.setDir h) rfl) fun _ _ h => h.performReq.updAcc)) fun _ _ h => h.wakeReqs
theorem State.Canonical.unheld {r : Req} (h : s.Canonical) : (s.unheld r).Canonical := .ite h (.foldl h fun _ _ h => .ite h h.setDir)
theorem State.Canonical.fill {r : Req} (h : s.Canonical) : (s.fill r).Canonical := .foldl h fun _ _ h => h.install
theorem State.Canonical.grant {r : Req} (h : s.Canonical) : (s.grant r).Canonical := .ite h.fill.finishReq.unheld h.fill.finishReq
theorem State.Canonical.snoop {r : Req} {x : L1Word} (h : s.Canonical) : (s.snoop r w core x).Canonical := by
  have hc : ((s.setL1 core w {}).clearResv core r.line).Canonical := h.setL1.clearResv
  unfold State.snoop
  split
  · refine .ite ?_ (.ite hc h)
    dsimp only
    split
    · exact hc.setL1
    · exact .setDir (.ite hc.writeBack hc)
  · exact .ite h.l1GiveUp.setDir h
  · exact .ite h.l1GiveUp.setDir (.ite hc h)
  · exact .ite h.l1GiveUp.setDir (.ite hc h)
  · exact h
theorem State.Canonical.snoopAll {r : Req} (h : s.Canonical) : (s.snoopAll r).Canonical := .foldl h fun _ _ h => .foldl h fun _ _ h => .ite h.snoop h
theorem State.Canonical.shareIn {r : Req} {need : List Nat} (h : s.Canonical) : (s.shareIn r need).Canonical := .ite (.foldl h fun _ _ h => h.install) h
theorem State.Canonical.announce {r : Req} (h : s.Canonical) : (s.announce r).Canonical := by
  unfold State.announce
  extract_lets snooped need shared waiting lost served
  have hs : shared.Canonical := h.snoopAll.shareIn
  exact .ite hs.grant (.push (.ite (.foldl hs.updReq fun _ _ h => h.performReq) hs.updReq))
theorem State.Canonical.llcEvict (h : s.Canonical) : (s.llcEvict line).Canonical := by
  refine .ite h (.foldl h fun _ _ h => ?_)
  refine .setDir ?_
  split
  · exact .foldl h fun _ _ h => h.holderGiveUp
  · exact h.holderGiveUp
  · exact h
theorem State.Canonical.llcUse {pers : Bool} (h : s.Canonical) : (s.llcUse line pers).Canonical := by
  unfold State.llcUse
  dsimp only
  refine .ite h ?_
  split
  · exact .of_mem_eq h rfl
  · exact .of_mem_eq (.foldl h fun _ _ h => h.llcEvict) rfl
theorem State.Canonical.llcDrop {p : Nat → Bool} (h : s.Canonical) : (s.llcDrop p).Canonical := .of_mem_eq (.foldl h fun _ _ h => .ite h.llcEvict h) rfl
theorem State.Canonical.llcUseWords {pers : Bool} (h : s.Canonical) : (s.llcUseWords core ws pers).Canonical := .foldl h fun _ _ h => h.llcUse
theorem State.Canonical.hostAgain {what : Instr} (h : s.Canonical) : (s.hostAgain what ws).Canonical := h
theorem State.Canonical.homeServe {served : State → Req → State} (h : s.Canonical) (hs : ∀ t r, t.Canonical → (served t r).Canonical) :
    (s.homeServe id served).Canonical := by
  unfold State.homeServe
  split
  · exact h
  · refine .ite (.foldl (.zFault (.foldl h.newId.updReq fun _ _ h => .ite h.setDir h)) fun _ _ h => h.wakeReqs) (.ite h.newId.updReq (.ite ?_ ?_))
    · exact hs _ _ h.newId.updReq.llcUseWords
    · exact .foldl (.updReq (.foldl h.newId.updReq fun _ _ h => h.setDir)) fun _ _ h => h.pushOnce
theorem State.Canonical.afterServe {r : Req} (h : s.Canonical) : (s.afterServe r).Canonical := .ite h (.foldl h fun _ _ h => h.setDir)
theorem State.Canonical.homeNow {r : Req} (h : s.Canonical) : (s.homeNow r).Canonical :=
  .afterServe (.ite h.llcUseWords (.foldl h.llcUseWords fun _ _ h => .foldl h fun _ _ h => h.holderGiveUp))
theorem State.Canonical.obtain {r : Req} (h : s.Canonical) : (s.obtain r).Canonical := by
  unfold State.obtain
  split
  next id named e =>
  extract_lets q snooped q' served
  have hn : named.Canonical := h.newId.of_snd_eq e
  have hs : served.Canonical := .homeNow (.shareIn (.ite hn hn.snoopAll))
  split
  · exact hs.fill
  · exact hs.fill
  · exact hs.fill.unheld
  · exact hs
theorem State.Canonical.coreRead {pol : Policy} {p : Place} {bs : List Byte} (h : s.Canonical) (e : s.coreRead core pol p n = some (bs, t)) : t.Canonical := by
  unfold State.coreRead at e
  split at e
  · cases e; exact h
  · dsimp only at e
    split at e
    · cases e
    · split at e
      · cases e; exact h
      · cases e; exact h.obtain
theorem State.Canonical.coreWrite {pol : Policy} {p : Place} {bs : List Byte} (h : s.Canonical) (e : s.coreWrite core pol p bs = some t) : t.Canonical := by
  unfold State.coreWrite at e
  split at e
  · cases e; exact h.setCistBytes
  · dsimp only at e
    split at e
    · cases e
    · split at e
      · cases e; exact .foldl h.l1Store fun _ _ h => h.clearResvOthers
      · cases e; exact .foldl (.ite h.obtain.l1Store h.obtain.storeOwned.updMem.l1Update) fun _ _ h => h.clearResvOthers
theorem State.Canonical.touchVa (h : s.Canonical) : (s.touchVa ck va).Canonical := by
  unfold State.touchVa
  split
  · exact h.touchTlb
  · split
    · exact h.touchTlb
    · exact h
  · exact h
theorem State.Canonical.startAccess {sump : Bool} {es : List Elem} (h : s.Canonical) : (s.startAccess i pol scope isLoad sump es).2.Canonical := by
  unfold State.startAccess
  split
  next id named e =>
  extract_lets core lanes seqs a entered touched
  have ht : touched.Canonical := .foldl (s := entered) (h.newId.of_snd_eq e :) fun _ _ h => h.touchVa
  exact .iteSnd ht.updCtx ht.push
theorem State.Canonical.arrived {some' : Bool} (h : s.Canonical) : (s.arrived some').Canonical := .ite h.newId h
theorem State.Canonical.accessEff {sump : Bool} {k : Lookup} (h : s.Canonical) : (Machine.accessEff i s pol scope isLoad sump k).st.Canonical := by
  unfold Machine.accessEff
  extract_lets met
  have hm : met.Canonical := .foldl h.arrived fun _ _ h => h.pushOnce
  exact .iteEff hm hm.startAccess

/-! ## What the engines share, and tile accesses (Machine/Engine.lean) -/

theorem State.Canonical.fetchRead (h : s.Canonical) : (s.fetchRead core pa cls n).2.Canonical :=
  .iteSnd h.llcUse.homeRead (.foldl h.llcUse fun _ _ h => .foldl h fun _ _ h => .ite h.l1GiveUp h)
theorem State.Canonical.readPieces {pol : Policy} {ps : List Piece} {bs : List Byte} (h : s.Canonical) (e : s.readPieces core pol ps = some (bs, t)) :
    t.Canonical := by
  induction ps generalizing s bs with
  | nil => cases e; exact h
  | cons p ps ih =>
    unfold State.readPieces at e
    split at e
    · cases e
    · next hr =>
      obtain ⟨⟨l, v⟩, hv, he⟩ := Option.map_eq_some_iff.mp e
      cases he
      exact ih (h.coreRead hr) hv
theorem State.Canonical.writePieces {pol : Policy} {ps : List Piece} {bs : List Byte} (h : s.Canonical) (e : s.writePieces core pol bs ps = some t) :
    t.Canonical := by
  induction ps generalizing s with
  | nil => cases e; exact h
  | cons p ps ih =>
    unfold State.writePieces at e
    split at e
    · cases e
    · next hw => exact ih (h.coreWrite hw) e
theorem State.Canonical.spoilAcc (h : s.Canonical) : (s.spoilAcc wk ac).Canonical := .foldl h fun _ _ h => h
theorem State.Canonical.spoilTile {t : Nat} (h : s.Canonical) : (s.spoilTile wk t).Canonical := h
theorem State.Canonical.spoilScl {t : Nat} (h : s.Canonical) : (s.spoilScl wk t).Canonical := h
theorem State.Canonical.taintAcc (h : s.Canonical) : (s.taintAcc ck ac).Canonical := .ite h.updWg.spoilAcc h.updWg
theorem State.Canonical.taintTile {t : Nat} (h : s.Canonical) : (s.taintTile ck t).Canonical := .ite h (.spoilTile (.foldl h.updWg fun _ _ h => h.spoilAcc))
theorem State.Canonical.writeTile {t : Nat} {off : Nat} (h : s.Canonical) : (s.writeTile wk t off bs who id).Canonical := h
theorem State.Canonical.snapTile {t : Nat} {snap : Tab Byte} (h : s.Canonical) : (s.snapTile wk role t snap).2.Canonical := .foldlSnd h fun _ _ h => h
theorem State.Canonical.updJob {f : JobRec → JobRec} (h : s.Canonical) : (s.updJob id f).Canonical := h
theorem State.Canonical.startJob {job : Job} (h : s.Canonical) : (s.startJob i act job).2.Canonical := h
theorem State.Canonical.endJob {ws : List Wr} (h : s.Canonical) : (s.endJob id ws).Canonical := by
  unfold State.endJob
  split
  · exact h
  · exact .kick (.endPend (.of_mem_eq h rfl))
theorem State.Canonical.jobTrap {addr : DWord} (h : s.Canonical) : (s.jobTrap j cause detail addr).Canonical := by
  unfold State.jobTrap
  extract_lets level fr live still fire
  have hf : ∀ t lanes deferred, t.Canonical → (fire t lanes deferred).Canonical := fun _ _ _ h => .ite h h.trap
  exact hf _ _ _ (hf _ _ _ h)
theorem engStop_canonical {α : Type} {r : RowStop} : EngM.Canonical (engStop (α := α) r) := .throw trivial
theorem engGet_canonical {pol : Policy} {va : DWord} : EngM.Canonical (engGet ck pol va n) := by
  intro s h
  unfold engGet
  dsimp only
  split
  · split
    · next hr => exact .ok (State.Canonical.readPieces (.foldl h fun _ _ h => h.touchVa) hr)
    · exact .error trivial
  · exact .error trivial
theorem engPut_canonical {pol : Policy} {va : DWord} {bs : List Byte} : EngM.Canonical (engPut ck pol va bs) := by
  intro s h
  unfold engPut
  dsimp only
  split
  · split
    · next hw => exact .ok (State.Canonical.writePieces (.foldl h fun _ _ h => h.touchVa) hw)
    · exact .error trivial
  · exact .error trivial
theorem State.Canonical.tldRow {j : JobRec} {tile : Fin 8} {addr : DWord} {stride rows rb row : Nat} {spoiled : Bool} {pol : Policy} (h : s.Canonical) :
    (s.tldRow j tile addr stride rows rb row spoiled pol).Canonical := by
  unfold State.tldRow
  extract_lets wk src ps blocks
  split
  · exact h
  · exact h.pushOnce
  · exact h.spoilTile.spoilScl.jobTrap.endJob
  · split
    · exact h
    · next hr =>
      extract_lets spoiled tainted written scaled
      have hw : written.Canonical := State.Canonical.writeTile (.taintTile (.readPieces (.foldl h fun _ _ h => h.touchVa) hr))
      have hs : scaled.Canonical := .foldl hw fun _ _ h => by
        dsimp only
        split
        · exact h
        · exact h
      exact .ite hs.updJob.push (.endJob (.ite hs.spoilTile hs))
theorem State.Canonical.tstBytes {src : TstSrc} (h : s.Canonical) : (s.tstBytes ck src n).2.Canonical := by
  unfold State.tstBytes
  split
  · exact .iteSnd h.freeBytes h
  · exact .iteSnd h.freeBytes h
theorem State.Canonical.tstRow {j : JobRec} {data : List Byte} {addr : DWord} {stride rows rb row : Nat} {pol : Policy} (h : s.Canonical) :
    (s.tstRow j data addr stride rows rb row pol).Canonical := by
  unfold State.tstRow
  dsimp only
  split
  · exact h
  · exact h.pushOnce
  · exact h.jobTrap.endJob
  · split
    · exact h
    · next hw =>
      have ht := State.Canonical.writePieces (.foldl h fun _ _ h => h.touchVa) hw
      exact .ite ht.updJob.push ht.endJob
theorem State.Canonical.runTile {fuel : Nat} (h : s.Canonical) : (s.runTile id fuel).Canonical := by
  induction fuel generalizing s with
  | zero => exact h
  | succ n ih =>
    unfold State.runTile
    split
    · next j _ =>
      have ht : (match j.job with
          | .tld t addr stride rows rb row sp pol => s.tldRow j t addr stride rows rb row sp pol
          | .tst src addr stride rows rb row pol => s.tstRow j src addr stride rows rb row pol
          | _ => s).Canonical := by
        split
        · exact h.tldRow
        · exact h.tstRow
        · exact h
      exact .ite ht (ih ht)
    · exact h
theorem State.Canonical.twaitDone {waits : List Nat} (h : s.Canonical) : (s.twaitDone j ac waits).Canonical := h

/-! ## Streams and descriptors (Machine/Reads.lean) -/

theorem State.Canonical.setStream {x : Stream} (h : s.Canonical) : (s.setStream ck q x).Canonical := h
theorem strGet_canonical {align : Nat} : EngM.Canonical (strGet ck pol va n align) := by
  unfold strGet
  split
  · exact engStop_canonical
  · exact engGet_canonical
theorem strWord_canonical : EngM.Canonical (strWord ck pol va) := .bind strGet_canonical fun _ => .pure
theorem malformed_canonical {α : Type} {b : Bool} {lev : Nat} : EngM.Canonical (malformed (α := α) q b lev va) := engStop_canonical
theorem badState_canonical {α : Type} : EngM.Canonical (badState (α := α) q va) := engStop_canonical
theorem readDesc_canonical : EngM.Canonical (readDesc ck q pol va) := .bind strGet_canonical fun _ => .ite .pure badState_canonical
theorem scanBits_canonical {crd : DWord} {first cur : Nat} {words : List Nat} : EngM.Canonical (scanBits ck pol crd first cur words) := by
  induction words with
  | nil => exact .pure
  | cons j t ih =>
    refine .bind strGet_canonical fun _ => ?_
    dsimp only
    split
    · exact .pure
    · exact ih
theorem peekElt_canonical {x : Stream} {b : Bool} : EngM.Canonical (peekElt ck q x b) := by
  unfold peekElt
  extract_lets f p cur par lev spec word check
  have hw : ∀ a n, EngM.Canonical (word a n) := fun _ _ => .bind strWord_canonical fun _ => .pure
  have hc : ∀ e, EngM.Canonical (check e) := fun e => match e with
    | none => .pure
    | some _ => .ite malformed_canonical .pure
  split
  · exact .bind .pure hc
  · exact .ite (.bind (hw _ _) hc) (.bind .pure hc)
  · exact .ite (.bind (hw _ _) hc) (.bind .pure hc)
  · refine .bind scanBits_canonical fun _ => ?_
    split
    · exact .bind .pure hc
    · exact .bind .pure hc
theorem meetNext_canonical {x : Stream} : EngM.Canonical (meetNext ck q x) := by
  refine .get_bind fun _ _ => .ite .pure (.bind peekElt_canonical fun _ => .bind peekElt_canonical fun _ => ?_)
  split
  · exact .ite .pure (.ite .pure .pure)
  · exact .pure
theorem nextItem_canonical {x : Stream} : EngM.Canonical (nextItem ck q x) := by
  refine .ite .pure ?_
  split
  · exact meetNext_canonical
  · refine .bind peekElt_canonical fun _ => .bind peekElt_canonical fun _ => ?_
    split
    · exact .pure
    · exact .pure
    · exact .pure
    · exact .ite .pure (.ite .pure .pure)
  · refine .bind peekElt_canonical fun _ => ?_
    split
    · exact .pure
    · exact .pure
theorem openFibre_canonical {desc : DWord} {par lev : Nat} {x : Stream} : EngM.Canonical (openFibre ck q desc par lev x) := by
  refine .bind readDesc_canonical fun _ => .iteThen badState_canonical fun _ => ?_
  dsimp only
  split
  · exact .iteThen malformed_canonical fun _ => .pure
  · exact .pure
  · exact .bind strWord_canonical fun _ => .bind strWord_canonical fun _ => .iteThen malformed_canonical fun _ => .pure
theorem openStream_canonical {desc : DWord} {par lev : Nat} : EngM.Canonical (openStream ck q desc par lev pol scope) :=
  .bind openFibre_canonical fun _ => .modify fun _ h => h.setStream
theorem skipTo_canonical {b : Bool} {x : Stream} : EngM.Canonical (skipTo ck q b k x fuel) := by
  induction fuel generalizing x with
  | zero => exact engStop_canonical
  | succ n ih =>
    refine .ite .pure (.bind peekElt_canonical fun _ => ?_)
    split
    · exact .pure
    · exact .ite .pure ih
theorem skipStream_canonical : EngM.Canonical (skipStream ck q k) :=
  .get_bind fun _ _ => .iteThen badState_canonical fun _ => .iteThen badState_canonical fun _ => .bind skipTo_canonical fun (_, _) =>
    .iteJoin skipTo_canonical .pure fun (_, _) => .modify fun _ h => h.setStream
theorem saveStream_canonical : EngM.Canonical (saveStream ck q pol va) := by
  unfold saveStream
  split
  · exact engStop_canonical
  · exact .get_bind fun _ _ => engPut_canonical
theorem restFibre_canonical {b : Bool} {x : Stream} : EngM.Canonical (restFibre ck q b x va) :=
  .bind readDesc_canonical fun _ => .ite badState_canonical <| .ite badState_canonical <| .ite (.bind strWord_canonical fun _ => .pure) .pure
theorem restStream_canonical : EngM.Canonical (restStream ck q pol va) :=
  .bind strGet_canonical fun _ => .iteThen badState_canonical fun _ => .iteJoin .pure restFibre_canonical fun _ =>
    .iteJoin restFibre_canonical .pure fun _ => .modify fun _ h => h.setStream
theorem readColl_canonical {op : CollOp} {es : Nat} : EngM.Canonical (readColl ck va op es) := by
  unfold readColl
  extract_lets rest
  have hr : ∀ u, EngM.Canonical (rest u) := by
    intro _
    refine .bind engGet_canonical fun b => ?_
    extract_lets d counts
    have hc : ∀ u, EngM.Canonical (counts u) := fun _ => .ite (.bind engGet_canonical fun _ => .ite engStop_canonical .pure) .pure
    split
    · exact .bind engStop_canonical hc
    · exact hc ()
  split
  · exact .bind engStop_canonical hr
  · exact hr ()

/-! ## The issue slot, and what is due (Machine/Issue.lean) -/

theorem State.Canonical.settleFences (h : s.Canonical) : s.settleFences.Canonical :=
  .foldl h fun _ (_, _) h => .foldl h fun _ _ h => by
    extract_lets done fenced published
    have hf : fenced.Canonical := .ite h.updCtx h.updCtx.acquire
    have hp : published.Canonical := .ite hf (.ite (.ite hf hf.learn) (.publish (.ite hf hf.learn)))
    exact .ite h (.ite hp.kick h.updCtx)
theorem State.Canonical.picked (h : s.Canonical) : (s.picked ck level).Canonical := .ite h.updFront (.ite h.updFront.updCore h.updFront.updCore.updWg)
theorem State.Canonical.breakChain (h : s.Canonical) : (s.breakChain ck level).Canonical := h
theorem State.Canonical.askToken (h : s.Canonical) : (s.askToken wk).Canonical := .ite h (.pushOnce (.updWg (.of_mem_eq h rfl)))
theorem State.Canonical.react {k : Look} (h : s.Canonical) : (s.react ck level k).Canonical := by
  unfold State.react
  extract_lets t
  have ht : t.Canonical := .ite h.breakChain h
  clear_value t
  cases k with
  | fetch => exact ht.pushOnce
  | switch => exact .updFront (.updCtx ht)
  | trap => exact ht.trapAt
  | page => exact .pushOnce (.updCtx (.updFront ht.arrived))
  | hold why =>
    cases why with
    | token => exact ht.askToken
    | _ => exact ht
  | _ => exact ht
theorem State.Canonical.flushOlder {e : Elem} {every : Bool} (h : s.Canonical) : (s.flushOlder ck e bound every).Canonical :=
  .foldl h fun _ _ h => .ite (.ite h (.pushOnce (.updAcc (.foldlFst h fun _ _ h => .iteFst h.perform h)))) h
theorem State.Canonical.fillLatch {got : List Byte} (h : s.Canonical) : (s.fillLatch ck id lane got).Canonical := h
theorem State.Canonical.flushJobs {e : Elem} (h : s.Canonical) : (s.flushJobs ck e bound).Canonical := .foldl h fun _ _ h => .ite h.runTile h
theorem State.Canonical.cistApply {e : Elem} (h : s.Canonical) : (s.cistApply ck e).2.Canonical := by
  unfold State.cistApply
  split
  · refine .carry ?_
    split
    · exact h.setCistBytes
    · exact h
  · exact h
theorem State.Canonical.flushPends {e : Elem} (h : s.Canonical) : (s.flushPends ck e).Canonical :=
  .ite h (.updCtx (.foldlFst h fun _ _ h => .iteFst (.foldlFst h fun _ _ h => .iteFst h.cistApply h) h))
theorem State.Canonical.settlePend {p : Pend} (h : s.Canonical) : (s.settlePend ck p).Canonical :=
  .flagDown (.writeAll (.foldl h fun _ _ h => .fillLatch (.writeAll (.iteSnd h h.flushJobs.flushOlder.cistApply))))
theorem State.Canonical.settle (h : s.Canonical) : (s.settle ck).Canonical := .ite h (.kick (.foldl h.updCtx fun _ _ h => h.settlePend))
theorem State.Canonical.pushEach {what : Instr} {l : List Args} (h : s.Canonical) : (s.pushEach what l).Canonical := .foldl h fun _ _ h => h.pushOnce
theorem State.Canonical.timeCores (h : s.Canonical) : s.timeCores.Canonical := by
  unfold State.timeCores
  extract_lets ctxs cores reqs jobs copies
  have hx : ctxs.Canonical := .foldl h fun _ _ h => by
    split
    extract_lets now settled turned
    have hs : settled.Canonical := .ite h.pushOnce h
    have ht : turned.Canonical := .ite hs.pushOnce hs
    split
    · exact .ite ht.pushOnce ht
    · exact .ite ht ht.pushOnce
  have hc : cores.Canonical := .foldl hx fun _ _ h => by
    split
    extract_lets closed
    have hs : closed.Canonical := .ite h.pushOnce h
    split
    · exact .ite hs.pushOnce hs
    · exact .ite hs.pushOnce.pushOnce hs
  have hr : reqs.Canonical := .foldl hc fun _ _ h => .ite h h.pushOnce
  exact .foldl (.foldl hr.pushEach fun _ _ h => .ite h h.pushOnce) fun _ _ h => h.pushOnce
theorem State.Canonical.timeGrids (h : s.Canonical) : s.timeGrids.Canonical := by
  unfold State.timeGrids
  extract_lets done retired offered together leaving groups restored services formats tokens refilled
  have ho : offered.Canonical := .foldl h.pushEach.pushEach fun _ _ h => .ite h (.pushEach (.pushEach (.pushOnce (.ite h.pushOnce h))))
  have hr : restored.Canonical := .pushEach (.pushEach (.pushEach (.foldl ho fun _ _ h => .pushOnce (.ite h.pushOnce h))))
  have hs : services.Canonical := .foldl hr fun _ _ h => by
    split
    extract_lets pages opens roots quiet
    have hp : pages.Canonical := .foldl h fun _ _ h => h.pushOnce
    have ho : opens.Canonical := .ite hp hp.pushOnce
    have hr : roots.Canonical := .ite ho ho.pushOnce
    have hq : quiet.Canonical := .ite hr.pushOnce hr
    exact .ite hq.pushOnce hq
  have ht : tokens.Canonical := .ite hs.pushEach hs.pushEach.pushOnce
  have hf : refilled.Canonical := .ite ht.pushOnce ht
  exact .ite hf.pushOnce hf
theorem State.Canonical.timers (h : s.Canonical) : s.timers.Canonical := h.timeCores.timeGrids
theorem State.Canonical.tick (h : s.Canonical) : s.tick.Canonical := .timers (.of_mem_eq (.foldl h fun _ _ h => h.updCtx) rfl)
theorem State.Canonical.issueCycle (h : s.Canonical) : (Machine.issueCycle s).Canonical := by
  unfold Machine.issueCycle
  extract_lets t u
  have hu : u.Canonical := State.Canonical.settleFences (s := t) h
  refine .ite (s := t) h ?_
  clear_value u
  split
  · exact hu.react
  · exact .setIssue (.touchTlb (.picked hu.settle))
  · exact hu.tick

/-! ## Floating point (Machine/Floating.lean) -/

theorem State.Canonical.fpTwo {x : FpR} {f : FpCtl → Nat → Nat → Nat × Fl} (h : s.Canonical) : (Machine.fpTwo x f s).Canonical := .issueForm h fun _ _ _ h => h
theorem State.Canonical.fpThree {x : FpR} {f : FpCtl → Nat → Nat → Nat → Nat × Fl} (h : s.Canonical) : (Machine.fpThree x f s).Canonical :=
  .issueForm h fun _ _ _ h => h
theorem State.Canonical.fpImm {x : FpX} {f : FpCtl → Nat → Nat → Nat × Fl} (h : s.Canonical) : (Machine.fpImm x f s).Canonical := .issueForm h fun _ _ _ h => h
theorem State.Canonical.fpMinMax {x : FpM} {isMax : Bool} (h : s.Canonical) : (Machine.fpMinMax x isMax s).Canonical := .issueForm h fun _ _ _ h => h
theorem State.Canonical.fpOne {hdr : Hdr} {rm : RmSel} {d : Reg} {a : Reg} {f : FpCtl → Nat → Nat × Fl}
    (h : s.Canonical) : (Machine.fpOne hdr rm d a lat f s).Canonical :=
  .issueForm h fun _ _ _ h => h
theorem State.Canonical.execFcmp {x : FcmpF} (h : s.Canonical) : (Machine.execFcmp x s).Canonical := .issueForm h fun _ _ _ h => h

/-! ## Integers (Machine/Integer.lean) -/

theorem State.Canonical.intRegs {x : IntR} {wideB readD : Bool} {f : Nat → Nat → Nat → Nat → Nat}
    (h : s.Canonical) : (Machine.intRegs x wideB readD f s).Canonical := by
  unfold Machine.intRegs
  exact .issueForm h fun _ _ _ h => h
theorem State.Canonical.intImm {x : IntX} {wideB readD : Bool} {f : Nat → Nat → Nat → Nat → Nat}
    (h : s.Canonical) : (Machine.intImm x wideB readD f s).Canonical := by
  unfold Machine.intImm
  exact .issueForm h fun _ _ _ h => h
theorem State.Canonical.intOne {x : IntU} {wideD : Bool} {f : Nat → Nat → Nat} (h : s.Canonical) : (Machine.intOne x wideD f s).Canonical := by
  unfold Machine.intOne
  exact .issueForm h fun _ _ _ h => h
theorem State.Canonical.execLea {x : LeaF} (h : s.Canonical) : (Machine.execLea x s).Canonical := .issueForm h fun _ _ _ h => h
theorem State.Canonical.execIcmp {x : IcmpF} (h : s.Canonical) : (Machine.execIcmp x s).Canonical := by
  unfold Machine.execIcmp
  exact .issueForm h fun _ _ _ h => h
theorem State.Canonical.execIcmpX {x : IcmpX} (h : s.Canonical) : (Machine.execIcmpX x s).Canonical := by
  unfold Machine.execIcmpX
  exact .issueForm h fun _ _ _ h => h
theorem State.Canonical.execSel {x : SelF} (h : s.Canonical) : (Machine.execSel x s).Canonical := by
  unfold Machine.execSel
  exact .issueForm h fun _ _ _ h => h
theorem State.Canonical.execMovi {x : MoviF} (h : s.Canonical) : (Machine.execMovi x s).Canonical := .issueForm h fun _ _ _ h => h
theorem State.Canonical.execMoviX {x : MoviX} (h : s.Canonical) : (Machine.execMoviX x s).Canonical := .issueForm h fun _ _ _ h => h

/-! ## Moves, lane exchange and system registers (Machine/Move.lean) -/

theorem State.Canonical.execMov {x : MovF} (h : s.Canonical) : (Machine.execMov x s).Canonical := .issueForm h fun _ _ _ h => h
theorem State.Canonical.execMovs {x : MovF} (h : s.Canonical) : (Machine.execMovs x s).Canonical := .issueForm h fun _ _ _ h => h
theorem State.Canonical.execQpack {x : FpR} (h : s.Canonical) : (Machine.execQpack x s).Canonical := .issueForm h fun _ _ _ h => h
theorem State.Canonical.execQunpk {x : FpR} (h : s.Canonical) : (Machine.execQunpk x s).Canonical := .issueForm h fun _ _ _ h => h
theorem State.Canonical.execShfl {x : ShflF} (h : s.Canonical) : (Machine.execShfl x s).Canonical := .issueForm h fun _ _ _ h => h
theorem State.Canonical.execVote {x : VoteF} (h : s.Canonical) : (Machine.execVote x s).Canonical := .issueForm h fun _ _ _ h => h
theorem State.Canonical.reduce {x : RedF} {scan : Bool} (h : s.Canonical) : (Machine.reduce x opc scan s).Canonical := by
  unfold Machine.reduce
  exact .issueForm h fun _ _ _ h => h
theorem State.Canonical.execRdsr {x : RdsrF} (h : s.Canonical) : (Machine.execRdsr x s).Canonical := by
  unfold Machine.execRdsr
  refine .issueFormS h fun _ _ _ h => .iteEff h ?_
  split
  · exact .iteEff h h
  · exact .iteEff h.learn h
  · exact h
theorem State.Canonical.sysWrite {r : SysReg} (h : s.Canonical) (e : Machine.sysWrite s i r v = some t) : t.Canonical := by
  unfold Machine.sysWrite at e
  dsimp only at e
  split at e
  · split at e <;> cases e
    exact h.updCtx
  · split at e <;> cases e
    exact h.updCtx
  · split at e <;> cases e
    exact h.updCtx
  · split at e <;> cases e
    exact h.updWg
  · cases e
    exact h
theorem State.Canonical.execWrsr {x : WrsrF} (h : s.Canonical) : (Machine.execWrsr x s).Canonical := by
  unfold Machine.execWrsr
  refine .issueFormS h fun _ _ _ h => .iteEff h (.iteEff h ?_)
  split
  · exact h
  · next e => exact h.sysWrite e
theorem State.Canonical.execMovts {x : MovtsF} (h : s.Canonical) : (Machine.execMovts x s).Canonical :=
  .issueForm h fun _ _ _ h => .iteEff h (.iteEff h.updWg h)

/-! ## Control (Machine/Control.lean) -/

theorem Out.Canonical.andThen {o : Out} {f : State → State} (ho : o.Canonical) (hf : ∀ t, t.Canonical → (f t).Canonical) : (o.andThen f).Canonical := by
  cases o with
  | next s => exact .next (hf s (ho s rfl))
  | fault => exact .fault
  | refused => exact .refused
theorem State.Canonical.syncSettle1 (h : s.Canonical) : (s.syncSettle1 ck scope).Canonical :=
  .ite h (.wakeAll (.learnAll (.foldl (.foldl h fun _ _ h => h.updCtx) fun _ _ h => h.acquire)))
theorem State.Canonical.syncSettle (h : s.Canonical) : (s.syncSettle ck).Canonical :=
  .ite (.foldl h fun _ _ h => h.syncSettle1) (.foldl h fun _ _ h => h.syncSettle1)
theorem State.Canonical.execNop {x : Plain} (h : s.Canonical) : (Machine.execNop x s).Canonical := .issueForm h fun _ _ _ h => h
theorem State.Canonical.execBra {x : BraF} (h : s.Canonical) : (Machine.execBra x s).Canonical := .issueForm h fun _ _ _ h => h
theorem State.Canonical.execBraX {x : BraX} (h : s.Canonical) : (Machine.execBraX x s).Canonical := .issueForm h fun _ _ _ h => h
theorem State.Canonical.execBrx {x : JumpF} (h : s.Canonical) : (Machine.execBrx x s).Canonical := .issueForm h fun _ _ _ h => h
theorem State.Canonical.execCall {x : BraF} (h : s.Canonical) : (Machine.execCall x s).Canonical := .issueFormS h fun _ _ _ h => h
theorem State.Canonical.execCallX {x : CallX} (h : s.Canonical) : (Machine.execCallX x s).Canonical := .issueForm h fun _ _ _ h => h
theorem State.Canonical.execCallx {x : CallxF} (h : s.Canonical) : (Machine.execCallx x s).Canonical := .issueForm h fun _ _ _ h => h
theorem State.Canonical.execRet {x : JumpF} (h : s.Canonical) : (Machine.execRet x s).Canonical := .issueForm h fun _ _ _ h => h
theorem State.Canonical.execLand {x : Plain} (h : s.Canonical) : (Machine.execLand x s).Canonical := .issueForm h fun _ _ _ h => h
theorem State.Canonical.execExit {x : Plain} (h : s.Canonical) : (Machine.execExit x s).Canonical := by
  refine .andThen (.issueForm h fun _ _ _ h => .ite (.updWg (.ite h h.publish)) (.ite h h.publish)) fun _ h => ?_
  split
  · exact h.syncSettle
  · exact h
theorem State.Canonical.execYield {x : Plain} (h : s.Canonical) : (Machine.execYield x s).Canonical := .issueForm h fun _ _ _ h => h
theorem State.Canonical.execDqpush {x : JumpF} (h : s.Canonical) : (Machine.execDqpush x s).Canonical := .issueForm h fun _ _ _ h => .ite h h.updWg.publishAt
theorem State.Canonical.execDqpop {x : DestF} (h : s.Canonical) : (Machine.execDqpop x s).Canonical := by
  refine .issueForm h fun _ _ _ h => ?_
  split
  · exact h
  · exact .ite h h.updWg.learnAt
theorem State.Canonical.execTfence {x : Plain} (h : s.Canonical) : (Machine.execTfence x s).Canonical := .issueForm h fun _ _ _ h => .iteEff h (.iteEff h h)

/-! ## Loads, stores and cache instructions (Machine/Memory.lean) -/

theorem State.Canonical.loadForm {hdr : Hdr} {w : Width} {d : Reg} (h : s.Canonical) : (Machine.loadForm hdr pol scope w d addr off s).Canonical :=
  .issueForm h fun _ _ _ h => h.accessEff
theorem State.Canonical.storeForm {hdr : Hdr} {w : Width} {d : Reg} (h : s.Canonical) : (Machine.storeForm hdr pol scope w d addr off s).Canonical :=
  .issueForm h fun _ _ _ h => h.accessEff
theorem State.Canonical.loadF {x : PolMem} {w : Width} (h : s.Canonical) : (Machine.loadF x w s).Canonical := h.loadForm
theorem State.Canonical.loadX {x : PolMemX} {w : Width} (h : s.Canonical) : (Machine.loadX x w s).Canonical := h.loadForm
theorem State.Canonical.storeF {x : PolMem} {w : Width} (h : s.Canonical) : (Machine.storeF x w s).Canonical := h.storeForm
theorem State.Canonical.storeX {x : PolMemX} {w : Width} (h : s.Canonical) : (Machine.storeX x w s).Canonical := h.storeForm
theorem State.Canonical.ldsForm {hdr : Hdr} {w : Width} {d : Reg} {base : Reg} (h : s.Canonical) : (Machine.ldsForm hdr w d base off s).Canonical :=
  .issueForm h fun _ _ _ h => h
theorem State.Canonical.stsForm {hdr : Hdr} {w : Width} {d : Reg} {base : Reg} (h : s.Canonical) : (Machine.stsForm hdr w d base off s).Canonical :=
  .issueForm h fun _ _ _ h => h
theorem State.Canonical.execLdlv {x : LexMem} (h : s.Canonical) : (Machine.execLdlv x s).Canonical := .issueForm h fun _ _ _ h => h.accessEff
theorem State.Canonical.execStlv {x : LexMem} (h : s.Canonical) : (Machine.execStlv x s).Canonical := .issueForm h fun _ _ _ h => h.accessEff
theorem State.Canonical.prefetchForm {hdr : Hdr} (h : s.Canonical) : (Machine.prefetchForm hdr pol scope addr off s).Canonical :=
  .issueForm h fun _ _ _ h => .iteEff h.accessEff (.accessEff (.llcUseWords (.foldl h fun _ _ h => h.touchVa)))
theorem State.Canonical.joinSump1 {x : Nat × Nat} (h : s.Canonical) : (s.joinSump1 core x).Canonical := by
  unfold State.joinSump1
  dsimp only
  split
  · exact .ite (.ite h.updCore.push h.updCore) h.updCore.push
  · exact h.updCore.push
theorem State.Canonical.joinSump (h : s.Canonical) : (s.joinSump core id).Canonical := by
  unfold State.joinSump
  split
  · exact .foldl h fun _ _ h => h.joinSump1
  · exact h
theorem State.Canonical.sumpEff {isLoad : Bool} {k : Lookup} (h : s.Canonical) : (Machine.sumpEff i s pol scope isLoad k).st.Canonical := by
  unfold Machine.sumpEff
  dsimp only
  split
  · exact h.accessEff
  · exact h.accessEff
  · exact h.accessEff.joinSump
theorem State.Canonical.gathForm {hdr : Hdr} {w : Width} {d : Reg} (h : s.Canonical) : (Machine.gathForm hdr pol scope w d addr off s).Canonical :=
  .issueFormS h fun _ _ _ h => h.sumpEff
theorem State.Canonical.scatForm {hdr : Hdr} {w : Width} {d : Reg} (h : s.Canonical) : (Machine.scatForm hdr pol scope w d addr off s).Canonical :=
  .issueFormS h fun _ _ _ h => h.sumpEff
theorem State.Canonical.flushWord (h : s.Canonical) : (s.flushWord core w).Canonical := by
  unfold State.flushWord
  dsimp only
  split
  · exact .ite h.l1GiveUp.setDir h.l1GiveUp
  · exact .ite h.l1GiveUp.setDir h.l1GiveUp
  · refine .ite h.l1GiveUp ?_
    split
    · exact h.l1GiveUp.setDir
    · exact h.l1GiveUp
  · exact h.setL1
  · exact h.setL1
  · exact h
  · exact h
theorem State.Canonical.rangeForm {x : RangeF} {f : State → Nat → Nat → State} (h : s.Canonical) (hf : ∀ t c w, t.Canonical → (f t c w).Canonical) :
    (Machine.rangeForm x opc f s).Canonical := by
  refine .issueForm h fun _ _ _ h => ?_
  split
  · exact .iteEff h (.foldl h fun _ _ => hf _ _ _)
  · exact .accessEff (.foldl h fun _ _ => hf _ _ _)
theorem State.Canonical.execCinv {x : RangeF} (h : s.Canonical) : (Machine.execCinv x s).Canonical := h.rangeForm fun _ _ _ h => .ite h.setL1 h
theorem State.Canonical.execCflush {x : RangeF} (h : s.Canonical) : (Machine.execCflush x s).Canonical := h.rangeForm fun _ _ _ h => h.flushWord
theorem State.Canonical.execFence {x : FenceF} (h : s.Canonical) : (Machine.execFence x s).Canonical := .issueForm h fun _ _ _ h => .iteEff h h.newId.updCtx

/-! ## Full/empty bits, atomics and barriers (Machine/Sync.lean) -/

theorem State.Canonical.feStep {store : Bool} {va : Nat → DWord} {op : Nat → ElemOp} {dst : Reg} {x : FeWork} (h : x.st.Canonical) :
    (Machine.feStep i store va op dst x lane).st.Canonical := by
  unfold Machine.feStep
  split
  · exact h
  · extract_lets word key look e flushed
    have hf : flushed.Canonical := h.flushOlder.flushPends
    split
    · exact h
    · split
      extract_lets written done
      have hw : written.Canonical := by
        unfold written
        split
        · exact hf.setCistBytes
        · exact hf
      exact .wakeWord (.setFe (.carry (.ite hw.publish hw)))
  · exact h
theorem State.Canonical.feSteps {store : Bool} {va : Nat → DWord} {op : Nat → ElemOp} {dst : Reg} {ls : List Nat} (h : s.Canonical) :
    (ls.foldl (Machine.feStep i store va op dst) { st := s }).st.Canonical :=
  List.foldlRecOn (motive := fun w : FeWork => w.st.Canonical) ls _ h fun _ h _ _ => h.feStep
theorem State.Canonical.feEff {sync : Scope} {load : Bool} {x : FeWork} (h : x.st.Canonical) : (Machine.feEff i pol scope sync load x).st.Canonical :=
  .accessEff (.ite h.acquire.learn (.ite h h.publish))
theorem State.Canonical.ldfeForm {hdr : Hdr} {d : Reg} (h : s.Canonical) : (Machine.ldfeForm hdr pol scope d addr off s).Canonical :=
  .issueForm h fun _ _ _ h => .feEff h.feSteps
theorem State.Canonical.stefForm {hdr : Hdr} {d : Reg} (h : s.Canonical) : (Machine.stefForm hdr pol scope d addr off s).Canonical :=
  .issueForm h fun _ _ _ h => .feEff h.feSteps
theorem State.Canonical.execFeset {x : FesetF} (h : s.Canonical) : (Machine.execFeset x s).Canonical := by
  refine .issueForm h fun _ _ _ h => .foldlFst h fun _ _ h => ?_
  split
  · exact h
  · exact .foldl h fun _ _ h => .ite h h.setFe.wakeWord
theorem State.Canonical.atomEff {op : AtomOp} {w : Width} {isLoad : Bool} {d : Reg} {b : Reg}
    (h : s.Canonical) : (Machine.atomEff i act s pol op w scope isLoad d addr b off).st.Canonical := by
  unfold Machine.atomEff
  dsimp only
  split
  · exact h
  · exact h.accessEff
theorem State.Canonical.execAtom {x : AtomX} (h : s.Canonical) : (Machine.execAtom x s).Canonical := .issueForm h fun _ _ _ h => h.atomEff
theorem State.Canonical.execRed {x : RedX} (h : s.Canonical) : (Machine.execRed x s).Canonical := .issueForm h fun _ _ _ h => h.atomEff
theorem State.Canonical.execAtcas {x : AtcasX} (h : s.Canonical) : (Machine.execAtcas x s).Canonical := .issueForm h fun _ _ _ h => h.accessEff
theorem State.Canonical.lrForm {hdr : Hdr} {w : Width} {d : Reg} (h : s.Canonical) : (Machine.lrForm hdr pol scope w d addr off s).Canonical :=
  .issueForm h fun _ _ _ h => .iteEff h h.accessEff
theorem State.Canonical.execSc {x : ScX} (h : s.Canonical) : (Machine.execSc x s).Canonical := .issueForm h fun _ _ _ h => .iteEff h h.accessEff
theorem State.Canonical.bariEff (h : s.Canonical) : (Machine.bariEff i act s n count).st.Canonical := .iteEff h (.iteEff h (.iteEff h h.updWg))
theorem State.Canonical.execBari {x : BariF} (h : s.Canonical) : (Machine.execBari x s).Canonical := .issueForm h fun _ _ _ h => h.bariEff
theorem State.Canonical.execBariX {x : BariX} (h : s.Canonical) : (Machine.execBariX x s).Canonical := .issueForm h fun _ _ _ h => h.bariEff
theorem State.Canonical.arriveEff {drop : Bool} (h : s.Canonical) : (Machine.arriveEff i act s n drop).st.Canonical := by
  refine .iteEff h ?_
  split
  · exact h
  · exact .ite h.updWg.publishAt.wakeBar h.updWg.publishAt
theorem State.Canonical.execBara {x : BarF} (h : s.Canonical) : (Machine.execBara x s).Canonical := .issueForm h fun _ _ _ h => h.arriveEff
theorem State.Canonical.execBarad {x : BarF} (h : s.Canonical) : (Machine.execBarad x s).Canonical := .issueForm h fun _ _ _ h => h.arriveEff
theorem State.Canonical.execBarw {x : BarF} (h : s.Canonical) : (Machine.execBarw x s).Canonical :=
  .issueForm h fun _ _ _ h => .iteEff h (.iteEff h (.iteEff h h.learnAt))
theorem State.Canonical.execBart {x : BartF} (h : s.Canonical) : (Machine.execBart x s).Canonical := .issueForm h fun _ _ _ h => .ite h.learnAt h
theorem State.Canonical.execSync {x : SyncF} (h : s.Canonical) : (Machine.execSync x s).Canonical := by
  refine .andThen (.issueForm h fun _ _ _ h => .iteEff h (.iteEff h (.iteEff h h.updCtx.publishAt))) fun _ h => ?_
  split
  · exact h.syncSettle
  · exact h

/-! ## Tiles and the matrix array (Machine/Tile.lean) -/

theorem State.Canonical.tileEff {bad : Option Chk} {onFault : State → State} {job : Job} (h : s.Canonical) (hf : (onFault s).Canonical) :
    (Machine.tileEff i act s bad onFault job).st.Canonical := by
  unfold Machine.tileEff
  split
  · exact h.startJob
  · exact hf
  · exact h.arrived.pushOnce
  · exact h
theorem State.Canonical.execTld {x : TldX} (h : s.Canonical) : (Machine.execTld x s).Canonical :=
  .issueForm h fun _ _ _ h => .iteEff h (.iteEff h (h.tileEff h.spoilTile.spoilScl))
theorem State.Canonical.execTst {x : TstX} (h : s.Canonical) : (Machine.execTst x s).Canonical := by
  refine .issueForm h fun _ _ _ h => ?_
  dsimp only
  refine .iteEff h (.iteEff h ?_)
  split
  · exact h.tstBytes.tileEff h.tstBytes
  · exact h.tileEff h
theorem State.Canonical.clearXp (h : s.Canonical) : (s.clearXp wk ac).Canonical := h
theorem State.Canonical.execTzero {x : TzeroF} (h : s.Canonical) : (Machine.execTzero x s).Canonical := by
  refine .issueForm h fun _ _ _ h => .iteEff h ?_
  split
  · exact .ite h.taintTile.newId.writeTile.updWg.spoilTile h.taintTile.newId.writeTile.updWg
  · exact h.updWg.clearXp.taintAcc
theorem State.Canonical.snapshot {c : MatCmd} (h : s.Canonical) : (s.snapshot wk c).2.Canonical := .iteSnd h.snapTile.snapTile.snapTile h.snapTile.snapTile
theorem State.Canonical.countMat (h : s.Canonical) : (s.countMat core).Canonical := h
theorem State.Canonical.spendToken (h : s.Canonical) : (s.spendToken wk).Canonical := .ite h.updWg h.updPf
theorem State.Canonical.matForm {hdr : Hdr} {c : MatCmd} (h : s.Canonical) : (Machine.matForm hdr opc c s).Canonical := by
  refine .issueFormS h fun _ _ _ h => .iteEff h ?_
  split
  · exact h
  · exact .iteEff h.snapshot h.snapshot.newId.updWg.spendToken.countMat.pushOnce
theorem State.Canonical.execTrdy {x : Plain} (h : s.Canonical) : (Machine.execTrdy x s).Canonical := .issueForm h fun _ _ _ h => .iteEff h h.startJob
theorem State.Canonical.execTwait {x : TwaitF} (h : s.Canonical) : (Machine.execTwait x s).Canonical := .issueForm h fun _ _ _ h => .iteEff h h.startJob
theorem State.Canonical.taccEff {x : TaccF} {wide : Bool} {f : Wg → Nat → DWord} (h : s.Canonical) : (Machine.taccEff i act s x wide f).st.Canonical :=
  .iteEff h (.iteEff (.foldlSnd h fun _ _ h => h) (.iteEff h h))
theorem State.Canonical.execTacc {x : TaccF} (h : s.Canonical) : (Machine.execTacc x s).Canonical := .issueForm h fun _ _ _ h => h.taccEff
theorem State.Canonical.execTaccXp {x : TaccF} (h : s.Canonical) : (Machine.execTaccXp x s).Canonical := .issueForm h fun _ _ _ h => h.taccEff
theorem State.Canonical.execTaccScl {x : TaccScl} (h : s.Canonical) : (Machine.execTaccScl x s).Canonical := .issueForm h fun _ _ _ h => h
theorem State.Canonical.execTaccWr {x : TaccF} (h : s.Canonical) : (Machine.execTaccWr x s).Canonical :=
  .issueForm h fun _ _ _ h => .iteEff h (.iteEff h h.updWg.clearXp.taintAcc)
theorem State.Canonical.pumpWake (h : s.Canonical) : (s.pumpWake wk).Canonical := by
  unfold State.pumpWake
  extract_lets g
  split
  · refine .ite h ?_
    extract_lets begun busy ready asked
    have hb : begun.Canonical := .ite h h.updWg
    have ha : asked.Canonical := .ite hb.askToken hb
    exact ha.pushOnce
  · exact h
theorem State.Canonical.execTgemm {x : TgemmX} (h : s.Canonical) : (Machine.execTgemm x s).Canonical := by
  unfold Machine.execTgemm
  dsimp only
  refine .issueFormS h fun _ _ _ h => .iteEff h ?_
  split
  · exact h
  · split
    · exact h
    · exact h.newId.updWg.pumpWake
theorem State.Canonical.finishMat {q : MatCmdQ} {r : Option MatOut} (h : s.Canonical) : (s.finishMat wk q r fl).Canonical := by
  refine .updWg ?_
  split
  · exact h.clearXp.spoilAcc
  · exact .ite h.clearXp.updWg h.clearXp.updWg.updWg
theorem State.Canonical.arrayNext (h : s.Canonical) : (s.arrayNext core pick).Canonical := by
  unfold State.arrayNext
  dsimp only
  refine .ite h (.ite h.updCore.push ?_)
  split
  · exact h
  · exact .push (.updCore (.ite h.spendToken.countMat h))
theorem State.Canonical.matStart (h : s.Canonical) : (s.matStart core pick).Canonical := h.arrayNext
theorem State.Canonical.storeTile {m : Gemm} {sums : List Word} (h : s.Canonical) : (Machine.storeTile s wk m mt nt sums).Canonical :=
  .foldl h fun _ _ h => .foldl (.iteSnd h.freeBytes h) fun _ _ h => h.setCist
theorem State.Canonical.freeWords (h : s.Canonical) : (s.freeWords n).2.Canonical := .foldlSnd h fun _ _ h => h
theorem State.Canonical.pumpDone {q : MatCmdQ} {m : Gemm} (h : s.Canonical) : (s.pumpDone wk q m).Canonical := by
  unfold State.pumpDone
  extract_lets g p cells fl
  split
  next sums drawn e =>
  extract_lets stepped
  have hs : stepped.Canonical := State.Canonical.updWg (State.Canonical.of_snd_eq (.iteSnd h.freeWords h) e)
  exact .ite hs.pumpWake hs.pushOnce
theorem State.Canonical.pumpTurn (h : s.Canonical) : (s.pumpTurn wk).Canonical := by
  unfold State.pumpTurn
  dsimp only
  split
  · exact h
  · split
    · exact h
    · exact .ite h (.ite h.storeTile.updWg.pumpWake (.ite h.storeTile.updWg.pumpWake h.storeTile.finishMat.updWg.orFlags.pumpWake))
theorem State.Canonical.pumpStep (h : s.Canonical) : (s.pumpStep core pick).Canonical := .arrayNext (.foldl h fun _ _ h => h.pumpTurn.pumpWake)
theorem State.Canonical.looseFlags {q : MatCmdQ} {doubt : Bool} (h : s.Canonical) : (s.looseFlags q fl doubt).2.Canonical := h
theorem State.Canonical.matComplete (h : s.Canonical) : (s.matComplete core pick).Canonical := by
  unfold State.matComplete
  dsimp only
  split
  · exact h
  · refine .ite h (.arrayNext ?_)
    split
    · exact h.updCore
    · split
      · exact h.updCore.pumpDone
      · exact .pumpWake (.ite h.updCore.looseFlags.finishMat h.updCore.finishMat)
theorem State.Canonical.selfTested {bad : List Nat} (h : s.Canonical) : (s.selfTested core bad).Canonical := by
  unfold State.selfTested
  dsimp only
  split
  · exact .ite h.updCore (.arrayNext (.ite h.updCore.updCore h.updCore.updCore.updPf))
  · exact h.updCore

/-! ## Copies and their conversions (Machine/Copy.lean) -/

theorem State.Canonical.updCopy {f : Copy → Copy} (h : s.Canonical) : (s.updCopy id f).Canonical := h
theorem State.Canonical.supply {x : Slice} (h : s.Canonical) : (s.supply ck id x).Canonical := by
  unfold State.supply
  split
  next b named e =>
  extract_lets joined counted
  have hj : joined.Canonical := State.Canonical.updCopy (h.newId.of_snd_eq e)
  have hc : counted.Canonical := .ite hj hj.updCtx
  split
  · exact hc.pushOnce
  · exact hc
theorem State.Canonical.openCopy {f : CopyForm} {shapes : List Word} (h : s.Canonical) : (s.openCopy ck f shapes).2.Canonical := by
  refine .updCore (.of_mem_eq ?_ rfl)
  split
  · exact h.newId
  · exact h.newId.newId
theorem State.Canonical.copyEff {f : CopyForm} {dst : Reg} {src : Reg} {len : Reg} {pub : Option Reg}
    (h : s.Canonical) : (Machine.copyEff i act s f dst src len pub).st.Canonical := by
  unfold Machine.copyEff
  dsimp only
  refine .iteEff h (.iteEff h ?_)
  refine .iteEff h (.iteEff h ?_)
  split
  · exact h
  · exact h.openCopy.supply
  · exact h.supply
theorem State.Canonical.copyForm {hdr : Hdr} {f : CopyForm} {dst : Reg} {src : Reg} {len : Reg} {pub : Reg}
    (h : s.Canonical) : (Machine.copyForm hdr f dst src len pub s).Canonical :=
  .issueFormS h fun _ _ _ h => h.copyEff
theorem copyPut_canonical {c : Copy} : EngM.Canonical (copyPut c ck va bs) := fun _ h => .ite (engPut_canonical _ h) (engPut_canonical _ h)
theorem rawStep_canonical {c : Copy} {x : Slice} : EngM.Canonical (rawStep c x) := by
  intro s h
  unfold rawStep
  dsimp only
  split
  · exact .error trivial
  · next hg =>
    have ht := engGet_canonical.ok h hg
    refine .ite (.ok (.taintTile (.ite ht ?_))) ?_
    · split
      · exact ht
      · exact ht
    · split
      · exact .error trivial
      · next hp => exact .ok (copyPut_canonical.ok ht hp)
theorem putRest_canonical {c : Copy} {x : Slice} {out : List Byte} {bad : Bool} : EngM.Canonical (putRest c x out bad) := by
  intro s h
  unfold putRest
  dsimp only
  split
  · exact .error trivial
  · next hp => exact .ok (copyPut_canonical.ok h hp)
theorem convStep_canonical {c : Copy} {x : Slice} : EngM.Canonical (convStep c x) :=
  .bind engGet_canonical fun _ => .ite (.get_bind fun _ h => .bind (.set h) fun _ => putRest_canonical) putRest_canonical
theorem lbStep_canonical {c : Copy} {x : Slice} {ch : Nat} : EngM.Canonical (lbStep c x ch) := by
  refine .get_bind fun _ _ => ?_
  split
  · exact putRest_canonical
  · exact .bind engGet_canonical fun _ => .bind putRest_canonical fun _ => .bind (.modify fun _ h => h) fun _ => .pure
/-- A conversion that has written its next bytes stops with the state that it leaves. -/
def Halt.Canonical : Halt → Prop
  | .stop _ => True
  | .wrote _ _ t => t.Canonical
/-- A layout conversion's work leaves canonical memory. -/
abbrev LayM.Canonical {α : Type} (m : LayM α) : Prop := Preserves (fun p => p.2.Canonical) Halt.Canonical m
theorem layStop_canonical {α : Type} {r : RowStop} : LayM.Canonical (layStop (α := α) r) := .throw trivial
theorem layGet_canonical {c : Copy} {x : Slice} : LayM.Canonical (layGet c x va n) := by
  intro (k, s) h
  unfold layGet
  dsimp only
  split
  · next hg => exact .ok (engGet_canonical.ok h hg)
  · exact .error trivial
theorem layNum_canonical {c : Copy} {x : Slice} : LayM.Canonical (layNum c x va w) := .bind layGet_canonical fun _ => .pure
theorem layPut_canonical {c : Copy} {x : Slice} : LayM.Canonical (layPut c x va bs) := by
  intro (k, s) h
  refine .ite (.ok h) ?_
  split
  · next hp => exact .error (copyPut_canonical.ok h hp)
  · exact .error trivial
theorem badIndex_canonical {α : Type} {lev : Nat} : LayM.Canonical (badIndex (α := α) lev va) := layStop_canonical
theorem Lay.num_canonical {y : Lay} : LayM.Canonical (y.num v w k) := layNum_canonical
theorem Lay.putNum_canonical {y : Lay} : LayM.Canonical (y.putNum v w k n) := layPut_canonical
theorem Lay.putVal_canonical {y : Lay} {j : Nat} : LayM.Canonical (y.putVal j k) := .bind layGet_canonical fun _ => layPut_canonical
theorem Lay.levels_canonical {y : Lay} {specs : List DWord} : LayM.Canonical (y.levels specs).2 :=
  .bind layPut_canonical fun _ => .forM _ fun _ _ => layPut_canonical
theorem Lay.compressed_canonical {y : Lay} {major minor : Nat} : ∀ p ∈ y.compressed major minor, LayM.Canonical p.2 := by
  unfold Lay.compressed
  extract_lets r ptr entries
  have hp : ∀ i, LayM.Canonical (ptr i) := fun i =>
    .bind num_canonical fun _ => .iteJoin .pure num_canonical fun _ => .iteThen badIndex_canonical fun _ => .pure
  have he : ∀ f : List Nat → Nat → Nat → LayM Unit, (∀ l b e, LayM.Canonical (f l b e)) → LayM.Canonical (entries f) := fun f hf =>
    .bind (.mapM _ hp) fun _ => .forM _ fun _ _ => hf _ _ _
  clear_value ptr entries
  simp only [List.forall_mem_cons]
  refine ⟨.bind (hp 0) fun _ => .forM _ fun _ _ => .bind (hp _) fun _ => putNum_canonical, he _ fun _ _ _ => ?_,
    he _ fun _ _ _ => putVal_canonical, levels_canonical, fun _ h => nomatch h⟩
  exact .bind num_canonical fun _ => .iteJoin .pure (.map num_canonical _) fun _ => .iteThen badIndex_canonical fun _ => putNum_canonical
theorem Lay.coo_canonical {y : Lay} : ∀ p ∈ y.coo, LayM.Canonical p.2 := by
  unfold Lay.coo
  extract_lets r each
  have he : ∀ f : Nat → LayM Unit, (∀ e, LayM.Canonical (f e)) → LayM.Canonical (each f) := fun f hf => .forM _ fun e _ => hf e
  simp only [List.forall_mem_cons]
  refine ⟨.bind putNum_canonical fun _ => putNum_canonical, he _ fun _ => ?_, he _ fun _ => ?_,
    he _ fun _ => putVal_canonical, levels_canonical, fun _ h => nomatch h⟩
  · exact .bind num_canonical fun _ => .iteJoin .pure (.map num_canonical _) fun _ => .iteThen badIndex_canonical fun _ => putNum_canonical
  · exact .bind num_canonical fun _ => .iteThen badIndex_canonical fun _ => putNum_canonical
theorem Lay.ell_canonical {y : Lay} : ∀ p ∈ y.ell, LayM.Canonical p.2 := by
  unfold Lay.ell
  extract_lets r b slots pad row rows
  have hr : ∀ f : Nat → Nat → Nat → Option Nat → LayM Unit, (∀ e k v o, LayM.Canonical (f e k v o)) → ∀ n i, LayM.Canonical (row f n i) := fun f hf n i =>
    .bind (.foldlM _ _ fun _ _ => .bind num_canonical fun _ => .ite .pure (.bind (hf _ _ _ _) fun _ => .pure)) fun _ => .pure
  have hs : ∀ f : Nat → Nat → Nat → Option Nat → LayM Unit, (∀ e k v o, LayM.Canonical (f e k v o)) → LayM.Canonical (rows f) := fun f hf =>
    .bind (.foldlM _ _ fun _ _ => hr f hf _ _) fun _ => .pure
  clear_value row rows
  simp only [List.forall_mem_cons]
  refine ⟨.bind (.foldlM _ _ fun _ _ => .bind putNum_canonical fun _ => hr _ (fun _ _ _ _ => .pure) _ _) fun _ => putNum_canonical,
    hs _ fun _ _ _ _ => .iteThen badIndex_canonical fun _ => putNum_canonical, hs _ fun _ _ _ _ => .forM _ fun _ _ => putVal_canonical, levels_canonical,
    fun _ h => nomatch h⟩
theorem Lay.bitmap_canonical {y : Lay} : ∀ p ∈ y.bitmap, LayM.Canonical p.2 := by
  unfold Lay.bitmap
  extract_lets r words count
  have hc : ∀ i n, LayM.Canonical (count i n) := fun _ _ => .foldlM _ _ fun _ _ => .bind num_canonical fun _ => .pure
  simp only [List.forall_mem_cons]
  exact ⟨.bind (.foldlM _ _ fun _ _ => .bind putNum_canonical fun _ => hc _ _) fun _ => putNum_canonical,
    .forM _ fun _ _ => .bind num_canonical fun _ => putNum_canonical, .bind (.foldlM _ _ fun _ _ => hc _ _) fun _ => .forM _ fun _ _ => putVal_canonical,
    levels_canonical, fun _ h => nomatch h⟩
theorem Lay.packed_canonical {y : Lay} : ∀ p ∈ y.packed, LayM.Canonical p.2 := by
  unfold Lay.packed
  extract_lets r groups index each
  have hi : ∀ e, LayM.Canonical (index e) := fun _ => .bind num_canonical fun _ => .pure
  have he : ∀ f : Nat → LayM Unit, (∀ e, LayM.Canonical (f e)) → LayM.Canonical (each f) := fun f hf => .forM _ fun e _ => hf e
  simp only [List.forall_mem_cons]
  refine ⟨.forM _ fun _ _ => putNum_canonical, he _ fun _ => ?_, he _ fun _ => putVal_canonical, levels_canonical, fun _ h => nomatch h⟩
  exact .bind (hi _) fun _ => .iteJoin .pure (.map (hi _) _) fun _ => .iteThen badIndex_canonical fun _ => putNum_canonical
theorem mem_insertBy {α : Type} {le : α → α → Bool} {x y : α} {l : List α} (h : y ∈ insertBy le x l) : y = x ∨ y ∈ l := by
  induction l with
  | nil => exact List.mem_cons.mp h
  | cons z t ih =>
    unfold insertBy at h
    split at h
    · exact List.mem_cons.mp h
    · rcases List.mem_cons.mp h with rfl | h
      · exact .inr List.mem_cons_self
      · exact (ih h).imp_right (List.mem_cons_of_mem z)
theorem mem_of_mem_sortBy {α : Type} {le : α → α → Bool} {y : α} {l : List α} (h : y ∈ sortBy le l) : y ∈ l := by
  induction l with
  | nil => exact h
  | cons x t ih =>
    rcases mem_insertBy h with rfl | h
    · exact List.mem_cons_self
    · exact List.mem_cons_of_mem x (ih h)
theorem layoutRun_canonical {c : Copy} {x : Slice} : LayM.Canonical (layoutRun c x) := by
  refine .bind layGet_canonical fun _ => .iteThen layStop_canonical fun _ => .bind layGet_canonical fun _ => .forM _ fun p hp => ?_
  have hm := mem_of_mem_sortBy hp
  dsimp only at hm
  split at hm
  · exact Lay.compressed_canonical p hm
  · exact Lay.compressed_canonical p hm
  · exact Lay.coo_canonical p hm
  · exact Lay.ell_canonical p hm
  · exact Lay.bitmap_canonical p hm
  · exact Lay.packed_canonical p hm
theorem layoutStep_canonical {c : Copy} {x : Slice} : EngM.Canonical (layoutStep c x) := by
  intro s h
  unfold layoutStep
  split
  · next hr => exact .ok (layoutRun_canonical.ok (x := (_, s)) h hr)
  · next hr => exact .ok (layoutRun_canonical.error (x := (_, s)) h hr)
  · exact .error trivial
theorem copyStep_canonical {c : Copy} {x : Slice} : EngM.Canonical (copyStep c x) :=
  .ite layoutStep_canonical <| .ite convStep_canonical <| .ite lbStep_canonical rawStep_canonical
theorem State.Canonical.pubStep {c : Copy} {ch : Nat} (h : s.Canonical) (e : s.pubStep c ch = .ok t) : t.Canonical := by
  unfold State.pubStep at e
  dsimp only at e
  split at e
  · cases e; exact h
  · split at e
    · cases e
    · unfold Except.map at e
      split at e
      · cases e
      · next hp => cases e; exact engPut_canonical.ok_snd h.updWg.updCopy hp
theorem State.Canonical.wptrUpdate (h : s.Canonical) : (s.wptrUpdate id).Canonical := by
  unfold State.wptrUpdate
  split
  · exact h
  · split
    · exact h
    · split
      · next e => exact (h.pubStep e).pushOnce
      · exact h.pushOnce
      · exact h.pushOnce
      · exact h
theorem State.Canonical.chanAt {c : Copy} {next : DWord} (h : s.Canonical) : (s.chanAt c next).Canonical := by
  unfold State.chanAt
  split
  · exact h
  · exact h.updWg.pushOnce
theorem State.Canonical.chanStart (h : s.Canonical) : (s.chanStart id).Canonical := by
  unfold State.chanStart
  split
  · exact h
  · split
    · exact h
    · refine .ite h ?_
      extract_lets begun emptied restarted
      have he : emptied.Canonical := .ite h.updCopy.updWg h.updCopy
      have hr : restarted.Canonical := by
        unfold restarted
        split
        · exact .ite he he.updWg
        · exact he
      exact hr.pushOnce
theorem State.Canonical.copyReport {x : Slice} {addr : DWord} {kind : TrapKind} (h : s.Canonical) : (s.copyReport x cause detail addr kind).2.Canonical :=
  .iteSnd h.fatal h.trap
/-- What the copy still counts at its arrival. -/
theorem State.Canonical.arrive {c : Copy} {whole : Bool} (h : s.Canonical) : (s.arrive c whole).Canonical := by
  unfold State.arrive
  extract_lets counted kept settled flagged started closed unqueued
  have hc : counted.Canonical := by
    unfold counted
    split
    · exact h
    · split
      · next e => exact h.pubStep e
      · exact h.updWg
  have hf : flagged.Canonical := .foldl (State.Canonical.updWg (s := kept) hc) fun _ _ h => h.orFlags
  have hs : started.Canonical := by
    unfold started
    split
    · exact hf
    · refine .ite ?_ hf.updWg
      split
      · exact hf
      · exact .pushOnce (.countMat (.spendToken (.updWg hf.snapshot)))
  have hu : unqueued.Canonical := State.Canonical.updCore (s := closed) hs
  clear_value unqueued
  split
  · exact .ite (.wakeBar hu) hu
  · split
    · exact hu.copyReport
    · exact hu
theorem State.Canonical.copyMove (h : s.Canonical) : (s.copyMove id pick).Canonical := by
  unfold State.copyMove
  dsimp only
  split
  · exact h
  · refine .ite h (.ite h.wptrUpdate ?_)
    split
    · exact .ite h.updCopy.askToken h.updCopy.arrive
    · split
      · exact h.updCopy.pushOnce
      · exact h.updCopy.pushOnce
      · exact h.updCopy
      · next e =>
        have ht := copyStep_canonical.ok h.updCopy e
        exact .pushOnce (.ite ht.updCopy ht.updCopy.chanAt)
theorem State.Canonical.copyStop (h : s.Canonical) : (s.copyStop id pick).Canonical := by
  unfold State.copyStop
  split
  · exact h
  · refine .ite h ?_
    split
    · exact h
    · exact .ite h.copyReport.updCopy h.copyReport.arrive
theorem State.Canonical.copyResume (h : s.Canonical) : (s.copyResume id).Canonical := h.updCopy.pushOnce
theorem State.Canonical.copyAbort (h : s.Canonical) : (s.copyAbort id).Canonical := by
  unfold State.copyAbort
  split
  · exact h.arrive
  · exact h
theorem State.Canonical.execCopyChannelStart (h : s.Canonical) : (Machine.execCopyChannelStart s).Canonical := .next h.chanStart
theorem State.Canonical.execCopyArrival (h : s.Canonical) : (Machine.execCopyArrival s).Canonical := .next h.copyMove
theorem State.Canonical.execChannelWptrUpdate (h : s.Canonical) : (Machine.execChannelWptrUpdate s).Canonical := .next h.wptrUpdate
theorem State.Canonical.execCopyFault (h : s.Canonical) : (Machine.execCopyFault s).Canonical := .next h.copyStop
theorem State.Canonical.execMatrixOpStart (h : s.Canonical) : (Machine.execMatrixOpStart s).Canonical := .next h.matStart
theorem State.Canonical.execMatrixOpComplete (h : s.Canonical) : (Machine.execMatrixOpComplete s).Canonical := .next h.matComplete
theorem State.Canonical.execPumpStep (h : s.Canonical) : (Machine.execPumpStep s).Canonical := .next h.pumpStep
theorem State.Canonical.execSelfTest (h : s.Canonical) : (Machine.execSelfTest s).Canonical := .next h.selfTested

/-! ## Stream instructions (Machine/Stream.lean) -/

theorem State.Canonical.streamEff {m : EngM Unit} (h : s.Canonical) (hm : EngM.Canonical m) : (Machine.streamEff i act s q m).st.Canonical := by
  refine .iteEff h ?_
  split
  · next e => exact (hm.ok h e).startJob.updCtx
  · exact h
  · exact h.pushOnce.startJob
  · exact h
theorem readsNow_canonical {act : Lanes} {x : Instr} : EngM.Canonical ((readsNow s i act x).getD (pure ())) := by
  unfold readsNow
  split
  · exact openStream_canonical
  · exact skipStream_canonical
  · exact saveStream_canonical
  · exact saveStream_canonical
  · exact restStream_canonical
  · exact restStream_canonical
  · exact .bind readColl_canonical fun _ => .pure
  · exact .bind engGet_canonical fun _ => .pure
  · exact .pure
theorem State.Canonical.streamForm {hdr : Hdr} {ok : Bool} {x : Instr} (h : s.Canonical) : (Machine.streamForm hdr opc srcs ok q x s).Canonical :=
  .issueFormS h fun _ _ _ h => h.streamEff readsNow_canonical
theorem State.Canonical.pairForm {x : FbpairF} {kind : Nat} (h : s.Canonical) : (Machine.pairForm x opc kind s).Canonical :=
  .issueFormS h fun _ _ _ h => .iteEff h (.iteEff h (.iteEff h (.setStream (.setStream (.setStream (.iteSnd h h))))))
theorem State.Canonical.execFbnext {x : FbnextF} (h : s.Canonical) : (Machine.execFbnext x s).Canonical :=
  .issueFormS h fun _ _ _ h => .iteEff h (.iteEff h (.iteEff h h.startJob.updCtx))
theorem State.Canonical.endNext (h : s.Canonical) : (s.endNext j).Canonical := h.updCtx.endJob
theorem nextStep_canonical : EngM.Canonical (nextStep j q c p pm) := by
  refine .get_bind fun s _ => ?_
  split
  · exact .bind (.modify fun _ h => h.setStream.endNext) fun _ => .pure
  · refine .bind nextItem_canonical fun (_, item) => ?_
    dsimp only
    split
    · exact .bind (.modify fun _ h => h.setStream) fun _ => .pure
    · exact .bind (.modify fun _ h => h.setStream.writeAll) fun _ => .pure
    · exact .bind (.modify fun _ h => h.setStream.writeAll.endNext) fun _ => .pure
theorem State.Canonical.runNext (h : s.Canonical) : (s.runNext j q c p pm).Canonical := by
  refine .ite h ?_
  split
  · next e => exact (nextStep_canonical.ok h e).pushOnce
  · exact h.pushOnce
  · exact h.pushOnce
  · exact h
theorem State.Canonical.nextFault (h : s.Canonical) : (s.nextFault id).Canonical := by
  unfold State.nextFault
  split
  · exact h
  · split
    · split
      · exact .ite h (.ite h.endNext h.updJob.setStream.trap)
      · exact h
    · exact h
theorem State.Canonical.nextResume (h : s.Canonical) : (s.nextResume id).Canonical := h.updJob.pushOnce
theorem State.Canonical.nextAbort (h : s.Canonical) : (s.nextAbort id).Canonical := by
  unfold State.nextAbort
  split
  · exact h.endNext
  · exact h
theorem State.Canonical.markStreams {away : Bool} (h : s.Canonical) : (s.markStreams ck away).Canonical := by
  refine .foldl h fun _ _ h => .ite h ?_
  split
  · exact h.setStream
  · exact h
theorem State.Canonical.execStreamElementFault (h : s.Canonical) : (Machine.execStreamElementFault s).Canonical := .next h.nextFault

/-! ## Grids, placement and eviction (Machine/Grid.lean) -/

theorem State.Canonical.takeFrame (h : s.Canonical) : (s.takeFrame vfn user).2.Canonical := by
  unfold State.takeFrame
  dsimp only
  split
  · exact h
  · exact .iteSnd h.pushOnce (.ite h.updVf.pushOnce h.updVf)
theorem State.Canonical.writeFrame {g : Grid} (h : s.Canonical) : (s.writeFrame g).Canonical := h.devWrite.devWrite
theorem State.Canonical.setRef (h : s.Canonical) : (s.setRef k n).Canonical := h.updGrid.lateWrite
theorem State.Canonical.takeSlot (h : s.Canonical) : (s.takeSlot vfn).2.Canonical := .iteSnd h h
theorem State.Canonical.enqueue (h : s.Canonical) : (s.enqueue k die).Canonical := .ite (.pushOnce (.of_mem_eq h rfl)) (.foldl h fun _ _ h => h.updDie.pushOnce)
theorem State.Canonical.newGrid {r : Record} {parent : Option Nat} {frame done : DWord} {arg : Option DWord} (h : s.Canonical) :
    (s.newGrid vfn r parent frame done arg die).2.Canonical := by
  unfold State.newGrid
  split
  next id named en =>
  split
  next slot taken et =>
  extract_lets gen counted above kern g stored framed given linked
  have hf : framed.Canonical := State.Canonical.writeFrame (s := stored) (State.Canonical.of_snd_eq (h.newId.of_snd_eq en).takeSlot et :)
  have hg : given.Canonical := by
    unfold given
    split
    · exact hf.devWrite
    · exact hf
  have hl : linked.Canonical := by
    unfold linked
    split
    · exact hg.setRef
    · exact hg
  exact hl.enqueue
theorem State.Canonical.launch1 {r : Record} {arg : Option DWord} (h : s.Canonical) : (s.launch1 ck r arg).2.Canonical := by
  refine .iteSnd h (.iteSnd h ?_)
  refine .iteSnd h ?_
  split
  · next e => exact h.takeFrame.of_snd_eq e
  · next e => exact (h.takeFrame.of_snd_eq e).newGrid
theorem State.Canonical.execLaunch {x : LaunchF} (h : s.Canonical) : (Machine.execLaunch x s).Canonical := by
  refine .issueForm h fun _ _ _ h => .iteEff h (.iteEff h ?_)
  split
  · exact h
  · exact .iteEff h (.writeAll (.foldlSnd h.publish fun _ _ h => h.launch1))
theorem State.Canonical.execJoin {x : JumpF} (h : s.Canonical) : (Machine.execJoin x s).Canonical := .issueForm h fun _ _ _ h => .ite h.acquire.learn h
theorem State.Canonical.flushWay (h : s.Canonical) : (s.flushWay core way).Canonical := .foldl h fun _ _ h => h.flushWord.setL1
theorem State.Canonical.clearWay (h : s.Canonical) : (s.clearWay core way).Canonical := h
theorem State.Canonical.startWg (h : s.Canonical) : (s.startWg wk).Canonical := .acquire (.foldl (.updWg (.of_mem_eq h rfl)) fun _ _ h => h.setCist)
theorem State.Canonical.drainNext (h : s.Canonical) : (s.drainNext core wk).Canonical := by
  unfold State.drainNext
  split
  · exact h.pushOnce
  · exact h.startWg
theorem State.Canonical.placeWg (h : s.Canonical) : (s.placeWg core k wgid).Canonical := h.newId.setWg.updGrid.updCore.drainNext
theorem State.Canonical.drainWay (h : s.Canonical) : (s.drainWay core way).Canonical := by
  unfold State.drainWay
  split
  · exact h.flushWay.clearWay.updCore.drainNext
  · exact h
theorem State.Canonical.dispatch (h : s.Canonical) : (s.dispatch die pick).Canonical := by
  unfold State.dispatch
  split
  · exact h
  · exact h.placeWg.updDie.pushOnce
theorem State.Canonical.age (h : s.Canonical) : (s.age die).Canonical := h
theorem State.Canonical.placeAll {prefer : List Nat} (h : s.Canonical) : (s.placeAll k prefer).Canonical := by
  unfold State.placeAll
  extract_lets g n room placed
  have hp : ∀ r, placed = some r → r.1.Canonical := by
    refine List.foldlRecOn (motive := fun acc : Option (State × List Nat × Nat) => ∀ r, acc = some r → r.1.Canonical) _ _
      (fun _ e => Option.some.inj e ▸ h) fun acc ih w _ r e => ?_
    split at e
    · cases e
    · dsimp only at e
      split at e
      · cases e
        exact State.Canonical.placeWg (ih _ rfl)
      · cases e
  refine .ite h ?_
  clear_value placed
  cases placed with
  | some r => exact hp r rfl
  | none => exact h
theorem State.Canonical.withhold (h : s.Canonical) : (s.withhold k).Canonical := .ite (.ite (.of_mem_eq h rfl) h.updGrid) h
theorem State.Canonical.freed (h : s.Canonical) : (s.freed core).Canonical := .pushOnce (.foldl (.ite h.updCore h) fun _ _ h => h.pushOnce)
theorem State.Canonical.wakeJoin {n : DWord} (h : s.Canonical) : (s.wakeJoin vfn n).Canonical :=
  .wakeAll (.foldl (.foldl h fun _ _ h => h.acquire) fun _ _ h => h.learn)
theorem State.Canonical.treeRetire (h : s.Canonical) : (s.treeRetire k fuel).Canonical := by
  induction fuel generalizing s k with
  | zero => exact h
  | succ n ih =>
    unfold State.treeRetire
    split
    · exact h
    · next g _ =>
      refine .ite h ?_
      extract_lets told off freed erased joined placed woken
      have ht : told.Canonical := .ite h h.lateWrite
      have hw : woken.Canonical := .foldl (.foldl (State.Canonical.wakeJoin (s := erased) ht) fun _ _ h => .ite h h.pushOnce) fun _ _ h => h.pushOnce
      split
      · exact ih hw.setRef
      · exact hw
theorem State.Canonical.gridRetire (h : s.Canonical) : (s.gridRetire k).Canonical := by
  unfold State.gridRetire
  split
  · exact h
  · exact .ite h h.updGrid.treeRetire
theorem State.Canonical.freeSlots (h : s.Canonical) : (s.freeSlots vfn wk).Canonical := h
theorem State.Canonical.wgRetire (h : s.Canonical) : (s.wgRetire wk).Canonical := by
  unfold State.wgRetire
  split
  · exact h
  · extract_lets cleared lent given erased counted
    have hc : cleared.Canonical := .ite h (.foldl h fun _ _ h => h.clearWay)
    exact .ite h (.pushOnce (State.Canonical.freed (s := counted) hc))
theorem State.Canonical.spoilSlots {slots : List Nat} (h : s.Canonical) : (s.spoilSlots vfn slots).Canonical := .foldl h fun _ _ h => h.freeBytes.homeWrite
theorem State.Canonical.takeSlots {run singles : Nat} (h : s.Canonical) (e : s.takeSlots vfn key run singles = some t) : t.Canonical := by
  unfold State.takeSlots at e
  split at e
  · cases e
  · refine List.foldlRecOn (motive := fun acc : Option State => ∀ t, acc = some t → t.Canonical) _ _ (fun _ e => ?_) (fun acc ih _ _ t e => ?_) t e
    · cases e
      exact h.updVf.spoilSlots
    · split at e
      · cases e
      · split at e
        · cases e
        · cases e
          exact (ih _ rfl).updVf.spoilSlots
theorem State.Canonical.groupEvict (h : s.Canonical) : (s.groupEvict ck).Canonical := by
  unfold State.groupEvict
  dsimp only
  split
  · exact h
  · refine .ite h ?_
    split
    · exact h
    · next e => exact (h.takeSlots e).markStreams.updCtx.freed
theorem State.Canonical.wgEvict (h : s.Canonical) : (s.wgEvict wk).Canonical := by
  unfold State.wgEvict
  split
  · exact h
  · refine .ite (.ite h.updWg.pumpWake h) (.ite h.updWg ?_)
    split
    · exact h
    · next e =>
      extract_lets bytes fes cleared lent marked stashed away
      have hm : marked.Canonical := .foldl (State.Canonical.updCore (s := cleared) (.foldl (h.takeSlots e) fun _ _ h => h.clearWay)) fun _ _ h => h.markStreams
      exact State.Canonical.freed (s := away) hm
theorem State.Canonical.restore (h : s.Canonical) : (s.restore key num).Canonical := by
  refine .ite (.ite h h.markStreams.updCtx.updVf) ?_
  split
  · exact h
  · extract_lets n ways used slot flushed given placed g' bytes fes marked back
    have hf : flushed.Canonical := .foldl h fun _ _ h => h.flushWay.clearWay
    have hb : fes.Canonical := .foldl (.foldl (s := placed) hf fun _ _ h => h.setCist) fun _ _ h => h.setFe
    have hm : marked.Canonical := .foldl hb fun _ _ h => h.markStreams
    exact .ite h hm
theorem State.Canonical.rootWrite (h : s.Canonical) : (s.rootWrite vfn v).Canonical := h.updVf.pushOnce
theorem State.Canonical.rootRead (h : s.Canonical) : (s.rootRead vfn v).2.Canonical := by
  refine .iteSnd h ?_
  split
  · exact h.pushOnce
  · exact h
  · exact h
  · refine .iteSnd h (.iteSnd h.pushOnce (.iteSnd h ?_))
    dsimp only
    refine .llcUse (.foldl h fun _ _ h => ?_)
    split
    · exact h.holderGiveUp.setDir
    · exact h
theorem State.Canonical.rootHandle {w : Nat → DWord} (h : s.Canonical) : (s.rootHandle vfn w).2.Canonical := by
  refine .iteSnd h (.iteSnd h ?_)
  refine .iteSnd h (.iteSnd h ?_)
  split
  · next e => exact h.takeFrame.of_snd_eq e
  · next e => exact (h.takeFrame.of_snd_eq e).newGrid
theorem State.Canonical.rootProcess (h : s.Canonical) : (s.rootProcess vfn).Canonical := by
  unfold State.rootProcess
  dsimp only
  split
  · exact h
  · refine .ite h (.ite h.updVf.pushOnce ?_)
    split
    · next e => exact h.rootRead.of_snd_eq e
    · next e => exact (h.rootRead.of_snd_eq e).updVf.pushOnce
    · next e => exact (h.rootRead.of_snd_eq e).rootHandle.updVf.pushOnce
theorem State.Canonical.execWorkgroupPlace (h : s.Canonical) : (Machine.execWorkgroupPlace s).Canonical := .next h.dispatch
theorem State.Canonical.execCoresidentPlace (h : s.Canonical) : (Machine.execCoresidentPlace s).Canonical := .next h.placeAll
theorem State.Canonical.execPriorityAging (h : s.Canonical) : (Machine.execPriorityAging s).Canonical := .next h.age
theorem State.Canonical.execCoresidentWithhold (h : s.Canonical) : (Machine.execCoresidentWithhold s).Canonical := .next h.withhold
theorem State.Canonical.execWayDrain (h : s.Canonical) : (Machine.execWayDrain s).Canonical := .next h.drainWay
theorem State.Canonical.execWorkgroupRetire (h : s.Canonical) : (Machine.execWorkgroupRetire s).Canonical := .next h.wgRetire
theorem State.Canonical.execGridRetire (h : s.Canonical) : (Machine.execGridRetire s).Canonical := .next h.gridRetire
theorem State.Canonical.execWorkgroupEvict (h : s.Canonical) : (Machine.execWorkgroupEvict s).Canonical := .next h.wgEvict
theorem State.Canonical.execGroupEvict (h : s.Canonical) : (Machine.execGroupEvict s).Canonical := .next h.groupEvict
theorem State.Canonical.execContextRestore (h : s.Canonical) : (Machine.execContextRestore s).Canonical := .next h.restore
theorem State.Canonical.execRootlaunch (h : s.Canonical) : (Machine.execRootlaunch s).Canonical := .next (.ite h.rootWrite h)
theorem State.Canonical.execRootlaunchProcess (h : s.Canonical) : (Machine.execRootlaunchProcess s).Canonical := .next h.rootProcess
theorem State.Canonical.execRootctlClearDrop (h : s.Canonical) : (Machine.execRootctlClearDrop s).Canonical := .next (.ite h.updVf h)

/-! ## Collectives (Machine/Coll.lean) -/

theorem State.Canonical.updColl {f : Coll → Coll} (h : s.Canonical) : (s.updColl id f).Canonical := h
theorem State.Canonical.collArrive {x : CollX} {d : CollDesc} {counts : List Nat}
    (h : s.Canonical) (e : s.collArrive ck x d counts = some t) : t.Canonical := by
  unfold State.collArrive at e
  dsimp only at e
  split at e
  · split at e <;> cases e
    exact h.updColl.updWg.pushOnce
  · cases e
    exact State.Canonical.pushOnce (s := _) h.newId
theorem State.Canonical.execColl {x : CollX} (h : s.Canonical) : (Machine.execColl x s).Canonical := by
  refine .issueFormS h fun _ _ _ h => .iteEff h (.iteEff h ?_)
  dsimp only
  split
  · exact h
  · exact h.pushOnce
  · exact h
  · next e =>
    have ht := readColl_canonical.ok h e
    split
    · next ea => exact ht.collArrive ea
    · exact ht
theorem netGet_canonical : EngM.Canonical (netGet ck va n) := by
  intro s h
  unfold netGet
  dsimp only
  split
  · exact .ok (State.Canonical.foldlSnd h fun _ _ h => h.homeRead)
  · exact .error trivial
theorem netPut_canonical : EngM.Canonical (netPut ck va bs) := by
  intro s h
  unfold netPut
  dsimp only
  split
  · exact .ok (State.Canonical.foldl h fun _ _ h => h.homeWrite)
  · exact .error trivial
theorem srcOf_canonical {c : Coll} {m : Part} : EngM.Canonical (srcOf c m) := by
  refine .ite (.bind (.mapM _ fun _ s h => ?_) fun _ => .pure) netGet_canonical
  split
  · next t hg => exact .ok (p := (_, (t.free 1).2)) (netGet_canonical.ok h hg :)
  · exact .ok h
theorem collPut_canonical {m : Part} {es : Nat} : EngM.Canonical (collPut m es va bs) := by
  refine .ite (.forM _ fun _ _ s h => ?_) netPut_canonical
  rcases e : s.free 1 with ⟨v, t⟩
  have ht := State.Canonical.of_snd_eq (p := s.free 1) h e
  dsimp only
  split
  · next hp =>
    split at hp
    · exact .ok (netPut_canonical.ok_snd ht hp)
    · cases hp; exact .ok ht
  · exact .ok ht
theorem putDst_canonical {c : Coll} {m : Part} : EngM.Canonical (putDst c m bs) := .iteJoin (fun _ h => h) .pure fun _ => collPut_canonical
theorem receive_canonical {c : Coll} {ms : List (Part × List Byte)} {m : Part} : EngM.Canonical (receive c ms m) := by
  refine .bind (fun _ h => h) fun _ => ?_
  split
  · exact .bind putDst_canonical fun _ => .pure
  · exact .bind putDst_canonical fun _ => .pure
  · exact .bind putDst_canonical fun _ => .pure
  · exact .bind putDst_canonical fun _ => .iteElse collPut_canonical fun _ => .bind collPut_canonical fun _ => .pure
theorem forPart_canonical {α : Type} {m : Part} {x : EngM α} (hx : EngM.Canonical x) (h : s.Canonical) :
    EndsIn State.Canonical (fun _ => True) (forPart m x s) := by
  unfold forPart
  split
  · next e => exact .ok (hx.ok h e)
  · exact .error trivial
theorem collRun_canonical {c : Coll} (h : s.Canonical) : EndsIn State.Canonical (fun _ => True) (collRun c s) :=
  .bind (.foldlM h fun _ _ h => .bind (forPart_canonical srcOf_canonical h) fun _ h => .ok h) fun _ h =>
    .foldlM h fun _ _ h => .bind (forPart_canonical receive_canonical h) fun _ h => .ok h
theorem State.Canonical.collect (h : s.Canonical) : (s.collect op ck rank).Canonical := h
theorem State.Canonical.collwDone {sd : Reg} (h : s.Canonical) : (s.collwDone j op rank sd).Canonical := by
  unfold State.collwDone
  split
  · split
    · exact h.updCtx.collect.endJob
    · exact h
  · exact h
theorem State.Canonical.collComplete (h : s.Canonical) : (s.collComplete op).Canonical := by
  unfold State.collComplete
  split
  · exact h
  · refine .ite h ?_
    split
    · exact h.pushOnce
    · exact h.pushOnce
    · exact h
    · next e =>
      have ht := EndsIn.ok_iff.mp (e ▸ collRun_canonical h)
      refine .foldl ht.updColl fun _ _ h => ?_
      dsimp only
      split
      · exact .ite h.pushOnce h
      · exact h
theorem State.Canonical.collFault (h : s.Canonical) : (s.collFault op).Canonical := by
  unfold State.collFault
  split
  · exact h
  · refine .ite h ?_
    split
    · split
      · exact h
      · split
        · exact .ite h.updColl.pushOnce h
        · exact .ite h.updColl.pushOnce h.updColl.trap
    · exact h
theorem State.Canonical.collResume (h : s.Canonical) : (s.collResume ck op).Canonical := h.updColl.pushOnce
theorem State.Canonical.collAbort (h : s.Canonical) : (s.collAbort ck op).Canonical := by
  refine .pushOnce (.foldl h.updColl fun _ _ h => ?_)
  refine .collect ?_
  split
  · exact h.updCtx.endJob
  · exact h
theorem State.Canonical.execCollw {x : DestF} (h : s.Canonical) : (Machine.execCollw x s).Canonical := by
  refine .issueForm h fun _ _ _ h => .iteEff h ?_
  split
  · exact h
  · exact h.startJob.updCtx.pushOnce
theorem State.Canonical.execCollectiveComplete (h : s.Canonical) : (Machine.execCollectiveComplete s).Canonical := .next h.collComplete
theorem State.Canonical.execCollectiveFault (h : s.Canonical) : (Machine.execCollectiveFault s).Canonical := .next h.collFault

/-! ## System instructions (Machine/System.lean) -/

theorem State.Canonical.execTrap {x : TrapF} (h : s.Canonical) : (Machine.execTrap x s).Canonical := .issueForm h fun _ _ _ h => .iteEff h h
theorem State.Canonical.leaveForm {hdr : Hdr} {f : Issue → Lanes → State → TrapRec → Eff} (h : s.Canonical)
    (hf : ∀ i act t r, t.Canonical → (f i act t r).st.Canonical) : (Machine.leaveForm hdr opc srcs f s).Canonical := by
  refine .issueForm h fun _ _ _ h => .iteEff h ?_
  split
  · exact hf _ _ _ _ h
  · exact h
theorem State.Canonical.afterReturn {k : TrapKind} (h : s.Canonical) : (s.afterReturn ck k).Canonical := by
  unfold State.afterReturn
  split
  · exact h.copyResume
  · exact h.nextResume
  · exact h.collResume
  · exact h
  · exact h
  · exact h
theorem State.Canonical.afterAbandon {k : TrapKind} (h : s.Canonical) : (s.afterAbandon ck k).Canonical := by
  unfold State.afterAbandon
  split
  · exact h.copyAbort
  · exact h.nextAbort
  · exact h.collAbort
  · exact h
  · exact h
  · exact h
theorem State.Canonical.execTret {x : Plain} (h : s.Canonical) : (Machine.execTret x s).Canonical := h.leaveForm fun _ _ _ _ h => h.leaveTrap.afterReturn
theorem State.Canonical.moveEff {r : TrapRec} {target : DWord} (h : s.Canonical) : (Machine.moveEff i act s r target).st.Canonical :=
  .iteEff h h.leaveTrap.afterAbandon
theorem State.Canonical.execTretSkip {x : Plain} (h : s.Canonical) : (Machine.execTretSkip x s).Canonical := h.leaveForm fun _ _ _ _ h => h.moveEff
theorem State.Canonical.execTretTo {x : JumpF} (h : s.Canonical) : (Machine.execTretTo x s).Canonical := h.leaveForm fun _ _ _ _ h => h.moveEff
theorem State.Canonical.execTkill {x : Plain} (h : s.Canonical) : (Machine.execTkill x s).Canonical :=
  h.leaveForm fun _ _ _ _ h => .syncSettle (.ite h.leaveTrap.afterAbandon.updWg h.leaveTrap.afterAbandon)
theorem State.Canonical.dropTlb {core : Nat → Bool} {die : Nat → Bool} {p : Tlb → Bool} (h : s.Canonical) : (s.dropTlb core die p).Canonical := h
theorem State.Canonical.invalidate {range : Option (Nat × Nat)} (h : s.Canonical) : (s.invalidate sc here vfn range).2.Canonical := h
theorem State.Canonical.tlbForm {hdr : Hdr} {srcs : List (Reg × Nat)} {range : State → Issue → Nat → Option (Nat × Nat)}
    (h : s.Canonical) : (Machine.tlbForm hdr sc srcs range s).Canonical := by
  refine .issueForm h fun _ _ _ h => .iteEff h (.iteEff h ?_)
  split
  · exact h
  · exact h.invalidate.startJob
theorem State.Canonical.tlbinvDone {waits : List Nat} (h : s.Canonical) : (s.tlbinvDone id waits).Canonical := .ite h h.endJob
theorem State.Canonical.icForm {hdr : Hdr} {srcs : List (Reg × Nat)} {range : State → Issue → Nat → Option (Nat × Nat)}
    (h : s.Canonical) : (Machine.icForm hdr sc srcs range s).Canonical := by
  unfold Machine.icForm
  dsimp only
  refine .issueForm h fun _ _ _ h => .iteEff h ?_
  split
  · exact h
  · split
    · exact h
    · exact h.pushOnce
    · exact h.startJob
theorem State.Canonical.icinvDone {all : Bool} (h : s.Canonical) : (s.icinvDone j sc a n all).Canonical := .ite h (.endJob (.of_mem_eq h rfl))
theorem State.Canonical.execReclaim {x : ReclaimF} (h : s.Canonical) : (Machine.execReclaim x s).Canonical := by
  refine .issueForm h fun _ _ _ h => .iteEff h (.iteEff h (.iteEff h (.iteEff h ?_)))
  split
  · exact h.arrived.pushOnce
  · exact h.arrived.pushOnce
  · exact h
  · exact h
  · exact .iteEff h (.iteEff h (.iteEff h.arrived.pushOnce (.iteEff h (.iteEff h.arrived.pushOnce (.push (.of_mem_eq h.newId rfl))))))
theorem State.Canonical.execPwrhint {x : PwrhintF} (h : s.Canonical) : (Machine.execPwrhint x s).Canonical := .issueForm h fun _ _ _ h => .ite h h.updWg
theorem State.Canonical.retire (h : s.Canonical) : (s.retire vfn n).Canonical := h
theorem State.Canonical.countD2 (h : s.Canonical) : (s.countD2 n).Canonical := by
  unfold State.countD2
  split
  · exact h.retire
  · exact h
theorem State.Canonical.d2Trap (h : s.Canonical) : (Machine.d2Trap n cause s).Canonical := by
  unfold Machine.d2Trap
  split
  · exact .refused
  · exact .next h.countD2.rejectWord
theorem State.Canonical.d2Nop {x : D2F} (h : s.Canonical) : (Machine.d2Nop x n s).Canonical := .issueForm h.countD2 fun _ _ _ h => h

/-! ## Services to the host (Machine/Service.lean) -/

theorem State.Canonical.wakePage (h : s.Canonical) : (s.wakePage vfn lo n).Canonical := h.lateRetry.wakeAll
theorem State.Canonical.denyPage {die : Option Nat} (h : s.Canonical) : (s.denyPage vfn die lo n cause).Canonical := .foldl (.ite h.updVf h) fun _ _ h => h.trap
theorem State.Canonical.zeroPage (h : s.Canonical) : (s.zeroPage vfn leaf).Canonical := h.updVf.homeWrite
theorem State.Canonical.notPresentAsk (h : s.Canonical) : (State.notPresent.ask s vfn info cks lo n bits).Canonical := by
  unfold State.notPresent.ask
  split
  · next e => exact State.Canonical.denyPage (h.request.of_snd_eq e)
  · next e => exact h.request.of_snd_eq e
theorem State.Canonical.notPresent {page : DWord} (h : s.Canonical) : (s.notPresent vfn page info cks).Canonical := by
  unfold State.notPresent
  split
  · exact h.wakePage
  · exact h.wakePage
  · exact h.wakePage
  · refine .ite h ?_
    split
    · exact .ite h.zeroPage.wakePage h.notPresentAsk
    · exact h.notPresentAsk
theorem State.Canonical.execNotPresentFault (h : s.Canonical) : (Machine.execNotPresentFault s).Canonical := .next h.notPresent
theorem State.Canonical.walkMiss {cks : List Nat} (h : s.Canonical) : (s.walkMiss vfn va info cks).Canonical := by
  refine .ite h ?_
  split
  · next e => exact (h.request.of_snd_eq e).denyPage
  · next e => exact h.request.of_snd_eq e
theorem State.Canonical.execWalkMissRecord (h : s.Canonical) : (Machine.execWalkMissRecord s).Canonical := .next h.walkMiss
theorem State.Canonical.denyOpen {o : Open} (h : s.Canonical) : (s.denyOpen vfn o).Canonical := .ite h.denyPage (.ite h.denyPage h)
theorem State.Canonical.tqRetry (h : s.Canonical) : (s.tqRetry vfn fuel).Canonical := by
  induction fuel generalizing s with
  | zero => exact h
  | succ n ih =>
    unfold State.tqRetry
    split
    · exact h
    · split
      · next e => exact ih (State.Canonical.updVf (h.putWords.of_snd_eq e))
      · exact h
      · next e => exact ih (State.Canonical.denyOpen (State.Canonical.updVf (h.putWords.of_snd_eq e)))
theorem State.Canonical.tqScan (h : s.Canonical) : (s.tqScan vfn).Canonical := .tqRetry (.foldl h.updVf fun _ _ h => h.denyOpen)
theorem State.Canonical.tqCopy (h : s.Canonical) : (s.tqCopy vfn).Canonical :=
  .ite h (.ite h.homeWrite.updVf.devWriteDWord.pushOnce (.ite (.ite h.devWriteDWord.devWriteDWord.tqScan.pushOnce h) h))
theorem State.Canonical.execTrapQueueLogCopy (h : s.Canonical) : (Machine.execTrapQueueLogCopy s).Canonical := .next h.tqCopy.tqScan
theorem State.Canonical.reclaimWords {ws : List (Nat × Word)} (h : s.Canonical) : (s.reclaimWords ws).Canonical := by
  have hw : ∀ u : State, u.Canonical → ∀ w x, ({ u with mem := Memory.setWord u.mem (4 * w) x } : State).Canonical := fun _ h _ _ => Memory.wf_setWord _ _ _ h
  unfold State.reclaimWords
  extract_lets wasU written
  have h : written.Canonical := .foldl h fun _ _ h => .clearResvOthers (.setDir (hw _ (.foldl h fun _ _ h => h.holderGiveUp) _ _))
  exact .ite h h
theorem State.Canonical.tqAnswer (h : s.Canonical) : (s.tqAnswer vfn v).Canonical := by
  refine .ite h ?_
  split
  · exact h
  · refine .ite h.hostAgain (.tqScan ?_)
    refine .pushOnce (.ite h.updVf.denyOpen ?_)
    refine .ite h.updVf.wakePage (.ite ?_ h.updVf.reclaimWords)
    refine .ite h.updVf.denyOpen ?_
    split
    · exact h.updVf.updDie.wakePage
    · exact h.updVf.denyPage
theorem State.Canonical.execTqresp (h : s.Canonical) : (Machine.execTqresp s).Canonical := .next (.ite h.tqAnswer h)
theorem State.Canonical.poolRecord {lost : Bool} (h : s.Canonical) : (s.poolRecord vfn lost).Canonical := .ite h h.request
theorem State.Canonical.poolRefill {lost : Bool} (h : s.Canonical) : (s.poolRefill vfn lost).Canonical :=
  .ite h.poolRecord (.ite h (.ite h.poolRecord (.ite (.ite h.updVf.pushOnce h.updVf) h)))
theorem State.Canonical.execFramePoolRefill (h : s.Canonical) : (Machine.execFramePoolRefill s).Canonical := .next h.poolRefill
theorem State.Canonical.fpGrow {g : DWord} (h : s.Canonical) : (s.fpGrow vfn g).Canonical := .ite h h.updVf
theorem State.Canonical.execFpgrow (h : s.Canonical) : (Machine.execFpgrow s).Canonical := .next (.ite h.fpGrow h)
theorem State.Canonical.orphanRecorded (h : s.Canonical) : (s.orphanRecorded holder ws).Canonical :=
  .foldl h.orphan fun _ _ h => .foldl h fun _ _ h => h.request
theorem State.Canonical.nextPages (h : s.Canonical) : s.nextPages.Canonical := .foldl h fun _ _ h => h.pushOnce
theorem State.Canonical.releasePage {va : Nat} (h : s.Canonical) : (s.releasePage vfn va).Canonical := by
  refine .nextPages (.lateRetry ?_)
  split
  · exact h.updVf.wakeAll
  · exact h.updVf
theorem State.Canonical.quiesceDone (h : s.Canonical) : (s.quiesceDone vfn).Canonical := .ite h.updVf h
theorem State.Canonical.execQuiesce (h : s.Canonical) : (Machine.execQuiesce s).Canonical := .next h.quiesceDone
theorem State.Canonical.dropReqs {p : Req → Bool} (h : s.Canonical) : (s.dropReqs p).Canonical := .foldl (.of_mem_eq h rfl) fun _ _ h => h.wakeReqs
theorem State.Canonical.discardWgs {p : Nat → Bool} (h : s.Canonical) : (s.discardWgs p).Canonical :=
  .of_mem_eq (.foldl h.dropReqs fun _ _ h => .ite (.foldl h fun _ _ h => .ite h.clearWay h) h) rfl
theorem State.Canonical.flr (h : s.Canonical) : (s.flr vfn).Canonical := by
  unfold State.flr
  extract_lets gone dead kept flushed offered
  have hg : gone.Canonical := h.discardWgs
  have ho : offered.Canonical := .foldl (State.Canonical.nextPages (s := kept.updVf vfn Vf.flr) hg) fun _ _ h => .ite h h.pushOnce
  exact .ite h.quiesce.pushOnce (.ite ho ho.pushOnce)
theorem State.Canonical.execFunctionLevelReset (h : s.Canonical) : (Machine.execFunctionLevelReset s).Canonical := .next (.ite h.flr h)

/-! ## Home, failures and the host's accesses (Machine/Home.lean) -/

theorem State.Canonical.standpipe (h : s.Canonical) : (s.standpipe id).Canonical := by
  unfold State.standpipe
  split
  · exact h
  · extract_lets fell told
    have ht : told.Canonical := .ite h.updReq (.foldl h.updReq fun _ _ h => .ite h.pushOnce h)
    exact .ite h (.ite ht ht.announce)
theorem State.Canonical.execStandpipeAnnounce (h : s.Canonical) : (Machine.execStandpipeAnnounce s).Canonical := .next h.standpipe
theorem State.Canonical.homeEvent {served : State → Req → State} (h : s.Canonical) (hs : ∀ t r, t.Canonical → (served t r).Canonical) :
    (Machine.homeEvent kind served s).Canonical := by
  refine .next ?_
  split
  · exact .ite (h.homeServe hs) h
  · exact h
theorem State.Canonical.serveRead {r : Req} (h : s.Canonical) : (Machine.serveRead s r).Canonical := h.afterServe.grant
theorem State.Canonical.dropUw {r : Req} (h : s.Canonical) : (s.dropUw r).Canonical := .foldl h fun _ _ h => .foldl h fun _ _ h => .ite h.setL1 h
theorem State.Canonical.serveWrite {r : Req} (h : s.Canonical) : (Machine.serveWrite s r).Canonical := h.dropUw.finishReq.afterServe
theorem State.Canonical.execHomeRdu (h : s.Canonical) : (Machine.execHomeRdu s).Canonical := h.homeEvent fun _ _ h => h.serveRead
theorem State.Canonical.execHomeRdt (h : s.Canonical) : (Machine.execHomeRdt s).Canonical := h.homeEvent fun _ _ h => h.serveRead
theorem State.Canonical.execHomeRdo (h : s.Canonical) : (Machine.execHomeRdo s).Canonical := h.homeEvent fun _ _ h => h.serveRead
theorem State.Canonical.execHomeWrw (h : s.Canonical) : (Machine.execHomeWrw s).Canonical := h.homeEvent fun _ _ h => h.serveWrite
theorem State.Canonical.execHomeAth (h : s.Canonical) : (Machine.execHomeAth s).Canonical := h.homeEvent fun _ _ h => h.serveWrite
theorem State.Canonical.serveReclaim {r : Req} (h : s.Canonical) : (Machine.serveReclaim s r).Canonical := by
  unfold Machine.serveReclaim
  dsimp only
  refine .wakeReqs (.foldl (.of_mem_eq (.reclaimWords (.foldl h fun _ _ h => h.setDir)) rfl) fun _ _ h => ?_)
  split
  · exact .ite h.pushOnce h
  · exact h
theorem State.Canonical.execHomeReclaim (h : s.Canonical) : (Machine.execHomeReclaim s).Canonical := h.homeEvent fun _ _ h => h.serveReclaim
theorem State.Canonical.execHomeWb (h : s.Canonical) : (Machine.execHomeWb s).Canonical := .next (.ite h.flushWord h)
theorem State.Canonical.execHomeDrop (h : s.Canonical) : (Machine.execHomeDrop s).Canonical := by
  refine .next ?_
  split
  · exact h
  · exact h
  · exact h.setL1.clearResv
  · exact h.flushWord
theorem State.Canonical.recall (h : s.Canonical) : (s.recall id n).Canonical := by
  unfold State.recall
  split
  · exact h
  · refine .ite h ?_
    extract_lets lines refusal how asked ws given
    have hr : ∀ t, refusal = some t → t.Canonical := by
      intro t e
      unfold refusal at e
      split at e
      · dsimp only at e
        split at e <;> cases e
        exact h
      · cases e
    clear_value refusal
    cases refusal with
    | some t => exact (hr t rfl).pushOnce
    | none => exact .pushOnce (.updReq (.foldl (.ite (.foldl h fun _ _ h => h.clearResvDie) h) fun _ _ h => h.holderGiveUp))
theorem State.Canonical.execHolderRecall (h : s.Canonical) : (Machine.execHolderRecall s).Canonical := .next h.recall
theorem State.Canonical.execRecallRefusalExpiry (h : s.Canonical) : (Machine.execRecallRefusalExpiry s).Canonical := .next (.ite h.pushOnce h)
theorem State.Canonical.failL1 (h : s.Canonical) : (s.failL1 core).Canonical := .countUnc (.orphanRecorded (.of_mem_eq (.foldl h fun _ _ h => h.flushWord) rfl))
theorem State.Canonical.failAgent (h : s.Canonical) : (s.failAgent die).Canonical := .ite h (.orphanRecorded (.updDie (.of_mem_eq h rfl)))
theorem State.Canonical.failHost {written : List Nat} (h : s.Canonical) : (s.failHost written).Canonical := .ite h (.orphanRecorded (.of_mem_eq h rfl))
theorem State.Canonical.failStore (h : s.Canonical) : (s.failStore n ws).Canonical :=
  .ite h (.ite h.countUnc (State.Canonical.orphanRecorded (s := (s.free 4).2) h).countUnc)
theorem State.Canonical.failCist (h : s.Canonical) : (s.failCist core ws).Canonical := h
theorem State.Canonical.reinject (h : s.Canonical) : (s.reinject id).Canonical := by
  unfold State.reinject
  split
  · exact .ite h h.updReq
  · exact h
theorem State.Canonical.execHolderFail (h : s.Canonical) : (Machine.execHolderFail s).Canonical := by
  refine .next ?_
  split
  · exact h.failL1
  · exact h.failAgent
  · exact h.failHost
  · exact h.failStore
  · exact h.failCist
  · exact .countUnc (.foldl h fun _ _ h => h.reinject)
  · exact .ite h.updPf h
theorem State.Canonical.execLinkDown (h : s.Canonical) : (Machine.execLinkDown s).Canonical := .next h.countUnc.failAgent
theorem State.Canonical.parityError (h : s.Canonical) : (s.parityError ck code).Canonical := by
  unfold State.parityError
  split
  · exact h
  · exact h.setCtx.countUnc.fatal
theorem State.Canonical.execRegisterParityError (h : s.Canonical) : (Machine.execRegisterParityError s).Canonical := .next h.parityError
theorem State.Canonical.clearRange {untracked : Bool} (h : s.Canonical) : (s.clearRange pa n untracked).Canonical :=
  .of_mem_eq (.foldl h fun _ _ h => .ite h.setL1 h.l1GiveUp) rfl
theorem State.Canonical.writeShared (h : s.Canonical) : (s.writeShared leaf).Canonical := h.homeWrite
theorem State.Canonical.reclassAccs {t : Tlb} (h : s.Canonical) : (s.reclassAccs t).Canonical := .foldl (.of_mem_eq h.dropReqs rfl) fun _ _ h => h.pushOnce
theorem State.Canonical.reclassify {va : Nat} (h : s.Canonical) : (s.reclassify vfn va).Canonical := by
  unfold State.reclassify
  split
  · exact .ite h.dropTlb.releasePage (.ite h (.ite h.updVf h.updVf.reclassAccs.clearRange.writeShared.dropTlb.releasePage))
  · exact h.dropTlb.releasePage
theorem State.Canonical.execReclassification (h : s.Canonical) : (Machine.execReclassification s).Canonical := .next h.reclassify
theorem State.Canonical.hostTakes (h : s.Canonical) : (s.hostTakes kind w).Canonical := .ite h (.setDir (.foldl h fun _ _ h => .ite h h.holderGiveUp))
theorem State.Canonical.hostRead (h : s.Canonical) : (s.hostRead a).Canonical := by
  unfold State.hostRead
  extract_lets base ws used taken
  have ht : taken.Canonical := .ite (.foldl h.llcUse fun _ _ h => h.hostTakes) h.llcUse
  exact .ite h (.ite h.hostAgain (.ite ht ht))
theorem State.Canonical.hostWrite (h : s.Canonical) : (s.hostWrite a bs).Canonical := by
  unfold State.hostWrite
  extract_lets bytes ws used taken lost
  have ht : taken.Canonical := .ite (.foldl h.llcUse fun _ _ h => h.hostTakes) h.llcUse
  exact .ite h (.ite h.hostAgain (Memory.wf_writeSome _ _ _ _ ht))
theorem State.Canonical.execHostCxlMemRead (h : s.Canonical) : (Machine.execHostCxlMemRead s).Canonical := .next (.ite h.hostRead h)
theorem State.Canonical.execHostCxlMemWrite (h : s.Canonical) : (Machine.execHostCxlMemWrite s).Canonical :=
  .next (.ite (.foldl h.hostWrite fun _ _ h => .tqScan (.ite h h.pushOnce)) h)
theorem State.Canonical.hostSnoop {inval : Bool} (h : s.Canonical) : (s.hostSnoop a inval bs).Canonical := by
  unfold State.hostSnoop
  extract_lets ws how recalled
  have hr : recalled.Canonical := .foldl h fun _ _ h => .setDir (.foldl h fun _ _ h => h.holderGiveUp)
  exact .ite h (.ite h.push (.ite (Memory.wf_writeN _ _ _ hr) hr))
theorem State.Canonical.execHostCxlCacheSnoop (h : s.Canonical) : (Machine.execHostCxlCacheSnoop s).Canonical := .next (.ite h.hostSnoop h)
theorem State.Canonical.setElem {x : Nat × Nat} {f : Elem → Elem} (h : s.Canonical) : (s.setElem x f).Canonical := h
theorem State.Canonical.sumpLeave {xs : List (Nat × Nat)} (h : s.Canonical) : (s.sumpLeave xs).Canonical := by
  unfold State.sumpLeave
  extract_lets named
  split
  next t miss _ e =>
  have ht : t.Canonical := by
    refine State.Canonical.of_fst_eq (.foldlFst h fun _ _ h => ?_) e
    dsimp only
    split
    · exact h
    · exact .iteFst h (.iteFst h (.iteFst h.perform.setElem h))
  split
  · exact ht
  · exact .foldl ht fun _ _ h => .foldl h.inject fun _ _ h => h.setElem
theorem State.Canonical.sumpClose (h : s.Canonical) : (s.sumpClose core).Canonical := by
  unfold State.sumpClose
  split
  · exact h
  · exact .ite h (.foldl (.foldl (.foldl h.updCore fun _ _ h => h.setElem) fun _ _ h => h.sumpLeave) fun _ _ h => h.pushOnce)
theorem State.Canonical.execSumpWindowClose (h : s.Canonical) : (Machine.execSumpWindowClose s).Canonical := .next h.sumpClose

/-! ## The happenings of the pipeline (Machine/Pipe.lean) -/

theorem State.Canonical.execIssueCycle (h : s.Canonical) : (Machine.execIssueCycle s).Canonical := .next h.issueCycle
theorem State.Canonical.fetchWords {va : Nat} (h : s.Canonical) : (s.fetchWords ck va pa cls n).Canonical := by
  induction n generalizing s va pa with
  | zero => exact h
  | succ k ih =>
    unfold State.fetchWords
    extract_lets core give
    have hg : ∀ t w, t.Canonical → (give t w).Canonical := fun _ _ h => ih h.updCtx
    split
    · exact hg _ _ h
    · exact .ite h (hg _ _ h.fetchRead.updCore)
theorem State.Canonical.fetchFill (h : s.Canonical) : (s.fetchFill ck va).Canonical := by
  unfold State.fetchFill
  dsimp only
  refine .ite h ?_
  split
  · refine .ite ?_ h.fetchWords
    split
    · exact h
    · exact h.trap
  · exact h
theorem State.Canonical.execInstructionFetchFill (h : s.Canonical) : (Machine.execInstructionFetchFill s).Canonical := .next h.fetchFill
theorem State.Canonical.execFixedLatencyWriteback (h : s.Canonical) : (Machine.execFixedLatencyWriteback s).Canonical := .next h.settle
theorem State.Canonical.runJob (h : s.Canonical) : (s.runJob j).Canonical := by
  unfold State.runJob
  split
  · exact h.tldRow
  · exact h.tstRow
  · exact .ite h h.updWg.endJob
  · exact .ite h h.twaitDone.endJob
  · exact h.tlbinvDone
  · exact h.icinvDone
  · exact .ite h h.endJob
  · exact h.collwDone
  · exact .ite h h.runNext
  · exact h.endNext
  · exact .ite h h.endJob
theorem State.Canonical.moveOn (h : s.Canonical) : (s.moveOn id).Canonical := by
  unfold State.moveOn
  split
  · exact h.advance.complete
  · exact h.runJob
  · exact h
theorem State.Canonical.execFlagCountDown (h : s.Canonical) : (Machine.execFlagCountDown s).Canonical := .next h.moveOn
theorem State.Canonical.execFairnessTurn (h : s.Canonical) : (Machine.execFairnessTurn s).Canonical := .next (.ite h.updCtx h)
theorem State.Canonical.enterNext (h : s.Canonical) : (s.enterNext ck).Canonical := by
  unfold State.enterNext
  dsimp only
  split
  · exact .ite h.updCtx.fatal h.updCtx.enterTrap
  · exact h
theorem State.Canonical.execTrapEntryDeferred (h : s.Canonical) : (Machine.execTrapEntryDeferred s).Canonical := .next h.enterNext
theorem State.Canonical.execTrapLevelTimeout (h : s.Canonical) : (Machine.execTrapLevelTimeout s).Canonical := .next h.updCtx

/-! ## Registers, windows and power (Machine/HostRegs.lean) -/

theorem State.Canonical.vfWritten {r : VfReg} (h : s.Canonical) : (s.vfWritten vfn r).Canonical := by
  unfold State.vfWritten
  split
  · exact h.pushOnce
  · exact h.pushOnce
  · exact h.pushOnce
  · exact h.tqRetry
  · exact h
theorem State.Canonical.vfWrite {off : Nat} {x : DWord} (h : s.Canonical) : (s.vfWrite vfn off x).Canonical := by
  unfold State.vfWrite
  split
  · exact h
  · exact .ite h.updVf.vfWritten h
theorem State.Canonical.pfWrite {off : Nat} {x : DWord} (h : s.Canonical) : (s.pfWrite off x).Canonical := by
  refine .ite (.ite h.updPf h) (.ite h.updPf ?_)
  refine .ite ?_ h
  refine .ite h ?_
  split
  · exact .ite h.updPf h
  · exact .ite h.updPf h
  · exact .ite h.updPf h
  · exact h
theorem State.Canonical.execRegisterWrite (h : s.Canonical) : (Machine.execRegisterWrite s).Canonical :=
  .next (.ite h (.ite (.of_mem_eq h rfl) (.ite h.pfWrite h.vfWrite)))
theorem State.Canonical.execDutyselWrite (h : s.Canonical) : (Machine.execDutyselWrite s).Canonical := .next (.ite h (.ite h h.updVf))
theorem State.Canonical.invStart (h : s.Canonical) : (s.invStart vfn mode v).Canonical := .ite h h.invalidate.updVf.pushOnce
theorem State.Canonical.execInvctlPage (h : s.Canonical) : (Machine.execInvctlPage s).Canonical := .next h.invStart
theorem State.Canonical.execInvctlRange (h : s.Canonical) : (Machine.execInvctlRange s).Canonical := .next h.invStart
theorem State.Canonical.execInvctlVf (h : s.Canonical) : (Machine.execInvctlVf s).Canonical := .next h.invStart
theorem State.Canonical.invDone (h : s.Canonical) : (s.invDone vfn).Canonical := .ite h (.updVf (.foldl h fun _ _ h => h.clearRange))
theorem State.Canonical.execInvctlComplete (h : s.Canonical) : (Machine.execInvctlComplete s).Canonical := .next h.invDone
theorem State.Canonical.fwWrite (h : s.Canonical) : (s.fwWrite n v).Canonical := .ite h (.ite h.updPf (.ite h.updPf h))
theorem State.Canonical.execFwctlWrite (h : s.Canonical) : (Machine.execFwctlWrite s).Canonical := .next (.ite h.fwWrite h)
theorem State.Canonical.execFormatWindowChangeDone (h : s.Canonical) : (Machine.execFormatWindowChangeDone s).Canonical := .next (.ite h.llcDrop.updPf h)
theorem State.Canonical.execPwrctlWrite (h : s.Canonical) : (Machine.execPwrctlWrite s).Canonical := .next (.ite h.updPf h)
theorem State.Canonical.execTokcapWrite (h : s.Canonical) : (Machine.execTokcapWrite s).Canonical := .next (.ite h.updPf h)
theorem State.Canonical.execTokrateWrite (h : s.Canonical) : (Machine.execTokrateWrite s).Canonical := .next (.ite h.updPf h)
theorem State.Canonical.execTokenRefill (h : s.Canonical) : (Machine.execTokenRefill s).Canonical :=
  .next (.ite (.ite h.updPf.pushOnce h.updPf) (.pushOnce (.ite h.updPf.pushOnce h.updPf)))
theorem State.Canonical.grantToken (h : s.Canonical) : s.grantToken.Canonical := by
  unfold State.grantToken
  split
  · exact h
  · extract_lets taken again
    have ha : ∀ t, t.Canonical → (again t).Canonical := fun _ h => .ite h h.pushOnce
    exact .ite (ha _ h) (.ite h (ha _ h))
theorem State.Canonical.execTokenGrant (h : s.Canonical) : (Machine.execTokenGrant s).Canonical := .next h.grantToken
theorem State.Canonical.execPowerMeasure (h : s.Canonical) : (Machine.execPowerMeasure s).Canonical := .next (.ite h h)
theorem State.Canonical.boundary (h : s.Canonical) : (s.boundary slice).Canonical := h
theorem State.Canonical.execPersistBoundaryInterval (h : s.Canonical) : (Machine.execPersistBoundaryInterval s).Canonical :=
  .next (.foldl h fun _ _ h => h.boundary)
theorem State.Canonical.setIsland {low : Bool} (h : s.Canonical) : (s.setIsland n v low).Canonical := h
theorem State.Canonical.powerDown (h : s.Canonical) : s.powerDown.Canonical := h
theorem State.Canonical.execThermalThrottle (h : s.Canonical) : (Machine.execThermalThrottle s).Canonical :=
  .next (.ite h.setIsland.powerDown (.ite h.setIsland h))
theorem State.Canonical.execThermalThrottleEnd (h : s.Canonical) : (Machine.execThermalThrottleEnd s).Canonical := .next (.ite h.setIsland h)
theorem State.Canonical.execThermalShutdown (h : s.Canonical) : (Machine.execThermalShutdown s).Canonical := .next (.ite h.setIsland.powerDown h)

/-! ## Reset, mailbox and objects (Machine/Boot.lean) -/

theorem State.Canonical.runImage {f : List Byte} (h : s.Canonical) : (s.runImage f).Canonical := h
theorem State.Canonical.boot (h : s.Canonical) : s.boot.Canonical := by
  unfold State.boot
  extract_lets base t
  have ht : t.Canonical := Tab.wf_filter _ _ (fun a _ => decide (hostBase ≤ a)) h
  exact .ite ht.runImage ht
theorem State.Canonical.execModuleReset (h : s.Canonical) : (Machine.execModuleReset s).Canonical := .next h.boot
theorem State.Canonical.mbStatus (h : s.Canonical) : (s.mbStatus v).Canonical := h
theorem State.Canonical.imageStart (h : s.Canonical) : s.imageStart.Canonical := .ite h.mbStatus h.updPf.pushOnce
theorem State.Canonical.imageEnd {f : List Byte} (h : s.Canonical) : (s.imageEnd f).Canonical := by
  unfold State.imageEnd
  extract_lets cleared stored
  exact .ite (State.Canonical.mbStatus (s := cleared) h) (.ite (State.Canonical.mbStatus (s := stored) h) (State.Canonical.runImage (s := stored) h))
theorem State.Canonical.execPowerFail (h : s.Canonical) : (Machine.execPowerFail s).Canonical := .next (.ite (.powerDown (.of_mem_eq h rfl)) h.powerDown)
theorem State.Canonical.execMailboxImage (h : s.Canonical) : (Machine.execMailboxImage s).Canonical := by
  refine .next (.ite ?_ (.ite h.imageStart h))
  split
  · exact h.imageEnd
  · exact h
theorem State.Canonical.quote (h : s.Canonical) : s.quote.Canonical := by
  have hw : ∀ n bs, ({ s with mem := Memory.writeN s.mem n bs } : State).Canonical := fun _ _ => .setMem (Memory.wf_writeN _ _ _ h)
  unfold State.quote
  extract_lets vfn out
  split
  · exact h.mbStatus
  · exact (hw _ _).mbStatus
theorem State.Canonical.execMailboxQuote (h : s.Canonical) : (Machine.execMailboxQuote s).Canonical := .next (.ite h.quote h)
theorem State.Canonical.keyset (h : s.Canonical) : s.keyset.Canonical := .ite h.mbStatus h.updVf.updPf
theorem State.Canonical.execMailboxKeyset (h : s.Canonical) : (Machine.execMailboxKeyset s).Canonical := .next (.ite h.keyset h)
theorem State.Canonical.execMailboxUnknownCommand (h : s.Canonical) : (Machine.execMailboxUnknownCommand s).Canonical := .next (.ite h.mbStatus h)
theorem State.Canonical.placeObject {o : List Byte} {ns : List Note} {im : Image} (h : s.Canonical) : (s.placeObject vfn o ns im base).Canonical := by
  unfold State.placeObject
  extract_lets put sections code relocated tq
  have hp : ∀ t b bs, t.Canonical → (put t b bs).Canonical := fun _ _ _ h => h.devWrite
  have hs : sections.Canonical := .foldl h fun _ _ => hp _ _ _
  have hc : code.Canonical := .ite (.foldl hs fun _ _ => hp _ _ _) hs
  exact .foldl (.foldl hc fun _ _ => hp _ _ _) fun _ _ => hp _ _ _
theorem State.Canonical.admitPage (h : s.Canonical) : (s.admitPage vfn a).Canonical := by
  unfold State.admitPage
  split
  · exact h
  · exact .of_mem_eq h.homeWrite rfl
theorem State.Canonical.dressPage {x : Section} (h : s.Canonical) : (s.dressPage vfn x a).Canonical := by
  unfold State.dressPage
  split
  · exact h
  · extract_lets attr entry cleared dressed
    have hc : cleared.Canonical := .ite h.clearRange.homeWrite h
    have hd : dressed.Canonical := .ite hc hc.homeWrite
    exact .ite hd hd.dropTlb
theorem State.Canonical.load {o : List Byte} {host : Option Nat} (h : s.Canonical) : (s.load vfn o base host).Canonical := by
  unfold State.load
  split
  · exact .of_mem_eq h rfl
  · split
    · exact h.pushOnce.push
    · exact .of_mem_eq (.foldl (.updVf (.newId (.placeObject (.foldl h fun _ _ h => .foldl h fun _ _ h => h.dressPage)))) fun _ _ h => h.admitPage) rfl
theorem State.Canonical.execObjectLoad (h : s.Canonical) : (Machine.execObjectLoad s).Canonical := .next (.ite h.load h)
theorem State.Canonical.execObjectUnload (h : s.Canonical) : (Machine.execObjectUnload s).Canonical := .next (.ite h.updVf h)

/-! ## Pair words (Machine/Pair.lean) -/

theorem State.Canonical.pairEff {op : PairOp} {x : PairW} (h : s.Canonical) : (Machine.pairEff op x i s).st.Canonical := .ite h h
theorem State.Canonical.issuePair {op : PairOp} {x : PairW} (h : s.Canonical) : (Machine.issuePair op x s).Canonical := by
  unfold Machine.issuePair
  split
  · exact .refused
  · split
    · exact .next h.rejectWord
    · exact .next h.pairEff.finish

/-! ## Every instruction (Machine/Dispatch.lean) -/

/-- The instructions and the happenings, in the order in which the dispatch names them; each group begins with the model file it is of. -/
theorem State.Canonical.exec {s : State} (h : s.Canonical) (i : Instr) : Out.Canonical (Machine.exec i s) := by
  unfold Machine.exec
  cases i with
  -- Integer.lean
  | iadd | isub | imul | imulh | imad | imin | imax | and | or | xor | andn | shl | shr | sar | bfx | bfi => exact h.intRegs
  | iaddX | isubX | imulX | imulhX | iminX | imaxX | andX | orX | xorX | andnX | shlX | shrX | sarX | bfxX | bfiX => exact h.intImm
  | iabs | popc | clz | brev => exact h.intOne
  | lea => exact h.execLea
  | icmp => exact h.execIcmp
  | icmpX => exact h.execIcmpX
  | sel => exact h.execSel
  | movi => exact h.execMovi
  | moviX => exact h.execMoviX
  -- Floating.lean
  | fadd | fsub | fmul | hadd2 | hmul2 | badd2 | bmul2 => exact h.fpTwo
  | faddX | fsubX | fmulX => exact h.fpImm
  | ffma | hfma2 | bfma2 => exact h.fpThree
  | fmin | fmax => exact h.fpMinMax
  | fcmp => exact h.execFcmp
  | frcp | frsq | fsqrt | fexp2 | flog2 | fsin | fcos | frnd | fclass => exact h.fpOne
  -- Move.lean
  | mov => exact h.execMov
  | movs => exact h.execMovs
  | f2i | i2f | fcvt => exact h.fpOne
  | qpack => exact h.execQpack
  | qunpk => exact h.execQunpk
  | shfl => exact h.execShfl
  | vote => exact h.execVote
  | redg | scang => exact h.reduce
  | rdsr => exact h.execRdsr
  | wrsr => exact h.execWrsr
  | movts => exact h.execMovts
  -- Control.lean
  | nop => exact h.execNop
  | bra => exact h.execBra
  | braX => exact h.execBraX
  | brx => exact h.execBrx
  | call => exact h.execCall
  | callX => exact h.execCallX
  | callx => exact h.execCallx
  | ret => exact h.execRet
  | land => exact h.execLand
  | exit => exact h.execExit
  | yield => exact h.execYield
  | dqpush => exact h.execDqpush
  | dqpop => exact h.execDqpop
  | tfence => exact h.execTfence
  -- Memory.lean
  | ld8 | ld16 | ld32 | ld64 | ld128 => exact h.loadF
  | ld8X | ld16X | ld32X | ld64X | ld128X => exact h.loadX
  | st8 | st16 | st32 | st64 | st128 => exact h.storeF
  | st8X | st16X | st32X | st64X | st128X => exact h.storeX
  | lds | ldsX => exact h.ldsForm
  | sts | stsX => exact h.stsForm
  | ldlv => exact h.execLdlv
  | stlv => exact h.execStlv
  | ldp | ldpX => exact h.prefetchForm
  | gath | gathX => exact h.gathForm
  | scat | scatX => exact h.scatForm
  | cinv => exact h.execCinv
  | cflush => exact h.execCflush
  | fence => exact h.execFence
  -- Sync.lean
  | ldfe | ldfeX => exact h.ldfeForm
  | stef | stefX => exact h.stefForm
  | feset => exact h.execFeset
  | atom => exact h.execAtom
  | atcas => exact h.execAtcas
  | red => exact h.execRed
  | lr | lrX => exact h.lrForm
  | sc => exact h.execSc
  | bari => exact h.execBari
  | bariX => exact h.execBariX
  | bara => exact h.execBara
  | barad => exact h.execBarad
  | barw => exact h.execBarw
  | bart => exact h.execBart
  | sync => exact h.execSync
  -- Tile.lean
  | tld => exact h.execTld
  | tst => exact h.execTst
  | tzero => exact h.execTzero
  | tmma | tmms | tmmq => exact h.matForm
  | trdy => exact h.execTrdy
  | twait => exact h.execTwait
  | tacc => exact h.execTacc
  | taccXp => exact h.execTaccXp
  | taccScl => exact h.execTaccScl
  | taccWr => exact h.execTaccWr
  | tgemm => exact h.execTgemm
  -- Copy.lean
  | cpy | cpym | cpycv | cpylb => exact h.copyForm
  -- Stream.lean
  | fbopen | fbskip | fbsave | fbsaveX | fbrest | fbrestX => exact h.streamForm
  | fbnext => exact h.execFbnext
  | fbmeet | fbjoin => exact h.pairForm
  -- Coll.lean
  | coll => exact h.execColl
  | collw => exact h.execCollw
  -- Grid.lean
  | launch => exact h.execLaunch
  | join => exact h.execJoin
  -- System.lean
  | trap => exact h.execTrap
  | tret => exact h.execTret
  | tretSkip => exact h.execTretSkip
  | tretTo => exact h.execTretTo
  | tkill => exact h.execTkill
  | tlbinvPage | tlbinvRange | tlbinvVf => exact h.tlbForm
  | icinv | icinvAll => exact h.icForm
  | reclaim => exact h.execReclaim
  | pwrhint => exact h.execPwrhint
  | brstk | ldcoh | stcoh | mma8 | bymix => exact h.d2Trap
  | rcvpt | rcvj | scbwait => exact h.d2Nop
  -- Pair.lean
  | nopPair | iaddPair | isubPair | imulPair | iminPair | imaxPair | andPair | orPair | xorPair | andnPair | shlPair | shrPair | sarPair | faddPair | fsubPair
    | fmulPair | fminPair | fmaxPair | hadd2Pair | hmul2Pair | badd2Pair | bmul2Pair | movPair | f2iPair | i2fPair => exact h.issuePair
  -- Pipe.lean
  | issueCycle => exact h.execIssueCycle
  | instructionFetchFill => exact h.execInstructionFetchFill
  | fixedLatencyWriteback => exact h.execFixedLatencyWriteback
  | flagCountDown => exact h.execFlagCountDown
  | fairnessTurn => exact h.execFairnessTurn
  | trapEntryDeferred => exact h.execTrapEntryDeferred
  | trapLevelTimeout => exact h.execTrapLevelTimeout
  -- Home.lean
  | standpipeAnnounce => exact h.execStandpipeAnnounce
  | homeRdu => exact h.execHomeRdu
  | homeRdt => exact h.execHomeRdt
  | homeRdo => exact h.execHomeRdo
  | homeWrw => exact h.execHomeWrw
  | homeAth => exact h.execHomeAth
  | homeWb => exact h.execHomeWb
  | homeDrop => exact h.execHomeDrop
  | homeReclaim => exact h.execHomeReclaim
  | holderRecall => exact h.execHolderRecall
  | recallRefusalExpiry => exact h.execRecallRefusalExpiry
  | holderFail => exact h.execHolderFail
  | reclassification => exact h.execReclassification
  | hostCxlMemRead => exact h.execHostCxlMemRead
  | hostCxlMemWrite => exact h.execHostCxlMemWrite
  | sumpWindowClose => exact h.execSumpWindowClose
  -- Copy.lean
  | copyChannelStart => exact h.execCopyChannelStart
  | copyArrival => exact h.execCopyArrival
  | channelWptrUpdate => exact h.execChannelWptrUpdate
  | copyFault => exact h.execCopyFault
  | matrixOpStart => exact h.execMatrixOpStart
  | matrixOpComplete => exact h.execMatrixOpComplete
  | pumpStep => exact h.execPumpStep
  | selfTest => exact h.execSelfTest
  -- HostRegs.lean
  | tokenRefill => exact h.execTokenRefill
  | tokenGrant => exact h.execTokenGrant
  | powerMeasure => exact h.execPowerMeasure
  | persistBoundaryInterval => exact h.execPersistBoundaryInterval
  -- Grid.lean
  | workgroupPlace => exact h.execWorkgroupPlace
  | coresidentPlace => exact h.execCoresidentPlace
  | priorityAging => exact h.execPriorityAging
  | coresidentWithhold => exact h.execCoresidentWithhold
  | wayDrain => exact h.execWayDrain
  | workgroupRetire => exact h.execWorkgroupRetire
  | gridRetire => exact h.execGridRetire
  -- Coll.lean
  | collectiveComplete => exact h.execCollectiveComplete
  | collectiveFault => exact h.execCollectiveFault
  -- Stream.lean
  | streamElementFault => exact h.execStreamElementFault
  -- Service.lean
  | notPresentFault => exact h.execNotPresentFault
  | walkMissRecord => exact h.execWalkMissRecord
  | quiesce => exact h.execQuiesce
  | trapQueueLogCopy => exact h.execTrapQueueLogCopy
  | framePoolRefill => exact h.execFramePoolRefill
  -- Grid.lean
  | workgroupEvict => exact h.execWorkgroupEvict
  | groupEvict => exact h.execGroupEvict
  | contextRestore => exact h.execContextRestore
  | rootlaunch => exact h.execRootlaunch
  | rootlaunchProcess => exact h.execRootlaunchProcess
  | rootctlClearDrop => exact h.execRootctlClearDrop
  -- HostRegs.lean
  | dutyselWrite => exact h.execDutyselWrite
  | invctlPage => exact h.execInvctlPage
  | invctlRange => exact h.execInvctlRange
  | invctlVf => exact h.execInvctlVf
  | invctlComplete => exact h.execInvctlComplete
  | fwctlWrite => exact h.execFwctlWrite
  | formatWindowChangeDone => exact h.execFormatWindowChangeDone
  -- Service.lean
  | tqresp => exact h.execTqresp
  | fpgrow => exact h.execFpgrow
  -- HostRegs.lean
  | pwrctlWrite => exact h.execPwrctlWrite
  | tokcapWrite => exact h.execTokcapWrite
  | tokrateWrite => exact h.execTokrateWrite
  | registerWrite => exact h.execRegisterWrite
  -- Boot.lean
  | mailboxImage => exact h.execMailboxImage
  | mailboxQuote => exact h.execMailboxQuote
  | mailboxKeyset => exact h.execMailboxKeyset
  | mailboxUnknownCommand => exact h.execMailboxUnknownCommand
  | moduleReset => exact h.execModuleReset
  -- Service.lean
  | functionLevelReset => exact h.execFunctionLevelReset
  -- Boot.lean
  | objectLoad => exact h.execObjectLoad
  -- HostRegs.lean
  | thermalThrottle => exact h.execThermalThrottle
  | thermalShutdown => exact h.execThermalShutdown
  -- Home.lean
  | linkDown => exact h.execLinkDown
  | registerParityError => exact h.execRegisterParityError
  | hostCxlCacheSnoop => exact h.execHostCxlCacheSnoop
  -- HostRegs.lean
  | thermalThrottleEnd => exact h.execThermalThrottleEnd
  -- Boot.lean
  | powerFail => exact h.execPowerFail
  | objectUnload => exact h.execObjectUnload

/-! ## Words that are no instruction, and the agenda (Machine/Fetch.lean) -/

theorem State.Canonical.badWord {d : Decoded} (h : s.Canonical) : (s.badWord i d).Canonical := by
  unfold State.badWord
  dsimp only
  split
  · exact h.rejectWord
  · exact h.rejectWord
  · split
    · exact .rejectWord (.ite h.countD2 h)
    · exact .rejectWord (.ite h.countD2 h)
  · exact h
theorem State.Canonical.takeHappening {n : Happening} (h : s.Canonical) (e : s.takeHappening = some (n, t)) : t.Canonical := by
  unfold State.takeHappening at e
  split at e
  · split at e <;> cases e
    exact h
  · dsimp only at e
    split at e <;> cases e
    exact h

/-! ## The step (Machine/Step.lean) -/

theorem State.Canonical.step (h : s.Canonical) : Out.Canonical (Machine.step s) := by
  unfold Machine.step
  split
  · next e =>
    have ht := h.takeHappening e
    split
    · exact ht.exec _
    · exact .next ht
  · split
    · exact .fault
    · have hi := h.exec .issueCycle
      split
      · next e =>
        have ht := hi _ e
        split
        · exact .next ht
        · split
          · exact ht.exec _
          · exact .next ht.badWord
          · exact .next ht
      · exact hi
/-- Settles O57: no instruction and no happening takes memory out of its canonical form, for each writes it by the memory's own writes, which keep it. -/
theorem memoryStaysCanonical : Obligations.MemoryStaysCanonical := fun _ t h e => State.Canonical.step h t e
end
end Sys2Proof.Machine
end
